-- ==== Sys2Proof/Word.lean ====
section
/-! DEFINITION. The words of CORE: bytes, 32-bit registers, the 72-bit command word, and the widths of a token
(spec/00_scope.md R7, R9; spec/30_encoding.md R90, R92, R100). Everything is unsigned (R7). -/

namespace Sys2Proof

/-- One byte of a buffer (R9). -/
abbrev Byte := BitVec 8

/-- A register, operand or result of 32 bits (R9, R22, R23). -/
abbrev Word := BitVec 32

/-- A command word: op [71:64], a0 [63:32], a1 [31:0] (R90). -/
abbrev CommandWord := BitVec 72

/-- A decoded symbol index (R9, R100). -/
abbrev SymbolIndex := BitVec 9

/-- The distance residual of a match token (R101, R102). -/
abbrev Residual := BitVec 12

end Sys2Proof
end

