-- ==== Sys2Proof/Config.lean ====
section
/-! DEFINITION. The constants of CORE with the values of spec/00_scope.md R6, and the model's free values.
MAX_INPUT_LEN, which R6 and spec/92_eei_decisions.md D21 leave open as an argument of the model, is the field
maxInputLen of State (notes/assumptions/7.md); its default stands here. -/

namespace Sys2Proof.Config

/-- FORMAT_TAG, the magic/version byte (R6, R93). -/
def formatTag : Nat := 0x01
/-- SYM_EOS (R6, R100). -/
def symEos : Nat := 256
/-- SYM_MATCH0 (R6, R100). -/
def symMatch0 : Nat := 257
/-- MIN_MATCH (R6). -/
def minMatch : Nat := 3
/-- MAX_MATCH (R6). -/
def maxMatch : Nat := 18
/-- NSYM = 257 + NLEN (R6). -/
abbrev nsym : Nat := 273
/-- NNODE = 2*NSYM - 1 (R6, R35). -/
abbrev nnode : Nat := 545
/-- ROOT = NNODE - 1 (R6, R35). -/
abbrev root : Nat := 544
/-- NONE, the "no node" index (R6, R35). -/
def noNode : BitVec 10 := 0x3FF#10
/-- WINDOW_BITS, the width of the distance residual (R6, R101). -/
def windowBits : Nat := 12
/-- WINDOW_CAP = 2^WINDOW_BITS (R6, R34). -/
abbrev windowCap : Nat := 4096
/-- INIT_COUNT (R6, R154). -/
def initCount : Nat := 1
/-- RESCALE_LIMIT (R6, R152). -/
def rescaleLimit : Nat := 4096
/-- The default of MAX_INPUT_LEN (R6, D21). -/
def maxInputLenDefault : Word := 0xFFFFFFFF#32

/-- FREE VALUE (notes/assumptions/5.md): the byte CORE reads at an address of IBUF where the host has placed nothing.
No host that keeps its duties (60_exceptions R262) lets this happen. DESIGN CHOICE, safe: nothing can be proved of it. -/
opaque anyInputByte : Nat → Byte

/-- FREE VALUE (notes/assumptions/5.md): the byte read at a slot of WIN that holds no value. By 10_state R34 no
accepted command reads one in a state a session can reach. DESIGN CHOICE, safe: nothing can be proved of it. -/
opaque anyWindowByte : Nat → Byte

end Sys2Proof.Config
end

