-- ==== Sys2Proof/Machine/State.lean ====
section
/-! DEFINITION. The state of CORE as plain data (spec/10_state.md R20 to R45), the reasons a step can stop, and the
state after reset (R43, spec/70_reset_and_hazards.md R280). -/

namespace Sys2Proof.Machine

/-- The direction of a session: DIR = 0 is ENC, DIR = 1 is DEC (R21). -/
inductive Dir where
  | enc
  | dec
  deriving DecidableEq, Repr

/-- The six typed failures (60_exceptions R240). -/
inductive Failure where
  | allocationFailure
  | inputTooLarge
  | limitExceeded
  | unexpectedEndOfStream
  | malformedHeader
  | invalidSymbol
  deriving DecidableEq, Repr

/-- The response codes that are produced (30_encoding R92); 7..14 never are (93 U10). -/
inductive Rsp where
  | ok
  | failed (k : Failure)
  | rejected
  deriving DecidableEq, Repr

/-- A response: rsp, r0, r1 (R92, 10_state R23). -/
structure Response where
  rsp : Rsp
  r0 : Word
  r1 : Word
  deriving DecidableEq, Repr

/-- One entry of the node memory (R35). -/
structure Node where
  cnt : BitVec 16
  par : BitVec 10
  left : BitVec 10
  right : BitVec 10
  deriving DecidableEq, Repr

/-- The node memory, entries 0..544 (R35). -/
abbrev NodeMemory := Vector Node Config.nnode

/-- A byte space: the bytes that hold a value, addresses strictly rising; an unlisted address holds no value
(R25, R34, R44). -/
abbrev Memory := List Host.Cell

/-- The canonical form of a memory. -/
abbrev Memory.wf (m : Memory) : Prop := m.Pairwise (fun x y => x.1 < y.1)

/-- A session (R21): every register and memory of R24 to R35. It exists exactly while VALID = 1, and nothing of it
has a value otherwise (R21, R43, R44; notes/assumptions/3.md). -/
structure Session where
  /-- DIR (R21) -/
  dir : Dir
  /-- ILEN, OCAP (R24) -/
  ilen : Word
  ocap : Word
  /-- OLEN (R25) -/
  olen : Word
  /-- WACC, WNB (R26) -/
  wacc : Byte
  wnb : BitVec 3
  /-- RBYTE, RBIT, the read cursor (R30) -/
  rbyte : Word
  rbit : BitVec 3
  /-- IPOS (R31) -/
  ipos : Word
  /-- WPOS (R33) -/
  wpos : Word
  /-- WIN, by ring slot (R34) -/
  win : Memory
  /-- the node memory (R35) -/
  nodes : NodeMemory
  /-- L, the declared length, while SEQ is inside the token loop of DECOMPRESS (43_sequencer R215: a temporary of the
  command, no register; notes/assumptions/8.md). -/
  declared : Option Word
  deriving DecidableEq, Repr

/-- What the host does next at its side of the port (60_exceptions R262, 70_reset R281; notes/assumptions/1.md). -/
inductive HostEvent where
  /-- issues a command (30_encoding R90) -/
  | command (w : CommandWord)
  /-- places one byte of IBUF between commands (R262, 20_memory R70 (d), R73) -/
  | place (addr : Word) (byte : Byte)
  /-- resets the block between two commands (R280, R281) -/
  | reset
  deriving DecidableEq, Repr

/-- The whole state. -/
structure State where
  /-- the session: present exactly when VALID = 1 (R21) -/
  session : Option Session
  /-- IBUF, the host's (R40, 20_memory R66) -/
  ibuf : Memory
  /-- OBUF (R25, R40): outlives the session on RELEASE and at the end of a macro command (R203, D31) -/
  obuf : Memory
  /-- MAX_INPUT_LEN, the argument of the model (00_scope R6, D21; notes/assumptions/7.md) -/
  maxInputLen : Word
  /-- the host's acts still to come, in order (notes/assumptions/1.md) -/
  port : List HostEvent
  /-- the response of the last command; none before the first and inside DECOMPRESS (notes/assumptions/2.md) -/
  resp : Option Response
  deriving DecidableEq, Repr

/-- Why the machine stops. -/
inductive Fault where
  /-- Raised by ENCODE and COMPRESS (through Code, 41_huffman R150) when the way from a leaf up to ROOT leaves the
  node range or never ends: only in a node memory that violates 10_state R37, which no rule allows. Code has no exit
  there, so the machine is stuck. Safe (notes/assumptions/12.md). -/
  | nodeWalkStuck
  deriving DecidableEq, Repr

/-- Why an instruction is refused. -/
inductive Refusal where
  /-- An arm of exec whose instruction has no meaning yet; safe. No arm is left. -/
  | notModelled (mnemonic : String)
  deriving DecidableEq, Repr

/-- The outcome of a step. -/
abbrev Out := Host.Outcome State Fault Refusal

/-- What a running command works on: the session and OBUF; IBUF it only reads (20_memory R73). -/
structure Work where
  ses : Session
  obuf : Memory
  deriving DecidableEq, Repr

/-- The end of a unit operation: its result, a `raise` (00_scope R8), or stuck. -/
inductive Res (α : Type) where
  | done (a : α) (w : Work)
  | raise (k : Failure)
  | stuck (f : Fault)
  deriving Repr

/-- Reset (R43, R280): no session (VALID = 0, DIR = 0), no byte of OBUF holds a value; the host has placed nothing and
asked nothing (notes/assumptions/1.md, 2.md, 6.md); MAX_INPUT_LEN at its default (D21). -/
def State.reset : State where
  session := none
  ibuf := []
  obuf := []
  maxInputLen := Config.maxInputLenDefault
  port := []
  resp := none

end Sys2Proof.Machine
end

