-- ==== Sys2Proof/Machine/Ops.lean ====
section
/-! DEFINITION. The shared operations: byte spaces (spec/20_memory.md), the views of registers that R21, R33 and R205
give, answering, Rejected (60_exceptions R255) and Fail (R250), which is the whole of taking an exception on CORE;
there is no return from one (R252). -/

namespace Sys2Proof.Machine

/-! ### Byte spaces -/

/-- The byte an address holds, if it holds one (R25, R34, R44). -/
def memLookup : Memory → Nat → Option Byte
  | [], _ => none
  | (b, v) :: rest, a => if a = b then some v else memLookup rest a

/-- Store one byte, keeping the canonical form (MemWrite, 00_scope R8). -/
def memWrite : Memory → Nat → Byte → Memory
  | [], a, v => [(a, v)]
  | (b, u) :: rest, a, v =>
    if a < b then (a, v) :: (b, u) :: rest
    else if a = b then (a, v) :: rest
    else (b, u) :: memWrite rest a v

/-- CORE's read of one byte of IBUF (MemRead, 00_scope R8). -/
def ibufByte (ibuf : Memory) (a : Nat) : Byte := (memLookup ibuf a).getD (Config.anyInputByte a)

/-- CORE's read of one ring slot of WIN (10_state R34). -/
def windowByte (win : Memory) (slot : Nat) : Byte := (memLookup win slot).getD (Config.anyWindowByte slot)

/-- The bit of a stream at bitpos p: byte p div 8, bit 7 - (p mod 8) (20_memory R60). -/
def ibufBit (ibuf : Memory) (p : Nat) : Bool := (ibufByte ibuf (p / 8)).getLsbD (7 - p % 8)

/-- The n bits of IBUF from bitpos p on, in stream order (00_scope R10). -/
def ibufBits (ibuf : Memory) (p n : Nat) : List Bool := (List.range n).map (fun i => ibufBit ibuf (p + i))

/-- A list of bits read as a number, the first bit the most significant (20_memory R61). -/
def bitsToNat (bits : List Bool) : Nat := bits.foldl (fun v b => 2 * v + b.toNat) 0

/-- The n low bits of a value, the most significant of them first (20_memory R61). -/
def lowBits (n : Nat) (v : Word) : List Bool := (List.range n).map (fun i => v.getLsbD (n - 1 - i))

/-- Bytes of a list of bits, the last padded with zero bits (R60, 40_bitstream R132). -/
def packBits (bits : List Bool) : List Byte :=
  (List.range ((bits.length + 7) / 8)).map fun j =>
    BitVec.ofNat 8 (bitsToNat ((List.range 8).map fun i => bits.getD (8 * j + i) false))

/-- Store bytes at consecutive addresses. -/
def placeBytes : List Byte → Nat → Memory → Memory
  | [], _, m => m
  | b :: rest, a, m => placeBytes rest (a + 1) (memWrite m a b)

/-! ### Views of the session -/

/-- fill = min(WPOS, WINDOW_CAP) (R33). -/
def fill (ses : Session) : Nat := min ses.wpos.toNat Config.windowCap

/-- VALID (R21). -/
def State.valid (s : State) : Bool := s.session.isSome

/-- DIR, which reads 0 whenever VALID = 0 (R21). -/
def State.dirBit (s : State) : Bool :=
  match s.session with
  | some ses => ses.dir == .dec
  | none => false

/-- bitpos of the write cursor, 8*OLEN + WNB (10_state R27). -/
def writePos (ses : Session) : Nat := 8 * ses.olen.toNat + ses.wnb.toNat

/-- bitpos of the read cursor, 8*RBYTE + RBIT (10_state R30). -/
def readPos (ses : Session) : Nat := 8 * ses.rbyte.toNat + ses.rbit.toNat

/-! ### Sequencing of unit operations -/

/-- Go on with the result, or end with the raise: nothing after a raise runs (00_scope R8). -/
def Res.bind {α β : Type} (r : Res α) (next : α → Work → Res β) : Res β :=
  match r with
  | .done a w => next a w
  | .raise k => .raise k
  | .stuck f => .stuck f

/-! ### Answering -/

/-- The response OK with its two results (R23, R92). -/
def answer (r0 r1 : Word) (s : State) : State := { s with resp := some ⟨.ok, r0, r1⟩ }

/-- Rejected: no register, no memory, no session state changes (R255). -/
def reject (s : State) : State := { s with resp := some ⟨.rejected, 0, 0⟩ }

/-- Fail(K): the session is released, r0 = r1 = 0, and from here on neither the session's state nor any byte of OBUF
holds a value (R250, R251). -/
def fail (k : Failure) (s : State) : State :=
  { s with session := none, obuf := [], resp := some ⟨.failed k, 0, 0⟩ }

/-- The end of a unit command: its results and effects, or its failure. -/
def settle (r : Res (Word × Word)) (s : State) : Out :=
  match r with
  | .done out w => .next { s with session := some w.ses, obuf := w.obuf, resp := some ⟨.ok, out.1, out.2⟩ }
  | .raise k => .next (fail k s)
  | .stuck f => .fault f

/-- The end of a macro command: the session is released, r0 is the result, OBUF keeps its bytes
(R210, R215, D31). -/
def settleMacro (r : Res Word) (s : State) : Out :=
  match r with
  | .done n w => .next { s with session := none, obuf := w.obuf, resp := some ⟨.ok, n, 0⟩ }
  | .raise k => .next (fail k s)
  | .stuck f => .fault f

/-- The end of an operation inside a macro command: no response yet, or the failure of the macro (R250). -/
def keepGoing (r : Res Unit) (s : State) : Out :=
  match r with
  | .done _ w => .next { s with session := some w.ses, obuf := w.obuf }
  | .raise k => .next (fail k s)
  | .stuck f => .fault f

/-- Legality (43_sequencer R206): the command runs in a session of its direction, else it is Rejected. -/
def inSession (d : Dir) (s : State) (run : Work → Out) : Out :=
  match s.session with
  | some ses => if ses.dir = d then run ⟨ses, s.obuf⟩ else .next (reject s)
  | none => .next (reject s)

/-- Reset between two commands (R280, R281): no session, no byte of OBUF may be used; IBUF is the host's. -/
def resetBlock (s : State) : State := { s with session := none, obuf := [], resp := none }

/-- The host places one byte of IBUF (R262, 20_memory R70 (d) and R73). -/
def placeByte (addr : Word) (byte : Byte) (s : State) : State :=
  { s with ibuf := memWrite s.ibuf addr.toNat byte }

end Sys2Proof.Machine
end

