-- ==== Sys2Proof/Machine/Operands.lean ====
section
/-! DEFINITION. The operand ranges that are tested when a command runs (spec/30_encoding.md R98), and the registers an
operand of RDREG names (spec/10_state.md R39, 43_sequencer R205). Used operands are compared whole, as 32-bit unsigned
numbers (R98); CORE has no other operand forms (R90). -/

namespace Sys2Proof.Machine

/-- WRBITS and RDBITS: a count of 0..32 (R98). -/
def countInRange (count : Word) : Bool := decide (count.toNat ≤ 32)

/-- ADVANCE: no more than the rest of the input (R98, 42_matcher R182). -/
def advanceInRange (ses : Session) (n : Word) : Bool := decide (n.toNat ≤ ses.ilen.toNat - ses.ipos.toNat)

/-- COPY: a distance inside the window and the length of a match (R98, 42_matcher R185). -/
def copyInRange (ses : Session) (dist len : Nat) : Bool :=
  decide (1 ≤ dist) && decide (dist ≤ fill ses) && decide (Config.minMatch ≤ len) && decide (len ≤ Config.maxMatch)

/-- STATE: VALID in bit 0, DIR in bit 1 (R39). -/
def stateRegister (s : State) : Word :=
  BitVec.ofNat 32 (s.valid.toNat + 2 * s.dirBit.toNat)

/-- The second result of RDREG NODE[n]: 00, PAR, LEFT, RIGHT (R39, R205). -/
def nodeWord (n : Node) : Word := 0#2 ++ n.par ++ n.left ++ n.right

/-- A register of the session by number, or none where RDREG is rejected (R39, R205). -/
def sessionRegister (ses : Session) (regno : Nat) : Option (Word × Word) :=
  if regno = 0x001 then some (ses.ilen, 0)
  else if regno = 0x002 then some (ses.ocap, 0)
  else if regno = 0x003 then some (ses.olen, 0)
  else if regno = 0x004 then some (ses.wacc.setWidth 32, 0)
  else if regno = 0x005 then some (ses.wnb.setWidth 32, 0)
  else if regno = 0x006 then some (ses.rbyte, 0)
  else if regno = 0x007 then some (ses.rbit.setWidth 32, 0)
  else if regno = 0x008 then some (ses.ipos, 0)
  else if regno = 0x009 then some (ses.wpos, 0)
  else if 0x400 ≤ regno ∧ regno ≤ 0x620 then
    (ses.nodes[regno - 0x400]?).map fun n => (n.cnt.setWidth 32, nodeWord n)
  else if 0x1000 ≤ regno ∧ regno ≤ 0x1FFF ∧ regno - 0x1000 < fill ses then
    some ((windowByte ses.win (regno - 0x1000)).setWidth 32, 0)
  else none

/-- What RDREG reads: STATE always, every other register in a session (R205, R206). -/
def readRegister (s : State) (regno : Nat) : Option (Word × Word) :=
  if regno = 0x000 then some (stateRegister s, 0)
  else
    match s.session with
    | some ses => sessionRegister ses regno
    | none => none

end Sys2Proof.Machine
end

