-- ==== Sys2Proof/Machine/Bsu.lean ====
section
/-! DEFINITION. BSU, the bit-stream serializer and deserializer (spec/40_bitstream.md): WRBITS, FLUSH, RDBITS. -/

namespace Sys2Proof.Machine

/-- EmitByte (R130): store the assembled byte and clear the accumulator. -/
def emitByte (w : Work) : Res Unit :=
  if w.ses.ocap ≤ w.ses.olen then .raise .allocationFailure
  else .done ()
    { ses := { w.ses with olen := w.ses.olen + 1, wacc := 0, wnb := 0 },
      obuf := memWrite w.obuf w.ses.olen.toNat w.ses.wacc }

/-- One turn of the loop of WRBITS (R131): place a bit at position 7 - WNB; the eighth bit emits the byte. -/
def writeBit (b : Bool) (w : Work) : Res Unit :=
  let acc := w.ses.wacc ||| ((BitVec.ofBool b).setWidth 8 <<< (7 - w.ses.wnb.toNat))
  if w.ses.wnb.toNat + 1 = 8 then emitByte { w with ses := { w.ses with wacc := acc } }
  else .done () { w with ses := { w.ses with wacc := acc, wnb := w.ses.wnb + 1 } }

/-- WRBITS value, count (R131): value[count-1] first, value[0] last. -/
def writeBits : Nat → Word → Work → Res Unit
  | 0, _, w => .done () w
  | n + 1, value, w => (writeBit (value.getLsbD n) w).bind fun _ w => writeBits n value w

/-- FLUSH (R132): the partial byte goes out with its unplaced bits zero. -/
def flushBits (w : Work) : Res Unit :=
  if 0 < w.ses.wnb.toNat then emitByte w else .done () w

/-- The number of unread bits (R133). -/
def unreadBits (ses : Session) : Nat := 8 * (ses.ilen.toNat - ses.rbyte.toNat) - ses.rbit.toNat

/-- The bit at the read cursor and the cursor moved past it (R30, R133). -/
def readBit (ibuf : Memory) (ses : Session) : Bool × Session :=
  ((ibufByte ibuf ses.rbyte.toNat).getLsbD (7 - ses.rbit.toNat),
    if ses.rbit = 7 then { ses with rbit := 0, rbyte := ses.rbyte + 1 } else { ses with rbit := ses.rbit + 1 })

/-- The loop of RDBITS (R133). -/
def readLoop (ibuf : Memory) : Nat → Word → Session → Word × Session
  | 0, v, ses => (v, ses)
  | n + 1, v, ses =>
    let r := readBit ibuf ses
    readLoop ibuf n ((v <<< 1) ||| (BitVec.ofBool r.1).setWidth 32) r.2

/-- RDBITS count (R133): a request that cannot be met in full consumes nothing. -/
def readBits (ibuf : Memory) (count : Nat) (w : Work) : Res Word :=
  if unreadBits w.ses < count then .raise .unexpectedEndOfStream
  else
    let r := readLoop ibuf count 0 w.ses
    .done r.1 { w with ses := r.2 }

/-- WRBITS (R131): legality, then the count, then the loop. -/
def execWrbits (value count : Word) (s : State) : Out :=
  inSession .enc s fun w =>
    if countInRange count then settle ((writeBits count.toNat value w).bind fun _ w => .done (0, 0) w) s
    else .next (reject s)

/-- FLUSH (R132): r0 = OLEN after it. -/
def execFlush (s : State) : Out :=
  inSession .enc s fun w => settle ((flushBits w).bind fun _ w => .done (w.ses.olen, 0) w) s

/-- RDBITS (R133): r0 = the bits, first read most significant. -/
def execRdbits (count : Word) (s : State) : Out :=
  inSession .dec s fun w =>
    if countInRange count then settle ((readBits s.ibuf count.toNat w).bind fun v w => .done (v, 0) w) s
    else .next (reject s)

end Sys2Proof.Machine
end

