-- ==== Sys2Proof/Machine/Dmu.lean ====
section
/-! DEFINITION. DMU, the dictionary matcher and the sliding window (spec/42_matcher.md): FINDMATCH, ADVANCE, PUTLIT,
COPY. -/

namespace Sys2Proof.Machine

/-- AppendWin (R183): the byte goes to slot WPOS mod 4096. -/
def appendWindow (b : Byte) (ses : Session) : Session :=
  { ses with win := memWrite ses.win (ses.wpos.toNat % Config.windowCap) b, wpos := ses.wpos + 1 }

/-- Src(d, l) (R180): the byte d positions before lookahead byte l, in the window or in the lookahead itself. -/
def sourceByte (ibuf : Memory) (ses : Session) (d l : Nat) : Byte :=
  if l < d then windowByte ses.win ((ses.wpos.toNat - d + l) % Config.windowCap)
  else ibufByte ibuf (ses.ipos.toNat + l - d)

/-- The loop of MatchLen from l on, with the bytes that may still match (R180). -/
def matchFrom (ibuf : Memory) (ses : Session) (d : Nat) : Nat → Nat → Nat
  | 0, l => l
  | left + 1, l =>
    if sourceByte ibuf ses d l = ibufByte ibuf (ses.ipos.toNat + l) then matchFrom ibuf ses d left (l + 1) else l

/-- MatchLen(d) (R180), capped by MAX_MATCH and the end of the input. -/
def matchLen (ibuf : Memory) (ses : Session) (d : Nat) : Nat :=
  matchFrom ibuf ses d (min Config.maxMatch (ses.ilen.toNat - ses.ipos.toNat)) 0

/-- The loop of FINDMATCH (R181) from distance d on: a strictly greater length wins, so the nearest wins a tie. -/
def bestMatch (ibuf : Memory) (ses : Session) : Nat → Nat → Nat × Nat → Nat × Nat
  | 0, _, best => best
  | left + 1, d, best =>
    let l := matchLen ibuf ses d
    bestMatch ibuf ses left (d + 1) (if best.1 < l then (l, d) else best)

/-- FINDMATCH (R181): length and distance of the best match, or (0, 0) when it is shorter than MIN_MATCH. -/
def findMatch (ibuf : Memory) (ses : Session) : Nat × Nat :=
  let best := bestMatch ibuf ses (fill ses) 1 (0, 0)
  if Config.minMatch ≤ best.1 then best else (0, 0)

/-- The loop of ADVANCE (R182). -/
def advanceBy (ibuf : Memory) : Nat → Session → Session
  | 0, ses => ses
  | n + 1, ses =>
    let moved := appendWindow (ibufByte ibuf ses.ipos.toNat) ses
    advanceBy ibuf n { moved with ipos := moved.ipos + 1 }

/-- PUTLIT (R184): append one byte to OBUF and to the window. -/
def putByte (b : Byte) (w : Work) : Res Unit :=
  if w.ses.ocap ≤ w.ses.olen then .raise .allocationFailure
  else .done ()
    { ses := appendWindow b { w.ses with olen := w.ses.olen + 1 },
      obuf := memWrite w.obuf w.ses.olen.toNat b }

/-- The loop of COPY (R185): each step reads the byte dist back, then writes it (70_reset R286, R287). -/
def copyLoop (dist : Nat) : Nat → Work → Res Unit
  | 0, w => .done () w
  | n + 1, w =>
    (putByte (windowByte w.ses.win ((w.ses.wpos.toNat - dist) % Config.windowCap)) w).bind fun _ w =>
      copyLoop dist n w

/-- COPY dist, len (R185): LimitExceeded before any byte is copied. -/
def copyMatch (dist len : Nat) (w : Work) : Res Unit :=
  if copyInRange w.ses dist len then copyLoop dist len w else .raise .limitExceeded

/-- FINDMATCH (R181): r0 = length, r1 = distance; no state changes. -/
def execFindmatch (s : State) : Out :=
  inSession .enc s fun w =>
    let m := findMatch s.ibuf w.ses
    .next (answer (BitVec.ofNat 32 m.1) (BitVec.ofNat 32 m.2) s)

/-- ADVANCE n (R182). -/
def execAdvance (n : Word) (s : State) : Out :=
  inSession .enc s fun w =>
    if advanceInRange w.ses n then settle (.done (0, 0) { w with ses := advanceBy s.ibuf n.toNat w.ses }) s
    else .next (reject s)

/-- PUTLIT byte (R184). -/
def execPutlit (byte : Byte) (s : State) : Out :=
  inSession .dec s fun w => settle ((putByte byte w).bind fun _ w => .done (0, 0) w) s

/-- COPY dist, len (R185). -/
def execCopy (dist len : Word) (s : State) : Out :=
  inSession .dec s fun w => settle ((copyMatch dist.toNat len.toNat w).bind fun _ w => .done (0, 0) w) s

end Sys2Proof.Machine
end

