-- ==== Sys2Proof/Machine/Ahu.lean ====
section
/-! DEFINITION. AHU, the adaptive Huffman encoder and decoder (spec/41_huffman.md): the primitives Code, Build,
Update, Rescale and InitModel, and the commands ENCODE and DECODE. -/

namespace Sys2Proof.Machine

/-! ### Build (R151) -/

/-- A node without a parent: its count and its index. -/
abbrev Ranked := Nat × Nat

/-- The order of R151: the smaller count first and, among equal counts, the smaller index. -/
def ranksBefore (x y : Ranked) : Bool := Nat.blt x.1 y.1 || (Nat.beq x.1 y.1 && Nat.ble x.2 y.2)

/-- Put a node at its rank. The set A of R151 is kept as a list in rank order, so its least node is its head
(notes/assumptions/14.md). -/
def insertRanked (x : Ranked) : List Ranked → List Ranked
  | [] => [x]
  | y :: ys => bif ranksBefore x y then x :: y :: ys else y :: insertRanked x ys

/-- One step of the loop of Build: the children a and b of the new node, and its count in 16 bits. -/
structure Merge where
  left : Nat
  right : Nat
  count : Nat
  deriving DecidableEq, Repr

/-- The loop of Build (R151): take the two least, the first the LEFT child, and add node n. -/
def mergeSteps : Nat → Nat → List Ranked → List Merge
  | k + 1, n, a :: b :: rest =>
    let c := (a.1 + b.1) % 65536
    ⟨a.2, b.2, c⟩ :: mergeSteps k (n + 1) (insertRanked (c, n) rest)
  | _, _, _ => []

/-- The 272 merges of Build, from the leaf counts alone (R151). -/
def mergesOf (counts : List Nat) : List Merge :=
  mergeSteps (Config.nsym - 1) Config.nsym (counts.zipIdx.foldr insertRanked [])

/-- PAR[n]: the node whose merge took n; NONE for the root (R35, R151). -/
def parentOf (merges : List Merge) (n : Nat) : BitVec 10 :=
  match merges.findIdx? (fun m => Nat.beq m.left n || Nat.beq m.right n) with
  | some k => BitVec.ofNat 10 (Config.nsym + k)
  | none => Config.noNode

/-- Entry n of the node memory after Build: a leaf keeps its count and has no children; internal node 273 + k is the
one that merge k creates (R35, R151). -/
def builtNode (counts : List Nat) (merges : List Merge) (n : Nat) : Node :=
  if n < Config.nsym then
    { cnt := BitVec.ofNat 16 (counts.getD n 0), par := parentOf merges n,
      left := Config.noNode, right := Config.noNode }
  else
    match merges[n - Config.nsym]? with
    | some m =>
      { cnt := BitVec.ofNat 16 m.count, par := parentOf merges n,
        left := BitVec.ofNat 10 m.left, right := BitVec.ofNat 10 m.right }
    | none => { cnt := 0, par := parentOf merges n, left := Config.noNode, right := Config.noNode }

/-- Build (R151): the whole node memory as a function of the 273 leaf counts. -/
def build (counts : List Nat) : NodeMemory :=
  let merges := mergesOf counts
  ⟨⟨(List.range Config.nnode).map (builtNode counts merges)⟩, by simp⟩

/-- CNT[0..272] (R35). -/
def leafCounts (nodes : NodeMemory) : List Nat :=
  (nodes.toArray.toList.take Config.nsym).map (fun n => n.cnt.toNat)

/-- InitModel (R154): every leaf count INIT_COUNT, then Build. -/
def initModel : NodeMemory := build (List.replicate Config.nsym Config.initCount)

/-! ### Update (R152, R153) -/

/-- Rescale (R153): halve every leaf count, rounding up. -/
def rescale (counts : List Nat) : List Nat := counts.map fun c => (c + 1) / 2

/-- The leaf counts after symbol sym: increment, and rescale when the total reaches RESCALE_LIMIT (R152). -/
def updatedCounts (sym : Nat) (counts : List Nat) : List Nat :=
  let bumped := counts.modify sym fun c => (c + 1) % 65536
  if Config.rescaleLimit ≤ bumped.sum then rescale bumped else bumped

/-- Update (R152): the counts, then Build. -/
def update (sym : Nat) (nodes : NodeMemory) : NodeMemory := build (updatedCounts sym (leafCounts nodes))

/-! ### Code (R150) -/

/-- The loop of Code from node n upward, prepending a bit per step. A way to ROOT visits each of the 545 nodes at most
once, so the fuel only ends a loop that R150 would run for ever; then, and where an index is no node, the answer is
none: R150 gives the loop no exit there (notes/assumptions/12.md). -/
def codeFrom (nodes : NodeMemory) : Nat → Nat → List Bool → Option (List Bool)
  | 0, n, bits => if n = Config.root then some bits else none
  | fuel + 1, n, bits =>
    if n = Config.root then some bits
    else
      match nodes[n]? with
      | none => none
      | some node =>
        match nodes[node.par.toNat]? with
        | none => none
        | some parent => codeFrom nodes fuel node.par.toNat (Nat.beq parent.right.toNat n :: bits)

/-- Code(s) (R150): the bits on the way from ROOT to leaf s, the root's first. -/
def code (nodes : NodeMemory) (sym : Nat) : Option (List Bool) := codeFrom nodes Config.nnode sym []

/-! ### ENCODE and DECODE -/

/-- Write a code bit by bit: WRBITS(bit, 1) for each (R155). -/
def writeCode : List Bool → Work → Res Unit
  | [], w => .done () w
  | b :: bits, w => (writeBit b w).bind fun _ w => writeCode bits w

/-- ENCODE (R155): the code comes from the tree before the update (70_reset R288); the result is its length. -/
def encodeSymbol (sym : Nat) (w : Work) : Res Nat :=
  if Config.nsym ≤ sym then .raise .invalidSymbol
  else
    match code w.ses.nodes sym with
    | none => .stuck .nodeWalkStuck
    | some bits =>
      (writeCode bits w).bind fun _ w =>
        .done bits.length { w with ses := { w.ses with nodes := update sym w.ses.nodes } }

/-- The walk of DECODE (R156) with the steps it may still take: 0 is LEFT, 1 is RIGHT; InvalidSymbol when the index is
no node or 272 steps have been taken. The result is the leaf and the steps left. -/
def decodeWalk (ibuf : Memory) : Nat → Nat → Work → Res (Nat × Nat)
  | 0, n, w => if n < Config.nsym then .done (n, 0) w else .raise .invalidSymbol
  | left + 1, n, w =>
    if n < Config.nsym then .done (n, left + 1) w
    else
      match w.ses.nodes[n]? with
      | none => .raise .invalidSymbol
      | some node =>
        (readBits ibuf 1 w).bind fun b w =>
          decodeWalk ibuf left (if b = 0 then node.left.toNat else node.right.toNat) w

/-- DECODE (R156): the symbol and the number of bits read; then the same update as ENCODE. -/
def decodeSymbol (ibuf : Memory) (w : Work) : Res (Nat × Nat) :=
  (decodeWalk ibuf (Config.nsym - 1) Config.root w).bind fun r w =>
    .done (r.1, Config.nsym - 1 - r.2) { w with ses := { w.ses with nodes := update r.1 w.ses.nodes } }

/-- ENCODE (R155): r0 = code length. -/
def execEncode (sym : Word) (s : State) : Out :=
  inSession .enc s fun w =>
    settle ((encodeSymbol sym.toNat w).bind fun len w => .done (BitVec.ofNat 32 len, 0) w) s

/-- DECODE (R156): r0 = symbol, r1 = bits read. -/
def execDecode (s : State) : Out :=
  inSession .dec s fun w =>
    settle ((decodeSymbol s.ibuf w).bind fun r w => .done (BitVec.ofNat 32 r.1, BitVec.ofNat 32 r.2) w) s

end Sys2Proof.Machine
end

