-- ==== Sys2Proof/Machine/Seq.lean ====
section
/-! DEFINITION. SEQ, the session commands (spec/43_sequencer.md section 1): NOP, INITE, INITD, RELEASE, RDREG. -/

namespace Sys2Proof.Machine

/-- InitSession (R204): the registers a session starts from (10_state R43, right-hand column). -/
def initSession (dir : Dir) (ilen ocap : Word) : Session where
  dir := dir
  ilen := ilen
  ocap := ocap
  olen := 0
  wacc := 0
  wnb := 0
  rbyte := 0
  rbit := 0
  ipos := 0
  wpos := 0
  win := []
  nodes := initModel
  declared := none

/-- InitSession as what a macro command starts to work on: OBUF holds no value (R204). -/
def freshWork (dir : Dir) (ilen ocap : Word) : Work := ⟨initSession dir ilen ocap, []⟩

/-- Open a session; an existing one is discarded without trace (R204). -/
def openSession (dir : Dir) (ilen ocap : Word) (s : State) : State :=
  { s with session := some (initSession dir ilen ocap), obuf := [] }

/-- NOP (R200). -/
def execNop (s : State) : Out := .next (answer 0 0 s)

/-- INITE ilen, ocap (R201). -/
def execInite (ilen ocap : Word) (s : State) : Out := .next (answer 0 0 (openSession .enc ilen ocap s))

/-- INITD ilen, ocap (R202). -/
def execInitd (ilen ocap : Word) (s : State) : Out := .next (answer 0 0 (openSession .dec ilen ocap s))

/-- RELEASE (R203): OBUF keeps its bytes; bits still in WACC are lost. -/
def execRelease (s : State) : Out := .next (answer 0 0 { s with session := none })

/-- RDREG regno (R205). -/
def execRdreg (regno : Word) (s : State) : Out :=
  match readRegister s regno.toNat with
  | some r => .next (answer r.1 r.2 s)
  | none => .next (reject s)

end Sys2Proof.Machine
end

