-- ==== Sys2Proof/Machine/Token.lean ====
section
/-! DEFINITION. The tokens of the wire format on the decompressing side (spec/43_sequencer.md R215, R217): fetching one
at the read cursor, and the effect of each. A token runs inside the loop of DECOMPRESS, where the declared length L is
present and no response is given until the loop ends. In a DEC session outside the macro a token is the unit command
it stands for (30_encoding R110, R217, R220), with that command's response (notes/assumptions/9.md). -/

namespace Sys2Proof.Machine

/-- Fetch a token (R215, R103): DECODE, then the 12 residual bits of a match symbol (70_reset R290). -/
def fetchToken (ibuf : Memory) (w : Work) : Res (Nat × Option Residual) :=
  (decodeSymbol ibuf w).bind fun r w =>
    if r.1 ≤ Config.symEos then .done (r.1, none) w
    else (readBits ibuf Config.windowBits w).bind fun v w => .done (r.1, some (v.setWidth 12)) w

/-- LIT b (R215, R217): one byte more than declared is MalformedHeader; else PUTLIT b. -/
def tokenLit (b : Byte) (s : State) : Out :=
  inSession .dec s fun w =>
    match w.ses.declared with
    | none => settle ((putByte b w).bind fun _ w => .done (0, 0) w) s
    | some total =>
      if w.ses.olen = total then .next (fail .malformedHeader s) else keepGoing (putByte b w) s

/-- MATCH dist, len with dist = residual + 1 (R102, R215, R217): the distance is tested before the room under L. -/
def tokenMatch (len : Nat) (residual : Residual) (s : State) : Out :=
  inSession .dec s fun w =>
    let dist := residual.toNat + 1
    match w.ses.declared with
    | none => settle ((copyMatch dist len w).bind fun _ w => .done (0, 0) w) s
    | some total =>
      if fill w.ses < dist then .next (fail .limitExceeded s)
      else if total.toNat < w.ses.olen.toNat + len then .next (fail .malformedHeader s)
      else keepGoing (copyMatch dist len w) s

/-- EOS (R215, R217): the loop ends; early, it is MalformedHeader; else the session is released and r0 = OLEN. -/
def tokenEos (s : State) : Out :=
  inSession .dec s fun w =>
    match w.ses.declared with
    | none => .next (answer 0 0 s)
    | some total =>
      if w.ses.olen = total then settleMacro (.done w.ses.olen w) s else .next (fail .malformedHeader s)

/-- Token LIT b. -/
def execLit (b : Byte) (s : State) : Out := tokenLit b s
/-- Token EOS. -/
def execEos (s : State) : Out := tokenEos s
/-- Token MATCH dist, 3. -/
def execMatchL3 (r : Residual) (s : State) : Out := tokenMatch 3 r s
/-- Token MATCH dist, 4. -/
def execMatchL4 (r : Residual) (s : State) : Out := tokenMatch 4 r s
/-- Token MATCH dist, 5. -/
def execMatchL5 (r : Residual) (s : State) : Out := tokenMatch 5 r s
/-- Token MATCH dist, 6. -/
def execMatchL6 (r : Residual) (s : State) : Out := tokenMatch 6 r s
/-- Token MATCH dist, 7. -/
def execMatchL7 (r : Residual) (s : State) : Out := tokenMatch 7 r s
/-- Token MATCH dist, 8. -/
def execMatchL8 (r : Residual) (s : State) : Out := tokenMatch 8 r s
/-- Token MATCH dist, 9. -/
def execMatchL9 (r : Residual) (s : State) : Out := tokenMatch 9 r s
/-- Token MATCH dist, 10. -/
def execMatchL10 (r : Residual) (s : State) : Out := tokenMatch 10 r s
/-- Token MATCH dist, 11. -/
def execMatchL11 (r : Residual) (s : State) : Out := tokenMatch 11 r s
/-- Token MATCH dist, 12. -/
def execMatchL12 (r : Residual) (s : State) : Out := tokenMatch 12 r s
/-- Token MATCH dist, 13. -/
def execMatchL13 (r : Residual) (s : State) : Out := tokenMatch 13 r s
/-- Token MATCH dist, 14. -/
def execMatchL14 (r : Residual) (s : State) : Out := tokenMatch 14 r s
/-- Token MATCH dist, 15. -/
def execMatchL15 (r : Residual) (s : State) : Out := tokenMatch 15 r s
/-- Token MATCH dist, 16. -/
def execMatchL16 (r : Residual) (s : State) : Out := tokenMatch 16 r s
/-- Token MATCH dist, 17. -/
def execMatchL17 (r : Residual) (s : State) : Out := tokenMatch 17 r s
/-- Token MATCH dist, 18. -/
def execMatchL18 (r : Residual) (s : State) : Out := tokenMatch 18 r s

end Sys2Proof.Machine
end

