-- ==== Sys2Proof/Machine/Macro.lean ====
section
/-! DEFINITION. The two macro commands of SEQ (spec/43_sequencer.md sections 2 and 3): COMPRESS and DECOMPRESS. -/

namespace Sys2Proof.Machine

/-! ### COMPRESS (R210) -/

/-- One turn of the loop: search, the token's bits, then ADVANCE (70_reset R289, R290). -/
def compressToken (ibuf : Memory) (w : Work) : Res Unit :=
  let m := findMatch ibuf w.ses
  if m.1 ≠ 0 then
    (encodeSymbol (254 + m.1) w).bind fun _ w =>
      (writeBits Config.windowBits (BitVec.ofNat 32 (m.2 - 1)) w).bind fun _ w =>
        .done () { w with ses := advanceBy ibuf m.1 w.ses }
  else
    (encodeSymbol (ibufByte ibuf w.ses.ipos.toNat).toNat w).bind fun _ w =>
      .done () { w with ses := advanceBy ibuf 1 w.ses }

/-- The loop `while IPOS < ILEN`. Every turn advances IPOS, so ILEN turns are enough (R231;
notes/assumptions/13.md). -/
def compressLoop (ibuf : Memory) : Nat → Work → Res Unit
  | 0, w => .done () w
  | turns + 1, w =>
    if w.ses.ipos < w.ses.ilen then (compressToken ibuf w).bind fun _ w => compressLoop ibuf turns w
    else .done () w

/-- The header (30_encoding R93, R94): the tag, then the length. -/
def writeHeader (w : Work) : Res Unit :=
  (writeBits 8 (BitVec.ofNat 32 Config.formatTag) w).bind fun _ w => writeBits 32 w.ses.ilen w

/-- COMPRESS after its first test: header, tokens, EOS, flush; the result is OLEN. -/
def compressAll (ibuf : Memory) (w : Work) : Res Word :=
  (writeHeader w).bind fun _ w =>
    (compressLoop ibuf w.ses.ilen.toNat w).bind fun _ w =>
      (encodeSymbol Config.symEos w).bind fun _ w =>
        (flushBits w).bind fun _ w => .done w.ses.olen w

/-- COMPRESS ilen, ocap (R210). -/
def execCompress (ilen ocap : Word) (s : State) : Out :=
  if s.maxInputLen < ilen then .next (fail .inputTooLarge s)
  else settleMacro (compressAll s.ibuf (freshWork .enc ilen ocap)) s

/-! ### DECOMPRESS (R215) -/

/-- The header, checks (1) to (5) of R216; with it SEQ enters the token loop. -/
def readHeader (ibuf : Memory) (maxLen : Word) (w : Work) : Res Unit :=
  (readBits ibuf 8 w).bind fun tag w =>
    if tag.toNat ≠ Config.formatTag then .raise .malformedHeader
    else
      (readBits ibuf 32 w).bind fun total w =>
        if maxLen < total then .raise .malformedHeader
        else if w.ses.ocap < total then .raise .allocationFailure
        else .done () { w with ses := { w.ses with declared := some total } }

/-- Run a fetched token (R215): its symbol decides. -/
def runToken (t : Nat × Option Residual) (s : State) : Out :=
  if t.1 ≤ 255 then tokenLit (BitVec.ofNat 8 t.1) s
  else if t.1 = Config.symEos then tokenEos s
  else tokenMatch (t.1 - 254) (t.2.getD 0) s

/-- One turn of the token loop of DECOMPRESS: fetch a token at the read cursor and run it. -/
def tokenStep (s : State) : Out :=
  match s.session with
  | none => .next (reject s)
  | some ses =>
    match fetchToken s.ibuf ⟨ses, s.obuf⟩ with
    | .done t w => runToken t { s with session := some w.ses, obuf := w.obuf }
    | .raise k => .next (fail k s)
    | .stuck f => .fault f

/-- Whether SEQ is inside the token loop of DECOMPRESS. -/
def State.inTokenLoop (s : State) : Bool :=
  match s.session with
  | some ses => ses.declared.isSome
  | none => false

/-- The token loop. Every turn that goes on reads at least one bit, so one turn more than there are bits is enough
(R231, R292; notes/assumptions/13.md). -/
def tokenLoop : Nat → State → Out
  | 0, s => .next s
  | turns + 1, s =>
    if s.inTokenLoop then
      match tokenStep s with
      | .next t => tokenLoop turns t
      | .fault f => .fault f
      | .refused r => .refused r
    else .next s

/-- DECOMPRESS ilen, ocap (R215): open, read the header, run the tokens to the end. -/
def execDecompress (ilen ocap : Word) (s : State) : Out :=
  match readHeader s.ibuf s.maxInputLen (freshWork .dec ilen ocap) with
  | .done _ w =>
    tokenLoop (8 * ilen.toNat + 1) { s with session := some w.ses, obuf := w.obuf, resp := none }
  | .raise k => .next (fail k s)
  | .stuck f => .fault f

end Sys2Proof.Machine
end

