-- ==== Sys2Proof/Syntax.lean ====
section
/-! DEFINITION. The instructions of CORE: the sixteen commands of the command port (spec/30_encoding.md R91) and the
eighteen token rows of the wire format (R100, R101, R111), one constructor per row of spec/opcode_table.json.
An operand a command ignores (R96) is no field: it cannot matter to any meaning. -/

namespace Sys2Proof

/-- One constructor per row of the opcode table. -/
inductive Instr where
  /-- R200. -/
  | nop
  /-- R201. -/
  | inite (ilen ocap : Word)
  /-- R202. -/
  | initd (ilen ocap : Word)
  /-- R203. -/
  | release
  /-- R205. -/
  | rdreg (regno : Word)
  /-- R131. -/
  | wrbits (value count : Word)
  /-- R132. -/
  | flush
  /-- R133: the count stands in a1. -/
  | rdbits (count : Word)
  /-- R155. -/
  | encode (sym : Word)
  /-- R156. -/
  | decode
  /-- R181. -/
  | findmatch
  /-- R182. -/
  | advance (n : Word)
  /-- R184: only a0[7:0] is used (R96). -/
  | putlit (byte : Byte)
  /-- R185. -/
  | copy (dist len : Word)
  /-- R210. -/
  | compress (ilen ocap : Word)
  /-- R215. -/
  | decompress (ilen ocap : Word)
  /-- Token LIT b (R101, R217). -/
  | lit (byte : Byte)
  /-- Token EOS (R101, R217). -/
  | eos
  /-- Tokens MATCH dist, len with len = 3 .. 18: the symbol fixes the length, the residual is dist - 1 (R101, R102). -/
  | matchL3 (residual : Residual)
  | matchL4 (residual : Residual)
  | matchL5 (residual : Residual)
  | matchL6 (residual : Residual)
  | matchL7 (residual : Residual)
  | matchL8 (residual : Residual)
  | matchL9 (residual : Residual)
  | matchL10 (residual : Residual)
  | matchL11 (residual : Residual)
  | matchL12 (residual : Residual)
  | matchL13 (residual : Residual)
  | matchL14 (residual : Residual)
  | matchL15 (residual : Residual)
  | matchL16 (residual : Residual)
  | matchL17 (residual : Residual)
  | matchL18 (residual : Residual)
  deriving DecidableEq, Repr

end Sys2Proof
end

