-- ==== Sys2Proof/Machine/Dispatch.lean ====
section
/-! DEFINITION. One arm per instruction. -/

namespace Sys2Proof.Machine

def exec (i : Instr) (s : State) : Host.Outcome State Fault Refusal :=
  match i with
  | .nop => Sys2Proof.Machine.execNop s
  | .inite ilen ocap => Sys2Proof.Machine.execInite ilen ocap s
  | .initd ilen ocap => Sys2Proof.Machine.execInitd ilen ocap s
  | .release => Sys2Proof.Machine.execRelease s
  | .rdreg regno => Sys2Proof.Machine.execRdreg regno s
  | .wrbits value count => Sys2Proof.Machine.execWrbits value count s
  | .flush => Sys2Proof.Machine.execFlush s
  | .rdbits count => Sys2Proof.Machine.execRdbits count s
  | .encode sym => Sys2Proof.Machine.execEncode sym s
  | .decode => Sys2Proof.Machine.execDecode s
  | .findmatch => Sys2Proof.Machine.execFindmatch s
  | .advance n => Sys2Proof.Machine.execAdvance n s
  | .putlit byte => Sys2Proof.Machine.execPutlit byte s
  | .copy dist len => Sys2Proof.Machine.execCopy dist len s
  | .compress ilen ocap => Sys2Proof.Machine.execCompress ilen ocap s
  | .decompress ilen ocap => Sys2Proof.Machine.execDecompress ilen ocap s
  | .lit byte => Sys2Proof.Machine.execLit byte s
  | .eos => Sys2Proof.Machine.execEos s
  | .matchL3 r => Sys2Proof.Machine.execMatchL3 r s
  | .matchL4 r => Sys2Proof.Machine.execMatchL4 r s
  | .matchL5 r => Sys2Proof.Machine.execMatchL5 r s
  | .matchL6 r => Sys2Proof.Machine.execMatchL6 r s
  | .matchL7 r => Sys2Proof.Machine.execMatchL7 r s
  | .matchL8 r => Sys2Proof.Machine.execMatchL8 r s
  | .matchL9 r => Sys2Proof.Machine.execMatchL9 r s
  | .matchL10 r => Sys2Proof.Machine.execMatchL10 r s
  | .matchL11 r => Sys2Proof.Machine.execMatchL11 r s
  | .matchL12 r => Sys2Proof.Machine.execMatchL12 r s
  | .matchL13 r => Sys2Proof.Machine.execMatchL13 r s
  | .matchL14 r => Sys2Proof.Machine.execMatchL14 r s
  | .matchL15 r => Sys2Proof.Machine.execMatchL15 r s
  | .matchL16 r => Sys2Proof.Machine.execMatchL16 r s
  | .matchL17 r => Sys2Proof.Machine.execMatchL17 r s
  | .matchL18 r => Sys2Proof.Machine.execMatchL18 r s

end Sys2Proof.Machine
end

