-- ==== Sys2Proof/Decode.lean ====
section
/-! DEFINITION. Decoding and encoding (spec/30_encoding.md R90, R91, R95, R96, R100 to R102, R108, R111).
A command is a word of 72 bits. A token is presented as the symbol index that the tree walk gives (the table's rows
select on it, R111) and, for a match, the 12 bits that follow its code; the code bits themselves depend on the tree and
are read by 41_huffman R156 (Machine/Ahu.lean). -/

namespace Sys2Proof

/-- What stands in the command port or the token stream for one instruction. -/
inductive Encoded where
  /-- a command word (R90) -/
  | command (w : CommandWord)
  /-- a decoded symbol index, and the residual where the symbol is a match (R101) -/
  | token (sym : SymbolIndex) (residual : Option Residual)
  deriving DecidableEq, Repr

/-- Why something does not decode. -/
inductive DecodeError where
  /-- an op that is none of the sixteen (R95): answered Rejected by the step -/
  | reservedOpcode
  /-- an index 273..511, which no leaf has (R100) -/
  | notASymbol
  /-- a match symbol without its residual (R103) -/
  | missingResidual
  /-- a residual after a symbol that has none (R101) -/
  | strayResidual
  deriving DecidableEq, Repr

/-- op = word bits 71:64 (R90). -/
def commandOp (w : CommandWord) : BitVec 8 := w.extractLsb' 64 8
/-- a0 = word bits 63:32 (R90). -/
def commandA0 (w : CommandWord) : Word := w.extractLsb' 32 32
/-- a1 = word bits 31:0 (R90). -/
def commandA1 (w : CommandWord) : Word := w.extractLsb' 0 32

/-- The opcode map (R91), row by row: op, and the command with the operands it uses. -/
def opcodeMap : List (BitVec 8 × (Word → Word → Instr)) :=
  [ (0x00#8, fun _ _ => .nop),
    (0x01#8, fun a0 a1 => .inite a0 a1),
    (0x02#8, fun a0 a1 => .initd a0 a1),
    (0x03#8, fun _ _ => .release),
    (0x04#8, fun a0 _ => .rdreg a0),
    (0x10#8, fun a0 a1 => .wrbits a0 a1),
    (0x11#8, fun _ _ => .flush),
    (0x12#8, fun _ a1 => .rdbits a1),
    (0x20#8, fun a0 _ => .encode a0),
    (0x21#8, fun _ _ => .decode),
    (0x30#8, fun _ _ => .findmatch),
    (0x31#8, fun a0 _ => .advance a0),
    (0x32#8, fun a0 _ => .putlit (a0.extractLsb' 0 8)),
    (0x33#8, fun a0 a1 => .copy a0 a1),
    (0x40#8, fun a0 a1 => .compress a0 a1),
    (0x41#8, fun a0 a1 => .decompress a0 a1) ]

/-- Decode a command word (R90, R91); every other op is reserved (R95). -/
def decodeCommand (w : CommandWord) : Except DecodeError Instr :=
  match opcodeMap.find? (fun row => row.1 == commandOp w) with
  | some row => .ok (row.2 (commandA0 w) (commandA1 w))
  | none => .error .reservedOpcode

/-- The match rows of the table: symbol 257 .. 272, length symbol - 254 (R100, R102). -/
def matchMap : List (SymbolIndex × (Residual → Instr)) :=
  [ (257#9, .matchL3), (258#9, .matchL4), (259#9, .matchL5), (260#9, .matchL6),
    (261#9, .matchL7), (262#9, .matchL8), (263#9, .matchL9), (264#9, .matchL10),
    (265#9, .matchL11), (266#9, .matchL12), (267#9, .matchL13), (268#9, .matchL14),
    (269#9, .matchL15), (270#9, .matchL16), (271#9, .matchL17), (272#9, .matchL18) ]

/-- Classify a decoded symbol index (R100, R111). -/
def decodeToken (sym : SymbolIndex) (residual : Option Residual) : Except DecodeError Instr :=
  if sym.toNat ≤ 255 then
    match residual with
    | none => .ok (.lit (sym.extractLsb' 0 8))
    | some _ => .error .strayResidual
  else if sym.toNat = Config.symEos then
    match residual with
    | none => .ok .eos
    | some _ => .error .strayResidual
  else
    match matchMap.find? (fun row => row.1 == sym), residual with
    | some row, some r => .ok (row.2 r)
    | some _, none => .error .missingResidual
    | none, _ => .error .notASymbol

/-- The decoder, total on everything an instruction can stand as. -/
def decode : Encoded → Except DecodeError Instr
  | .command w => decodeCommand w
  | .token sym residual => decodeToken sym residual

/-- A command word from its three fields (R90). -/
def packCommand (op : BitVec 8) (a0 a1 : Word) : CommandWord := op ++ a0 ++ a1

/-- The encoding of each instruction, ignored operands as 0 (R96, R108); a match token as its symbol and residual
(R101, R102). -/
def encode : Instr → Encoded
  | .nop => .command (packCommand 0x00#8 0 0)
  | .inite ilen ocap => .command (packCommand 0x01#8 ilen ocap)
  | .initd ilen ocap => .command (packCommand 0x02#8 ilen ocap)
  | .release => .command (packCommand 0x03#8 0 0)
  | .rdreg regno => .command (packCommand 0x04#8 regno 0)
  | .wrbits value count => .command (packCommand 0x10#8 value count)
  | .flush => .command (packCommand 0x11#8 0 0)
  | .rdbits count => .command (packCommand 0x12#8 0 count)
  | .encode sym => .command (packCommand 0x20#8 sym 0)
  | .decode => .command (packCommand 0x21#8 0 0)
  | .findmatch => .command (packCommand 0x30#8 0 0)
  | .advance n => .command (packCommand 0x31#8 n 0)
  | .putlit byte => .command (packCommand 0x32#8 (byte.setWidth 32) 0)
  | .copy dist len => .command (packCommand 0x33#8 dist len)
  | .compress ilen ocap => .command (packCommand 0x40#8 ilen ocap)
  | .decompress ilen ocap => .command (packCommand 0x41#8 ilen ocap)
  | .lit byte => .token (byte.setWidth 9) none
  | .eos => .token 256#9 none
  | .matchL3 r => .token 257#9 (some r)
  | .matchL4 r => .token 258#9 (some r)
  | .matchL5 r => .token 259#9 (some r)
  | .matchL6 r => .token 260#9 (some r)
  | .matchL7 r => .token 261#9 (some r)
  | .matchL8 r => .token 262#9 (some r)
  | .matchL9 r => .token 263#9 (some r)
  | .matchL10 r => .token 264#9 (some r)
  | .matchL11 r => .token 265#9 (some r)
  | .matchL12 r => .token 266#9 (some r)
  | .matchL13 r => .token 267#9 (some r)
  | .matchL14 r => .token 268#9 (some r)
  | .matchL15 r => .token 269#9 (some r)
  | .matchL16 r => .token 270#9 (some r)
  | .matchL17 r => .token 271#9 (some r)
  | .matchL18 r => .token 272#9 (some r)

/-- Whether a symbol is followed by a residual (R103). -/
def symbolHasResidual (sym : SymbolIndex) : Bool :=
  decide (Config.symMatch0 ≤ sym.toNat) && decide (sym.toNat < Config.nsym)

/-- A row of spec/opcode_table.json, from its bits: 72 bits are a command word with op in [71:64]; 9 bits, or 16 in
whole bytes, are a symbol index in [8:0], a match symbol's residual being zero bits above it
(notes/assumptions/19.md). -/
def decodeTableWord (nbits w : Nat) : Option Instr :=
  if nbits = 72 then (decodeCommand (BitVec.ofNat 72 w)).toOption
  else if nbits ≤ 16 ∧ w < 512 then
    let sym : SymbolIndex := BitVec.ofNat 9 w
    (decodeToken sym (if symbolHasResidual sym then some 0 else none)).toOption
  else none

end Sys2Proof
end

