-- ==== Sys2Proof/Machine/Fetch.lean ====
section
/-! DEFINITION. Where step's next instruction comes from: the command port, or, inside DECOMPRESS, the token stream at
the read cursor (spec/00_scope.md R11, spec/10_state.md R30, spec/43_sequencer.md R231). -/

namespace Sys2Proof.Machine

/-- What step does next. -/
inductive Fetched where
  /-- run this instruction in this state -/
  | run (i : Instr) (s : State)
  /-- no instruction runs; this is the next state -/
  | settled (s : State)
  /-- the fetch of a token is stuck -/
  | stuck (f : Fault)

/-- The next token of DECOMPRESS as an instruction, the cursor past it and the model updated (R215). -/
def fetchTokenInstr (ses : Session) (s : State) : Fetched :=
  match fetchToken s.ibuf ⟨ses, s.obuf⟩ with
  | .done t w =>
    match decodeToken (BitVec.ofNat 9 t.1) t.2 with
    | .ok i => .run i { s with session := some w.ses, obuf := w.obuf }
    | .error _ => .settled (fail .invalidSymbol s)
  | .raise k => .settled (fail k s)
  | .stuck f => .stuck f

/-- The next act of the host at the port. A reserved op is answered Rejected (30_encoding R95); with nothing at the
port CORE waits (10_state R43, 70_reset R280). -/
def fetchCommand (s : State) : Fetched :=
  match s.port with
  | [] => .settled s
  | .command w :: rest =>
    match decodeCommand w with
    | .ok i => .run i { s with port := rest }
    | .error _ => .settled (reject { s with port := rest })
  | .place addr byte :: rest => .settled (placeByte addr byte { s with port := rest })
  | .reset :: rest => .settled (resetBlock { s with port := rest })

/-- Inside DECOMPRESS the token stream, else the port. -/
def fetch (s : State) : Fetched :=
  match s.session with
  | some ses => if ses.declared.isSome then fetchTokenInstr ses s else fetchCommand s
  | none => fetchCommand s

/-- A state in which the token of symbol sym, with residual 0, stands at the read cursor of DECOMPRESS: a fresh DEC
session past its header (bitpos 40), the symbol's code in the initial tree and zero bits after it in IBUF, L such that
EOS or a literal completes (notes/assumptions/10.md). -/
def placeToken (sym : Nat) (s : State) : State :=
  let ses : Session :=
    { initSession .dec 8 0xFFFFFFFF with
        rbyte := 5, declared := some (if sym = Config.symEos then 0 else 0xFFFFFFFF) }
  let bits := (code ses.nodes sym).getD []
  { s with session := some ses, obuf := [], ibuf := placeBytes (packBits (bits ++ List.replicate 12 false)) 5 s.ibuf }

/-- A state in which this command is the next at the port, outside any token loop. -/
def placeCommand (w : CommandWord) (s : State) : State :=
  { s with session := s.session.map (fun ses => { ses with declared := none }), port := .command w :: s.port }

end Sys2Proof.Machine
end

