-- ==== Sys2Proof/Machine/Step.lean ====
section
/-! DEFINITION. One step: one command, one act of the host between commands, or, inside DECOMPRESS, one token
(spec/00_scope.md R11; notes/assumptions/1.md, 8.md). -/

namespace Sys2Proof.Machine

/-- One step. -/
def step (s : State) : Host.Outcome State Fault Refusal :=
  match fetch s with
  | .run i t => exec i t
  | .settled t => .next t
  | .stuck f => .fault f

/-- s with the instruction of an opcode-table row where step fetches next: 72 bits a command at the port, fewer a
token at the read cursor of DECOMPRESS (notes/assumptions/10.md). -/
def State.withFetchWord (s : State) (nbits w : Nat) : State :=
  if nbits = 72 then placeCommand (BitVec.ofNat 72 w) s else placeToken (w % 512) s

end Sys2Proof.Machine
end

