-- ==== Sys2Proof/Machine/Flags.lean ====
section
/-! DEFINITION. CORE has no status flags and no condition codes (spec/10_state.md R38): what a processor would put in
flags is in the response of the command that produced it. Here are the response codes and the 68-bit response record
(spec/30_encoding.md R92, spec/60_exceptions.md R240). -/

namespace Sys2Proof.Machine

/-- The code of each failure kind (R240). -/
def failureCode : Failure → BitVec 4
  | .allocationFailure => 1
  | .inputTooLarge => 2
  | .limitExceeded => 3
  | .unexpectedEndOfStream => 4
  | .malformedHeader => 5
  | .invalidSymbol => 6

/-- rsp (R92): 0 OK, 1..6 the failures, 15 Rejected. -/
def rspCode : Rsp → BitVec 4
  | .ok => 0
  | .failed k => failureCode k
  | .rejected => 15

/-- The response as the host sees it: rsp [67:64], r0 [63:32], r1 [31:0] (R92). -/
def responseRecord (r : Response) : BitVec 68 := rspCode r.rsp ++ r.r0 ++ r.r1

end Sys2Proof.Machine
end

