-- ==== Sys2Proof/WellFormed.lean ====
section
/-! DEFINITION. The operand ranges of spec/30_encoding.md R91 and R98 that a command word alone decides: a command
outside them still encodes, decodes and runs, and is answered Rejected or with a failure, never OK
(spec/60_exceptions.md R245). Ranges that depend on the state (ADVANCE, the distance of COPY against fill, the length
against MAX_INPUT_LEN) are tested by the meanings. Tokens have no operand out of range: every residual is a distance
(R102). -/

namespace Sys2Proof

/-- The register numbers of 10_state R39: 0x000..0x009, 0x400..0x620, 0x1000..0x1FFF (43_sequencer R205). -/
def isRegisterNumber (regno : Nat) : Bool :=
  decide (regno ≤ 0x009) || (decide (0x400 ≤ regno) && decide (regno ≤ 0x620))
    || (decide (0x1000 ≤ regno) && decide (regno ≤ 0x1FFF))

/-- A transfer of 0..32 bits (R98, 40_bitstream R131 and R133). -/
def isBitCount (count : Nat) : Bool := decide (count ≤ 32)

/-- A symbol index that is a symbol (R98, R100). -/
def isSymbol (sym : Nat) : Bool := decide (sym < Config.nsym)

/-- A length a match can have (R98, 42_matcher R185). -/
def isMatchLength (len : Nat) : Bool := decide (Config.minMatch ≤ len) && decide (len ≤ Config.maxMatch)

/-- The operands lie in the ranges the word alone decides (R98). -/
def Instr.wellFormed : Instr → Bool
  | .rdreg regno => isRegisterNumber regno.toNat
  | .wrbits _ count => isBitCount count.toNat
  | .rdbits count => isBitCount count.toNat
  | .encode sym => isSymbol sym.toNat
  | .copy dist len => decide (1 ≤ dist.toNat) && decide (dist.toNat ≤ Config.windowCap) && isMatchLength len.toNat
  | .nop => true
  | .inite _ _ => true
  | .initd _ _ => true
  | .release => true
  | .flush => true
  | .decode => true
  | .findmatch => true
  | .advance _ => true
  | .putlit _ => true
  | .compress _ _ => true
  | .decompress _ _ => true
  | .lit _ => true
  | .eos => true
  | .matchL3 _ => true
  | .matchL4 _ => true
  | .matchL5 _ => true
  | .matchL6 _ => true
  | .matchL7 _ => true
  | .matchL8 _ => true
  | .matchL9 _ => true
  | .matchL10 _ => true
  | .matchL11 _ => true
  | .matchL12 _ => true
  | .matchL13 _ => true
  | .matchL14 _ => true
  | .matchL15 _ => true
  | .matchL16 _ => true
  | .matchL17 _ => true
  | .matchL18 _ => true

end Sys2Proof
end

