-- ==== Sys2Proof/Safety.lean ====
section
/-! DEFINITION. What a good state and a good run are, in the terms the statements use: the stream written so far, the
invariants of spec/10_state.md R25, R26, R30, R31, R34, R36, R37, R42, which commands are accepted (43_sequencer R206,
60_exceptions R245), and which responses each can give (60_exceptions R243). Nothing here is used by the machine. -/

namespace Sys2Proof.Machine

/-! ### Sessions and streams -/

/-- A session of direction ENC is open. -/
def State.encSession (s : State) (ses : Session) : Prop := s.session = some ses ∧ ses.dir = .enc

/-- A session of direction DEC is open. -/
def State.decSession (s : State) (ses : Session) : Prop := s.session = some ses ∧ ses.dir = .dec

/-- No session of this direction is open: VALID = 0 or the other direction (R206). -/
def State.lacks (s : State) (d : Dir) : Prop := ∀ ses, s.session = some ses → ses.dir ≠ d

/-- The response OK with its results. -/
def okResponse (r0 r1 : Nat) : Option Response := some ⟨.ok, BitVec.ofNat 32 r0, BitVec.ofNat 32 r1⟩

/-- The bits written so far (R27, R71): the bytes OBUF[0 .. OLEN-1], each most significant bit first, and then the WNB
placed bits of WACC. -/
def writtenBits (ses : Session) (obuf : Memory) : List Bool :=
  (List.range (8 * ses.olen.toNat)).map (fun p => ((memLookup obuf (p / 8)).getD 0).getLsbD (7 - p % 8))
    ++ (List.range ses.wnb.toNat).map (fun i => ses.wacc.getLsbD (7 - i))

/-- The unplaced bits of WACC are zero (R26). -/
def unplacedClear (ses : Session) : Prop := ∀ i, i < 8 - ses.wnb.toNat → ses.wacc.getLsbD i = false

/-- The first m bytes of an OBUF are what CORE reads at the same addresses of an IBUF. -/
def carriedOver (obuf ibuf : Memory) (m : Nat) : Prop := ∀ a, a < m → memLookup obuf a = some (ibufByte ibuf a)

/-- Every byte below lo and from hi on is as it was. -/
def unchangedOutside (m m' : Memory) (lo hi : Nat) : Prop := ∀ a, a < lo ∨ hi ≤ a → memLookup m' a = memLookup m a

/-- The ring slots that appending n bytes does not store to are as they were (10_state R34). -/
def otherSlotsKept (ses ses' : Session) (n : Nat) : Prop :=
  ∀ j, (∀ i, i < n → (ses.wpos.toNat + i) % Config.windowCap ≠ j) → memLookup ses'.win j = memLookup ses.win j

/-- Writing count more bits fills no byte, or there is room in OBUF for every byte it fills (40_bitstream R130, R131). -/
def bitRoom (ses : Session) (count : Nat) : Prop :=
  (ses.wnb.toNat + count) / 8 = 0 ∨ ses.olen.toNat + (ses.wnb.toNat + count) / 8 ≤ ses.ocap.toNat

/-- These bits, and nothing else, have been appended to the output stream (40_bitstream R131, R135): the stream, the
write cursor, the zero bits after it, and every byte of OBUF the bits do not fill. -/
def bitsAppended (ses : Session) (obuf : Memory) (bits : List Bool) (ses' : Session) (obuf' : Memory) : Prop :=
  writtenBits ses' obuf' = writtenBits ses obuf ++ bits ∧ writePos ses' = writePos ses + bits.length ∧
    unplacedClear ses' ∧ unchangedOutside obuf obuf' ses.olen.toNat ses'.olen.toNat

/-! ### The code tree -/

/-- The node memory is Build of its leaf counts, which are legal at a command boundary (R36, R37 (a)). -/
def modelOk (nodes : NodeMemory) : Prop :=
  nodes = build (leafCounts nodes) ∧ (∀ c ∈ leafCounts nodes, 1 ≤ c) ∧
    (leafCounts nodes).sum ≤ Config.rescaleLimit - 1

/-- The order of 41_huffman R151 on node entries. -/
def nodeRanksBefore (nodes : NodeMemory) (a b : Nat) : Prop :=
  ∃ x y, nodes[a]? = some x ∧ nodes[b]? = some y ∧
    (x.cnt.toNat < y.cnt.toNat ∨ (x.cnt.toNat = y.cnt.toNat ∧ a < b))

/-- A full binary tree on the leaves 0 .. 272 with root 544, parents and children agreeing, and every internal count
the sum of its children's (R37 (b) (c), R158 (a)). -/
def isCodeTree (nodes : NodeMemory) : Prop :=
  (∀ n (h : n < Config.nnode), n < Config.nsym → (nodes[n]).left = Config.noNode ∧ (nodes[n]).right = Config.noNode) ∧
  (∀ n (h : n < Config.nnode), Config.nsym ≤ n →
    ∃ (a b : Nat) (ha : a < Config.nnode) (hb : b < Config.nnode),
      (nodes[n]).left.toNat = a ∧ (nodes[n]).right.toNat = b ∧ a < n ∧ b < n ∧ a ≠ b ∧
      (nodes[a]).par.toNat = n ∧ (nodes[b]).par.toNat = n ∧
      (nodes[n]).cnt.toNat = (nodes[a]).cnt.toNat + (nodes[b]).cnt.toNat) ∧
  (∀ n (h : n < Config.nnode), n < Config.root →
    ∃ (p : Nat) (hp : p < Config.nnode), (nodes[n]).par.toNat = p ∧ n < p ∧ Config.nsym ≤ p ∧
      ((nodes[p]).left.toNat = n ∨ (nodes[p]).right.toNat = n)) ∧
  (nodes[Config.root]).par = Config.noNode

/-- Where a list of bits leads from node n: bit 0 to LEFT, bit 1 to RIGHT (41_huffman R150). -/
def walkFrom (nodes : NodeMemory) : List Bool → Nat → Option Nat
  | [], n => some n
  | b :: bits, n =>
    match nodes[n]? with
    | some node => walkFrom nodes bits (if b then node.right.toNat else node.left.toNat)
    | none => none

/-! ### Invariants -/

/-- DEC: the window holds the bytes already reconstructed (R42). -/
def windowIsOutput (ses : Session) (obuf : Memory) : Prop :=
  ∀ d, 1 ≤ d → d ≤ fill ses →
    ∃ v, memLookup ses.win ((ses.wpos.toNat - d) % Config.windowCap) = some v ∧
      memLookup obuf (ses.olen.toNat - d) = some v

/-- ENC: the window holds the bytes of input already tokenized (R42). -/
def windowIsInput (ses : Session) (ibuf : Memory) : Prop :=
  ∀ d, 1 ≤ d → d ≤ fill ses →
    memLookup ses.win ((ses.wpos.toNat - d) % Config.windowCap) = some (ibufByte ibuf (ses.ipos.toNat - d))

/-- What holds of a session at every command boundary, and at every token boundary inside DECOMPRESS. -/
structure SessionInv (ses : Session) (obuf : Memory) : Prop where
  /-- OLEN ≤ OCAP, and exactly the bytes OBUF[0 .. OLEN-1] hold a value (R25) -/
  room : ses.olen.toNat ≤ ses.ocap.toNat
  output : obuf.map Prod.fst = List.range ses.olen.toNat
  /-- R26 -/
  accumulator : unplacedClear ses
  /-- R30 -/
  cursor : readPos ses ≤ 8 * ses.ilen.toNat
  /-- R31 -/
  input : ses.ipos.toNat ≤ ses.ilen.toNat
  /-- exactly the slots below fill hold a value (R34, R205) -/
  slots : ses.win.map Prod.fst = List.range (fill ses)
  /-- WPOS = IPOS in ENC (R42), and the registers ENC does not use stay 0 (43_sequencer R204) -/
  encoding : ses.dir = .enc → ses.wpos = ses.ipos ∧ ses.rbyte = 0 ∧ ses.rbit = 0
  /-- WPOS = OLEN in DEC and the window is the output (R42); the registers DEC does not use stay 0 (R204) -/
  decoding : ses.dir = .dec →
    ses.wpos = ses.olen ∧ windowIsOutput ses obuf ∧ ses.wacc = 0 ∧ ses.wnb = 0 ∧ ses.ipos = 0
  /-- R36, R37 -/
  model : modelOk ses.nodes
  /-- inside the token loop: a DEC session, and OLEN ≤ L ≤ OCAP (R215) -/
  loop : ∀ total, ses.declared = some total →
    ses.dir = .dec ∧ total.toNat ≤ ses.ocap.toNat ∧ ses.olen.toNat ≤ total.toNat

/-- The invariant of the machine: canonical memories, and a good session if there is one. -/
def State.Inv (s : State) : Prop :=
  s.ibuf.wf ∧ s.obuf.wf ∧ ∀ ses, s.session = some ses → SessionInv ses s.obuf

/-- The compressing side's window is the input already tokenized (R42). It is lost when the host changes IBUF inside a
session (20_memory R73), so it is no part of State.Inv. -/
def State.encWindowInv (s : State) : Prop :=
  ∀ ses, s.encSession ses → ses.wpos = ses.ipos ∧ ses.ipos.toNat ≤ ses.ilen.toNat ∧ windowIsInput ses s.ibuf

/-! ### Commands and responses -/

/-- A command, not a token. -/
def isCommand : Instr → Bool
  | .nop | .inite _ _ | .initd _ _ | .release | .rdreg _ | .wrbits _ _ | .flush | .rdbits _ | .encode _ | .decode
  | .findmatch | .advance _ | .putlit _ | .copy _ _ | .compress _ _ | .decompress _ _ => true
  | .lit _ | .eos | .matchL3 _ | .matchL4 _ | .matchL5 _ | .matchL6 _ | .matchL7 _ | .matchL8 _ | .matchL9 _
  | .matchL10 _ | .matchL11 _ | .matchL12 _ | .matchL13 _ | .matchL14 _ | .matchL15 _ | .matchL16 _ | .matchL17 _
  | .matchL18 _ => false

/-- Opens a session, discarding an existing one (R206). -/
def opensSession : Instr → Bool
  | .inite _ _ | .initd _ _ | .compress _ _ | .decompress _ _ => true
  | _ => false

/-- A session of direction d is open, as a Bool. -/
def State.isIn (s : State) (d : Dir) : Bool :=
  match s.session with
  | some ses => decide (ses.dir = d)
  | none => false

/-- A property of the open session. -/
def State.sessionHas (s : State) (p : Session → Bool) : Bool :=
  match s.session with
  | some ses => p ses
  | none => false

/-- Accepted: neither illegal in the present state (43_sequencer R206) nor with an operand outside the protocol range
(60_exceptions R245, items 2 and 3). Tokens are not presented at the port. -/
def accepted : Instr → State → Bool
  | .rdreg regno, s =>
    isRegisterNumber regno.toNat &&
      (decide (regno.toNat = 0) ||
        s.sessionHas fun ses => decide (regno.toNat < 0x1000) || decide (regno.toNat - 0x1000 < fill ses))
  | .wrbits _ count, s => s.isIn .enc && isBitCount count.toNat
  | .flush, s => s.isIn .enc
  | .encode _, s => s.isIn .enc
  | .findmatch, s => s.isIn .enc
  | .advance n, s => s.isIn .enc && s.sessionHas fun ses => decide (n.toNat ≤ ses.ilen.toNat - ses.ipos.toNat)
  | .rdbits count, s => s.isIn .dec && isBitCount count.toNat
  | .decode, s => s.isIn .dec
  | .putlit _, s => s.isIn .dec
  | .copy _ _, s => s.isIn .dec
  | _, _ => true

/-- The table of 60_exceptions R243: the responses a command can give. DECODE and DECOMPRESS cannot give InvalidSymbol
while the node memory keeps R37. -/
def mayAnswer : Instr → Rsp → Bool
  | .nop, r | .inite _ _, r | .initd _ _, r | .release, r => decide (r = .ok)
  | .rdreg _, r | .findmatch, r | .advance _, r => decide (r = .ok ∨ r = .rejected)
  | .wrbits _ _, r | .flush, r | .putlit _, r => decide (r = .ok ∨ r = .failed .allocationFailure ∨ r = .rejected)
  | .rdbits _, r | .decode, r => decide (r = .ok ∨ r = .failed .unexpectedEndOfStream ∨ r = .rejected)
  | .encode _, r =>
    decide (r = .ok ∨ r = .failed .allocationFailure ∨ r = .failed .invalidSymbol ∨ r = .rejected)
  | .copy _ _, r =>
    decide (r = .ok ∨ r = .failed .allocationFailure ∨ r = .failed .limitExceeded ∨ r = .rejected)
  | .compress _ _, r => decide (r = .ok ∨ r = .failed .allocationFailure ∨ r = .failed .inputTooLarge)
  | .decompress _ _, r =>
    decide (r = .ok ∨ r = .failed .allocationFailure ∨ r = .failed .limitExceeded
      ∨ r = .failed .unexpectedEndOfStream ∨ r = .failed .malformedHeader)
  | _, _ => true

/-- The declared length in a compressed buffer: bytes 1 to 4, most significant first (30_encoding R94). -/
def declaredLength (ibuf : Memory) : Nat :=
  (ibufByte ibuf 1).toNat * 2 ^ 24 + (ibufByte ibuf 2).toNat * 2 ^ 16 + (ibufByte ibuf 3).toNat * 2 ^ 8
    + (ibufByte ibuf 4).toNat

/-- Checks (1) to (5) of 43_sequencer R216, in their order: the failure of the first that does not pass. -/
def headerVerdict (ibuf : Memory) (maxLen ilen ocap : Nat) : Option Failure :=
  if ilen < 1 then some .unexpectedEndOfStream
  else if (ibufByte ibuf 0).toNat ≠ 0x01 then some .malformedHeader
  else if ilen < 5 then some .unexpectedEndOfStream
  else if maxLen < declaredLength ibuf then some .malformedHeader
  else if ocap < declaredLength ibuf then some .allocationFailure
  else none

/-- One byte appended to OBUF and to the window, and nothing else (42_matcher R183, R184). -/
def byteAppended (ses : Session) (obuf : Memory) (b : Byte) (ses' : Session) (obuf' : Memory) : Prop :=
  ses' = { ses with olen := ses.olen + 1, wpos := ses.wpos + 1, win := ses'.win } ∧
    memLookup obuf' ses.olen.toNat = some b ∧
    unchangedOutside obuf obuf' ses.olen.toNat (ses.olen.toNat + 1) ∧
    memLookup ses'.win (ses.wpos.toNat % Config.windowCap) = some b ∧ otherSlotsKept ses ses' 1

/-- What copying len bytes from dist back does, said byte by byte (42_matcher R185, 70_reset R286, R287): byte i is the
window byte dist back while i < dist, and the byte dist before it in the output after that; the window takes the same
bytes; the counters move by len; everything else stays. -/
def bytesCopied (ses : Session) (obuf : Memory) (dist len : Nat) (ses' : Session) (obuf' : Memory) : Prop :=
  ses' = { ses with
    olen := ses.olen + BitVec.ofNat 32 len, wpos := ses.wpos + BitVec.ofNat 32 len, win := ses'.win } ∧
  (∀ i, i < len → memLookup obuf' (ses.olen.toNat + i) =
    if i < dist then some (windowByte ses.win ((ses.wpos.toNat - dist + i) % Config.windowCap))
    else memLookup obuf' (ses.olen.toNat + i - dist)) ∧
  (∀ i, i < len →
    memLookup ses'.win ((ses.wpos.toNat + i) % Config.windowCap) = memLookup obuf' (ses.olen.toNat + i)) ∧
  unchangedOutside obuf obuf' ses.olen.toNat (ses.olen.toNat + len) ∧ otherSlotsKept ses ses' len

/-! ### Which state an instruction writes (10_state R45) -/

/-- The frame of an instruction that leaves a session open: the registers it may write, and the bytes of OBUF and of
the window it may store to. Every other register of the session is as before. -/
def wroteOnly (i : Instr) (ses ses' : Session) (obuf obuf' : Memory) : Prop :=
  match i with
  | .nop | .rdreg _ | .findmatch | .eos => ses' = ses ∧ obuf' = obuf
  | .wrbits _ _ | .flush =>
    ses' = { ses with olen := ses'.olen, wacc := ses'.wacc, wnb := ses'.wnb } ∧
      unchangedOutside obuf obuf' ses.olen.toNat ses'.olen.toNat
  | .encode _ =>
    ses' = { ses with olen := ses'.olen, wacc := ses'.wacc, wnb := ses'.wnb, nodes := ses'.nodes } ∧
      unchangedOutside obuf obuf' ses.olen.toNat ses'.olen.toNat
  | .rdbits _ => ses' = { ses with rbyte := ses'.rbyte, rbit := ses'.rbit } ∧ obuf' = obuf
  | .decode => ses' = { ses with rbyte := ses'.rbyte, rbit := ses'.rbit, nodes := ses'.nodes } ∧ obuf' = obuf
  | .advance n =>
    ses' = { ses with ipos := ses'.ipos, wpos := ses'.wpos, win := ses'.win } ∧ obuf' = obuf ∧
      otherSlotsKept ses ses' n.toNat
  | .putlit _ | .copy _ _ | .lit _ | .matchL3 _ | .matchL4 _ | .matchL5 _ | .matchL6 _ | .matchL7 _ | .matchL8 _
  | .matchL9 _ | .matchL10 _ | .matchL11 _ | .matchL12 _ | .matchL13 _ | .matchL14 _ | .matchL15 _ | .matchL16 _
  | .matchL17 _ | .matchL18 _ =>
    ses' = { ses with olen := ses'.olen, wpos := ses'.wpos, win := ses'.win } ∧
      unchangedOutside obuf obuf' ses.olen.toNat ses'.olen.toNat ∧
      otherSlotsKept ses ses' (ses'.olen.toNat - ses.olen.toNat)
  | .inite _ _ | .initd _ _ | .release | .compress _ _ | .decompress _ _ => True

/-- The bits a command has put into the stream when it answered r (40_bitstream R135). -/
def bitsWritten (i : Instr) (ses : Session) (r : Response) : Nat :=
  match i with
  | .wrbits _ count => count.toNat
  | .flush => (8 - ses.wnb.toNat) % 8
  | .encode _ => r.r0.toNat
  | _ => 0

/-- The bits a command has taken from the stream when it answered r (40_bitstream R135). -/
def bitsRead (i : Instr) (r : Response) : Nat :=
  match i with
  | .rdbits count => count.toNat
  | .decode => r.r1.toNat
  | _ => 0

/-- The commands accepted while VALID = 0 (70_reset R282). -/
def acceptedWithoutSession : Instr → Bool
  | .nop | .release | .inite _ _ | .initd _ _ | .compress _ _ | .decompress _ _ => true
  | .rdreg regno => decide (regno = 0)
  | _ => false

/-! ### Tokens and their streams (30_encoding R101, R109) -/

/-- Length and residual of a MATCH token (30_encoding R102, R111). -/
def matchOf : Instr → Option (Nat × Residual)
  | .matchL3 r => some (3, r)
  | .matchL4 r => some (4, r)
  | .matchL5 r => some (5, r)
  | .matchL6 r => some (6, r)
  | .matchL7 r => some (7, r)
  | .matchL8 r => some (8, r)
  | .matchL9 r => some (9, r)
  | .matchL10 r => some (10, r)
  | .matchL11 r => some (11, r)
  | .matchL12 r => some (12, r)
  | .matchL13 r => some (13, r)
  | .matchL14 r => some (14, r)
  | .matchL15 r => some (15, r)
  | .matchL16 r => some (16, r)
  | .matchL17 r => some (17, r)
  | .matchL18 r => some (18, r)
  | _ => none

/-- The bits that follow the code of a symbol in its token: the residual of a match (R101). -/
def residualBits : Option Residual → List Bool
  | some r => lowBits Config.windowBits (r.setWidth 32)
  | none => []

/-- The bits of a token in the tree as it stands when the token begins (R101). -/
def tokenBits (nodes : NodeMemory) (i : Instr) : List Bool :=
  match encode i with
  | .token sym residual => (code nodes sym.toNat).getD [] ++ residualBits residual
  | .command _ => []

/-- The node memory after a token (41_huffman R152). -/
def nodesAfter (nodes : NodeMemory) (i : Instr) : NodeMemory :=
  match encode i with
  | .token sym _ => update sym.toNat nodes
  | .command _ => nodes

/-- The bits of a list of tokens, each in the tree its predecessors leave (30_encoding R103). -/
def streamBits : NodeMemory → List Instr → List Bool
  | _, [] => []
  | nodes, i :: rest => tokenBits nodes i ++ streamBits (nodesAfter nodes i) rest

/-- A compressed buffer's bits up to the end of EOS: the header for length total, the tokens, EOS (20_memory R67). -/
def wireBits (total : Nat) (tokens : List Instr) : List Bool :=
  lowBits 8 0x01 ++ lowBits 32 (BitVec.ofNat 32 total) ++ streamBits initModel (tokens ++ [.eos])

/-- Append len bytes, each the one dist before the end (42_matcher R185). -/
def repeatBack (dist : Nat) : Nat → List Byte → List Byte
  | 0, out => out
  | n + 1, out => repeatBack dist n (out ++ [out.getD (out.length - dist) 0])

/-- The output after a LIT or a MATCH token, if the token is one of these and its distance reaches no further than the
window (43_sequencer R211 (d), R217). -/
def outputAfter (i : Instr) (out : List Byte) : Option (List Byte) :=
  match i with
  | .lit b => some (out ++ [b])
  | i =>
    match matchOf i with
    | some (len, residual) =>
      if residual.toNat + 1 ≤ min out.length Config.windowCap then some (repeatBack (residual.toNat + 1) len out)
      else none
    | none => none

/-- The output of a list of LIT and MATCH tokens. -/
def expansion : List Instr → List Byte → Option (List Byte)
  | [], out => some out
  | i :: rest, out => (outputAfter i out).bind (expansion rest)

/-! ### Runs of instructions -/

/-- Run instructions one after the other, collecting what stands in the response port after each. -/
def runAll : List Instr → State → Option (State × List (Option Response))
  | [], s => some (s, [])
  | i :: rest, s =>
    match exec i s with
    | .next t => (runAll rest t).map fun r => (r.1, t.resp :: r.2)
    | .fault _ => none
    | .refused _ => none

/-- Steps, at most so many, as long as SEQ is inside the token loop of DECOMPRESS. -/
def runTokenSteps : Nat → State → Out
  | 0, s => .next s
  | turns + 1, s =>
    if s.inTokenLoop then
      match step s with
      | .next t => runTokenSteps turns t
      | .fault f => .fault f
      | .refused r => .refused r
    else .next s

/-- The last command answered OK. -/
def State.answeredOk (s : State) : Bool :=
  match s.resp with
  | some r => decide (r.rsp = .ok)
  | none => false

/-- Go on after an OK; anything else ends the sequence. -/
def thenOk (o : Out) (next : State → Out) : Out :=
  match o with
  | .next t => if t.answeredOk then next t else .next t
  | .fault f => .fault f
  | .refused r => .refused r

/-- Issue commands one after the other as long as each answers OK. -/
def runWhileOk : List Instr → State → Out
  | [], s => .next s
  | i :: rest, s => thenOk (exec i s) (runWhileOk rest)

/-- The commands the host issues for one token, from the answer of FINDMATCH and the next input byte (43_sequencer R210,
R220). -/
def tokenCommands (found : Response) (literal : Byte) : List Instr :=
  if found.r0 ≠ 0 then [.encode (254 + found.r0), .wrbits (found.r1 - 1) 12, .advance found.r0]
  else [.encode (literal.setWidth 32), .advance 1]

/-- The loop `while IPOS < ILEN` of COMPRESS, driven by hand with unit commands (R210, R220). -/
def handLoop : Nat → State → Out
  | 0, s => .next s
  | turns + 1, s =>
    match s.session with
    | none => .next s
    | some ses =>
      if ses.ipos < ses.ilen then
        thenOk (exec .findmatch s) fun t =>
          match t.resp with
          | some found =>
            thenOk (runWhileOk (tokenCommands found (ibufByte s.ibuf ses.ipos.toNat)) t) (handLoop turns)
          | none => .next t
      else .next s

/-- COMPRESS driven by hand, from INITE to FLUSH (30_encoding R110, 43_sequencer R220). -/
def handCompress (ilen ocap : Word) (s : State) : Out :=
  thenOk (runWhileOk [.inite ilen ocap, .wrbits 0x01 8, .wrbits ilen 32] s) fun t =>
    thenOk (handLoop ilen.toNat t) (runWhileOk [.encode 256, .flush])

/-- One item of a hand-driven stream: a symbol, or a raw field of count low bits of a value. -/
inductive StreamItem where
  | symbol (sym : Word)
  | field (value count : Word)
  deriving DecidableEq, Repr

/-- The command that writes an item. -/
def StreamItem.writer : StreamItem → Instr
  | .symbol sym => .encode sym
  | .field value count => .wrbits value count

/-- The command that reads it back. -/
def StreamItem.reader : StreamItem → Instr
  | .symbol _ => .decode
  | .field _ count => .rdbits count

/-- Operands in range. -/
def StreamItem.ok : StreamItem → Bool
  | .symbol sym => isSymbol sym.toNat
  | .field _ count => isBitCount count.toNat

/-- The most bits an item takes: a code has at most 272 (41_huffman R161). -/
def StreamItem.bound : StreamItem → Nat
  | .symbol _ => 272
  | .field _ count => count.toNat

/-- What the reader of an item answers, from what its writer answered (40_bitstream R134, 41_huffman R157). -/
def StreamItem.readBack (item : StreamItem) (written : Option Response) : Option Response :=
  match item with
  | .symbol sym => written.map fun r => ⟨.ok, sym, r.r0⟩
  | .field value count => okResponse (value.toNat % 2 ^ count.toNat) 0

/-- The symbols among the items. -/
def symbolsOf : List StreamItem → List Nat
  | [] => []
  | .symbol sym :: rest => sym.toNat :: symbolsOf rest
  | .field _ _ :: rest => symbolsOf rest

/-- The node memory after a list of symbols, from the initial model. -/
def modelAfter (syms : List Nat) : NodeMemory := syms.foldl (fun nodes sym => update sym nodes) initModel

end Sys2Proof.Machine
end

