-- ==== Sys2Proof/Certificates/Slice0/Obligations.lean ====
section
/-! DEFINITION. The statements for the provers. Each docstring names the rule of spec/ it formalises; a statement that
rests on a choice of the model names its log entry. -/

section
open Sys2Proof
open Sys2Proof.Machine

/-! ### Encodings and fetching -/

/-- R90, R91, R96, R102, R108: decoding the encoding of an instruction gives it back, every operand at every value. -/
def Obligations.EncodeDecodeRoundTrip : Prop :=
  ∀ i : Instr, decode (encode i) = .ok i

/-- R100 to R102, R111: a symbol index with its residual is the token that encodes to it, and no other. -/
def Obligations.TokenDecodingIsExact : Prop :=
  ∀ (sym : SymbolIndex) (residual : Option Residual) (i : Instr),
    decodeToken sym residual = .ok i ↔ encode i = .token sym residual

/-- R91, R108: words of the assembler table, written out, decode to what they stand for; so do symbols of R100. -/
def Obligations.SpecWordsDecode : Prop :=
  decodeCommand 0x10_00000005_00000003#72 = .ok (.wrbits 5 3) ∧
  decodeCommand 0x12_00000000_00000009#72 = .ok (.rdbits 9) ∧
  decodeCommand 0x20_00000061_00000000#72 = .ok (.encode 97) ∧
  decodeCommand 0x33_00000003_00000006#72 = .ok (.copy 3 6) ∧
  decodeCommand 0x40_0000000A_00000040#72 = .ok (.compress 10 64) ∧
  decodeToken 0x061#9 none = .ok (.lit 0x61) ∧
  decodeToken 0x100#9 none = .ok .eos ∧
  decodeToken 0x107#9 (some 0x000) = .ok (.matchL9 0)

/-- R96 (with R90, R91): which bits of a command word each command uses; every other operand bit, and the bits of the
value of WRBITS from count on, have no effect. -/
def Obligations.UnusedOperandsIgnored : Prop :=
  (∀ a0 a1 : Word,
    decodeCommand (packCommand 0x00 a0 a1) = .ok .nop ∧
    decodeCommand (packCommand 0x01 a0 a1) = .ok (.inite a0 a1) ∧
    decodeCommand (packCommand 0x02 a0 a1) = .ok (.initd a0 a1) ∧
    decodeCommand (packCommand 0x03 a0 a1) = .ok .release ∧
    decodeCommand (packCommand 0x04 a0 a1) = .ok (.rdreg a0) ∧
    decodeCommand (packCommand 0x10 a0 a1) = .ok (.wrbits a0 a1) ∧
    decodeCommand (packCommand 0x11 a0 a1) = .ok .flush ∧
    decodeCommand (packCommand 0x12 a0 a1) = .ok (.rdbits a1) ∧
    decodeCommand (packCommand 0x20 a0 a1) = .ok (.encode a0) ∧
    decodeCommand (packCommand 0x21 a0 a1) = .ok .decode ∧
    decodeCommand (packCommand 0x30 a0 a1) = .ok .findmatch ∧
    decodeCommand (packCommand 0x31 a0 a1) = .ok (.advance a0) ∧
    decodeCommand (packCommand 0x32 a0 a1) = .ok (.putlit (a0.setWidth 8)) ∧
    decodeCommand (packCommand 0x33 a0 a1) = .ok (.copy a0 a1) ∧
    decodeCommand (packCommand 0x40 a0 a1) = .ok (.compress a0 a1) ∧
    decodeCommand (packCommand 0x41 a0 a1) = .ok (.decompress a0 a1)) ∧
  (∀ (value value' count : Word) (s : State),
    (∀ i, i < count.toNat → value.getLsbD i = value'.getLsbD i) →
    exec (.wrbits value count) s = exec (.wrbits value' count) s)

/-- R95: a word whose op is none of the sixteen is answered Rejected and changes nothing, every other op is a command of
its own, and a command that is not accepted in the present state is answered Rejected in the same way. -/
def Obligations.ReservedOpcodesRejected : Prop :=
  ∀ (s : State) (w : CommandWord) (rest : List HostEvent), s.inTokenLoop = false → s.port = .command w :: rest →
    let legal : List (BitVec 8) := [0x00, 0x01, 0x02, 0x03, 0x04, 0x10, 0x11, 0x12, 0x20, 0x21, 0x30, 0x31, 0x32, 0x33,
      0x40, 0x41]
    (commandOp w ∉ legal → step s = .next { s with port := rest, resp := some ⟨.rejected, 0, 0⟩ }) ∧
    (commandOp w ∈ legal → ∃ i, decodeCommand w = .ok i) ∧
    (∀ i w', decodeCommand w = .ok i → encode i = .command w' → commandOp w' = commandOp w) ∧
    (∀ i, decodeCommand w = .ok i → accepted i s = false →
      step s = .next { s with port := rest, resp := some ⟨.rejected, 0, 0⟩ })

/-- Outside the token loop a step runs the command at the port (R11, R22; log entry 1: the port). -/
def Obligations.StepRunsDecodedCommand : Prop :=
  ∀ (s : State) (w : CommandWord) (rest : List HostEvent) (i : Instr), s.inTokenLoop = false →
    s.port = .command w :: rest → decodeCommand w = .ok i → step s = exec i { s with port := rest }

/-- Inside DECOMPRESS a step runs the token at the read cursor, the cursor past it and the model updated; a token that
cannot be read is the failure of its reading (R103, R215; log entry 8: one token a step). -/
def Obligations.StepRunsDecodedToken : Prop :=
  ∀ (s : State) (ses : Session), s.session = some ses → ses.declared.isSome = true →
    (∀ (t : Nat × Option Residual) (w : Work) (i : Instr), fetchToken s.ibuf ⟨ses, s.obuf⟩ = .done t w →
      decodeToken (BitVec.ofNat 9 t.1) t.2 = .ok i →
      step s = exec i { s with session := some w.ses, obuf := w.obuf }) ∧
    (∀ k, fetchToken s.ibuf ⟨ses, s.obuf⟩ = .raise k →
      step s = .next { s with session := none, obuf := [], resp := some ⟨.failed k, 0, 0⟩ })

/-- R103, R156, R290: what fetching a token reads: the code of a symbol in the tree as it stands, then, for a match
symbol, 12 bits more; the cursor moves past exactly these, and the model takes the symbol. -/
def Obligations.FetchTokenReads : Prop :=
  ∀ (s : State) (ses : Session) (sym : Nat) (residual : Option Residual) (bits : List Bool),
    modelOk ses.nodes → sym < 273 → (residual.isSome = true ↔ 257 ≤ sym) → code ses.nodes sym = some bits →
    readPos ses + (bits ++ residualBits residual).length ≤ 8 * ses.ilen.toNat →
    ibufBits s.ibuf (readPos ses) (bits ++ residualBits residual).length = bits ++ residualBits residual →
    ∃ ses', fetchToken s.ibuf ⟨ses, s.obuf⟩ = .done (sym, residual) ⟨ses', s.obuf⟩ ∧
      readPos ses' = readPos ses + (bits ++ residualBits residual).length ∧
      ses' = { ses with rbyte := ses'.rbyte, rbit := ses'.rbit, nodes := update sym ses.nodes }

/-- Between commands: with nothing at the port CORE waits (R43, R280; log entry 11), a byte the host places is in IBUF
and nothing else has changed (R70 (d), R73), a reset ends the session and OBUF (R280, R281). -/
def Obligations.HostActsBetweenCommands : Prop :=
  ∀ s : State, s.inTokenLoop = false →
    (s.port = [] → step s = .next s) ∧
    (∀ addr byte rest, s.port = .place addr byte :: rest →
      ∃ m, step s = .next { s with port := rest, ibuf := m } ∧ memLookup m addr.toNat = some byte ∧
        ∀ a, a ≠ addr.toNat → memLookup m a = memLookup s.ibuf a) ∧
    (∀ rest, s.port = .reset :: rest →
      step s = .next { s with port := rest, session := none, obuf := [], resp := none })

/-! ### Reset and sessions -/

/-- R43, R280, with D21's default of MAX_INPUT_LEN: after reset there is no session, STATE reads 0, and no byte of OBUF
holds a value. -/
def Obligations.ResetLeavesNoSession : Prop :=
  State.reset.session = none ∧ State.reset.valid = false ∧ State.reset.dirBit = false ∧ State.reset.obuf = [] ∧
    State.reset.maxInputLen = 0xFFFFFFFF ∧ stateRegister State.reset = 0

/-- R282: with VALID = 0 exactly NOP, RELEASE, RDREG 0x000, INITE, INITD, COMPRESS and DECOMPRESS are accepted; RELEASE
has no effect and RDREG 0x000 returns 0. -/
def Obligations.FirstCommandsAfterReset : Prop :=
  ∀ s : State, s.session = none →
    (∀ i, isCommand i = true → acceptedWithoutSession i = true →
      ∃ t r, exec i s = .next t ∧ t.resp = some r ∧ r.rsp ≠ .rejected) ∧
    (∀ i, isCommand i = true → acceptedWithoutSession i = false →
      exec i s = .next { s with resp := some ⟨.rejected, 0, 0⟩ }) ∧
    exec .release s = .next { s with resp := okResponse 0 0 } ∧
    exec (.rdreg 0) s = .next { s with resp := okResponse 0 0 }

/-- R200. -/
def Obligations.NopDoesNothing : Prop :=
  ∀ s : State, exec .nop s = .next { s with resp := okResponse 0 0 }

/-- R201, R202, R204: INITE and INITD, in every state, leave exactly the initial session of their direction. -/
def Obligations.OpeningInitialises : Prop :=
  ∀ (s : State) (ilen ocap : Word),
    let opened (dir : Dir) : Session :=
      { dir := dir, ilen := ilen, ocap := ocap, olen := 0, wacc := 0, wnb := 0, rbyte := 0, rbit := 0, ipos := 0,
        wpos := 0, win := [], nodes := build (List.replicate 273 1), declared := none }
    exec (.inite ilen ocap) s = .next { s with session := some (opened .enc), obuf := [], resp := okResponse 0 0 } ∧
    exec (.initd ilen ocap) s = .next { s with session := some (opened .dec), obuf := [], resp := okResponse 0 0 }

/-- R203: RELEASE ends the session; OBUF keeps its bytes; without a session it changes nothing. -/
def Obligations.ReleaseEndsSession : Prop :=
  ∀ s : State, exec .release s = .next { s with session := none, resp := okResponse 0 0 }

/-- R205, R39: every register by its number, and the three rejections. -/
def Obligations.RdregReadsRegisters : Prop :=
  ∀ s : State,
    exec (.rdreg 0x000) s =
      .next { s with resp := okResponse (s.valid.toNat + 2 * s.dirBit.toNat) 0 } ∧
    (∀ ses, s.session = some ses →
      exec (.rdreg 0x001) s = .next { s with resp := okResponse ses.ilen.toNat 0 } ∧
      exec (.rdreg 0x002) s = .next { s with resp := okResponse ses.ocap.toNat 0 } ∧
      exec (.rdreg 0x003) s = .next { s with resp := okResponse ses.olen.toNat 0 } ∧
      exec (.rdreg 0x004) s = .next { s with resp := okResponse ses.wacc.toNat 0 } ∧
      exec (.rdreg 0x005) s = .next { s with resp := okResponse ses.wnb.toNat 0 } ∧
      exec (.rdreg 0x006) s = .next { s with resp := okResponse ses.rbyte.toNat 0 } ∧
      exec (.rdreg 0x007) s = .next { s with resp := okResponse ses.rbit.toNat 0 } ∧
      exec (.rdreg 0x008) s = .next { s with resp := okResponse ses.ipos.toNat 0 } ∧
      exec (.rdreg 0x009) s = .next { s with resp := okResponse ses.wpos.toNat 0 } ∧
      (∀ n node, ses.nodes[n]? = some node →
        let links := node.par.toNat * 2 ^ 20 + node.left.toNat * 2 ^ 10 + node.right.toNat
        exec (.rdreg (BitVec.ofNat 32 (0x400 + n))) s = .next { s with resp := okResponse node.cnt.toNat links }) ∧
      (∀ j b, j < fill ses → memLookup ses.win j = some b →
        exec (.rdreg (BitVec.ofNat 32 (0x1000 + j))) s = .next { s with resp := okResponse b.toNat 0 }) ∧
      (∀ j, fill ses ≤ j → j < 4096 →
        exec (.rdreg (BitVec.ofNat 32 (0x1000 + j))) s = .next { s with resp := some ⟨.rejected, 0, 0⟩ })) ∧
    (∀ regno, isRegisterNumber regno.toNat = false ∨ (regno ≠ 0 ∧ s.session = none) →
      exec (.rdreg regno) s = .next { s with resp := some ⟨.rejected, 0, 0⟩ })

/-! ### The bit stream -/

/-- R131: WRBITS in every case: rejected for a wrong direction or a count above 32; the count low bits appended, most
significant first, and nothing else changed; AllocationFailure when a byte fills and OBUF is full. -/
def Obligations.WrbitsAppendsBits : Prop :=
  ∀ (s : State) (value count : Word),
    (s.lacks .enc ∨ 32 < count.toNat →
      exec (.wrbits value count) s = .next { s with resp := some ⟨.rejected, 0, 0⟩ }) ∧
    (∀ ses, s.encSession ses → unplacedClear ses → count.toNat ≤ 32 → bitRoom ses count.toNat →
      ∃ ses' obuf', exec (.wrbits value count) s =
          .next { s with session := some ses', obuf := obuf', resp := okResponse 0 0 } ∧
        bitsAppended ses s.obuf (lowBits count.toNat value) ses' obuf' ∧
        ses' = { ses with olen := ses'.olen, wacc := ses'.wacc, wnb := ses'.wnb }) ∧
    (∀ ses, s.encSession ses → count.toNat ≤ 32 → ¬ bitRoom ses count.toNat →
      exec (.wrbits value count) s =
        .next { s with session := none, obuf := [], resp := some ⟨.failed .allocationFailure, 0, 0⟩ })

/-- R132: FLUSH pads to the byte boundary with zero bits and answers OLEN; at a boundary it changes nothing. -/
def Obligations.FlushPadsWithZeros : Prop :=
  ∀ s : State,
    (s.lacks .enc → exec .flush s = .next { s with resp := some ⟨.rejected, 0, 0⟩ }) ∧
    (∀ ses, s.encSession ses → ses.wnb = 0 →
      exec .flush s = .next { s with resp := okResponse ses.olen.toNat 0 }) ∧
    (∀ ses, s.encSession ses → unplacedClear ses → ses.wnb ≠ 0 → ses.olen < ses.ocap →
      ∃ obuf', exec .flush s = .next { s with
            session := some { ses with olen := ses.olen + 1, wacc := 0, wnb := 0 },
            obuf := obuf', resp := okResponse (ses.olen.toNat + 1) 0 } ∧
        bitsAppended ses s.obuf (List.replicate (8 - ses.wnb.toNat) false)
          { ses with olen := ses.olen + 1, wacc := 0, wnb := 0 } obuf') ∧
    (∀ ses, s.encSession ses → ses.wnb ≠ 0 → ses.ocap ≤ ses.olen →
      exec .flush s =
        .next { s with session := none, obuf := [], resp := some ⟨.failed .allocationFailure, 0, 0⟩ })

/-- R133: RDBITS answers the bits at the read cursor as a number and moves past them; a request that cannot be met in
full is UnexpectedEndOfStream; 0 bits are always there. -/
def Obligations.RdbitsReturnsBits : Prop :=
  ∀ (s : State) (count : Word),
    (s.lacks .dec ∨ 32 < count.toNat →
      exec (.rdbits count) s = .next { s with resp := some ⟨.rejected, 0, 0⟩ }) ∧
    (∀ ses, s.decSession ses → count.toNat ≤ 32 → readPos ses + count.toNat ≤ 8 * ses.ilen.toNat →
      ∃ ses', exec (.rdbits count) s = .next { s with
            session := some ses', resp := okResponse (bitsToNat (ibufBits s.ibuf (readPos ses) count.toNat)) 0 } ∧
        readPos ses' = readPos ses + count.toNat ∧ ses' = { ses with rbyte := ses'.rbyte, rbit := ses'.rbit }) ∧
    (∀ ses, s.decSession ses → count = 0 → exec (.rdbits count) s = .next { s with resp := okResponse 0 0 }) ∧
    (∀ ses, s.decSession ses → count.toNat ≤ 32 → 0 < count.toNat → 8 * ses.ilen.toNat < readPos ses + count.toNat →
      exec (.rdbits count) s =
        .next { s with session := none, obuf := [], resp := some ⟨.failed .unexpectedEndOfStream, 0, 0⟩ })

/-- R134, the inverse law: fields written in a fresh ENC session and flushed are read back by a fresh DEC session over
the bytes written, whatever else stands in its IBUF; what remains is fewer than 8 bits, all zero. -/
def Obligations.WrittenFieldsReadBack : Prop :=
  ∀ (s : State) (ilen ocap : Word) (fields : List (Word × Word)), (∀ f ∈ fields, f.2.toNat ≤ 32) →
    let total := (fields.map fun f => f.2.toNat).sum
    (total + 7) / 8 ≤ ocap.toNat →
    ∃ t outs ses,
      runAll ([.inite ilen ocap] ++ fields.map (fun f => .wrbits f.1 f.2) ++ [.flush]) s = some (t, outs) ∧
      t.session = some ses ∧ ses.olen.toNat = (total + 7) / 8 ∧
      ∀ (s' : State) (ocap' : Word), carriedOver t.obuf s'.ibuf ses.olen.toNat →
        ∃ t' ses',
          runAll (.initd ses.olen ocap' :: fields.map fun f => .rdbits f.2) s' =
            some (t', okResponse 0 0 :: fields.map fun f => okResponse (f.1.toNat % 2 ^ f.2.toNat) 0) ∧
          t'.session = some ses' ∧ readPos ses' = total ∧
          ∀ p, total ≤ p → p < 8 * ses.olen.toNat → ibufBit s'.ibuf p = false

/-- R135, the cursor laws: what each command that leaves the session open adds to the write cursor of an ENC session and
to the read cursor; nothing moves either back. -/
def Obligations.CursorsMoveByBitsMoved : Prop :=
  ∀ (i : Instr) (s t : State) (ses ses' : Session) (r : Response), isCommand i = true → opensSession i = false →
    exec i s = .next t → s.session = some ses → t.session = some ses' → t.resp = some r →
    (r.rsp = .rejected ∧ ses' = ses) ∨
    (r.rsp = .ok ∧ (ses.dir = .enc → writePos ses' = writePos ses + bitsWritten i ses r) ∧
      readPos ses' = readPos ses + bitsRead i r)

/-! ### The code tree -/

/-- R37 (b) (c), R158 (a) (b): Build gives a full binary tree on the 273 leaves with root 544, and keeps the leaf
counts. -/
def Obligations.BuildGivesCodeTree : Prop :=
  ∀ counts : List Nat, counts.length = 273 → (∀ c ∈ counts, 1 ≤ c) → counts.sum ≤ 4095 →
    isCodeTree (build counts) ∧ leafCounts (build counts) = counts ∧ (build counts)[544].cnt.toNat = counts.sum

/-- R151: Build takes the nodes in the order of (CNT, index), the first of each pair the LEFT child. -/
def Obligations.BuildTakesLeastFirst : Prop :=
  ∀ counts : List Nat, counts.length = 273 → (∀ c ∈ counts, 1 ≤ c) → counts.sum ≤ 4095 →
    ∀ n node, 273 ≤ n → (build counts)[n]? = some node →
      nodeRanksBefore (build counts) node.left.toNat node.right.toNat ∧
      ∀ next, (build counts)[n + 1]? = some next →
        nodeRanksBefore (build counts) node.right.toNat next.left.toNat

/-- R154: the initial model, and the initial code of every symbol. -/
def Obligations.InitialCodes : Prop :=
  leafCounts initModel = List.replicate 273 1 ∧ initModel = build (List.replicate 273 1) ∧
  (∀ sym, 34 ≤ sym → sym ≤ 272 → code initModel sym = some (lowBits 8 (BitVec.ofNat 32 (sym - 34)))) ∧
  (∀ sym, sym ≤ 33 → code initModel sym = some (lowBits 9 (BitVec.ofNat 32 (478 + sym))))

/-- R150, R161, R37 (d): under the tree invariants every symbol has a code of 1 to 272 bits, which is the path from ROOT
to its leaf, and no code is a prefix of another. -/
def Obligations.CodesArePrefixFree : Prop :=
  ∀ nodes : NodeMemory, modelOk nodes →
    (∀ sym, sym < 273 → ∃ bits, code nodes sym = some bits ∧ 1 ≤ bits.length ∧ bits.length ≤ 272 ∧
      walkFrom nodes bits 544 = some sym) ∧
    (∀ sym sym' bits bits', sym < 273 → sym' < 273 → sym ≠ sym' → code nodes sym = some bits →
      code nodes sym' = some bits' → ¬ bits <+: bits')

/-- R152: Update adds 1 to the symbol's count, halves every count rounding up when the total reaches 4096, and rebuilds
the tree. -/
def Obligations.UpdateCountsSymbol : Prop :=
  ∀ (nodes : NodeMemory) (sym : Nat), modelOk nodes → sym < 273 →
    let before := leafCounts nodes
    let bumped := before.set sym (before.getD sym 0 + 1)
    leafCounts (update sym nodes) = (if 4096 ≤ bumped.sum then bumped.map (fun c => (c + 1) / 2) else bumped) ∧
      update sym nodes = build (leafCounts (update sym nodes)) ∧ modelOk (update sym nodes)

/-- R153: whatever the symbols are, the total is 273 plus their number up to the 3822nd, and the update of the 3823rd
rescales, after which the total is at most 2184. -/
def Obligations.FirstRescale : Prop :=
  ∀ syms : List Nat, (∀ sym ∈ syms, sym < 273) →
    (syms.length ≤ 3822 → (leafCounts (modelAfter syms)).sum = 273 + syms.length) ∧
    (syms.length = 3823 → (leafCounts (modelAfter syms)).sum ≤ 2184)

/-- R36: the legal values of counts. -/
def Obligations.CountsStayLegal : Prop :=
  ∀ nodes : NodeMemory, modelOk nodes →
    (∀ c ∈ leafCounts nodes, 1 ≤ c ∧ c ≤ 3823) ∧
    273 ≤ nodes[544].cnt.toNat ∧ nodes[544].cnt.toNat = (leafCounts nodes).sum ∧
    ∀ (n : Nat) (node : Node), nodes[n]? = some node → node.cnt.toNat ≤ 4095

/-- R155: ENCODE in every case: rejected for a wrong direction; InvalidSymbol from 273 on; the code of the tree before
the update appended, the model updated, the length answered; AllocationFailure where OBUF is full. -/
def Obligations.EncodeWritesCode : Prop :=
  ∀ (s : State) (sym : Word),
    (s.lacks .enc → exec (.encode sym) s = .next { s with resp := some ⟨.rejected, 0, 0⟩ }) ∧
    (∀ ses, s.encSession ses → 273 ≤ sym.toNat →
      exec (.encode sym) s =
        .next { s with session := none, obuf := [], resp := some ⟨.failed .invalidSymbol, 0, 0⟩ }) ∧
    (∀ ses bits, s.encSession ses → unplacedClear ses → sym.toNat < 273 → code ses.nodes sym.toNat = some bits →
      bitRoom ses bits.length →
      ∃ ses' obuf', exec (.encode sym) s =
          .next { s with session := some ses', obuf := obuf', resp := okResponse bits.length 0 } ∧
        bitsAppended ses s.obuf bits ses' obuf' ∧
        ses' = { ses with
          olen := ses'.olen, wacc := ses'.wacc, wnb := ses'.wnb, nodes := update sym.toNat ses.nodes }) ∧
    (∀ ses bits, s.encSession ses → sym.toNat < 273 → code ses.nodes sym.toNat = some bits →
      ¬ bitRoom ses bits.length →
      exec (.encode sym) s =
        .next { s with session := none, obuf := [], resp := some ⟨.failed .allocationFailure, 0, 0⟩ })

/-- R156 under the tree invariants of R37 (where its InvalidSymbol cannot occur): DECODE answers the symbol whose code
stands at the read cursor, with its length, and updates the model; when no whole code is left it is
UnexpectedEndOfStream. -/
def Obligations.DecodeReadsSymbol : Prop :=
  ∀ s : State,
    (s.lacks .dec → exec .decode s = .next { s with resp := some ⟨.rejected, 0, 0⟩ }) ∧
    (∀ ses sym bits, s.decSession ses → modelOk ses.nodes → sym < 273 → code ses.nodes sym = some bits →
      readPos ses + bits.length ≤ 8 * ses.ilen.toNat → ibufBits s.ibuf (readPos ses) bits.length = bits →
      ∃ ses', exec .decode s = .next { s with session := some ses', resp := okResponse sym bits.length } ∧
        readPos ses' = readPos ses + bits.length ∧
        ses' = { ses with rbyte := ses'.rbyte, rbit := ses'.rbit, nodes := update sym ses.nodes }) ∧
    (∀ ses, s.decSession ses → modelOk ses.nodes →
      (∀ sym bits, sym < 273 → code ses.nodes sym = some bits → readPos ses + bits.length ≤ 8 * ses.ilen.toNat →
        ibufBits s.ibuf (readPos ses) bits.length ≠ bits) →
      exec .decode s =
        .next { s with session := none, obuf := [], resp := some ⟨.failed .unexpectedEndOfStream, 0, 0⟩ })

/-- R157, the lockstep law: symbols, with raw fields between them, encoded in a fresh ENC session and flushed, are
decoded by a fresh DEC session over the bytes written, each with the length its writer answered; after the j-th command
both node memories are the same function of the symbols so far. -/
def Obligations.DecoderInLockstep : Prop :=
  ∀ (s : State) (ilen ocap : Word) (items : List StreamItem), (∀ item ∈ items, item.ok = true) →
    (items.map StreamItem.bound).sum ≤ 8 * ocap.toNat →
    ∃ t outs ses,
      runAll ([.inite ilen ocap] ++ items.map StreamItem.writer ++ [.flush]) s = some (t, outs) ∧
      (∀ o ∈ outs, ∃ r, o = some r ∧ r.rsp = .ok) ∧ t.session = some ses ∧
      ∀ j, j ≤ items.length →
        (∃ t₁ ses₁ outs₁,
          runAll (.inite ilen ocap :: (items.take j).map StreamItem.writer) s = some (t₁, outs₁) ∧
          t₁.session = some ses₁ ∧ ses₁.nodes = modelAfter (symbolsOf (items.take j))) ∧
        ∀ (s' : State) (ocap' : Word), carriedOver t.obuf s'.ibuf ses.olen.toNat →
          ∃ t₂ ses₂,
            runAll (.initd ses.olen ocap' :: (items.take j).map StreamItem.reader) s' =
              some (t₂, okResponse 0 0 :: List.zipWith StreamItem.readBack (items.take j) (outs.drop 1)) ∧
            t₂.session = some ses₂ ∧ ses₂.nodes = modelAfter (symbolsOf (items.take j))

/-! ### The matcher -/

/-- R180: MatchLen counts the leading bytes of the lookahead that equal the bytes d before them, capped by MAX_MATCH and
by the end of the input; the bytes before come from the window, or from the lookahead itself where the match overlaps. -/
def Obligations.MatchLenCounts : Prop :=
  ∀ (ibuf : Memory) (ses : Session) (d : Nat), 1 ≤ d → d ≤ fill ses →
    let before (j : Nat) : Byte :=
      if j < d then windowByte ses.win ((ses.wpos.toNat - d + j) % 4096) else ibufByte ibuf (ses.ipos.toNat + j - d)
    let cap := min 18 (ses.ilen.toNat - ses.ipos.toNat)
    matchLen ibuf ses d ≤ cap ∧
    (∀ j, j < matchLen ibuf ses d → before j = ibufByte ibuf (ses.ipos.toNat + j)) ∧
    (matchLen ibuf ses d < cap →
      before (matchLen ibuf ses d) ≠ ibufByte ibuf (ses.ipos.toNat + matchLen ibuf ses d))

/-- R181, R186: FINDMATCH answers the longest match, nearest on tie, when it has at least 3 bytes, else (0, 0), and
changes no state. -/
def Obligations.FindmatchCanonical : Prop :=
  ∀ s : State,
    (s.lacks .enc → exec .findmatch s = .next { s with resp := some ⟨.rejected, 0, 0⟩ }) ∧
    (∀ ses, s.encSession ses →
      ∃ len dist, exec .findmatch s = .next { s with resp := okResponse len dist } ∧
        ((len = 0 ∧ dist = 0 ∧ ∀ d, 1 ≤ d → d ≤ fill ses → matchLen s.ibuf ses d < 3) ∨
         (3 ≤ len ∧ 1 ≤ dist ∧ dist ≤ fill ses ∧ matchLen s.ibuf ses dist = len ∧
          (∀ d, 1 ≤ d → d ≤ fill ses → matchLen s.ibuf ses d ≤ len) ∧
          (∀ d, 1 ≤ d → d < dist → matchLen s.ibuf ses d < len))))

/-- R182, R183: ADVANCE appends the next n input bytes to the window, of which the last 4096 stay; more than the rest of
the input is rejected. -/
def Obligations.AdvanceMovesInput : Prop :=
  ∀ (s : State) (n : Word),
    (s.lacks .enc → exec (.advance n) s = .next { s with resp := some ⟨.rejected, 0, 0⟩ }) ∧
    (∀ ses, s.encSession ses → ses.ilen.toNat - ses.ipos.toNat < n.toNat →
      exec (.advance n) s = .next { s with resp := some ⟨.rejected, 0, 0⟩ }) ∧
    (∀ ses, s.encSession ses → n.toNat ≤ ses.ilen.toNat - ses.ipos.toNat →
      ∃ ses', exec (.advance n) s = .next { s with session := some ses', resp := okResponse 0 0 } ∧
        ses' = { ses with ipos := ses.ipos + n, wpos := ses.wpos + n, win := ses'.win } ∧
        (∀ i, i < n.toNat → n.toNat ≤ i + 4096 →
          memLookup ses'.win ((ses.wpos.toNat + i) % 4096) = some (ibufByte s.ibuf (ses.ipos.toNat + i))) ∧
        otherSlotsKept ses ses' n.toNat)

/-- R183, R184: PUTLIT appends its byte to OBUF and to the window; AllocationFailure when OBUF is full. -/
def Obligations.PutlitAppendsByte : Prop :=
  ∀ (s : State) (b : Byte),
    (s.lacks .dec → exec (.putlit b) s = .next { s with resp := some ⟨.rejected, 0, 0⟩ }) ∧
    (∀ ses, s.decSession ses → ses.olen < ses.ocap →
      ∃ ses' obuf', exec (.putlit b) s =
          .next { s with session := some ses', obuf := obuf', resp := okResponse 0 0 } ∧
        byteAppended ses s.obuf b ses' obuf') ∧
    (∀ ses, s.decSession ses → ses.ocap ≤ ses.olen →
      exec (.putlit b) s =
        .next { s with session := none, obuf := [], resp := some ⟨.failed .allocationFailure, 0, 0⟩ })

/-- R185, R286, R287: COPY in every case: rejected for a wrong direction; LimitExceeded first, for a distance outside
the window or a length no match has; then the bytes from dist back, one at a time forward; AllocationFailure where OBUF
has no room for all of them. WPOS = OLEN is the invariant of R42. -/
def Obligations.CopyRepeatsBytes : Prop :=
  ∀ (s : State) (dist len : Word),
    let inRange (ses : Session) : Prop :=
      1 ≤ dist.toNat ∧ dist.toNat ≤ fill ses ∧ 3 ≤ len.toNat ∧ len.toNat ≤ 18
    (s.lacks .dec → exec (.copy dist len) s = .next { s with resp := some ⟨.rejected, 0, 0⟩ }) ∧
    (∀ ses, s.decSession ses → ¬ inRange ses →
      exec (.copy dist len) s =
        .next { s with session := none, obuf := [], resp := some ⟨.failed .limitExceeded, 0, 0⟩ }) ∧
    (∀ ses, s.decSession ses → inRange ses → ses.wpos = ses.olen → ses.olen.toNat + len.toNat ≤ ses.ocap.toNat →
      ∃ ses' obuf', exec (.copy dist len) s =
          .next { s with session := some ses', obuf := obuf', resp := okResponse 0 0 } ∧
        bytesCopied ses s.obuf dist.toNat len.toNat ses' obuf') ∧
    (∀ ses, s.decSession ses → inRange ses → ses.ocap.toNat < ses.olen.toNat + len.toNat →
      exec (.copy dist len) s =
        .next { s with session := none, obuf := [], resp := some ⟨.failed .allocationFailure, 0, 0⟩ })

/-- R188: where FINDMATCH answers (L, D) at position p, COPY D, L in a DEC session whose output is the input up to p
appends exactly the input from p to p + L - 1: OLEN is then p + L, the output is the input up to p + L, no other byte of
OBUF has changed, and the window is the output again. -/
def Obligations.CopyInvertsMatch : Prop :=
  ∀ (s s' : State) (ses ses' : Session) (dist len : Word),
    s.encSession ses → s.encWindowInv → exec .findmatch s = .next { s with resp := some ⟨.ok, len, dist⟩ } →
    3 ≤ len.toNat → s'.decSession ses' → ses'.wpos = ses'.olen → windowIsOutput ses' s'.obuf →
    ses'.olen = ses.ipos → carriedOver s'.obuf s.ibuf ses.ipos.toNat →
    ses'.olen.toNat + len.toNat ≤ ses'.ocap.toNat →
    ∃ t u, exec (.copy dist len) s' = .next t ∧ t.resp = okResponse 0 0 ∧
      t.decSession u ∧ u.olen = ses.ipos + len ∧ u.wpos = u.olen ∧ windowIsOutput u t.obuf ∧
      carriedOver t.obuf s.ibuf (ses.ipos.toNat + len.toNat) ∧
      unchangedOutside s'.obuf t.obuf ses.ipos.toNat (ses.ipos.toNat + len.toNat)

/-! ### The macro commands -/

/-- R210: with room for 40 + 284 (ilen + 1) bits COMPRESS answers OK, in every state; the session is released and OBUF
holds exactly the r0 bytes. An input above MAX_INPUT_LEN is InputTooLarge and, by R251, ends any session. -/
def Obligations.CompressCompletes : Prop :=
  ∀ (s : State) (ilen ocap : Word),
    (ilen ≤ s.maxInputLen → 40 + 284 * (ilen.toNat + 1) ≤ 8 * ocap.toNat →
      ∃ n obuf', exec (.compress ilen ocap) s =
          .next { s with session := none, obuf := obuf', resp := okResponse n 0 } ∧
        6 ≤ n ∧ n ≤ ocap.toNat ∧ obuf'.map Prod.fst = List.range n) ∧
    (s.maxInputLen < ilen →
      exec (.compress ilen ocap) s =
        .next { s with session := none, obuf := [], resp := some ⟨.failed .inputTooLarge, 0, 0⟩ })

/-- R211 (a) (b) (c) (d) (f): the output of COMPRESS is the header for ilen, the bits of LIT and legal MATCH tokens whose
expansion is the input, EOS, and fewer than 8 zero bits. -/
def Obligations.CompressEmitsTokens : Prop :=
  ∀ (s t : State) (ilen ocap n : Word), exec (.compress ilen ocap) s = .next t → t.resp = some ⟨.ok, n, 0⟩ →
    ∃ tokens, expansion tokens [] = some ((List.range ilen.toNat).map (ibufByte s.ibuf)) ∧
      n.toNat = ((wireBits ilen.toNat tokens).length + 7) / 8 ∧
      ∀ p, p < 8 * n.toNat →
        ((memLookup t.obuf (p / 8)).getD 0).getLsbD (7 - p % 8) = (wireBits ilen.toNat tokens).getD p false

/-- R220 for COMPRESS: the macro answers and leaves what its expansion into INITE, WRBITS, FINDMATCH, ENCODE, ADVANCE and
FLUSH, driven by hand and then released, answers and leaves; a failure is the failure of the unit command. -/
def Obligations.CompressIsItsExpansion : Prop :=
  ∀ (s : State) (ilen ocap : Word), ilen ≤ s.maxInputLen →
    ∃ t, handCompress ilen ocap s = .next t ∧ exec (.compress ilen ocap) s = .next { t with session := none }

/-- R216 (1) to (5): the checks on the header, in their order. -/
def Obligations.HeaderChecksInOrder : Prop :=
  ∀ (s : State) (ilen ocap : Word) (k : Failure),
    headerVerdict s.ibuf s.maxInputLen.toNat ilen.toNat ocap.toNat = some k →
    exec (.decompress ilen ocap) s =
      .next { s with session := none, obuf := [], resp := some ⟨.failed k, 0, 0⟩ }

/-- R215, R231 (log entry 8): inside DECOMPRESS a step is one turn of the loop of R215; past a header that passes its
checks, DECOMPRESS is the steps of its tokens, from the initial DEC session with the read cursor at byte 5. -/
def Obligations.DecompressIsItsSteps : Prop :=
  (∀ s : State, s.inTokenLoop = true → step s = tokenStep s) ∧
  (∀ (s : State) (ilen ocap : Word),
    headerVerdict s.ibuf s.maxInputLen.toNat ilen.toNat ocap.toNat = none →
    let opened : Session :=
      { initSession .dec ilen ocap with rbyte := 5, declared := some (BitVec.ofNat 32 (declaredLength s.ibuf)) }
    exec (.decompress ilen ocap) s =
      runTokenSteps (8 * ilen.toNat + 1) { s with session := some opened, obuf := [], resp := none })

/-- R215, R217: over a buffer that holds a header, legal LIT and MATCH tokens with the declared output, and EOS,
DECOMPRESS answers OK with the declared length and OBUF holds the expansion; the session is released, whatever stands
after EOS. -/
def Obligations.DecompressRunsTokens : Prop :=
  ∀ (s : State) (ilen ocap : Word) (tokens : List Instr) (out : List Byte), expansion tokens [] = some out →
    out.length ≤ s.maxInputLen.toNat → out.length ≤ ocap.toNat →
    (wireBits out.length tokens).length ≤ 8 * ilen.toNat →
    ibufBits s.ibuf 0 (wireBits out.length tokens).length = wireBits out.length tokens →
    exec (.decompress ilen ocap) s =
      .next { s with session := none, obuf := (List.range out.length).zip out, resp := okResponse out.length 0 }

/-- R215, R231, R250: DECOMPRESS always ends, with OK or a failure and no session. -/
def Obligations.DecompressAlwaysEnds : Prop :=
  ∀ (s : State) (ilen ocap : Word),
    ∃ obuf' r, exec (.decompress ilen ocap) s = .next { s with session := none, obuf := obuf', resp := some r } ∧
      (r.rsp = .ok ∨ (∃ k, r = ⟨.failed k, 0, 0⟩) ∧ obuf' = [])

/-- R223: DECOMPRESS answers OK only with the declared length, and OBUF then holds that many bytes; COMPRESS writes the
tag and ILEN in the header. -/
def Obligations.HeaderGivesLength : Prop :=
  (∀ (s t : State) (ilen ocap r0 r1 : Word), exec (.decompress ilen ocap) s = .next t →
    t.resp = some ⟨.ok, r0, r1⟩ →
    r0.toNat = declaredLength s.ibuf ∧ t.obuf.map Prod.fst = List.range r0.toNat) ∧
  (∀ (s t : State) (ilen ocap r0 r1 : Word), exec (.compress ilen ocap) s = .next t →
    t.resp = some ⟨.ok, r0, r1⟩ →
    memLookup t.obuf 0 = some 0x01 ∧
      ∀ i, i < 4 → memLookup t.obuf (1 + i) = some (ilen.extractLsb' (24 - 8 * i) 8))

/-- R222: each macro command is a function of IBUF[0 .. ilen-1], ilen and ocap, whatever session there was before, and
ocap decides only whether the result is AllocationFailure, never the bytes: two COMPRESS that answer OK give the same, and
so do two DECOMPRESS of which neither answers AllocationFailure, which none does whose ocap is not below the declared
length. -/
def Obligations.MacrosIgnoreHistory : Prop :=
  ∀ (s s' : State) (ilen : Word), (∀ a, a < ilen.toNat → ibufByte s.ibuf a = ibufByte s'.ibuf a) →
    s.maxInputLen = s'.maxInputLen →
    (∀ ocap, ∃ obuf' r,
      exec (.compress ilen ocap) s = .next { s with session := none, obuf := obuf', resp := r } ∧
      exec (.compress ilen ocap) s' = .next { s' with session := none, obuf := obuf', resp := r }) ∧
    (∀ ocap, ∃ obuf' r,
      exec (.decompress ilen ocap) s = .next { s with session := none, obuf := obuf', resp := r } ∧
      exec (.decompress ilen ocap) s' = .next { s' with session := none, obuf := obuf', resp := r }) ∧
    (∀ ocap ocap' t t' r r', ilen ≤ s.maxInputLen →
      exec (.compress ilen ocap) s = .next t → exec (.compress ilen ocap') s' = .next t' →
      t.resp = some r → t'.resp = some r' →
      (r.rsp = .ok ∨ r.rsp = .failed .allocationFailure) ∧
      (r.rsp = .ok → r'.rsp = .ok → r = r' ∧ t.obuf = t'.obuf)) ∧
    (∀ ocap ocap' t t' r r',
      exec (.decompress ilen ocap) s = .next t → exec (.decompress ilen ocap') s = .next t' →
      t.resp = some r → t'.resp = some r' →
      (declaredLength s.ibuf ≤ ocap.toNat → r.rsp ≠ .failed .allocationFailure) ∧
      (r.rsp ≠ .failed .allocationFailure → r'.rsp ≠ .failed .allocationFailure → r = r' ∧ t.obuf = t'.obuf))

/-- R221, the round trip: DECOMPRESS over what COMPRESS gave answers OK with the length and the bytes of the input. -/
def Obligations.RoundTrip : Prop :=
  ∀ (s t : State) (n ocap m : Word), exec (.compress n ocap) s = .next t → t.resp = some ⟨.ok, m, 0⟩ →
    ∀ (s' : State) (ocap' : Word), n ≤ s'.maxInputLen → n ≤ ocap' → carriedOver t.obuf s'.ibuf m.toNat →
      exec (.decompress m ocap') s' =
        .next { s' with
          session := none, obuf := (List.range n.toNat).map (fun a => (a, ibufByte s.ibuf a)),
          resp := some ⟨.ok, n, 0⟩ }

/-- R224: a compressed buffer cut short is UnexpectedEndOfStream, or, past its header and with too little room,
AllocationFailure. -/
def Obligations.TruncationDetected : Prop :=
  ∀ (s t : State) (n ocap m : Word), exec (.compress n ocap) s = .next t → t.resp = some ⟨.ok, m, 0⟩ →
    ∀ (s' : State) (m' ocap' : Word), m' < m → n ≤ s'.maxInputLen → carriedOver t.obuf s'.ibuf m'.toNat →
      (n ≤ ocap' →
        exec (.decompress m' ocap') s' =
          .next { s' with session := none, obuf := [], resp := some ⟨.failed .unexpectedEndOfStream, 0, 0⟩ }) ∧
      (ocap' < n → 5 ≤ m'.toNat →
        exec (.decompress m' ocap') s' =
          .next { s' with session := none, obuf := [], resp := some ⟨.failed .allocationFailure, 0, 0⟩ })

/-! ### Tokens -/

/-- R215, R216 (7), R217: LIT inside DECOMPRESS: MalformedHeader when the declared length is reached, else one byte
appended. That no response is given inside the loop is log entry 8. -/
def Obligations.LitToken : Prop :=
  ∀ (s : State) (ses : Session) (b : Byte) (total : Word), s.decSession ses → ses.declared = some total →
    (ses.olen = total →
      exec (.lit b) s =
        .next { s with session := none, obuf := [], resp := some ⟨.failed .malformedHeader, 0, 0⟩ }) ∧
    (ses.olen ≠ total → ses.olen < ses.ocap →
      ∃ ses' obuf', exec (.lit b) s = .next { s with session := some ses', obuf := obuf' } ∧
        byteAppended ses s.obuf b ses' obuf') ∧
    (ses.olen ≠ total → ses.ocap ≤ ses.olen →
      exec (.lit b) s =
        .next { s with session := none, obuf := [], resp := some ⟨.failed .allocationFailure, 0, 0⟩ })

/-- R102, R215, R216 (9) (10), R217: MATCH.L3 to MATCH.L18 inside DECOMPRESS: the distance is residual + 1; LimitExceeded
beyond the window, then MalformedHeader beyond the declared length, else the copy. -/
def Obligations.MatchTokens : Prop :=
  ∀ (i : Instr) (len : Nat) (residual : Residual) (s : State) (ses : Session) (total : Word),
    matchOf i = some (len, residual) → s.decSession ses → ses.declared = some total →
    (fill ses < residual.toNat + 1 →
      exec i s = .next { s with session := none, obuf := [], resp := some ⟨.failed .limitExceeded, 0, 0⟩ }) ∧
    (residual.toNat + 1 ≤ fill ses → total.toNat < ses.olen.toNat + len →
      exec i s = .next { s with session := none, obuf := [], resp := some ⟨.failed .malformedHeader, 0, 0⟩ }) ∧
    (residual.toNat + 1 ≤ fill ses → ses.olen.toNat + len ≤ total.toNat → total.toNat ≤ ses.ocap.toNat →
      ses.wpos = ses.olen →
      ∃ ses' obuf', exec i s = .next { s with session := some ses', obuf := obuf' } ∧
        bytesCopied ses s.obuf (residual.toNat + 1) len ses' obuf')

/-- R215, R216 (11), R217: EOS inside DECOMPRESS: the session is released, OK with r0 = OLEN, when the declared length is
reached; else MalformedHeader. -/
def Obligations.EosToken : Prop :=
  ∀ (s : State) (ses : Session) (total : Word), s.decSession ses → ses.declared = some total →
    (ses.olen = total →
      exec .eos s = .next { s with session := none, resp := okResponse ses.olen.toNat 0 }) ∧
    (ses.olen ≠ total →
      exec .eos s =
        .next { s with session := none, obuf := [], resp := some ⟨.failed .malformedHeader, 0, 0⟩ })

/-- The model's choice of log entry 9, after R110, R217 and R220: in a DEC session outside DECOMPRESS a token is the unit
command it stands for; without a DEC session it is Rejected. -/
def Obligations.HandDrivenTokens : Prop :=
  ∀ s : State,
    (∀ ses, s.decSession ses → ses.declared = none →
      (∀ b, exec (.lit b) s = exec (.putlit b) s) ∧
      (∀ i len residual, matchOf i = some (len, residual) →
        exec i s = exec (.copy (BitVec.ofNat 32 (residual.toNat + 1)) (BitVec.ofNat 32 len)) s) ∧
      exec .eos s = .next { s with resp := okResponse 0 0 }) ∧
    (s.lacks .dec → ∀ i, isCommand i = false → exec i s = .next { s with resp := some ⟨.rejected, 0, 0⟩ })

/-! ### The whole machine -/

/-- R250: a command that fails leaves no session, no byte of OBUF that holds a value, and the kind as the response, with
both results 0; nothing else has changed. -/
def Obligations.FailureReleasesSession : Prop :=
  ∀ (i : Instr) (s t : State) (k : Failure) (r0 r1 : Word), isCommand i = true →
    exec i s = .next t → t.resp = some ⟨.failed k, r0, r1⟩ →
    t = { s with session := none, obuf := [], resp := some ⟨.failed k, 0, 0⟩ }

/-- R255: Rejected changes no register, no memory and no session state, and both results are 0. -/
def Obligations.RejectedChangesNothing : Prop :=
  ∀ (i : Instr) (s t : State) (r0 r1 : Word), isCommand i = true →
    exec i s = .next t → t.resp = some ⟨.rejected, r0, r1⟩ → t = { s with resp := some ⟨.rejected, 0, 0⟩ }

/-- R206, R245 (2) (3): the commands that are Rejected are exactly those not legal in the present state or with an
operand outside the protocol range. That Rejected is a next state is log entry 18. -/
def Obligations.RejectedExactly : Prop :=
  ∀ (i : Instr) (s : State), isCommand i = true →
    ((∃ t r0 r1, exec i s = .next t ∧ t.resp = some ⟨.rejected, r0, r1⟩) ↔ accepted i s = false)

/-- R92, R240: the response record: its three fields, and the code of each response. R243: the responses each command
can give, in a state that keeps the invariants; InputTooLarge only under a MAX_INPUT_LEN below 2^32 - 1; the codes 7 to
14 never (R92). -/
def Obligations.ResponsesByCommand : Prop :=
  (∀ r : Response,
    (responseRecord r).extractLsb' 64 4 = rspCode r.rsp ∧ (responseRecord r).extractLsb' 32 32 = r.r0 ∧
    (responseRecord r).extractLsb' 0 32 = r.r1) ∧
  rspCode .ok = 0 ∧ rspCode (.failed .allocationFailure) = 1 ∧ rspCode (.failed .inputTooLarge) = 2 ∧
  rspCode (.failed .limitExceeded) = 3 ∧ rspCode (.failed .unexpectedEndOfStream) = 4 ∧
  rspCode (.failed .malformedHeader) = 5 ∧ rspCode (.failed .invalidSymbol) = 6 ∧ rspCode .rejected = 15 ∧
  ∀ (i : Instr) (s : State), isCommand i = true → s.Inv →
    ∃ t r, exec i s = .next t ∧ t.resp = some r ∧ mayAnswer i r.rsp = true ∧
      (r.rsp = .failed .inputTooLarge → s.maxInputLen < 0xFFFFFFFF) ∧
      (((responseRecord r).extractLsb' 64 4).toNat ≤ 6 ∨ (responseRecord r).extractLsb' 64 4 = 15)

/-- R45, R73, R24, R258: what each instruction that leaves a session open may write; IBUF, MAX_INPUT_LEN and the host's
acts to come are never written by any. -/
def Obligations.InstructionsWriteOnly : Prop :=
  ∀ (i : Instr) (s t : State), exec i s = .next t →
    t.ibuf = s.ibuf ∧ t.maxInputLen = s.maxInputLen ∧ t.port = s.port ∧
    ∀ ses ses', s.session = some ses → t.session = some ses' → wroteOnly i ses ses' s.obuf t.obuf

/-! ### Invariants -/

/-- The invariant holds after reset. -/
def Obligations.InvHoldsAtReset : Prop :=
  State.reset.Inv

/-- R25, R26, R30, R31, R34, R36, R37, R42: every step, from every state that meets the invariants, gives a state that
meets them. -/
def Obligations.StepKeepsInv : Prop :=
  ∀ s t : State, s.Inv → step s = .next t → t.Inv

/-- R42 for the compressing side: no instruction breaks the equality of the window and the input already tokenized. -/
def Obligations.ExecKeepsEncWindow : Prop :=
  ∀ (i : Instr) (s t : State), s.encWindowInv → exec i s = .next t → t.encWindowInv

/-- R11, R292: under the invariants every step goes on to a next state; no instruction is refused and none is stuck. That
the one stop of the model, nodeWalkStuck, needs a node memory that breaks them is log entry 12. -/
def Obligations.StepAlwaysAnswers : Prop :=
  ∀ s : State, s.Inv → ∃ t, step s = .next t

end
end

