-- ==== Sys2Proof/Laws/Memory.lean ====
section
/-! SUPPORT. The laws of the byte spaces: a read after a write, and the canonical form. -/

namespace Sys2Proof.Machine

@[simp] theorem memLookup_nil (a : Nat) : memLookup [] a = none := rfl

theorem memLookup_memWrite_same (m : Memory) (a : Nat) (v : Byte) : memLookup (memWrite m a v) a = some v := by
  induction m with
  | nil => simp [memWrite, memLookup]
  | cons c rest ih =>
    obtain ⟨b, u⟩ := c
    unfold memWrite
    by_cases h1 : a < b
    · simp [h1, memLookup]
    · by_cases h2 : a = b
      · simp [h2, memLookup]
      · simp [h1, h2, memLookup, ih]

theorem memLookup_memWrite_other (m : Memory) {a a' : Nat} (v : Byte) (h : a' ≠ a) :
    memLookup (memWrite m a v) a' = memLookup m a' := by
  induction m with
  | nil => simp [memWrite, memLookup, h]
  | cons c rest ih =>
    obtain ⟨b, u⟩ := c
    unfold memWrite
    by_cases h1 : a < b
    · simp [h1, memLookup, h]
    · by_cases h2 : a = b
      · subst h2; simp [memLookup, h]
      · simp [h1, h2, memLookup, ih]

/-- A read after a write: the written byte at its address, every other address as before. -/
theorem memLookup_memWrite (m : Memory) (a a' : Nat) (v : Byte) :
    memLookup (memWrite m a v) a' = if a' = a then some v else memLookup m a' := by
  by_cases h : a' = a
  · subst h; simp [memLookup_memWrite_same]
  · simp [h, memLookup_memWrite_other]

theorem mem_memWrite_key {m : Memory} {a : Nat} {v : Byte} {c : Host.Cell} (h : c ∈ memWrite m a v) :
    c.1 = a ∨ c ∈ m := by
  induction m with
  | nil => simp only [memWrite, List.mem_singleton] at h; exact .inl (by rw [h])
  | cons d rest ih =>
    obtain ⟨b, u⟩ := d
    unfold memWrite at h
    by_cases h1 : a < b
    · rw [if_pos h1] at h
      rcases List.mem_cons.1 h with h | h
      · exact .inl (by rw [h])
      · exact .inr h
    · by_cases h2 : a = b
      · rw [if_neg h1, if_pos h2] at h
        rcases List.mem_cons.1 h with h | h
        · exact .inl (by rw [h])
        · exact .inr (List.mem_cons_of_mem _ h)
      · rw [if_neg h1, if_neg h2] at h
        rcases List.mem_cons.1 h with h | h
        · exact .inr (by rw [h]; exact List.mem_cons_self)
        · exact (ih h).imp_right (List.mem_cons_of_mem _)

/-- A store keeps the canonical form. -/
theorem memWrite_wf {m : Memory} (h : m.wf) (a : Nat) (v : Byte) : (memWrite m a v).wf := by
  induction m with
  | nil => simp [Memory.wf, memWrite]
  | cons c rest ih =>
    obtain ⟨b, u⟩ := c
    obtain ⟨hb, hrest⟩ := List.pairwise_cons.1 h
    unfold memWrite
    by_cases h1 : a < b
    · rw [if_pos h1]
      refine List.pairwise_cons.2 ⟨fun d hd => ?_, h⟩
      rcases List.mem_cons.1 hd with rfl | hd
      · exact h1
      · exact Nat.lt_trans h1 (hb d hd)
    · by_cases h2 : a = b
      · rw [if_neg h1, if_pos h2]
        exact List.pairwise_cons.2 ⟨fun d hd => by subst h2; exact hb d hd, hrest⟩
      · rw [if_neg h1, if_neg h2]
        refine List.pairwise_cons.2 ⟨fun d hd => ?_, ih hrest⟩
        rcases mem_memWrite_key hd with hk | hk
        · rw [hk]; exact Nat.lt_of_le_of_ne (Nat.le_of_not_lt h1) (fun e => h2 e.symm)
        · exact hb d hk

theorem placeBytes_wf (bs : List Byte) {m : Memory} (h : m.wf) (a : Nat) : (placeBytes bs a m).wf := by
  induction bs generalizing a m with
  | nil => exact h
  | cons b rest ih => exact ih (memWrite_wf h a b) (a + 1)

/-- Canonical memories that hold the same bytes are equal as data. -/
theorem memory_ext {m m' : Memory} (h : m.wf) (h' : m'.wf) (e : ∀ a, memLookup m a = memLookup m' a) : m = m' := by
  have none_of_lt : ∀ {n : Memory} {a : Nat}, (∀ c ∈ n, a < c.1) → memLookup n a = none := by
    intro n a hn
    induction n with
    | nil => rfl
    | cons c rest ih =>
      have := hn c List.mem_cons_self
      simp only [memLookup]
      rw [if_neg (by omega)]
      exact ih fun d hd => hn d (List.mem_cons_of_mem _ hd)
  induction m generalizing m' with
  | nil =>
    cases m' with
    | nil => rfl
    | cons c rest => have := e c.1; simp [memLookup] at this
  | cons c rest ih =>
    obtain ⟨b, u⟩ := c
    obtain ⟨hb, hrest⟩ := List.pairwise_cons.1 h
    cases m' with
    | nil => have := e b; simp [memLookup] at this
    | cons c' rest' =>
      obtain ⟨b', u'⟩ := c'
      obtain ⟨hb', hrest'⟩ := List.pairwise_cons.1 h'
      have key : b = b' := by
        rcases Nat.lt_trichotomy b b' with hlt | heq | hgt
        · have := e b
          rw [none_of_lt (n := (b', u') :: rest') (by
            intro d hd
            rcases List.mem_cons.1 hd with rfl | hd
            · exact hlt
            · exact Nat.lt_trans hlt (hb' d hd))] at this
          simp [memLookup] at this
        · exact heq
        · have := e b'
          rw [none_of_lt (n := (b, u) :: rest) (by
            intro d hd
            rcases List.mem_cons.1 hd with rfl | hd
            · exact hgt
            · exact Nat.lt_trans hgt (hb d hd))] at this
          simp [memLookup] at this
      subst key
      have hu : u = u' := by have := e b; simpa [memLookup] using this
      subst hu
      refine congrArg _ (ih hrest hrest' fun a => ?_)
      by_cases ha : a = b
      · subst ha; rw [none_of_lt hb, none_of_lt hb']
      · have := e a; simpa [memLookup, ha] using this

theorem reset_memories_wf : State.reset.ibuf.wf ∧ State.reset.obuf.wf :=
  ⟨List.Pairwise.nil, List.Pairwise.nil⟩

end Sys2Proof.Machine
end

