-- ==== Sys2Proof/Laws/State.lean ====
section
/-! SUPPORT. One lemma per field of State for each named update of the state, true by rfl. -/

namespace Sys2Proof.Machine

@[simp] theorem answer_session (r0 r1 : Word) (s : State) : (answer r0 r1 s).session = s.session := rfl
@[simp] theorem answer_ibuf (r0 r1 : Word) (s : State) : (answer r0 r1 s).ibuf = s.ibuf := rfl
@[simp] theorem answer_obuf (r0 r1 : Word) (s : State) : (answer r0 r1 s).obuf = s.obuf := rfl
@[simp] theorem answer_maxInputLen (r0 r1 : Word) (s : State) : (answer r0 r1 s).maxInputLen = s.maxInputLen := rfl
@[simp] theorem answer_port (r0 r1 : Word) (s : State) : (answer r0 r1 s).port = s.port := rfl
@[simp] theorem answer_resp (r0 r1 : Word) (s : State) : (answer r0 r1 s).resp = some ⟨.ok, r0, r1⟩ := rfl

@[simp] theorem reject_session (s : State) : (reject s).session = s.session := rfl
@[simp] theorem reject_ibuf (s : State) : (reject s).ibuf = s.ibuf := rfl
@[simp] theorem reject_obuf (s : State) : (reject s).obuf = s.obuf := rfl
@[simp] theorem reject_maxInputLen (s : State) : (reject s).maxInputLen = s.maxInputLen := rfl
@[simp] theorem reject_port (s : State) : (reject s).port = s.port := rfl
@[simp] theorem reject_resp (s : State) : (reject s).resp = some ⟨.rejected, 0, 0⟩ := rfl

@[simp] theorem fail_session (k : Failure) (s : State) : (fail k s).session = none := rfl
@[simp] theorem fail_ibuf (k : Failure) (s : State) : (fail k s).ibuf = s.ibuf := rfl
@[simp] theorem fail_obuf (k : Failure) (s : State) : (fail k s).obuf = [] := rfl
@[simp] theorem fail_maxInputLen (k : Failure) (s : State) : (fail k s).maxInputLen = s.maxInputLen := rfl
@[simp] theorem fail_port (k : Failure) (s : State) : (fail k s).port = s.port := rfl
@[simp] theorem fail_resp (k : Failure) (s : State) : (fail k s).resp = some ⟨.failed k, 0, 0⟩ := rfl

@[simp] theorem openSession_session (d : Dir) (m n : Word) (s : State) :
    (openSession d m n s).session = some (initSession d m n) := rfl
@[simp] theorem openSession_ibuf (d : Dir) (m n : Word) (s : State) : (openSession d m n s).ibuf = s.ibuf := rfl
@[simp] theorem openSession_obuf (d : Dir) (m n : Word) (s : State) : (openSession d m n s).obuf = [] := rfl
@[simp] theorem openSession_maxInputLen (d : Dir) (m n : Word) (s : State) :
    (openSession d m n s).maxInputLen = s.maxInputLen := rfl
@[simp] theorem openSession_port (d : Dir) (m n : Word) (s : State) : (openSession d m n s).port = s.port := rfl
@[simp] theorem openSession_resp (d : Dir) (m n : Word) (s : State) : (openSession d m n s).resp = s.resp := rfl

@[simp] theorem resetBlock_session (s : State) : (resetBlock s).session = none := rfl
@[simp] theorem resetBlock_ibuf (s : State) : (resetBlock s).ibuf = s.ibuf := rfl
@[simp] theorem resetBlock_obuf (s : State) : (resetBlock s).obuf = [] := rfl
@[simp] theorem resetBlock_maxInputLen (s : State) : (resetBlock s).maxInputLen = s.maxInputLen := rfl
@[simp] theorem resetBlock_port (s : State) : (resetBlock s).port = s.port := rfl
@[simp] theorem resetBlock_resp (s : State) : (resetBlock s).resp = none := rfl

@[simp] theorem placeByte_session (a : Word) (b : Byte) (s : State) : (placeByte a b s).session = s.session := rfl
@[simp] theorem placeByte_ibuf (a : Word) (b : Byte) (s : State) :
    (placeByte a b s).ibuf = memWrite s.ibuf a.toNat b := rfl
@[simp] theorem placeByte_obuf (a : Word) (b : Byte) (s : State) : (placeByte a b s).obuf = s.obuf := rfl
@[simp] theorem placeByte_maxInputLen (a : Word) (b : Byte) (s : State) :
    (placeByte a b s).maxInputLen = s.maxInputLen := rfl
@[simp] theorem placeByte_port (a : Word) (b : Byte) (s : State) : (placeByte a b s).port = s.port := rfl
@[simp] theorem placeByte_resp (a : Word) (b : Byte) (s : State) : (placeByte a b s).resp = s.resp := rfl

@[simp] theorem initSession_dir (d : Dir) (m n : Word) : (initSession d m n).dir = d := rfl
@[simp] theorem initSession_ilen (d : Dir) (m n : Word) : (initSession d m n).ilen = m := rfl
@[simp] theorem initSession_ocap (d : Dir) (m n : Word) : (initSession d m n).ocap = n := rfl
@[simp] theorem initSession_olen (d : Dir) (m n : Word) : (initSession d m n).olen = 0 := rfl
@[simp] theorem initSession_wacc (d : Dir) (m n : Word) : (initSession d m n).wacc = 0 := rfl
@[simp] theorem initSession_wnb (d : Dir) (m n : Word) : (initSession d m n).wnb = 0 := rfl
@[simp] theorem initSession_rbyte (d : Dir) (m n : Word) : (initSession d m n).rbyte = 0 := rfl
@[simp] theorem initSession_rbit (d : Dir) (m n : Word) : (initSession d m n).rbit = 0 := rfl
@[simp] theorem initSession_ipos (d : Dir) (m n : Word) : (initSession d m n).ipos = 0 := rfl
@[simp] theorem initSession_wpos (d : Dir) (m n : Word) : (initSession d m n).wpos = 0 := rfl
@[simp] theorem initSession_win (d : Dir) (m n : Word) : (initSession d m n).win = [] := rfl
@[simp] theorem initSession_nodes (d : Dir) (m n : Word) : (initSession d m n).nodes = initModel := rfl
@[simp] theorem initSession_declared (d : Dir) (m n : Word) : (initSession d m n).declared = none := rfl

end Sys2Proof.Machine
end

