-- ==== Sys2Proof/Laws/Ops.lean ====
section
/-! SUPPORT. Everything the sequencing and answering operations can do, said once. -/

namespace Sys2Proof.Machine

@[simp] theorem bind_done {α β : Type} (a : α) (w : Work) (f : α → Work → Res β) :
    (Res.done a w).bind f = f a w := rfl
@[simp] theorem bind_raise {α β : Type} (k : Failure) (f : α → Work → Res β) :
    (Res.raise k : Res α).bind f = .raise k := rfl
@[simp] theorem bind_stuck {α β : Type} (x : Fault) (f : α → Work → Res β) :
    (Res.stuck x : Res α).bind f = .stuck x := rfl

theorem bind_eq_done {α β : Type} {r : Res α} {f : α → Work → Res β} {b : β} {w : Work} :
    r.bind f = .done b w ↔ ∃ a w', r = .done a w' ∧ f a w' = .done b w := by
  cases r <;> simp

theorem bind_eq_raise {α β : Type} {r : Res α} {f : α → Work → Res β} {k : Failure} :
    r.bind f = .raise k ↔ r = .raise k ∨ ∃ a w', r = .done a w' ∧ f a w' = .raise k := by
  cases r <;> simp

theorem bind_eq_stuck {α β : Type} {r : Res α} {f : α → Work → Res β} {x : Fault} :
    r.bind f = .stuck x ↔ r = .stuck x ∨ ∃ a w', r = .done a w' ∧ f a w' = .stuck x := by
  cases r <;> simp

theorem bind_assoc {α β γ : Type} (r : Res α) (f : α → Work → Res β) (g : β → Work → Res γ) :
    (r.bind f).bind g = r.bind fun a w => (f a w).bind g := by
  cases r <;> rfl

/-- What a unit command's end can be, when it answers. -/
theorem settle_next {r : Res (Word × Word)} {s t : State} (h : settle r s = .next t) :
    (∃ out w, r = .done out w ∧
      t = { s with session := some w.ses, obuf := w.obuf, resp := some ⟨.ok, out.1, out.2⟩ }) ∨
    (∃ k, r = .raise k ∧ t = fail k s) := by
  cases r with
  | done out w => exact .inl ⟨out, w, rfl, by cases h; rfl⟩
  | raise k => exact .inr ⟨k, rfl, by cases h; rfl⟩
  | stuck x => cases h

/-- What a macro command's end can be, when it answers. -/
theorem settleMacro_next {r : Res Word} {s t : State} (h : settleMacro r s = .next t) :
    (∃ n w, r = .done n w ∧ t = { s with session := none, obuf := w.obuf, resp := some ⟨.ok, n, 0⟩ }) ∨
    (∃ k, r = .raise k ∧ t = fail k s) := by
  cases r with
  | done n w => exact .inl ⟨n, w, rfl, by cases h; rfl⟩
  | raise k => exact .inr ⟨k, rfl, by cases h; rfl⟩
  | stuck x => cases h

/-- What an operation inside a macro command can end in, when it goes on. -/
theorem keepGoing_next {r : Res Unit} {s t : State} (h : keepGoing r s = .next t) :
    (∃ w, r = .done () w ∧ t = { s with session := some w.ses, obuf := w.obuf }) ∨
    (∃ k, r = .raise k ∧ t = fail k s) := by
  cases r with
  | done u w => exact .inl ⟨w, rfl, by cases h; rfl⟩
  | raise k => exact .inr ⟨k, rfl, by cases h; rfl⟩
  | stuck x => cases h

/-- A command of a direction either runs in a session of that direction or is Rejected (R206). -/
theorem inSession_cases (d : Dir) (s : State) (run : Work → Out) :
    (∃ ses, s.session = some ses ∧ ses.dir = d ∧ inSession d s run = run ⟨ses, s.obuf⟩) ∨
    ((∀ ses, s.session = some ses → ses.dir ≠ d) ∧ inSession d s run = .next (reject s)) := by
  unfold inSession
  cases hs : s.session with
  | none => exact .inr ⟨fun _ h => (nomatch h), rfl⟩
  | some ses =>
    by_cases hd : ses.dir = d
    · exact .inl ⟨ses, rfl, hd, by simp [hd]⟩
    · exact .inr ⟨fun x hx => by cases hx; exact hd, by simp [hd]⟩

theorem inSession_live {d : Dir} {s : State} {ses : Session} (hs : s.session = some ses) (hd : ses.dir = d)
    (run : Work → Out) : inSession d s run = run ⟨ses, s.obuf⟩ := by
  simp [inSession, hs, hd]

theorem inSession_rejects {d : Dir} {s : State} (h : ∀ ses, s.session = some ses → ses.dir ≠ d)
    (run : Work → Out) : inSession d s run = .next (reject s) := by
  rcases inSession_cases d s run with ⟨ses, hs, hd, _⟩ | ⟨_, e⟩
  · exact absurd hd (h ses hs)
  · exact e

end Sys2Proof.Machine
end

