-- ==== Sys2Proof/Laws/Bsu.lean ====
section
/-! SUPPORT. What each operation of BSU can do, said once: its effect, its frame, and that it is never stuck. -/

namespace Sys2Proof.Machine

/-! ### Writing -/

theorem emitByte_room {w : Work} (h : w.ses.olen < w.ses.ocap) :
    emitByte w = .done ()
      { ses := { w.ses with olen := w.ses.olen + 1, wacc := 0, wnb := 0 },
        obuf := memWrite w.obuf w.ses.olen.toNat w.ses.wacc } := by
  unfold emitByte; rw [if_neg (BitVec.not_le.2 h)]

theorem emitByte_full {w : Work} (h : w.ses.ocap ≤ w.ses.olen) : emitByte w = .raise .allocationFailure := by
  unfold emitByte; rw [if_pos h]

/-- EmitByte either stores the byte or raises AllocationFailure (R130). -/
theorem emitByte_cases (w : Work) :
    (w.ses.olen < w.ses.ocap ∧ emitByte w = .done ()
      { ses := { w.ses with olen := w.ses.olen + 1, wacc := 0, wnb := 0 },
        obuf := memWrite w.obuf w.ses.olen.toNat w.ses.wacc }) ∨
    (w.ses.ocap ≤ w.ses.olen ∧ emitByte w = .raise .allocationFailure) := by
  by_cases h : w.ses.ocap ≤ w.ses.olen
  · exact .inr ⟨h, emitByte_full h⟩
  · exact .inl ⟨BitVec.not_le.1 h, emitByte_room (BitVec.not_le.1 h)⟩

/-- The registers a writer of the bit stream may change: OLEN, WACC, WNB (10_state R45). -/
def OnlyWriterMoved (ses ses' : Session) : Prop :=
  ses' = { ses with olen := ses'.olen, wacc := ses'.wacc, wnb := ses'.wnb }

theorem OnlyWriterMoved.refl (ses : Session) : OnlyWriterMoved ses ses := rfl

theorem OnlyWriterMoved.trans {a b c : Session} (h1 : OnlyWriterMoved a b) (h2 : OnlyWriterMoved b c) :
    OnlyWriterMoved a c := by
  unfold OnlyWriterMoved at *; rw [h2, h1]

/-- One bit written: a frame, and bytes of OBUF below OLEN stay. -/
theorem writeBit_done {b : Bool} {w w' : Work} (h : writeBit b w = .done () w') :
    OnlyWriterMoved w.ses w'.ses ∧ (w.obuf.wf → w'.obuf.wf) ∧
      ((w'.ses.olen = w.ses.olen ∧ w'.obuf = w.obuf) ∨
       (w.ses.olen < w.ses.ocap ∧ w'.ses.olen = w.ses.olen + 1 ∧
          ∃ v, w'.obuf = memWrite w.obuf w.ses.olen.toNat v)) := by
  unfold writeBit at h
  dsimp only at h
  split at h
  · rcases emitByte_cases { w with ses := { w.ses with wacc := w.ses.wacc |||
      ((BitVec.ofBool b).setWidth 8 <<< (7 - w.ses.wnb.toNat)) } } with ⟨hr, he⟩ | ⟨_, he⟩
    · rw [he] at h
      cases h
      exact ⟨rfl, fun hw => memWrite_wf hw _ _, .inr ⟨hr, rfl, _, rfl⟩⟩
    · rw [he] at h; cases h
  · cases h
    exact ⟨rfl, id, .inl ⟨rfl, rfl⟩⟩

theorem writeBit_raise {b : Bool} {w : Work} {k : Failure} (h : writeBit b w = .raise k) :
    k = .allocationFailure := by
  unfold writeBit at h
  dsimp only at h
  split at h
  · unfold emitByte at h; split at h <;> cases h; rfl
  · cases h

theorem writeBit_not_stuck (b : Bool) (w : Work) (x : Fault) : writeBit b w ≠ .stuck x := by
  unfold writeBit emitByte; dsimp only; split
  · split <;> simp
  · simp

theorem writeBits_not_stuck (n : Nat) (v : Word) (w : Work) (x : Fault) : writeBits n v w ≠ .stuck x := by
  induction n generalizing w with
  | zero => simp [writeBits]
  | succ n ih =>
    intro h
    rcases bind_eq_stuck.1 h with h | ⟨_, w', _, h⟩
    · exact writeBit_not_stuck _ _ _ h
    · exact ih w' h

theorem writeBits_raise {n : Nat} {v : Word} {w : Work} {k : Failure} (h : writeBits n v w = .raise k) :
    k = .allocationFailure := by
  induction n generalizing w with
  | zero => cases h
  | succ n ih =>
    rcases bind_eq_raise.1 h with h | ⟨_, w', _, h⟩
    · exact writeBit_raise h
    · exact ih h

theorem writeBits_frame {n : Nat} {v : Word} {w w' : Work} (h : writeBits n v w = .done () w') :
    OnlyWriterMoved w.ses w'.ses ∧ (w.obuf.wf → w'.obuf.wf) := by
  induction n generalizing w with
  | zero => cases h; exact ⟨.refl _, id⟩
  | succ n ih =>
    obtain ⟨_, w1, h1, h2⟩ := bind_eq_done.1 h
    obtain ⟨f1, g1, _⟩ := writeBit_done h1
    obtain ⟨f2, g2⟩ := ih h2
    exact ⟨f1.trans f2, fun hw => g2 (g1 hw)⟩

/-- FLUSH: nothing at a byte boundary, else the padded byte goes out (R132). -/
theorem flushBits_cases (w : Work) :
    (w.ses.wnb = 0 ∧ flushBits w = .done () w) ∨ (w.ses.wnb ≠ 0 ∧ flushBits w = emitByte w) := by
  by_cases h : w.ses.wnb = 0
  · exact .inl ⟨h, by simp [flushBits, h]⟩
  · refine .inr ⟨h, ?_⟩
    unfold flushBits
    rw [if_pos]
    exact Nat.pos_of_ne_zero fun e => h (BitVec.eq_of_toNat_eq (by simpa using e))

/-! ### Reading -/

/-- The registers a reader may change: RBYTE, RBIT (10_state R45). -/
def OnlyReaderMoved (ses ses' : Session) : Prop :=
  ses' = { ses with rbyte := ses'.rbyte, rbit := ses'.rbit }

theorem OnlyReaderMoved.refl (ses : Session) : OnlyReaderMoved ses ses := rfl

theorem OnlyReaderMoved.trans {a b c : Session} (h1 : OnlyReaderMoved a b) (h2 : OnlyReaderMoved b c) :
    OnlyReaderMoved a c := by
  unfold OnlyReaderMoved at *; rw [h2, h1]

theorem readBit_frame (ibuf : Memory) (ses : Session) : OnlyReaderMoved ses (readBit ibuf ses).2 := by
  unfold readBit OnlyReaderMoved; dsimp only; split <;> rfl

/-- The read cursor moves by one bit (R30, R133). -/
theorem readBit_pos {ibuf : Memory} {ses : Session} (h : ses.rbyte.toNat + 1 < 2 ^ 32) :
    readPos (readBit ibuf ses).2 = readPos ses + 1 := by
  unfold readBit readPos; dsimp only
  split
  · rename_i h7
    have e : (ses.rbyte + 1).toNat = ses.rbyte.toNat + 1 := by
      rw [BitVec.toNat_add, show (1 : Word).toNat = 1 from rfl]; omega
    simp only [e, h7]; simp; omega
  · rename_i h7
    have hb := ses.rbit.isLt
    have hn : ses.rbit.toNat ≠ 7 := fun e => h7 (BitVec.eq_of_toNat_eq (by simpa using e))
    have e : (ses.rbit + 1).toNat = ses.rbit.toNat + 1 := by
      rw [BitVec.toNat_add, show (1 : BitVec 3).toNat = 1 from rfl]; omega
    simp only [e]; omega

theorem readLoop_frame (ibuf : Memory) (n : Nat) (v : Word) (ses : Session) :
    OnlyReaderMoved ses (readLoop ibuf n v ses).2 := by
  induction n generalizing v ses with
  | zero => exact .refl _
  | succ n ih => exact (readBit_frame ibuf ses).trans (ih _ _)

/-- RDBITS either reads its bits and moves the read cursor, or raises UnexpectedEndOfStream (R133). -/
theorem readBits_cases (ibuf : Memory) (count : Nat) (w : Work) :
    (count ≤ unreadBits w.ses ∧ readBits ibuf count w =
      .done (readLoop ibuf count 0 w.ses).1 { w with ses := (readLoop ibuf count 0 w.ses).2 }) ∨
    (unreadBits w.ses < count ∧ readBits ibuf count w = .raise .unexpectedEndOfStream) := by
  by_cases h : unreadBits w.ses < count
  · exact .inr ⟨h, by simp [readBits, h]⟩
  · exact .inl ⟨Nat.le_of_not_lt h, by simp [readBits, h]⟩

theorem readBits_done {ibuf : Memory} {count : Nat} {w w' : Work} {v : Word}
    (h : readBits ibuf count w = .done v w') :
    OnlyReaderMoved w.ses w'.ses ∧ w'.obuf = w.obuf ∧ count ≤ unreadBits w.ses := by
  rcases readBits_cases ibuf count w with ⟨hu, he⟩ | ⟨_, he⟩
  · rw [he] at h; cases h; exact ⟨readLoop_frame _ _ _ _, rfl, hu⟩
  · rw [he] at h; cases h

theorem readBits_raise {ibuf : Memory} {count : Nat} {w : Work} {k : Failure}
    (h : readBits ibuf count w = .raise k) : k = .unexpectedEndOfStream := by
  rcases readBits_cases ibuf count w with ⟨_, he⟩ | ⟨_, he⟩ <;> rw [he] at h <;> cases h
  rfl

theorem readBits_not_stuck (ibuf : Memory) (count : Nat) (w : Work) (x : Fault) : readBits ibuf count w ≠ .stuck x := by
  rcases readBits_cases ibuf count w with ⟨_, he⟩ | ⟨_, he⟩ <;> rw [he] <;> simp

end Sys2Proof.Machine
end

