-- ==== Sys2Proof/Laws/Ahu.lean ====
section
/-! SUPPORT. What the operations of AHU can do, said once. -/

namespace Sys2Proof.Machine

/-! ### Build and Update -/

theorem build_getElem (counts : List Nat) (n : Nat) (h : n < Config.nnode) :
    (build counts)[n] = builtNode counts (mergesOf counts) n := by
  simp [build, Vector.getElem_mk]

/-- The leaf counts of a tree are the ones it was built from: Build reads and keeps CNT[0..272] alone (R151, R158 (e)). -/
theorem leafCounts_build {counts : List Nat} (hl : counts.length = Config.nsym) (hc : ∀ c ∈ counts, c < 65536) :
    leafCounts (build counts) = counts := by
  apply List.ext_getElem
  · simp only [leafCounts, build, List.length_map, List.length_take, List.length_range, hl]; decide
  · intro i h1 h2
    have hi : i < 273 := by simpa [hl] using h2
    simp only [leafCounts, build, List.getElem_map, List.getElem_take, List.getElem_range]
    simp only [builtNode, if_pos hi]
    rw [BitVec.toNat_ofNat, List.getD_eq_getElem?_getD, List.getElem?_eq_getElem h2]
    exact Nat.mod_eq_of_lt (hc _ (List.getElem_mem h2))

theorem leafCounts_length (nodes : NodeMemory) : (leafCounts nodes).length = Config.nsym := by
  simp [leafCounts]; decide

theorem updatedCounts_length (sym : Nat) (counts : List Nat) : (updatedCounts sym counts).length = counts.length := by
  unfold updatedCounts rescale
  dsimp only
  split <;> simp

theorem initModel_leafCounts : leafCounts initModel = List.replicate Config.nsym Config.initCount :=
  leafCounts_build (by simp) (by intro c hc; rw [List.eq_of_mem_replicate hc]; decide)

/-- The initial tree is Build of its own leaf counts (10_state R37 (a)). -/
theorem initModel_built : initModel = build (leafCounts initModel) := by
  rw [initModel_leafCounts]; rfl

/-! ### ENCODE -/

theorem writeCode_frame {bits : List Bool} {w w' : Work} (h : writeCode bits w = .done () w') :
    OnlyWriterMoved w.ses w'.ses ∧ (w.obuf.wf → w'.obuf.wf) := by
  induction bits generalizing w with
  | nil => cases h; exact ⟨.refl _, id⟩
  | cons b bits ih =>
    obtain ⟨_, w1, h1, h2⟩ := bind_eq_done.1 h
    obtain ⟨f1, g1, _⟩ := writeBit_done h1
    obtain ⟨f2, g2⟩ := ih h2
    exact ⟨f1.trans f2, fun hw => g2 (g1 hw)⟩

theorem writeCode_not_stuck (bits : List Bool) (w : Work) (x : Fault) : writeCode bits w ≠ .stuck x := by
  induction bits generalizing w with
  | nil => simp [writeCode]
  | cons b bits ih =>
    intro h
    rcases bind_eq_stuck.1 h with h | ⟨_, w', _, h⟩
    · exact writeBit_not_stuck _ _ _ h
    · exact ih w' h

theorem writeCode_raise {bits : List Bool} {w : Work} {k : Failure} (h : writeCode bits w = .raise k) :
    k = .allocationFailure := by
  induction bits generalizing w with
  | nil => cases h
  | cons b bits ih =>
    rcases bind_eq_raise.1 h with h | ⟨_, w', _, h⟩
    · exact writeBit_raise h
    · exact ih h

/-- ENCODE that succeeds: the symbol is one, its code came from the tree before the update, and beside the writer only
the node memory changed (R155). -/
theorem encodeSymbol_done {sym n : Nat} {w w' : Work} (h : encodeSymbol sym w = .done n w') :
    ∃ bits w1, sym < Config.nsym ∧ code w.ses.nodes sym = some bits ∧ n = bits.length ∧
      writeCode bits w = .done () w1 ∧ w1.ses.nodes = w.ses.nodes ∧
      w' = { w1 with ses := { w1.ses with nodes := update sym w.ses.nodes } } := by
  unfold encodeSymbol at h
  split at h
  · cases h
  · rename_i hs
    split at h
    · cases h
    · rename_i bits hb
      obtain ⟨_, w1, h1, h2⟩ := bind_eq_done.1 h
      have hn : w1.ses.nodes = w.ses.nodes := by rw [(writeCode_frame h1).1]
      cases h2
      exact ⟨bits, w1, Nat.lt_of_not_le hs, hb, rfl, h1, hn, by rw [hn]⟩

/-- ENCODE fails with InvalidSymbol exactly on an index that is no symbol, else with AllocationFailure (R155). -/
theorem encodeSymbol_raise {sym : Nat} {w : Work} {k : Failure} (h : encodeSymbol sym w = .raise k) :
    (Config.nsym ≤ sym ∧ k = .invalidSymbol) ∨ (sym < Config.nsym ∧ k = .allocationFailure) := by
  unfold encodeSymbol at h
  split at h
  · rename_i hs; cases h; exact .inl ⟨hs, rfl⟩
  · rename_i hs
    split at h
    · cases h
    · rcases bind_eq_raise.1 h with h | ⟨_, w', _, h⟩
      · exact .inr ⟨Nat.lt_of_not_le hs, writeCode_raise h⟩
      · cases h

/-- ENCODE is stuck only where Code has no answer (notes/assumptions/12.md). -/
theorem encodeSymbol_stuck {sym : Nat} {w : Work} {x : Fault} (h : encodeSymbol sym w = .stuck x) :
    sym < Config.nsym ∧ code w.ses.nodes sym = none ∧ x = .nodeWalkStuck := by
  unfold encodeSymbol at h
  split at h
  · cases h
  · rename_i hs
    split at h
    · rename_i hc; cases h; exact ⟨Nat.lt_of_not_le hs, hc, rfl⟩
    · rcases bind_eq_stuck.1 h with h | ⟨_, w', _, h⟩
      · exact absurd h (writeCode_not_stuck _ _ _)
      · cases h

/-! ### DECODE -/

theorem decodeWalk_frame {ibuf : Memory} {left n : Nat} {w w' : Work} {r : Nat × Nat}
    (h : decodeWalk ibuf left n w = .done r w') :
    OnlyReaderMoved w.ses w'.ses ∧ w'.obuf = w.obuf ∧ r.1 < Config.nsym ∧ r.2 ≤ left := by
  induction left generalizing n w with
  | zero =>
    unfold decodeWalk at h
    split at h <;> cases h
    rename_i hn
    exact ⟨.refl _, rfl, hn, Nat.le_refl _⟩
  | succ left ih =>
    unfold decodeWalk at h
    split at h
    · rename_i hn; cases h; exact ⟨.refl _, rfl, hn, Nat.le_refl _⟩
    · split at h
      · cases h
      · obtain ⟨b, w1, h1, h2⟩ := bind_eq_done.1 h
        obtain ⟨f1, g1, _⟩ := readBits_done h1
        obtain ⟨f2, g2, hn, hl⟩ := ih h2
        exact ⟨f1.trans f2, g2.trans g1, hn, Nat.le_succ_of_le hl⟩

theorem decodeWalk_not_stuck (ibuf : Memory) (left n : Nat) (w : Work) (x : Fault) :
    decodeWalk ibuf left n w ≠ .stuck x := by
  induction left generalizing n w with
  | zero => unfold decodeWalk; split <;> simp
  | succ left ih =>
    intro h
    unfold decodeWalk at h
    split at h
    · cases h
    · split at h
      · cases h
      · rcases bind_eq_stuck.1 h with h | ⟨_, w', _, h⟩
        · exact readBits_not_stuck _ _ _ _ h
        · exact ih _ _ h

theorem decodeWalk_raise {ibuf : Memory} {left n : Nat} {w : Work} {k : Failure}
    (h : decodeWalk ibuf left n w = .raise k) : k = .unexpectedEndOfStream ∨ k = .invalidSymbol := by
  induction left generalizing n w with
  | zero => unfold decodeWalk at h; split at h <;> cases h; exact .inr rfl
  | succ left ih =>
    unfold decodeWalk at h
    split at h
    · cases h
    · split at h
      · cases h; exact .inr rfl
      · rcases bind_eq_raise.1 h with h | ⟨_, w', _, h⟩
        · exact .inl (readBits_raise h)
        · exact ih h

/-- DECODE that succeeds: a symbol below 273; beside the reader only the node memory changed, by the same update as
ENCODE's (R156). -/
theorem decodeSymbol_done {ibuf : Memory} {w w' : Work} {r : Nat × Nat} (h : decodeSymbol ibuf w = .done r w') :
    ∃ w1 : Work, r.1 < Config.nsym ∧ OnlyReaderMoved w.ses w1.ses ∧ w1.obuf = w.obuf ∧
      w' = { w1 with ses := { w1.ses with nodes := update r.1 w.ses.nodes } } := by
  obtain ⟨q, w1, h1, h2⟩ := bind_eq_done.1 h
  obtain ⟨f, g, hn, _⟩ := decodeWalk_frame h1
  cases h2
  refine ⟨w1, hn, f, g, ?_⟩
  have : w1.ses.nodes = w.ses.nodes := by rw [f]
  rw [this]

theorem decodeSymbol_not_stuck (ibuf : Memory) (w : Work) (x : Fault) : decodeSymbol ibuf w ≠ .stuck x := by
  intro h
  rcases bind_eq_stuck.1 h with h | ⟨_, w', _, h⟩
  · exact decodeWalk_not_stuck _ _ _ _ _ h
  · cases h

theorem decodeSymbol_raise {ibuf : Memory} {w : Work} {k : Failure} (h : decodeSymbol ibuf w = .raise k) :
    k = .unexpectedEndOfStream ∨ k = .invalidSymbol := by
  rcases bind_eq_raise.1 h with h | ⟨_, w', _, h⟩
  · exact decodeWalk_raise h
  · cases h

end Sys2Proof.Machine
end

