-- ==== Sys2Proof/Laws/Dmu.lean ====
section
/-! SUPPORT. What each operation of DMU can do, said once: its effect, its frame, and that it is never stuck. -/

namespace Sys2Proof.Machine

/-- The registers the compressing side of DMU may change: IPOS, WPOS, WIN (10_state R45). -/
def OnlyInputMoved (ses ses' : Session) : Prop :=
  ses' = { ses with ipos := ses'.ipos, wpos := ses'.wpos, win := ses'.win }

theorem OnlyInputMoved.refl (ses : Session) : OnlyInputMoved ses ses := rfl

theorem OnlyInputMoved.trans {a b c : Session} (h1 : OnlyInputMoved a b) (h2 : OnlyInputMoved b c) :
    OnlyInputMoved a c := by
  unfold OnlyInputMoved at *; rw [h2, h1]

theorem advanceBy_frame (ibuf : Memory) (n : Nat) (ses : Session) : OnlyInputMoved ses (advanceBy ibuf n ses) := by
  induction n generalizing ses with
  | zero => exact .refl _
  | succ n ih => exact OnlyInputMoved.trans (b := { appendWindow (ibufByte ibuf ses.ipos.toNat) ses with
      ipos := (appendWindow (ibufByte ibuf ses.ipos.toNat) ses).ipos + 1 }) rfl (ih _)

theorem advanceBy_wf (ibuf : Memory) (n : Nat) {ses : Session} (h : ses.win.wf) : (advanceBy ibuf n ses).win.wf := by
  induction n generalizing ses with
  | zero => exact h
  | succ n ih => exact ih (memWrite_wf h _ _)

/-- IPOS and WPOS move together (R182). -/
theorem advanceBy_pos (ibuf : Memory) (n : Nat) (ses : Session) :
    (advanceBy ibuf n ses).ipos = ses.ipos + BitVec.ofNat 32 n ∧
    (advanceBy ibuf n ses).wpos = ses.wpos + BitVec.ofNat 32 n := by
  induction n generalizing ses with
  | zero => simp [advanceBy]
  | succ n ih =>
    obtain ⟨h1, h2⟩ := ih { appendWindow (ibufByte ibuf ses.ipos.toNat) ses with
      ipos := (appendWindow (ibufByte ibuf ses.ipos.toNat) ses).ipos + 1 }
    have e : BitVec.ofNat 32 (n + 1) = 1#32 + BitVec.ofNat 32 n := by
      rw [Nat.add_comm, BitVec.ofNat_add]
    refine ⟨?_, ?_⟩
    · show (advanceBy ibuf n _).ipos = _
      rw [h1, e, ← BitVec.add_assoc]; rfl
    · show (advanceBy ibuf n _).wpos = _
      rw [h2, e, ← BitVec.add_assoc]; rfl

/-- The registers the decompressing side of DMU may change: OLEN, WPOS, WIN (10_state R45). -/
def OnlyOutputMoved (ses ses' : Session) : Prop :=
  ses' = { ses with olen := ses'.olen, wpos := ses'.wpos, win := ses'.win }

theorem OnlyOutputMoved.refl (ses : Session) : OnlyOutputMoved ses ses := rfl

theorem OnlyOutputMoved.trans {a b c : Session} (h1 : OnlyOutputMoved a b) (h2 : OnlyOutputMoved b c) :
    OnlyOutputMoved a c := by
  unfold OnlyOutputMoved at *; rw [h2, h1]

theorem putByte_room {b : Byte} {w : Work} (h : w.ses.olen < w.ses.ocap) :
    putByte b w = .done ()
      { ses := appendWindow b { w.ses with olen := w.ses.olen + 1 }, obuf := memWrite w.obuf w.ses.olen.toNat b } := by
  unfold putByte; rw [if_neg (BitVec.not_le.2 h)]

/-- PUTLIT either appends its byte to OBUF and the window or raises AllocationFailure (R184). -/
theorem putByte_cases (b : Byte) (w : Work) :
    (w.ses.olen < w.ses.ocap ∧ putByte b w = .done ()
      { ses := appendWindow b { w.ses with olen := w.ses.olen + 1 },
        obuf := memWrite w.obuf w.ses.olen.toNat b }) ∨
    (w.ses.ocap ≤ w.ses.olen ∧ putByte b w = .raise .allocationFailure) := by
  by_cases h : w.ses.ocap ≤ w.ses.olen
  · exact .inr ⟨h, by unfold putByte; rw [if_pos h]⟩
  · exact .inl ⟨BitVec.not_le.1 h, putByte_room (BitVec.not_le.1 h)⟩

theorem putByte_not_stuck (b : Byte) (w : Work) (x : Fault) : putByte b w ≠ .stuck x := by
  rcases putByte_cases b w with ⟨_, e⟩ | ⟨_, e⟩ <;> rw [e] <;> simp

theorem putByte_raise {b : Byte} {w : Work} {k : Failure} (h : putByte b w = .raise k) : k = .allocationFailure := by
  rcases putByte_cases b w with ⟨_, e⟩ | ⟨_, e⟩ <;> rw [e] at h <;> cases h
  rfl

theorem putByte_frame {b : Byte} {w w' : Work} (h : putByte b w = .done () w') :
    OnlyOutputMoved w.ses w'.ses ∧ (w.obuf.wf → w'.obuf.wf) ∧ (w.ses.win.wf → w'.ses.win.wf) := by
  rcases putByte_cases b w with ⟨_, e⟩ | ⟨_, e⟩ <;> rw [e] at h <;> cases h
  exact ⟨rfl, fun hw => memWrite_wf hw _ _, fun hw => memWrite_wf hw _ _⟩

theorem copyLoop_frame {dist n : Nat} {w w' : Work} (h : copyLoop dist n w = .done () w') :
    OnlyOutputMoved w.ses w'.ses ∧ (w.obuf.wf → w'.obuf.wf) ∧ (w.ses.win.wf → w'.ses.win.wf) := by
  induction n generalizing w with
  | zero => cases h; exact ⟨.refl _, id, id⟩
  | succ n ih =>
    obtain ⟨_, w1, h1, h2⟩ := bind_eq_done.1 h
    obtain ⟨f1, g1, k1⟩ := putByte_frame h1
    obtain ⟨f2, g2, k2⟩ := ih h2
    exact ⟨f1.trans f2, fun hw => g2 (g1 hw), fun hw => k2 (k1 hw)⟩

theorem copyLoop_raise {dist n : Nat} {w : Work} {k : Failure} (h : copyLoop dist n w = .raise k) :
    k = .allocationFailure := by
  induction n generalizing w with
  | zero => cases h
  | succ n ih =>
    rcases bind_eq_raise.1 h with h | ⟨_, w', _, h⟩
    · exact putByte_raise h
    · exact ih h

theorem copyLoop_not_stuck (dist n : Nat) (w : Work) (x : Fault) : copyLoop dist n w ≠ .stuck x := by
  induction n generalizing w with
  | zero => simp [copyLoop]
  | succ n ih =>
    intro h
    rcases bind_eq_stuck.1 h with h | ⟨_, w', _, h⟩
    · exact putByte_not_stuck _ _ _ h
    · exact ih w' h

/-- COPY tests its operands first, then copies (R185). -/
theorem copyMatch_cases (dist len : Nat) (w : Work) :
    (copyInRange w.ses dist len = true ∧ copyMatch dist len w = copyLoop dist len w) ∨
    (copyInRange w.ses dist len = false ∧ copyMatch dist len w = .raise .limitExceeded) := by
  cases h : copyInRange w.ses dist len
  · exact .inr ⟨rfl, by simp [copyMatch, h]⟩
  · exact .inl ⟨rfl, by simp [copyMatch, h]⟩

theorem copyMatch_not_stuck (dist len : Nat) (w : Work) (x : Fault) : copyMatch dist len w ≠ .stuck x := by
  rcases copyMatch_cases dist len w with ⟨_, e⟩ | ⟨_, e⟩ <;> rw [e]
  · exact copyLoop_not_stuck _ _ _ _
  · simp

/-! ### The matcher -/

theorem matchFrom_le (ibuf : Memory) (ses : Session) (d left l : Nat) :
    l ≤ matchFrom ibuf ses d left l ∧ matchFrom ibuf ses d left l ≤ l + left := by
  induction left generalizing l with
  | zero => simp [matchFrom]
  | succ left ih =>
    unfold matchFrom
    split
    · have := ih (l + 1); omega
    · omega

/-- A match never passes MAX_MATCH or the end of the input (R180). -/
theorem matchLen_le (ibuf : Memory) (ses : Session) (d : Nat) :
    matchLen ibuf ses d ≤ Config.maxMatch ∧ matchLen ibuf ses d ≤ ses.ilen.toNat - ses.ipos.toNat := by
  have := matchFrom_le ibuf ses d (min Config.maxMatch (ses.ilen.toNat - ses.ipos.toNat)) 0
  unfold matchLen; omega

end Sys2Proof.Machine
end

