-- ==== Sys2Proof/Laws/PerInstr.lean ====
section
/-! SUPPORT. One law for every instruction: its encoding lies in its row of spec/opcode_table.json (spec/30_encoding.md
R111), and no two rows share their selecting bits. -/

namespace Sys2Proof.Laws.TableRow

/-- The selecting bits of a row: of the command word, or of the symbol index (R111). -/
inductive Row where
  | command (opcode : BitVec 8)
  | token (mask value : SymbolIndex)
  deriving DecidableEq, Repr

/-- The row of each instruction, as spec/opcode_table.json has it (mask 0xFF in bits [71:64] for a command). -/
def rowOf : Instr → Row
  | .nop => .command 0x00#8
  | .inite _ _ => .command 0x01#8
  | .initd _ _ => .command 0x02#8
  | .release => .command 0x03#8
  | .rdreg _ => .command 0x04#8
  | .wrbits _ _ => .command 0x10#8
  | .flush => .command 0x11#8
  | .rdbits _ => .command 0x12#8
  | .encode _ => .command 0x20#8
  | .decode => .command 0x21#8
  | .findmatch => .command 0x30#8
  | .advance _ => .command 0x31#8
  | .putlit _ => .command 0x32#8
  | .copy _ _ => .command 0x33#8
  | .compress _ _ => .command 0x40#8
  | .decompress _ _ => .command 0x41#8
  | .lit _ => .token 0x100#9 0x000#9
  | .eos => .token 0x1FF#9 0x100#9
  | .matchL3 _ => .token 0x1FF#9 0x101#9
  | .matchL4 _ => .token 0x1FF#9 0x102#9
  | .matchL5 _ => .token 0x1FF#9 0x103#9
  | .matchL6 _ => .token 0x1FF#9 0x104#9
  | .matchL7 _ => .token 0x1FF#9 0x105#9
  | .matchL8 _ => .token 0x1FF#9 0x106#9
  | .matchL9 _ => .token 0x1FF#9 0x107#9
  | .matchL10 _ => .token 0x1FF#9 0x108#9
  | .matchL11 _ => .token 0x1FF#9 0x109#9
  | .matchL12 _ => .token 0x1FF#9 0x10A#9
  | .matchL13 _ => .token 0x1FF#9 0x10B#9
  | .matchL14 _ => .token 0x1FF#9 0x10C#9
  | .matchL15 _ => .token 0x1FF#9 0x10D#9
  | .matchL16 _ => .token 0x1FF#9 0x10E#9
  | .matchL17 _ => .token 0x1FF#9 0x10F#9
  | .matchL18 _ => .token 0x1FF#9 0x110#9

/-- The encoding of the instruction carries the selecting bits of its row. -/
def Statement (i : Instr) : Prop :=
  match encode i, rowOf i with
  | .command w, .command opcode => commandOp w = opcode
  | .token sym _, .token mask value => sym &&& mask = value
  | _, _ => False

/-- The opcode of a packed command word (R90). -/
theorem commandOp_packCommand (op : BitVec 8) (a0 a1 : Word) : commandOp (packCommand op a0 a1) = op := by
  unfold commandOp packCommand
  ext i hi
  rw [BitVec.getElem_extractLsb', BitVec.getLsbD_append, if_neg (by omega), BitVec.getLsbD_append, if_neg (by omega),
    ← BitVec.getLsbD_eq_getElem, show 64 + i - 32 - 32 = i by omega]

/-- The symbol index of a literal has bit 8 clear (R100). -/
theorem literal_symbol (byte : Byte) : byte.setWidth 9 &&& 0x100#9 = 0#9 := by
  revert byte; decide

/-- No two commands share an op, no two match tokens a symbol (R95, R111). -/
theorem selectors_distinct : (opcodeMap.map Prod.fst).Nodup ∧ (matchMap.map Prod.fst).Nodup := by decide

theorem nop : Statement .nop :=
  commandOp_packCommand _ _ _
theorem inite (ilen ocap : Word) : Statement (.inite ilen ocap) :=
  commandOp_packCommand _ _ _
theorem initd (ilen ocap : Word) : Statement (.initd ilen ocap) :=
  commandOp_packCommand _ _ _
theorem release : Statement .release :=
  commandOp_packCommand _ _ _
theorem rdreg (regno : Word) : Statement (.rdreg regno) :=
  commandOp_packCommand _ _ _
theorem wrbits (value count : Word) : Statement (.wrbits value count) :=
  commandOp_packCommand _ _ _
theorem flush : Statement .flush :=
  commandOp_packCommand _ _ _
theorem rdbits (count : Word) : Statement (.rdbits count) :=
  commandOp_packCommand _ _ _
theorem encode (sym : Word) : Statement (.encode sym) :=
  commandOp_packCommand _ _ _
theorem decode : Statement .decode :=
  commandOp_packCommand _ _ _
theorem findmatch : Statement .findmatch :=
  commandOp_packCommand _ _ _
theorem advance (n : Word) : Statement (.advance n) :=
  commandOp_packCommand _ _ _
theorem putlit (byte : Byte) : Statement (.putlit byte) :=
  commandOp_packCommand _ _ _
theorem copy (dist len : Word) : Statement (.copy dist len) :=
  commandOp_packCommand _ _ _
theorem compress (ilen ocap : Word) : Statement (.compress ilen ocap) :=
  commandOp_packCommand _ _ _
theorem decompress (ilen ocap : Word) : Statement (.decompress ilen ocap) :=
  commandOp_packCommand _ _ _
theorem lit (byte : Byte) : Statement (.lit byte) :=
  literal_symbol byte
theorem eos : Statement .eos :=
  rfl
theorem matchL3 (residual : Residual) : Statement (.matchL3 residual) :=
  rfl
theorem matchL4 (residual : Residual) : Statement (.matchL4 residual) :=
  rfl
theorem matchL5 (residual : Residual) : Statement (.matchL5 residual) :=
  rfl
theorem matchL6 (residual : Residual) : Statement (.matchL6 residual) :=
  rfl
theorem matchL7 (residual : Residual) : Statement (.matchL7 residual) :=
  rfl
theorem matchL8 (residual : Residual) : Statement (.matchL8 residual) :=
  rfl
theorem matchL9 (residual : Residual) : Statement (.matchL9 residual) :=
  rfl
theorem matchL10 (residual : Residual) : Statement (.matchL10 residual) :=
  rfl
theorem matchL11 (residual : Residual) : Statement (.matchL11 residual) :=
  rfl
theorem matchL12 (residual : Residual) : Statement (.matchL12 residual) :=
  rfl
theorem matchL13 (residual : Residual) : Statement (.matchL13 residual) :=
  rfl
theorem matchL14 (residual : Residual) : Statement (.matchL14 residual) :=
  rfl
theorem matchL15 (residual : Residual) : Statement (.matchL15 residual) :=
  rfl
theorem matchL16 (residual : Residual) : Statement (.matchL16 residual) :=
  rfl
theorem matchL17 (residual : Residual) : Statement (.matchL17 residual) :=
  rfl
theorem matchL18 (residual : Residual) : Statement (.matchL18 residual) :=
  rfl

end Sys2Proof.Laws.TableRow
end

