-- ==== Sys2Proof/Laws/Step.lean ====
section
/-! SUPPORT. What step takes next, by the state alone. -/

namespace Sys2Proof.Machine

/-- Outside the token loop of DECOMPRESS step takes what the host does next. -/
theorem fetch_idle {s : State} (h : s.inTokenLoop = false) : fetch s = fetchCommand s := by
  unfold fetch
  unfold State.inTokenLoop at h
  split
  · rename_i ses hs
    rw [hs] at h
    have : ses.declared.isSome = false := h
    simp [this]
  · rfl

/-- Inside it step takes the next token. -/
theorem fetch_inTokenLoop {s : State} {ses : Session} (hs : s.session = some ses) (h : ses.declared.isSome = true) :
    fetch s = fetchTokenInstr ses s := by
  unfold fetch; rw [hs]; simp [h]

theorem inTokenLoop_iff (s : State) :
    s.inTokenLoop = true ↔ ∃ ses, s.session = some ses ∧ ses.declared.isSome = true := by
  unfold State.inTokenLoop
  cases s.session <;> simp

theorem step_waits {s : State} (h : s.inTokenLoop = false) (hp : s.port = []) : step s = .next s := by
  unfold step; rw [fetch_idle h]; unfold fetchCommand; rw [hp]

/-- Everything a step can be: a command, a rejected word, an act of the host, waiting, or a token. -/
theorem step_cases (s : State) :
    (s.inTokenLoop = true ∧ ∃ ses, s.session = some ses ∧ fetch s = fetchTokenInstr ses s) ∨
    (s.inTokenLoop = false ∧
      ((s.port = [] ∧ step s = .next s) ∨
       (∃ w rest i, s.port = .command w :: rest ∧ decodeCommand w = .ok i ∧ step s = exec i { s with port := rest }) ∨
       (∃ w rest e, s.port = .command w :: rest ∧ decodeCommand w = .error e ∧
          step s = .next (reject { s with port := rest })) ∨
       (∃ a b rest, s.port = .place a b :: rest ∧ step s = .next (placeByte a b { s with port := rest })) ∨
       (∃ rest, s.port = .reset :: rest ∧ step s = .next (resetBlock { s with port := rest })))) := by
  cases h : s.inTokenLoop
  · refine .inr ⟨rfl, ?_⟩
    have hf := fetch_idle h
    cases hp : s.port with
    | nil => exact .inl ⟨rfl, step_waits h hp⟩
    | cons e rest =>
      refine .inr ?_
      cases e with
      | command w =>
        cases hd : decodeCommand w with
        | ok i =>
          refine .inl ⟨w, rest, i, rfl, hd, ?_⟩
          unfold step; rw [hf]; unfold fetchCommand; rw [hp]; simp [hd]
        | error e =>
          refine .inr (.inl ⟨w, rest, e, rfl, hd, ?_⟩)
          unfold step; rw [hf]; unfold fetchCommand; rw [hp]; simp [hd]
      | place a b =>
        refine .inr (.inr (.inl ⟨a, b, rest, rfl, ?_⟩))
        unfold step; rw [hf]; unfold fetchCommand; rw [hp]
      | reset =>
        refine .inr (.inr (.inr ⟨rest, rfl, ?_⟩))
        unfold step; rw [hf]; unfold fetchCommand; rw [hp]
  · obtain ⟨ses, hs, hd⟩ := (inTokenLoop_iff s).1 h
    exact .inl ⟨rfl, ses, hs, fetch_inTokenLoop hs hd⟩

end Sys2Proof.Machine
end

