-- ==== Sys2Proof/Laws/Token.lean ====
section
/-! SUPPORT. What fetching and running a token can do, said once: neither ever stops the machine. -/

namespace Sys2Proof.Machine

/-- A fetched token: a symbol below 273 with a residual exactly for a match; beside the reader only the node memory
changed (R103, R215). -/
theorem fetchToken_done {ibuf : Memory} {w w' : Work} {t : Nat × Option Residual}
    (h : fetchToken ibuf w = .done t w') :
    t.1 < Config.nsym ∧ (t.2 = none ↔ t.1 ≤ Config.symEos) ∧ w'.obuf = w.obuf ∧
      w'.ses.nodes = update t.1 w.ses.nodes ∧
      w'.ses = { w.ses with rbyte := w'.ses.rbyte, rbit := w'.ses.rbit, nodes := update t.1 w.ses.nodes } := by
  obtain ⟨r, w1, h1, h2⟩ := bind_eq_done.1 h
  obtain ⟨w0, hn, f0, g0, e1⟩ := decodeSymbol_done h1
  have hs : w1.ses = { w.ses with rbyte := w1.ses.rbyte, rbit := w1.ses.rbit, nodes := update r.1 w.ses.nodes } := by
    rw [e1]; dsimp only; conv_lhs => rw [f0]
  have ho : w1.obuf = w.obuf := by rw [e1]; exact g0
  split at h2
  · rename_i hle
    cases h2
    exact ⟨hn, ⟨fun _ => hle, fun _ => rfl⟩, ho, by rw [hs], hs⟩
  · rename_i hgt
    obtain ⟨v, w2, h3, h4⟩ := bind_eq_done.1 h2
    obtain ⟨f3, g3, _⟩ := readBits_done h3
    cases h4
    have hs2 : w'.ses =
        { w.ses with rbyte := w'.ses.rbyte, rbit := w'.ses.rbit, nodes := update r.1 w.ses.nodes } := by
      rw [f3]; dsimp only; conv_lhs => rw [hs]
    refine ⟨hn, ⟨fun e => (nomatch e), fun e => absurd e hgt⟩, g3.trans ho, ?_, hs2⟩
    rw [hs2]

theorem fetchToken_not_stuck (ibuf : Memory) (w : Work) (x : Fault) : fetchToken ibuf w ≠ .stuck x := by
  intro h
  rcases bind_eq_stuck.1 h with h | ⟨r, w', _, h⟩
  · exact decodeSymbol_not_stuck _ _ _ h
  · split at h
    · cases h
    · rcases bind_eq_stuck.1 h with h | ⟨_, w2, _, h⟩
      · exact readBits_not_stuck _ _ _ _ h
      · cases h

theorem fetchToken_raise {ibuf : Memory} {w : Work} {k : Failure} (h : fetchToken ibuf w = .raise k) :
    k = .unexpectedEndOfStream ∨ k = .invalidSymbol := by
  rcases bind_eq_raise.1 h with h | ⟨r, w', _, h⟩
  · exact decodeSymbol_raise h
  · split at h
    · cases h
    · rcases bind_eq_raise.1 h with h | ⟨_, w2, _, h⟩
      · exact .inl (readBits_raise h)
      · cases h

theorem settle_answers {r : Res (Word × Word)} (h : ∀ x, r ≠ .stuck x) (s : State) : ∃ t, settle r s = .next t := by
  cases r with
  | done out w => exact ⟨_, rfl⟩
  | raise k => exact ⟨_, rfl⟩
  | stuck x => exact absurd rfl (h x)

theorem keepGoing_answers {r : Res Unit} (h : ∀ x, r ≠ .stuck x) (s : State) : ∃ t, keepGoing r s = .next t := by
  cases r with
  | done u w => exact ⟨_, rfl⟩
  | raise k => exact ⟨_, rfl⟩
  | stuck x => exact absurd rfl (h x)

theorem bind_results_not_stuck {r : Res Unit} (h : ∀ x, r ≠ .stuck x) (x : Fault) :
    (r.bind fun _ w => .done ((0, 0) : Word × Word) w) ≠ .stuck x := by
  intro e
  rcases bind_eq_stuck.1 e with e | ⟨_, _, _, e⟩
  · exact h x e
  · cases e

theorem tokenLit_answers (b : Byte) (s : State) : ∃ t, tokenLit b s = .next t := by
  unfold tokenLit
  rcases inSession_cases .dec s _ with ⟨ses, _, _, e⟩ | ⟨_, e⟩ <;> rw [e]
  · dsimp only
    split
    · exact settle_answers (bind_results_not_stuck (putByte_not_stuck _ _)) s
    · split
      · exact ⟨_, rfl⟩
      · exact keepGoing_answers (putByte_not_stuck _ _) s
  · exact ⟨_, rfl⟩

theorem tokenMatch_answers (len : Nat) (r : Residual) (s : State) : ∃ t, tokenMatch len r s = .next t := by
  unfold tokenMatch
  rcases inSession_cases .dec s _ with ⟨ses, _, _, e⟩ | ⟨_, e⟩ <;> rw [e]
  · dsimp only
    split
    · exact settle_answers (bind_results_not_stuck (copyMatch_not_stuck _ _ _)) s
    · split
      · exact ⟨_, rfl⟩
      · split
        · exact ⟨_, rfl⟩
        · exact keepGoing_answers (copyMatch_not_stuck _ _ _) s
  · exact ⟨_, rfl⟩

theorem tokenEos_answers (s : State) : ∃ t, tokenEos s = .next t := by
  unfold tokenEos
  rcases inSession_cases .dec s _ with ⟨ses, _, _, e⟩ | ⟨_, e⟩ <;> rw [e]
  · dsimp only
    split
    · exact ⟨_, rfl⟩
    · split
      · exact ⟨_, rfl⟩
      · exact ⟨_, rfl⟩
  · exact ⟨_, rfl⟩

/-- A turn of the token loop always goes on to a state. -/
theorem tokenStep_answers (s : State) : ∃ t, tokenStep s = .next t := by
  unfold tokenStep
  split
  · exact ⟨_, rfl⟩
  · split
    · unfold runToken
      split
      · exact tokenLit_answers _ _
      · split
        · exact tokenEos_answers _
        · exact tokenMatch_answers _ _ _
    · exact ⟨_, rfl⟩
    · rename_i x hx
      exact absurd hx (fetchToken_not_stuck _ _ _)

theorem tokenLoop_answers (turns : Nat) (s : State) : ∃ t, tokenLoop turns s = .next t := by
  induction turns generalizing s with
  | zero => exact ⟨_, rfl⟩
  | succ turns ih =>
    unfold tokenLoop
    split
    · obtain ⟨t, e⟩ := tokenStep_answers s
      rw [e]
      exact ih t
    · exact ⟨_, rfl⟩

end Sys2Proof.Machine
end

