-- ==== Sys2Proof/Tests/Slice0.lean ====
section
/-! SUPPORT. Tests: ill-formed operands, words written out from the spec's encodings, single commands with the results of
spec/95_test_vectors.md, and for each statement with hypotheses a state and operands that meet them
(test_witness_<Statement>). -/

namespace Sys2Proof.Tests

open Sys2Proof.Machine

/-! ### Well-formedness: an ill-formed operand for each check (30_encoding R98) -/

theorem test_wellFormed_rdreg :
    (Instr.rdreg 0x00A).wellFormed = false ∧ (Instr.rdreg 0x621).wellFormed = false ∧
    (Instr.rdreg 0x2000).wellFormed = false ∧ (Instr.rdreg 0x009).wellFormed = true ∧
    (Instr.rdreg 0x620).wellFormed = true ∧ (Instr.rdreg 0x1FFF).wellFormed = true := by decide

theorem test_wellFormed_counts :
    (Instr.wrbits 0 33).wellFormed = false ∧ (Instr.wrbits 0 32).wellFormed = true ∧
    (Instr.rdbits 33).wellFormed = false ∧ (Instr.rdbits 32).wellFormed = true := by decide

theorem test_wellFormed_encode :
    (Instr.encode 273).wellFormed = false ∧ (Instr.encode 0x00010061).wellFormed = false ∧
    (Instr.encode 272).wellFormed = true := by decide

theorem test_wellFormed_copy :
    (Instr.copy 0 3).wellFormed = false ∧ (Instr.copy 4097 3).wellFormed = false ∧
    (Instr.copy 1 2).wellFormed = false ∧ (Instr.copy 1 19).wellFormed = false ∧
    (Instr.copy 4096 18).wellFormed = true := by decide

/-! ### Decoding: words written out from R90, R91, R108 and the tables of R100, R102 -/

theorem test_decode_session :
    decodeCommand 0x00_00000000_00000000#72 = .ok .nop ∧
    decodeCommand 0x01_0000000A_00000040#72 = .ok (.inite 10 64) ∧
    decodeCommand 0x02_0000000A_0000000A#72 = .ok (.initd 10 10) ∧
    decodeCommand 0x03_00000000_00000000#72 = .ok .release ∧
    decodeCommand 0x04_00000461_FFFFFFFF#72 = .ok (.rdreg 0x461) ∧
    decodeCommand 0x40_0000000A_00000040#72 = .ok (.compress 10 64) ∧
    decodeCommand 0x41_00000008_00000010#72 = .ok (.decompress 8 16) := ⟨rfl, rfl, rfl, rfl, rfl, rfl, rfl⟩

theorem test_decode_units :
    decodeCommand 0x10_00000005_00000003#72 = .ok (.wrbits 5 3) ∧
    decodeCommand 0x11_00000000_00000000#72 = .ok .flush ∧
    decodeCommand 0x12_FFFFFFFF_0000000C#72 = .ok (.rdbits 12) ∧
    decodeCommand 0x20_00000107_00000000#72 = .ok (.encode 263) ∧
    decodeCommand 0x21_00000000_00000000#72 = .ok .decode ∧
    decodeCommand 0x30_00000000_00000000#72 = .ok .findmatch ∧
    decodeCommand 0x31_00000009_00000000#72 = .ok (.advance 9) ∧
    decodeCommand 0x32_FFFFFF61_00000000#72 = .ok (.putlit 0x61) ∧
    decodeCommand 0x33_00000001_00000009#72 = .ok (.copy 1 9) := ⟨rfl, rfl, rfl, rfl, rfl, rfl, rfl, rfl, rfl⟩

theorem test_decode_reserved :
    decodeCommand 0x05_00000000_00000000#72 = .error .reservedOpcode ∧
    decodeCommand 0x13_00000000_00000000#72 = .error .reservedOpcode ∧
    decodeCommand 0xFF_FFFFFFFF_FFFFFFFF#72 = .error .reservedOpcode := ⟨rfl, rfl, rfl⟩

theorem test_decode_tokens :
    decodeToken 0b000000000#9 none = .ok (.lit 0) ∧ decodeToken 0b011111111#9 none = .ok (.lit 0xFF) ∧
    decodeToken 0b100000000#9 none = .ok .eos ∧
    decodeToken 0b100000001#9 (some 0x000) = .ok (.matchL3 0) ∧
    decodeToken 0b100000010#9 (some 0xFFF) = .ok (.matchL4 0xFFF) ∧
    decodeToken 0b100000011#9 (some 1) = .ok (.matchL5 1) ∧ decodeToken 0b100000100#9 (some 1) = .ok (.matchL6 1) ∧
    decodeToken 0b100000101#9 (some 1) = .ok (.matchL7 1) ∧ decodeToken 0b100000110#9 (some 1) = .ok (.matchL8 1) ∧
    decodeToken 0b100000111#9 (some 1) = .ok (.matchL9 1) ∧ decodeToken 0b100001000#9 (some 1) = .ok (.matchL10 1) ∧
    decodeToken 0b100001001#9 (some 1) = .ok (.matchL11 1) ∧ decodeToken 0b100001010#9 (some 1) = .ok (.matchL12 1) ∧
    decodeToken 0b100001011#9 (some 1) = .ok (.matchL13 1) ∧ decodeToken 0b100001100#9 (some 1) = .ok (.matchL14 1) ∧
    decodeToken 0b100001101#9 (some 1) = .ok (.matchL15 1) ∧ decodeToken 0b100001110#9 (some 1) = .ok (.matchL16 1) ∧
    decodeToken 0b100001111#9 (some 1) = .ok (.matchL17 1) ∧ decodeToken 0b100010000#9 (some 1) = .ok (.matchL18 1) ∧
    decodeToken 0b100010001#9 (some 1) = .error .notASymbol :=
  ⟨rfl, rfl, rfl, rfl, rfl, rfl, rfl, rfl, rfl, rfl, rfl, rfl, rfl, rfl, rfl, rfl, rfl, rfl, rfl, rfl⟩

theorem test_decodeTableWord :
    decodeTableWord 72 0x310000000000000000 = some (.advance 0) ∧ decodeTableWord 16 0x100 = some .eos ∧
    decodeTableWord 16 0x110 = some (.matchL18 0) := ⟨rfl, rfl, rfl⟩

/-! ### Small states -/

/-- An outcome is a next state with a property. -/
def check (o : Out) (p : State → Bool) : Bool :=
  match o with
  | .next t => p t
  | .fault _ => false
  | .refused _ => false

theorem next_of_check {o : Out} {p : State → Bool} (h : check o p = true) : ∃ t, o = .next t ∧ p t = true := by
  cases o with
  | next t => exact ⟨t, rfl, h⟩
  | fault f => cases h
  | refused r => cases h

/-- The open session of a state has a property. -/
def inOpen (t : State) (p : Session → Bool) : Bool :=
  match t.session with
  | some ses => p ses
  | none => false

/-- A node memory for tests in which no command reads it. -/
def blankNodes : NodeMemory := Vector.replicate 545 ⟨0, 0, 0, 0⟩

/-- An ENC session over 12 bytes with the bits 101 placed (vector V1 after its first command). -/
def encSes : Session where
  dir := .enc
  ilen := 12
  ocap := 8
  olen := 0
  wacc := 0xA0
  wnb := 3
  rbyte := 0
  rbit := 0
  ipos := 0
  wpos := 0
  win := []
  nodes := blankNodes
  declared := none

/-- A DEC session over 2 bytes with three bytes reconstructed, a, b and c (vectors V11, V41). -/
def decSes : Session where
  dir := .dec
  ilen := 2
  ocap := 9
  olen := 3
  wacc := 0
  wnb := 0
  rbyte := 0
  rbit := 0
  ipos := 0
  wpos := 3
  win := [(0, 0x61), (1, 0x62), (2, 0x63)]
  nodes := blankNodes
  declared := none

/-- A state with this session open. -/
def live (ses : Session) (ibuf obuf : Memory) : State :=
  { State.reset with session := some ses, ibuf := ibuf, obuf := obuf }

def enc : State := live encSes [] []
def dec : State := live decSes [(0, 0xBF), (1, 0xF0)] [(0, 0x61), (1, 0x62), (2, 0x63)]

theorem enc_encSession (ses : Session) (ibuf obuf : Memory) (h : ses.dir = .enc) :
    (live ses ibuf obuf).encSession ses := ⟨rfl, h⟩
theorem dec_decSession (ses : Session) (ibuf obuf : Memory) (h : ses.dir = .dec) :
    (live ses ibuf obuf).decSession ses := ⟨rfl, h⟩

theorem reset_lacks (d : Dir) : State.reset.lacks d := fun _ h => nomatch h
theorem enc_lacks_dec : enc.lacks .dec := fun _ h => by cases h; decide
theorem dec_lacks_enc : dec.lacks .enc := fun _ h => by cases h; decide

/-! ### Single commands (95_test_vectors) -/

/-- V1. -/
theorem test_wrbits : check (exec (.wrbits 0x1FF 9) enc) (fun t =>
    decide (t.obuf = [(0, 0xBF)]) && decide (t.resp = okResponse 0 0) &&
    inOpen t fun ses => decide (ses.wacc = 0xF0 ∧ ses.wnb = 4 ∧ ses.olen = 1)) = true := by decide +kernel

/-- V7. -/
theorem test_wrbits_full : check (exec (.wrbits 0xFFFF 16) (live { encSes with wacc := 0, wnb := 0, ocap := 1 } [] []))
    (fun t => decide (t = { State.reset with resp := some ⟨.failed .allocationFailure, 0, 0⟩ })) = true := by
  decide +kernel

/-- V1, its FLUSH. -/
theorem test_flush :
    check (exec .flush (live { encSes with wacc := 0xF0, wnb := 4, olen := 1 } [] [(0, 0xBF)])) (fun t =>
      decide (t.obuf = [(0, 0xBF), (1, 0xF0)]) && decide (t.resp = okResponse 2 0) &&
      inOpen t fun ses => decide (ses.wacc = 0 ∧ ses.wnb = 0 ∧ ses.olen = 2)) = true := by decide +kernel

/-- V11. -/
theorem test_rdbits : check (exec (.rdbits 9) (live { decSes with rbit := 3 } [(0, 0xBF), (1, 0xF0)] [])) (fun t =>
    decide (t.resp = okResponse 0x1FF 0) && inOpen t fun ses => decide (ses.rbyte = 1 ∧ ses.rbit = 4)) = true := by
  decide +kernel

/-- V11, its last command. -/
theorem test_rdbits_short :
    check (exec (.rdbits 5) (live { decSes with rbyte := 1, rbit := 4 } [(0, 0xBF), (1, 0xF0)] [])) (fun t =>
      decide (t.session = none ∧ t.resp = some ⟨.failed .unexpectedEndOfStream, 0, 0⟩)) = true := by decide +kernel

/-- V30: IBUF "abcabcabc", three bytes in the window. -/
def matching : State :=
  live { encSes with ilen := 9, ipos := 3, wpos := 3, win := [(0, 0x61), (1, 0x62), (2, 0x63)] }
    [(0, 0x61), (1, 0x62), (2, 0x63), (3, 0x61), (4, 0x62), (5, 0x63), (6, 0x61), (7, 0x62), (8, 0x63)] []

theorem test_findmatch : exec .findmatch matching = .next { matching with resp := okResponse 6 3 } := by
  obtain ⟨t, h, e⟩ := next_of_check (o := exec .findmatch matching)
    (p := fun t => decide (t.resp = okResponse 6 3)) (by decide +kernel)
  have h' := h
  simp only [exec, execFindmatch, inSession, matching, live, encSes, if_true] at h
  cases h
  rw [h']
  have e := of_decide_eq_true e
  simp only [answer] at e ⊢
  rw [e]
  rfl

/-- V40. -/
theorem test_advance :
    check (exec (.advance 2) (live { encSes with ilen := 3 } [(0, 0x61), (1, 0x62), (2, 0x63)] [])) (fun t =>
      decide (t.resp = okResponse 0 0) &&
      inOpen t fun ses => decide (ses.win = [(0, 0x61), (1, 0x62)] ∧ ses.ipos = 2 ∧ ses.wpos = 2)) = true := by
  decide +kernel

theorem test_advance_too_far :
    check (exec (.advance 2) (live { encSes with ilen := 3, ipos := 2, wpos := 2 } [] [])) (fun t =>
      decide (t.resp = some ⟨.rejected, 0, 0⟩)) = true := by decide +kernel

/-- The example of R184. -/
theorem test_putlit :
    check (exec (.putlit 0x61) (live { decSes with olen := 0, wpos := 0, win := [], ocap := 4 } [] [])) (fun t =>
      decide (t.obuf = [(0, 0x61)]) &&
      inOpen t fun ses => decide (ses.win = [(0, 0x61)] ∧ ses.olen = 1 ∧ ses.wpos = 1)) = true := by decide +kernel

/-- V41. -/
theorem test_copy : check (exec (.copy 3 6) dec) (fun t =>
    decide (t.obuf.map Prod.snd = [0x61, 0x62, 0x63, 0x61, 0x62, 0x63, 0x61, 0x62, 0x63]) &&
    inOpen t fun ses => decide (ses.olen = 9 ∧ ses.wpos = 9)) = true := by decide +kernel

/-- V43. -/
theorem test_copy_too_far : check (exec (.copy 4 3) dec) (fun t =>
    decide (t.resp = some ⟨.failed .limitExceeded, 0, 0⟩ ∧ t.session = none ∧ t.obuf = [])) = true := by decide +kernel

/-- V80: STATE after reset; the rest of a session is not there. -/
theorem test_rdreg_reset :
    exec (.rdreg 0) State.reset = .next { State.reset with resp := okResponse 0 0 } ∧
    exec (.rdreg 3) State.reset = .next { State.reset with resp := some ⟨.rejected, 0, 0⟩ } := ⟨rfl, rfl⟩

/-- The examples of R205: the word of node 544 and of leaf 97. -/
theorem test_nodeWord :
    nodeWord ⟨273, 0x3FF, 542, 543⟩ = 0x3FF87A1F ∧ nodeWord ⟨1, 321, 0x3FF, 0x3FF⟩ = 0x141FFFFF := by decide

/-- V81. -/
theorem test_inite : check (exec (.inite 0 8) State.reset) (fun t =>
    decide (t.resp = okResponse 0 0) && decide (stateRegister t = 1) &&
    inOpen t fun ses => decide (ses.ilen = 0 ∧ ses.ocap = 8 ∧ ses.olen = 0)) = true := by decide +kernel

/-- The example of R202. -/
theorem test_initd : check (exec (.initd 6 0) State.reset) (fun t => decide (stateRegister t = 3)) = true := by
  decide +kernel

/-- R203: OBUF keeps its bytes. -/
theorem test_release : check (exec .release dec) (fun t =>
    decide (t.session = none ∧ t.obuf = [(0, 0x61), (1, 0x62), (2, 0x63)])) = true := by decide +kernel

/-- V21, the codes of a, EOS and the first match symbol. -/
theorem test_initial_codes :
    [97, 256, 257].map (code initModel) =
      [some [false, false, true, true, true, true, true, true],
        some [true, true, false, true, true, true, true, false],
        some [true, true, false, true, true, true, true, true]] := by decide +kernel

/-- V22, first line: the code of a, its length, and the count after. -/
theorem test_encode : check (exec (.encode 97) (live (initSession .enc 0 16) [] [])) (fun t =>
    decide (t.obuf = [(0, 0x3F)]) && decide (t.resp = okResponse 8 0) &&
    inOpen t fun ses => decide (ses.nodes[97].cnt = 2)) = true := by decide +kernel

/-- V24. -/
theorem test_encode_no_symbol : check (exec (.encode 273) (live (initSession .enc 0 16) [] [])) (fun t =>
    decide (t.resp = some ⟨.failed .invalidSymbol, 0, 0⟩ ∧ t.session = none)) = true := by decide +kernel

/-- V28, first command. -/
theorem test_decode : check (exec .decode (live (initSession .dec 3 0) [(0, 0x3F), (1, 0xEE), (2, 0xEC)] [])) (fun t =>
    decide (t.resp = okResponse 97 8) && inOpen t fun ses => decide (ses.rbyte = 1 ∧ ses.rbit = 0)) = true := by
  decide +kernel

/-- Inside the token loop of DECOMPRESS, one byte short of the declared length of V54. -/
def looping : Session := { decSes with ilen := 10, ocap := 10, rbyte := 7, declared := some 10 }

/-- R217, LIT. -/
theorem test_lit : check (exec (.lit 0x64) (live looping [] [(0, 0x61), (1, 0x62), (2, 0x63)])) (fun t =>
    decide (t.obuf = [(0, 0x61), (1, 0x62), (2, 0x63), (3, 0x64)] ∧ t.resp = none)) = true := by decide +kernel

/-- R216 (11): EOS too early. -/
theorem test_eos_early : check (exec .eos (live looping [] [])) (fun t =>
    decide (t.resp = some ⟨.failed .malformedHeader, 0, 0⟩ ∧ t.session = none)) = true := by decide +kernel

/-- V55: MATCH 3, 6 with L = 9. -/
theorem test_matchL6 : check (exec (.matchL6 2) (live { looping with declared := some 9 } []
    [(0, 0x61), (1, 0x62), (2, 0x63)])) (fun t =>
      decide (t.obuf.map Prod.snd = [0x61, 0x62, 0x63, 0x61, 0x62, 0x63, 0x61, 0x62, 0x63] ∧ t.resp = none)) = true := by
  decide +kernel

/-- V69: a match beyond L. -/
theorem test_matchL9 : check (exec (.matchL9 0) (live { looping with declared := some 5 } [] [])) (fun t =>
    decide (t.resp = some ⟨.failed .malformedHeader, 0, 0⟩)) = true := by decide +kernel

/-- V53: COMPRESS of the one byte a. -/
def oneByte : State := { State.reset with ibuf := [(0, 0x61)] }
def oneByteOut : Memory := [(0, 0x01), (1, 0x00), (2, 0x00), (3, 0x00), (4, 0x01), (5, 0x3F), (6, 0xDD)]

theorem test_compress :
    exec (.compress 1 64) oneByte = .next { oneByte with obuf := oneByteOut, resp := some ⟨.ok, 7, 0⟩ } := by
  obtain ⟨t, h, e⟩ := next_of_check (o := exec (.compress 1 64) oneByte)
    (p := fun t => decide (t = { oneByte with obuf := oneByteOut, resp := some ⟨.ok, 7, 0⟩ })) (by decide +kernel)
  rw [h, of_decide_eq_true e]

/-- V53 back: DECOMPRESS of its output. -/
def packed : State := { State.reset with ibuf := oneByteOut }

theorem test_decompress :
    exec (.decompress 7 1) packed = .next { packed with obuf := [(0, 0x61)], resp := some ⟨.ok, 1, 0⟩ } := by
  obtain ⟨t, h, e⟩ := next_of_check (o := exec (.decompress 7 1) packed)
    (p := fun t => decide (t = { packed with obuf := [(0, 0x61)], resp := some ⟨.ok, 1, 0⟩ })) (by decide +kernel)
  rw [h, of_decide_eq_true e]

/-- V61. -/
theorem test_decompress_tag :
    check (exec (.decompress 3 64) { State.reset with ibuf := [(0, 0x02), (1, 0), (2, 0)] }) (fun t =>
      decide (t.resp = some ⟨.failed .malformedHeader, 0, 0⟩)) = true := by decide +kernel

/-! ### Witnesses: states and operands that meet the hypotheses of each statement, clause by clause -/

theorem initModel_ok : modelOk initModel := by
  refine ⟨initModel_built, ?_, ?_⟩ <;> rw [initModel_leafCounts]
  · intro c hc; rw [List.eq_of_mem_replicate hc]; decide
  · rw [List.sum_replicate]; decide

/-- Counts with the greatest total and the greatest leaf count (10_state R36). -/
def topCounts : List Nat := 3823 :: List.replicate 272 1

theorem topCounts_legal : topCounts.length = 273 ∧ (∀ c ∈ topCounts, 1 ≤ c) ∧ topCounts.sum ≤ 4095 := by
  refine ⟨by decide +kernel, ?_, by decide +kernel⟩
  intro c hc
  rcases List.mem_cons.1 hc with rfl | hc
  · decide
  · rw [List.eq_of_mem_replicate hc]

theorem topModel_ok : modelOk (build topCounts) := by
  have e : leafCounts (build topCounts) = topCounts := leafCounts_build topCounts_legal.1 (by
    intro c hc
    rcases List.mem_cons.1 hc with rfl | hc
    · decide
    · rw [List.eq_of_mem_replicate hc]; decide)
  exact ⟨by rw [e], by rw [e]; exact topCounts_legal.2.1, by rw [e]; exact topCounts_legal.2.2⟩

theorem initial_code_97 : code initModel 97 = some [false, false, true, true, true, true, true, true] := by
  have := test_initial_codes; simp only [List.map_cons, List.cons.injEq] at this; exact this.1
theorem initial_code_256 : code initModel 256 = some [true, true, false, true, true, true, true, false] := by
  have := test_initial_codes; simp only [List.map_cons, List.cons.injEq] at this; exact this.2.1
theorem initial_code_257 : code initModel 257 = some [true, true, false, true, true, true, true, true] := by
  have := test_initial_codes; simp only [List.map_cons, List.cons.injEq] at this; exact this.2.2.1

theorem test_witness_UnusedOperandsIgnored :
    ∀ i, i < (3 : Word).toNat → (0xFFFFFFFF : Word).getLsbD i = (7 : Word).getLsbD i := by decide

/-- The reset state with these acts of the host to come. -/
def asked (port : List HostEvent) : State := { State.reset with port := port }

theorem test_witness_ReservedOpcodesRejected :
    (asked [.command 0x05_00000000_00000000]).inTokenLoop = false ∧ commandOp 0x05_00000000_00000000 = 0x05 ∧
    commandOp 0x41_00000000_00000000 = 0x41 ∧
    decodeCommand 0x10_00000001_00000001 = .ok (.wrbits 1 1) ∧
    accepted (.wrbits 1 1) (asked [.command 0x10_00000001_00000001]) = false := ⟨rfl, rfl, rfl, rfl, rfl⟩

theorem test_witness_StepRunsDecodedCommand :
    (asked [.command 0]).inTokenLoop = false ∧ decodeCommand 0 = .ok .nop := ⟨rfl, rfl⟩

/-- Past the header of V66, a LIT stands at the read cursor; with one byte less, nothing does. -/
def atToken (ilen : Word) : Session := { initSession .dec ilen 8 with rbyte := 5, declared := some 8 }
def litStream : Memory := [(0, 0x01), (1, 0x00), (2, 0x00), (3, 0x00), (4, 0x08), (5, 0x3F), (6, 0xDD)]

theorem test_witness_StepRunsDecodedToken :
    (atToken 7).declared.isSome = true ∧
    (∃ w, fetchToken litStream ⟨atToken 7, []⟩ = .done (97, none) w) ∧
    decodeToken (BitVec.ofNat 9 97) none = .ok (.lit 0x61) ∧
    fetchToken litStream ⟨atToken 5, []⟩ = .raise .unexpectedEndOfStream := by
  refine ⟨rfl, ?_, rfl, ?_⟩
  · have h : (match fetchToken litStream ⟨atToken 7, []⟩ with
        | .done t _ => decide (t = (97, none))
        | .raise _ => false
        | .stuck _ => false) = true := by decide +kernel
    split at h
    · rename_i t w e; rw [e, of_decide_eq_true h]; exact ⟨w, rfl⟩
    · cases h
    · cases h
  · have h : (match fetchToken litStream ⟨atToken 5, []⟩ with
        | .done _ _ => false
        | .raise k => decide (k = .unexpectedEndOfStream)
        | .stuck _ => false) = true := by decide +kernel
    split at h
    · cases h
    · rename_i k e; rw [e, of_decide_eq_true h]
    · cases h

theorem test_witness_FetchTokenReads :
    modelOk (atToken 7).nodes ∧
    code (atToken 7).nodes 97 = some [false, false, true, true, true, true, true, true] ∧
    readPos (atToken 7) + 8 ≤ 8 * (atToken 7).ilen.toNat ∧
    ibufBits litStream (readPos (atToken 7)) 8 = [false, false, true, true, true, true, true, true] ++ residualBits none ∧
    code (atToken 8).nodes 257 = some [true, true, false, true, true, true, true, true] ∧
    readPos (atToken 8) + 20 ≤ 8 * (atToken 8).ilen.toNat ∧
    ibufBits [(5, 0xDF), (6, 0x00), (7, 0x20)] (readPos (atToken 8)) 20 =
      [true, true, false, true, true, true, true, true] ++ residualBits (some 2) :=
  ⟨initModel_ok, initial_code_97, by decide, by decide +kernel, initial_code_257, by decide, by decide +kernel⟩

theorem test_witness_HostActsBetweenCommands :
    (asked []).inTokenLoop = false ∧ (asked [.place 3 0x61]).inTokenLoop = false ∧
    (asked [.reset]).inTokenLoop = false := ⟨rfl, rfl, rfl⟩

theorem test_witness_FirstCommandsAfterReset :
    State.reset.session = none ∧ acceptedWithoutSession (.rdreg 0) = true ∧
    acceptedWithoutSession (.rdreg 1) = false ∧ acceptedWithoutSession (.copy 1 3) = false := ⟨rfl, rfl, rfl, rfl⟩

theorem test_witness_RdregReadsRegisters :
    dec.session = some decSes ∧ decSes.nodes[544]? = some ⟨0, 0, 0, 0⟩ ∧
    fill decSes = 3 ∧ memLookup decSes.win 2 = some 0x63 ∧
    isRegisterNumber (0x00A : Word).toNat = false ∧ isRegisterNumber (0x621 : Word).toNat = false ∧
    State.reset.session = none := ⟨rfl, by simp [decSes, blankNodes], rfl, rfl, rfl, rfl, rfl⟩

theorem test_witness_WrbitsAppendsBits :
    dec.lacks .enc ∧ 32 < (33 : Word).toNat ∧ enc.encSession encSes ∧ unplacedClear encSes ∧
    bitRoom encSes 9 ∧ bitRoom { encSes with ocap := 0 } 4 ∧ ¬ bitRoom { encSes with ocap := 0 } 5 ∧
    bitRoom { encSes with ocap := 4 } 32 ∧ ¬ bitRoom { encSes with ocap := 3 } 32 := by
  refine ⟨dec_lacks_enc, by decide, ⟨rfl, rfl⟩, ?_, ?_, ?_, ?_, ?_, ?_⟩ <;>
    first | (unfold unplacedClear; decide) | (unfold bitRoom; decide)

theorem test_witness_FlushPadsWithZeros :
    State.reset.lacks .enc ∧ { encSes with wnb := 0 }.wnb = 0 ∧ unplacedClear encSes ∧ encSes.wnb ≠ 0 ∧
    encSes.olen < encSes.ocap ∧ { encSes with ocap := 0 }.ocap ≤ { encSes with ocap := 0 }.olen :=
  ⟨reset_lacks _, rfl, by unfold unplacedClear; decide, by decide, by decide, by decide⟩

theorem test_witness_RdbitsReturnsBits :
    enc.lacks .dec ∧ dec.decSession decSes ∧ readPos decSes + (16 : Word).toNat ≤ 8 * decSes.ilen.toNat ∧
    8 * decSes.ilen.toNat < readPos decSes + (17 : Word).toNat ∧ (0 : Word) = 0 :=
  ⟨enc_lacks_dec, ⟨rfl, rfl⟩, by decide, by decide, rfl⟩

theorem test_witness_WrittenFieldsReadBack :
    (∀ f ∈ [((0x5 : Word), (3 : Word)), (0xDEADBEEF, 32)], f.2.toNat ≤ 32) ∧
    (([((0x5 : Word), (3 : Word)), (0xDEADBEEF, 32)].map fun f => f.2.toNat).sum + 7) / 8 ≤ (5 : Word).toNat ∧
    carriedOver [(0, 0xBB)] [(0, 0xBB)] 1 := by
  refine ⟨?_, by decide, ?_⟩
  · intro f hf
    rcases List.mem_cons.1 hf with rfl | hf
    · decide
    · rw [List.mem_singleton.1 hf]; decide
  · intro a ha
    obtain rfl : a = 0 := by omega
    rfl

theorem test_witness_CursorsMoveByBitsMoved :
    (∃ t ses' r, exec (.rdbits 9) dec = .next t ∧ t.session = some ses' ∧ t.resp = some r ∧ r.rsp = .ok) ∧
    (∃ t ses' r, exec (.wrbits 1 1) dec = .next t ∧ t.session = some ses' ∧ t.resp = some r ∧ r.rsp = .rejected) :=
  ⟨⟨_, _, _, rfl, rfl, rfl, rfl⟩, ⟨_, _, _, rfl, rfl, rfl, rfl⟩⟩

theorem test_witness_BuildGivesCodeTree :
    topCounts.length = 273 ∧ (∀ c ∈ topCounts, 1 ≤ c) ∧ topCounts.sum ≤ 4095 := topCounts_legal

theorem test_witness_BuildTakesLeastFirst :
    (∃ node, (build topCounts)[273]? = some node) ∧ (∃ next, (build topCounts)[274]? = some next) ∧
    (∃ node, (build topCounts)[544]? = some node) :=
  ⟨⟨_, Vector.getElem?_eq_getElem (by decide)⟩, ⟨_, Vector.getElem?_eq_getElem (by decide)⟩,
    ⟨_, Vector.getElem?_eq_getElem (by decide)⟩⟩

theorem test_witness_CodesArePrefixFree :
    modelOk initModel ∧ (∃ bits, code initModel 97 = some bits) ∧ (∃ bits, code initModel 256 = some bits) :=
  ⟨initModel_ok, ⟨_, initial_code_97⟩, ⟨_, initial_code_256⟩⟩

/-- The total is at its greatest, so the update of any symbol rescales. -/
theorem test_witness_UpdateCountsSymbol : modelOk (build topCounts) ∧ 272 < 273 ∧ modelOk initModel :=
  ⟨topModel_ok, by decide, initModel_ok⟩

theorem test_witness_FirstRescale :
    (∀ sym ∈ List.replicate 3823 272, sym < 273) ∧ (List.replicate 3823 272).length = 3823 ∧
    (List.replicate 3822 272).length ≤ 3822 := by
  refine ⟨?_, List.length_replicate, by rw [List.length_replicate]⟩
  intro sym h; rw [List.eq_of_mem_replicate h]; decide

theorem test_witness_CountsStayLegal : modelOk (build topCounts) := topModel_ok

/-- A fresh session of a direction. -/
def fresh (d : Dir) (ilen ocap : Word) : Session := initSession d ilen ocap

theorem test_witness_EncodeWritesCode :
    State.reset.lacks .enc ∧ (live (fresh .enc 0 1) [] []).encSession (fresh .enc 0 1) ∧
    unplacedClear (fresh .enc 0 1) ∧ code (fresh .enc 0 1).nodes (97 : Word).toNat =
      some [false, false, true, true, true, true, true, true] ∧
    bitRoom (fresh .enc 0 1) 8 ∧ ¬ bitRoom (fresh .enc 0 0) 8 ∧ 273 ≤ (273 : Word).toNat := by
  refine ⟨reset_lacks _, ⟨rfl, rfl⟩, ?_, initial_code_97, ?_, ?_, by decide⟩
  · unfold unplacedClear; intro i _; simp [fresh]
  · unfold bitRoom; decide
  · unfold bitRoom; decide

theorem test_witness_DecodeReadsSymbol :
    enc.lacks .dec ∧ modelOk (fresh .dec 1 0).nodes ∧
    code (fresh .dec 1 0).nodes 97 = some [false, false, true, true, true, true, true, true] ∧
    readPos (fresh .dec 1 0) + 8 ≤ 8 * (fresh .dec 1 0).ilen.toNat ∧
    ibufBits [(0, 0x3F)] (readPos (fresh .dec 1 0)) 8 = [false, false, true, true, true, true, true, true] ∧
    (∀ sym bits, sym < 273 → code (fresh .dec 0 0).nodes sym = some bits →
      readPos (fresh .dec 0 0) + bits.length ≤ 8 * (fresh .dec 0 0).ilen.toNat →
      ibufBits [] (readPos (fresh .dec 0 0)) bits.length ≠ bits) := by
  refine ⟨enc_lacks_dec, initModel_ok, initial_code_97, by decide, by decide +kernel, ?_⟩
  intro sym bits hs hc hl
  have hb : bits = [] := by
    apply List.length_eq_zero_iff.1
    have : readPos (fresh .dec 0 0) = 0 := rfl
    have h8 : 8 * (fresh .dec 0 0).ilen.toNat = 0 := rfl
    omega
  subst hb
  exfalso
  unfold code at hc
  rw [show Config.nnode = 544 + 1 from rfl] at hc
  unfold codeFrom at hc
  rw [if_neg (show sym ≠ 544 by omega)] at hc
  have grow : ∀ fuel n (bs out : List Bool), codeFrom initModel fuel n bs = some out → bs.length ≤ out.length := by
    intro fuel
    induction fuel with
    | zero => intro n bs out h; unfold codeFrom at h; split at h <;> cases h; exact Nat.le_refl _
    | succ fuel ih =>
      intro n bs out h
      unfold codeFrom at h
      split at h
      · cases h; exact Nat.le_refl _
      · split at h
        · cases h
        · split at h
          · cases h
          · exact Nat.le_of_succ_le (ih _ _ _ h)
  split at hc
  · cases hc
  · split at hc
    · cases hc
    · exact absurd (grow _ _ _ _ hc) (by simp)

theorem test_witness_DecoderInLockstep :
    (∀ item ∈ [StreamItem.symbol 97, .field 5 3], item.ok = true) ∧
    ([StreamItem.symbol 97, .field 5 3].map StreamItem.bound).sum ≤ 8 * (35 : Word).toNat := by decide

theorem test_witness_MatchLenCounts :
    1 ≤ fill { encSes with wpos := 1, ipos := 1, win := [(0, 0x61)] } ∧
    fill { encSes with wpos := 5000 } = 4096 := by decide

theorem test_witness_AdvanceMovesInput :
    dec.lacks .enc ∧ enc.encSession encSes ∧ encSes.ilen.toNat - encSes.ipos.toNat < (13 : Word).toNat ∧
    (12 : Word).toNat ≤ encSes.ilen.toNat - encSes.ipos.toNat ∧ (0 : Word).toNat ≤ 12 :=
  ⟨dec_lacks_enc, ⟨rfl, rfl⟩, by decide, by decide, by decide⟩

theorem test_witness_PutlitAppendsByte :
    enc.lacks .dec ∧ dec.decSession decSes ∧ decSes.olen < decSes.ocap ∧
    { decSes with ocap := 3 }.ocap ≤ { decSes with ocap := 3 }.olen :=
  ⟨enc_lacks_dec, ⟨rfl, rfl⟩, by decide, by decide⟩

/-- Distances 0, 1, fill, fill + 1; lengths 2, 3, 18, 19; room for exactly the bytes, and for one less. -/
theorem test_witness_CopyRepeatsBytes :
    enc.lacks .dec ∧ dec.decSession decSes ∧ fill decSes = 3 ∧ decSes.wpos = decSes.olen ∧
    decSes.olen.toNat + (6 : Word).toNat ≤ decSes.ocap.toNat ∧
    decSes.ocap.toNat < decSes.olen.toNat + (7 : Word).toNat ∧
    ¬ (1 ≤ (0 : Word).toNat) ∧ ¬ ((4 : Word).toNat ≤ fill decSes) ∧ (3 : Word).toNat ≤ fill decSes ∧
    ¬ (3 ≤ (2 : Word).toNat) ∧ ¬ ((19 : Word).toNat ≤ 18) ∧ (18 : Word).toNat ≤ 18 :=
  ⟨enc_lacks_dec, ⟨rfl, rfl⟩, rfl, rfl, by decide, by decide, by decide, by decide, by decide, by decide, by decide,
    by decide⟩

/-- The output of `matching`, reconstructed up to its position. -/
def matchingSes : Session :=
  { encSes with ilen := 9, ipos := 3, wpos := 3, win := [(0, 0x61), (1, 0x62), (2, 0x63)] }

theorem test_witness_FindmatchCanonical : dec.lacks .enc ∧ matching.encSession matchingSes :=
  ⟨dec_lacks_enc, ⟨rfl, rfl⟩⟩

theorem matching_window : matching.encWindowInv := by
  intro ses h
  obtain ⟨h, _⟩ := h
  cases h
  refine ⟨rfl, by decide, ?_⟩
  intro d h1 h2
  have : d ≤ 3 := h2
  obtain rfl | rfl | rfl : d = 1 ∨ d = 2 ∨ d = 3 := by omega
  · rfl
  · rfl
  · rfl

theorem dec_windowIsOutput : windowIsOutput decSes dec.obuf := by
  intro d h1 h2
  have : d ≤ 3 := h2
  obtain rfl | rfl | rfl : d = 1 ∨ d = 2 ∨ d = 3 := by omega
  · exact ⟨_, rfl, rfl⟩
  · exact ⟨_, rfl, rfl⟩
  · exact ⟨_, rfl, rfl⟩

theorem test_witness_CopyInvertsMatch :
    matching.encSession matchingSes ∧ matching.encWindowInv ∧
    exec .findmatch matching = .next { matching with resp := some ⟨.ok, 6, 3⟩ } ∧
    dec.decSession decSes ∧ decSes.wpos = decSes.olen ∧ windowIsOutput decSes dec.obuf ∧
    decSes.olen = matchingSes.ipos ∧ carriedOver dec.obuf matching.ibuf matchingSes.ipos.toNat ∧
    decSes.olen.toNat + (6 : Word).toNat ≤ decSes.ocap.toNat := by
  refine ⟨⟨rfl, rfl⟩, matching_window, test_findmatch, ⟨rfl, rfl⟩, rfl, dec_windowIsOutput, rfl, ?_, by decide⟩
  intro a ha
  have ha' : a < 3 := ha
  obtain rfl | rfl | rfl : a = 0 ∨ a = 1 ∨ a = 2 := by omega
  · rfl
  · rfl
  · rfl

theorem test_witness_CompressCompletes :
    (0 : Word) ≤ State.reset.maxInputLen ∧ 40 + 284 * ((0 : Word).toNat + 1) ≤ 8 * (41 : Word).toNat ∧
    { State.reset with maxInputLen := 10 }.maxInputLen < 11 := by decide

theorem test_witness_CompressEmitsTokens :
    ∃ t, exec (.compress 1 64) oneByte = .next t ∧ t.resp = some ⟨.ok, 7, 0⟩ := ⟨_, test_compress, rfl⟩

theorem test_witness_CompressIsItsExpansion : (1 : Word) ≤ oneByte.maxInputLen := by decide

/-- V63, V61, V63, a length above MAX_INPUT_LEN, V75. -/
theorem test_witness_HeaderChecksInOrder :
    headerVerdict [] 4 0 64 = some .unexpectedEndOfStream ∧
    headerVerdict [(0, 0x02), (1, 0), (2, 0)] 4 3 64 = some .malformedHeader ∧
    headerVerdict [(0, 0x01), (1, 0), (2, 0)] 4 3 64 = some .unexpectedEndOfStream ∧
    headerVerdict [(0, 0x01), (1, 0), (2, 0), (3, 0), (4, 5)] 4 5 64 = some .malformedHeader ∧
    headerVerdict [(0, 0x01), (1, 0xFF), (2, 0xFF), (3, 0xFF), (4, 0xFF)] 0xFFFFFFFF 5 16 =
      some .allocationFailure := by decide

theorem test_witness_DecompressIsItsSteps :
    (live looping [] []).inTokenLoop = true ∧ headerVerdict oneByteOut 0xFFFFFFFF 7 1 = none := by decide

/-- V53, as tokens and bits. -/
theorem test_witness_DecompressRunsTokens :
    expansion [.lit 0x61] [] = some [0x61] ∧ (wireBits 1 [.lit 0x61]).length ≤ 8 * (7 : Word).toNat ∧
    ibufBits oneByteOut 0 (wireBits 1 [.lit 0x61]).length = wireBits 1 [.lit 0x61] := by
  refine ⟨rfl, ?_⟩
  have h : wireBits 1 [.lit 0x61] = ibufBits oneByteOut 0 56 := by decide +kernel
  rw [h]
  exact ⟨by decide +kernel, by decide +kernel⟩

theorem test_witness_HeaderGivesLength :
    (∃ t, exec (.decompress 7 1) packed = .next t ∧ t.resp = some ⟨.ok, 1, 0⟩) ∧
    (∃ t, exec (.compress 1 64) oneByte = .next t ∧ t.resp = some ⟨.ok, 7, 0⟩) :=
  ⟨⟨_, test_decompress, rfl⟩, ⟨_, test_compress, rfl⟩⟩

/-- One byte less room than declared (V53, R215). -/
theorem test_decompress_noRoom :
    exec (.decompress 7 0) packed =
      .next { packed with session := none, obuf := [], resp := some ⟨.failed .allocationFailure, 0, 0⟩ } := by
  rfl

/-- The same input in a state with a session and in one without; room for the declared length, and one byte less. -/
theorem test_witness_MacrosIgnoreHistory :
    (∀ a, a < (1 : Word).toNat → ibufByte oneByte.ibuf a = ibufByte (live decSes [(0, 0x61), (1, 0x62)] []).ibuf a) ∧
    oneByte.maxInputLen = (live decSes [] []).maxInputLen ∧ (1 : Word) ≤ oneByte.maxInputLen ∧
    (∃ t, exec (.compress 1 64) oneByte = .next t ∧ t.resp = some ⟨.ok, 7, 0⟩) ∧
    declaredLength packed.ibuf = (1 : Word).toNat ∧
    (∃ t, exec (.decompress 7 1) packed = .next t ∧ t.resp = some ⟨.ok, 1, 0⟩) ∧
    ∃ t, exec (.decompress 7 0) packed = .next t ∧ t.resp = some ⟨.failed .allocationFailure, 0, 0⟩ := by
  refine ⟨?_, rfl, by decide, ⟨_, test_compress, rfl⟩, by decide, ⟨_, test_decompress, rfl⟩,
    ⟨_, test_decompress_noRoom, rfl⟩⟩
  intro a ha
  have ha' : a < 1 := ha
  obtain rfl : a = 0 := by omega
  rfl

theorem packed_carries (m : Nat) (hm : m ≤ 7) : carriedOver oneByteOut packed.ibuf m := by
  intro a ha
  have ha' : a < 7 := by omega
  obtain rfl | rfl | rfl | rfl | rfl | rfl | rfl :
    a = 0 ∨ a = 1 ∨ a = 2 ∨ a = 3 ∨ a = 4 ∨ a = 5 ∨ a = 6 := by omega
  all_goals rfl

theorem test_witness_RoundTrip :
    (∃ t, exec (.compress 1 64) oneByte = .next t ∧ t.resp = some ⟨.ok, 7, 0⟩ ∧
      carriedOver t.obuf packed.ibuf (7 : Word).toNat) ∧ (1 : Word) ≤ packed.maxInputLen ∧ (1 : Word) ≤ 1 :=
  ⟨⟨_, test_compress, rfl, packed_carries 7 (by decide)⟩, by decide, by decide⟩

theorem test_witness_TruncationDetected :
    (∃ t, exec (.compress 1 64) oneByte = .next t ∧ t.resp = some ⟨.ok, 7, 0⟩ ∧
      carriedOver t.obuf packed.ibuf (6 : Word).toNat) ∧ (6 : Word) < 7 ∧ (1 : Word) ≤ 1 ∧ (0 : Word) < 1 ∧
    5 ≤ (5 : Word).toNat :=
  ⟨⟨_, test_compress, rfl, packed_carries 6 (by decide)⟩, by decide, by decide, by decide, by decide⟩

theorem test_witness_LitToken :
    (live looping [] []).decSession looping ∧ looping.declared = some 10 ∧ looping.olen ≠ 10 ∧
    looping.olen < looping.ocap ∧ { looping with olen := 10 }.olen = 10 ∧
    { looping with ocap := 3 }.ocap ≤ { looping with ocap := 3 }.olen := by
  refine ⟨⟨rfl, rfl⟩, rfl, by decide, by decide, rfl, by decide⟩

/-- Distances fill and fill + 1, lengths up to the declared length and one beyond. -/
theorem test_witness_MatchTokens :
    matchOf (.matchL7 2) = some (7, 2) ∧ matchOf (.matchL8 2) = some (8, 2) ∧ matchOf (.matchL3 3) = some (3, 3) ∧
    (live looping [] []).decSession looping ∧ looping.declared = some 10 ∧ fill looping = 3 ∧
    looping.olen.toNat + 7 ≤ (10 : Word).toNat ∧ (10 : Word).toNat < looping.olen.toNat + 8 ∧
    (10 : Word).toNat ≤ looping.ocap.toNat ∧ looping.wpos = looping.olen :=
  ⟨rfl, rfl, rfl, ⟨rfl, rfl⟩, rfl, rfl, by decide, by decide, by decide, rfl⟩

theorem test_witness_EosToken :
    (live { looping with olen := 10 } [] []).decSession { looping with olen := 10 } ∧
    { looping with olen := 10 }.olen = 10 ∧ looping.olen ≠ 10 := ⟨⟨rfl, rfl⟩, rfl, by decide⟩

theorem test_witness_HandDrivenTokens :
    dec.decSession decSes ∧ decSes.declared = none ∧ matchOf (.matchL18 0xFFF) = some (18, 0xFFF) ∧
    enc.lacks .dec ∧ isCommand .eos = false := ⟨⟨rfl, rfl⟩, rfl, rfl, enc_lacks_dec, rfl⟩

theorem test_witness_FailureReleasesSession :
    ∃ t, exec (.rdbits 17) dec = .next t ∧ t.resp = some ⟨.failed .unexpectedEndOfStream, 0, 0⟩ := ⟨_, rfl, rfl⟩

theorem test_witness_RejectedChangesNothing :
    ∃ t, exec (.encode 97) dec = .next t ∧ t.resp = some ⟨.rejected, 0, 0⟩ := ⟨_, rfl, rfl⟩

theorem test_witness_RejectedExactly : isCommand (.advance 13) = true ∧ accepted (.advance 13) enc = false ∧
    accepted (.advance 12) enc = true := by decide

/-- A DEC session that keeps every invariant: V41 with the initial model. -/
def good (nodes : NodeMemory) : Session := { decSes with nodes := nodes }
def goodState (nodes : NodeMemory) : State := live (good nodes) [(0, 0xBF), (1, 0xF0)] dec.obuf

theorem good_inv {nodes : NodeMemory} (h : modelOk nodes) : SessionInv (good nodes) dec.obuf where
  room := by simp [good, decSes]
  output := rfl
  accumulator := by unfold unplacedClear; intro i _; simp [good, decSes]
  cursor := by simp [good, decSes, readPos]
  input := by simp [good, decSes]
  slots := rfl
  encoding := fun h => absurd h (show Dir.dec ≠ Dir.enc by decide)
  decoding := fun _ => ⟨rfl, dec_windowIsOutput, rfl, rfl, rfl⟩
  model := h
  loop := fun _ h => absurd h (show (none : Option Word) ≠ some _ by simp)

theorem good_state {nodes : NodeMemory} (h : modelOk nodes) : (goodState nodes).Inv :=
  ⟨by unfold Memory.wf; simp [goodState, live], by unfold Memory.wf; simp [goodState, live, dec],
    fun _ e => Option.some.inj e ▸ good_inv h⟩

/-- R92, R240: records written out from the two tables. -/
theorem test_responseRecord :
    responseRecord ⟨.ok, 7, 0⟩ = 0x0_00000007_00000000#68 ∧
    responseRecord ⟨.ok, 6, 3⟩ = 0x0_00000006_00000003#68 ∧
    responseRecord ⟨.failed .allocationFailure, 0, 0⟩ = 0x1_00000000_00000000#68 ∧
    responseRecord ⟨.failed .inputTooLarge, 0, 0⟩ = 0x2_00000000_00000000#68 ∧
    responseRecord ⟨.failed .limitExceeded, 0, 0⟩ = 0x3_00000000_00000000#68 ∧
    responseRecord ⟨.failed .unexpectedEndOfStream, 0, 0⟩ = 0x4_00000000_00000000#68 ∧
    responseRecord ⟨.failed .malformedHeader, 0, 0⟩ = 0x5_00000000_00000000#68 ∧
    responseRecord ⟨.failed .invalidSymbol, 0, 0⟩ = 0x6_00000000_00000000#68 ∧
    responseRecord ⟨.rejected, 0, 0⟩ = 0xF_00000000_00000000#68 := by decide

theorem test_witness_ResponsesByCommand :
    isCommand (.copy 3 6) = true ∧ (goodState initModel).Inv := ⟨rfl, good_state initModel_ok⟩

theorem test_witness_InstructionsWriteOnly :
    ∃ t ses', exec (.rdbits 9) dec = .next t ∧ dec.session = some decSes ∧ t.session = some ses' :=
  ⟨_, _, rfl, rfl, rfl⟩

theorem test_witness_StepKeepsInv :
    (goodState initModel).Inv ∧
    ∃ t, step (goodState initModel) = .next t :=
  ⟨good_state initModel_ok, ⟨_, step_waits (s := goodState _) rfl rfl⟩⟩

theorem test_witness_ExecKeepsEncWindow :
    matching.encWindowInv ∧ ∃ t, exec (.advance 6) matching = .next t ∧ t.encSession { matchingSes with
      ipos := 9, wpos := 9, win := [(0, 0x61), (1, 0x62), (2, 0x63), (3, 0x61), (4, 0x62), (5, 0x63), (6, 0x61),
        (7, 0x62), (8, 0x63)] } := ⟨matching_window, _, rfl, rfl, rfl⟩

theorem test_witness_StepAlwaysAnswers : (goodState initModel).Inv := good_state initModel_ok

end Sys2Proof.Tests
end

section
/-! SUPPORT. What the loop of Build takes and creates, for any leaf counts (41_huffman R151), and that the parent of
every node it builds lies above the node (10_state R37). -/

namespace Sys2Proof.Machine

/-- Putting a node at its rank is the library's ordered insertion. -/
theorem insertRanked_eq_orderedInsert (x : Ranked) (l : List Ranked) :
    insertRanked x l = l.orderedInsert (fun y z => ranksBefore y z = true) x := by
  induction l with
  | nil => rfl
  | cons y ys ih => rw [insertRanked, List.orderedInsert_cons, ih, cond_eq_ite]

theorem insertRanked_perm (x : Ranked) (l : List Ranked) : (insertRanked x l).Perm (x :: l) := by
  rw [insertRanked_eq_orderedInsert]; exact List.perm_orderedInsert _ x l

/-- The set A at the start of Build holds the leaves and nothing else. -/
theorem foldr_insertRanked_perm (l : List Ranked) : (l.foldr insertRanked []).Perm l := by
  induction l with
  | nil => exact .refl _
  | cons x l ih => exact (insertRanked_perm x _).trans (ih.cons x)

theorem mergeSteps_length {k n : Nat} {set : List Ranked} (h : set.length = k + 1) :
    (mergeSteps k n set).length = k := by
  induction k generalizing n set with
  | zero => rfl
  | succ k ih =>
    match set, h with
    | a :: b :: rest, h =>
      have hrest : (insertRanked ((a.1 + b.1) % 65536, n) rest).length = k + 1 := by
        rw [(insertRanked_perm _ _).length_eq]; simpa using h
      rw [mergeSteps, List.length_cons, ih hrest]

/-- The nodes that a list of merges takes, in their order. -/
def takenBy (merges : List Merge) : List Nat := merges.flatMap fun m => [m.left, m.right]

/-- k + 1 merges take each node of the set and each node they create exactly once, except for the last one created. -/
theorem takenBy_mergeSteps_perm {k n : Nat} {set : List Ranked} (h : set.length = k + 2) :
    (takenBy (mergeSteps (k + 1) n set) ++ [n + k]).Perm (set.map Prod.snd ++ List.range' n (k + 1)) := by
  induction k generalizing n set with
  | zero =>
    match set, h with
    | [a, b], _ => exact .refl _
  | succ k ih =>
    match set, h with
    | a :: b :: rest, h =>
      let created : Ranked := ((a.1 + b.1) % 65536, n)
      have hperm := insertRanked_perm created rest
      have hlen : (insertRanked created rest).length = k + 2 := by rw [hperm.length_eq]; simpa using h
      have hrest := (ih (n := n + 1) hlen).trans ((hperm.map Prod.snd).append_right _)
      rw [show n + 1 + k = n + (k + 1) by omega] at hrest
      rw [List.range'_succ (s := n)]
      exact ((hrest.trans List.perm_middle.symm).cons b.2).cons a.2

/-- A merge takes only nodes older than the one it creates. -/
theorem mergeSteps_takes_older {k n i : Nat} {set : List Ranked} {m : Merge} (hset : ∀ x ∈ set, x.2 < n)
    (hm : (mergeSteps k n set)[i]? = some m) : m.left < n + i ∧ m.right < n + i := by
  induction k generalizing n set i with
  | zero => simp [mergeSteps] at hm
  | succ k ih =>
    match set, hset, hm with
    | [], _, hm => simp [mergeSteps] at hm
    | [_], _, hm => simp [mergeSteps] at hm
    | a :: b :: rest, hset, hm =>
      rw [mergeSteps] at hm
      cases i with
      | zero =>
        obtain rfl := Option.some.inj hm
        exact ⟨hset a (by simp), hset b (by simp)⟩
      | succ i =>
        have hnext : ∀ x ∈ insertRanked ((a.1 + b.1) % 65536, n) rest, x.2 < n + 1 := by
          intro x hx
          rcases List.mem_cons.1 ((insertRanked_perm _ _).mem_iff.1 hx) with rfl | hx
          · exact Nat.lt_succ_self n
          · exact Nat.lt_succ_of_lt (hset x (by simp [hx]))
        have := ih hnext (by simpa using hm)
        omega

section Leaves
variable {counts : List Nat} (hl : counts.length = Config.nsym)
include hl

theorem leaves_perm : ((counts.zipIdx.foldr insertRanked []).map Prod.snd).Perm (List.range Config.nsym) := by
  have := (foldr_insertRanked_perm counts.zipIdx).map Prod.snd
  rwa [List.zipIdx_map_snd, hl, ← List.range_eq_range'] at this

theorem leaves_length : (counts.zipIdx.foldr insertRanked []).length = Config.nsym := by
  rw [(foldr_insertRanked_perm _).length_eq, List.length_zipIdx, hl]

theorem mergesOf_length : (mergesOf counts).length = Config.nsym - 1 :=
  mergeSteps_length (leaves_length hl)

/-- Build takes every node exactly once, except for ROOT, which it never takes (R151). -/
theorem takenBy_mergesOf_perm : (takenBy (mergesOf counts) ++ [Config.root]).Perm (List.range Config.nnode) := by
  have h := (takenBy_mergeSteps_perm (k := 271) (n := 273) (leaves_length hl)).trans
    ((leaves_perm hl).append_right _)
  rwa [List.range_eq_range' (n := Config.nsym),
    show List.range' 0 273 ++ List.range' 273 272 = List.range 545 by
      rw [List.range_eq_range']; exact List.range'_append_1] at h

/-- Merge i of Build, which creates node 273 + i, takes two older nodes. -/
theorem mergesOf_takes_older {i : Nat} {m : Merge} (hm : (mergesOf counts)[i]? = some m) :
    m.left < Config.nsym + i ∧ m.right < Config.nsym + i := by
  refine mergeSteps_takes_older (fun x hx => ?_) hm
  exact List.mem_range.1 ((leaves_perm hl).mem_iff.1 (List.mem_map_of_mem hx))

theorem exists_merge_takes {n : Nat} (hn : n < Config.root) : ∃ m ∈ mergesOf counts, m.left = n ∨ m.right = n := by
  have hmem : n ∈ takenBy (mergesOf counts) ++ [Config.root] :=
    (takenBy_mergesOf_perm hl).mem_iff.2 (List.mem_range.2 (Nat.lt_succ_of_lt hn))
  have htaken : n ∈ takenBy (mergesOf counts) := by
    rcases List.mem_append.1 hmem with h | h
    · exact h
    · exact absurd (List.mem_singleton.1 h) (Nat.ne_of_lt hn)
  simpa [takenBy, eq_comm] using htaken

/-- PAR[n] of a node below ROOT is the node created by a merge that takes n. -/
theorem parentOf_mergesOf {n : Nat} (hn : n < Config.root) :
    ∃ i m, (mergesOf counts)[i]? = some m ∧ (m.left = n ∨ m.right = n) ∧
      (parentOf (mergesOf counts) n).toNat = Config.nsym + i := by
  obtain ⟨m, hm, htakes⟩ := exists_merge_takes hl hn
  unfold parentOf
  split
  · rename_i i hi
    obtain ⟨hlt, hi, -⟩ := List.findIdx?_eq_some_iff_getElem.1 hi
    refine ⟨i, (mergesOf counts)[i], List.getElem?_eq_getElem hlt, by simpa using hi, ?_⟩
    rw [mergesOf_length hl] at hlt
    rw [BitVec.toNat_ofNat]
    exact Nat.mod_eq_of_lt (by change i < 272 at hlt; change 273 + i < 1024; omega)
  · rename_i hnone
    have := List.findIdx?_eq_none_iff.1 hnone m hm
    rcases htakes with h | h <;> simp [h] at this

end Leaves

/-- Every node below ROOT has a parent, and the parent is a later node: the way up from any node ends in ROOT. -/
def parentsRise (nodes : NodeMemory) : Prop :=
  ∀ n (h : n < Config.root),
    n < (nodes[n]'(Nat.lt_succ_of_lt h)).par.toNat ∧ (nodes[n]'(Nat.lt_succ_of_lt h)).par.toNat ≤ Config.root

theorem builtNode_par (counts : List Nat) (merges : List Merge) (n : Nat) :
    (builtNode counts merges n).par = parentOf merges n := by
  unfold builtNode
  split
  · rfl
  · split <;> rfl

/-- Parents rise in whatever Build gives for 273 counts, legal or not. -/
theorem parentsRise_build {counts : List Nat} (hl : counts.length = Config.nsym) : parentsRise (build counts) := by
  intro n hn
  obtain ⟨i, m, hm, htakes, hpar⟩ := parentOf_mergesOf hl hn
  rw [build_getElem _ _ (Nat.lt_succ_of_lt hn), builtNode_par, hpar]
  have hi : i < 272 := by
    have := (List.getElem?_eq_some_iff.1 hm).1
    rwa [mergesOf_length hl] at this
  have holder := mergesOf_takes_older hl hm
  constructor
  · omega
  · change 273 + i ≤ 544; omega

theorem parentsRise_update (sym : Nat) (nodes : NodeMemory) : parentsRise (update sym nodes) :=
  parentsRise_build ((updatedCounts_length _ _).trans (leafCounts_length nodes))

theorem parentsRise_initModel : parentsRise initModel := parentsRise_build (List.length_replicate ..)

theorem parentsRise_of_modelOk {nodes : NodeMemory} (h : modelOk nodes) : parentsRise nodes := by
  rw [h.1]; exact parentsRise_build (leafCounts_length nodes)

end Sys2Proof.Machine
end

section
/-! SUPPORT. Where parents rise, Code has an answer, and so no instruction and no step gets stuck
(41_huffman R150; notes/assumptions/12.md). -/

namespace Sys2Proof.Machine

/-- Each turn of Code goes to a later node, so as many turns as there are nodes up to ROOT are enough. -/
theorem codeFrom_isSome {nodes : NodeMemory} (h : parentsRise nodes) {fuel n : Nat} (bits : List Bool)
    (hn : n ≤ Config.root) (hfuel : Config.root - n ≤ fuel) : (codeFrom nodes fuel n bits).isSome = true := by
  induction fuel generalizing n bits with
  | zero => simp [codeFrom, show n = Config.root by omega]
  | succ fuel ih =>
    unfold codeFrom
    split
    · rfl
    · rename_i hne
      obtain ⟨hup, htop⟩ := h n (Nat.lt_of_le_of_ne hn hne)
      rw [Vector.getElem?_eq_getElem (Nat.lt_succ_of_le hn)]
      dsimp only
      rw [Vector.getElem?_eq_getElem (Nat.lt_succ_of_le htop)]
      exact ih _ htop (by omega)

theorem code_ne_none {nodes : NodeMemory} (h : parentsRise nodes) {sym : Nat} (hs : sym < Config.nsym) :
    code nodes sym ≠ none := by
  have hsome := codeFrom_isSome h (fuel := Config.nnode) (n := sym) []
    (by change sym < 273 at hs; change sym ≤ 544; omega) (by change 544 - sym ≤ 545; omega)
  exact Option.isSome_iff_ne_none.1 hsome

/-! ### Operations -/

/-- An operation that is not stuck, and after which parents still rise if it succeeds. -/
def Res.goesOn {α : Type} (r : Res α) : Prop :=
  match r with
  | .done _ w => parentsRise w.ses.nodes
  | .raise _ => True
  | .stuck _ => False

theorem goesOn_of {α : Type} {r : Res α} (hstuck : ∀ x, r ≠ .stuck x)
    (hdone : ∀ a w, r = .done a w → parentsRise w.ses.nodes) : r.goesOn := by
  cases r with
  | done a w => exact hdone a w rfl
  | raise k => trivial
  | stuck x => exact hstuck x rfl

theorem Res.goesOn.not_stuck {α : Type} {r : Res α} (h : r.goesOn) (x : Fault) : r ≠ .stuck x := by
  rintro rfl; exact h

theorem goesOn_bind {α β : Type} {r : Res α} {f : α → Work → Res β} (hr : r.goesOn)
    (hf : ∀ a w, parentsRise w.ses.nodes → (f a w).goesOn) : (r.bind f).goesOn := by
  cases r with
  | done a w => exact hf a w hr
  | raise k => trivial
  | stuck x => exact hr

theorem flushBits_not_stuck (w : Work) (x : Fault) : flushBits w ≠ .stuck x := by
  rcases flushBits_cases w with ⟨_, e⟩ | ⟨_, e⟩ <;> rw [e]
  · nofun
  · rcases emitByte_cases w with ⟨_, e⟩ | ⟨_, e⟩ <;> rw [e] <;> nofun

theorem flushBits_frame {w w' : Work} (h : flushBits w = .done () w') : OnlyWriterMoved w.ses w'.ses := by
  rcases flushBits_cases w with ⟨_, e⟩ | ⟨_, e⟩ <;> rw [e] at h
  · cases h; exact .refl _
  · rcases emitByte_cases w with ⟨_, e⟩ | ⟨_, e⟩ <;> rw [e] at h <;> cases h
    rfl

theorem advanceBy_nodes (ibuf : Memory) (n : Nat) (ses : Session) : (advanceBy ibuf n ses).nodes = ses.nodes := by
  rw [advanceBy_frame ibuf n ses]

section
variable {w : Work} (h : parentsRise w.ses.nodes)
include h

theorem writeBits_goesOn (n : Nat) (v : Word) : (writeBits n v w).goesOn :=
  goesOn_of (writeBits_not_stuck n v w) fun _ _ e => by rw [(writeBits_frame e).1]; exact h

theorem flushBits_goesOn : (flushBits w).goesOn :=
  goesOn_of (flushBits_not_stuck w) fun _ _ e => by rw [flushBits_frame e]; exact h

theorem encodeSymbol_goesOn (sym : Nat) : (encodeSymbol sym w).goesOn := by
  refine goesOn_of (fun x e => ?_) (fun len w' e => ?_)
  · obtain ⟨hs, hcode, -⟩ := encodeSymbol_stuck e
    exact code_ne_none h hs hcode
  · obtain ⟨bits, w1, -, -, -, -, -, rfl⟩ := encodeSymbol_done e
    exact parentsRise_update sym _

theorem compressToken_goesOn (ibuf : Memory) : (compressToken ibuf w).goesOn := by
  have advanced : ∀ n (w : Work), parentsRise w.ses.nodes →
      (Res.done () { w with ses := advanceBy ibuf n w.ses }).goesOn := by
    intro n w hw
    change parentsRise (advanceBy ibuf n w.ses).nodes
    rwa [advanceBy_nodes]
  unfold compressToken
  dsimp only
  split
  · exact goesOn_bind (encodeSymbol_goesOn h _) fun _ _ h =>
      goesOn_bind (writeBits_goesOn h _ _) fun _ w => advanced _ w
  · exact goesOn_bind (encodeSymbol_goesOn h _) fun _ w => advanced 1 w

theorem writeHeader_goesOn : (writeHeader w).goesOn :=
  goesOn_bind (writeBits_goesOn h _ _) fun _ _ h => writeBits_goesOn h _ _

end

theorem compressLoop_goesOn (ibuf : Memory) (turns : Nat) {w : Work} (h : parentsRise w.ses.nodes) :
    (compressLoop ibuf turns w).goesOn := by
  induction turns generalizing w with
  | zero => exact h
  | succ turns ih =>
    unfold compressLoop
    split
    · exact goesOn_bind (compressToken_goesOn h ibuf) fun _ _ h => ih h
    · exact h

theorem compressAll_goesOn (ibuf : Memory) {w : Work} (h : parentsRise w.ses.nodes) : (compressAll ibuf w).goesOn :=
  goesOn_bind (writeHeader_goesOn h) fun _ _ h =>
    goesOn_bind (compressLoop_goesOn ibuf _ h) fun _ _ h =>
      goesOn_bind (encodeSymbol_goesOn h _) fun _ _ h =>
        goesOn_bind (flushBits_goesOn h) fun _ _ h => h

theorem bind_done_not_stuck {α β : Type} {r : Res α} (h : ∀ x, r ≠ .stuck x) (f : α → Work → β)
    (x : Fault) : (r.bind fun a w => .done (f a w) w) ≠ .stuck x := by
  cases r with
  | done a w => nofun
  | raise k => nofun
  | stuck y => exact absurd rfl (h y)

theorem readHeader_not_stuck (ibuf : Memory) (maxLen : Word) (w : Work) (x : Fault) :
    readHeader ibuf maxLen w ≠ .stuck x := by
  intro e
  rcases bind_eq_stuck.1 e with e | ⟨tag, w1, -, e⟩
  · exact readBits_not_stuck _ _ _ _ e
  · split at e
    · cases e
    · rcases bind_eq_stuck.1 e with e | ⟨total, w2, -, e⟩
      · exact readBits_not_stuck _ _ _ _ e
      · split at e
        · cases e
        · split at e <;> cases e

/-! ### Commands -/

/-- A command of a direction answers if what it runs in its session does. -/
theorem inSession_answers {d : Dir} {s : State} {run : Work → Out}
    (h : ∀ ses, s.session = some ses → ∃ t, run ⟨ses, s.obuf⟩ = .next t) : ∃ t, inSession d s run = .next t := by
  rcases inSession_cases d s run with ⟨ses, hs, -, e⟩ | ⟨-, e⟩ <;> rw [e]
  · exact h ses hs
  · exact ⟨_, rfl⟩

theorem execRdreg_answers (regno : Word) (s : State) : ∃ t, execRdreg regno s = .next t := by
  unfold execRdreg; split <;> exact ⟨_, rfl⟩

theorem execWrbits_answers (value count : Word) (s : State) : ∃ t, execWrbits value count s = .next t := by
  refine inSession_answers fun ses _ => ?_
  split
  · exact settle_answers (bind_results_not_stuck (writeBits_not_stuck _ _ _)) s
  · exact ⟨_, rfl⟩

theorem execFlush_answers (s : State) : ∃ t, execFlush s = .next t :=
  inSession_answers fun _ _ => settle_answers (bind_done_not_stuck (flushBits_not_stuck _) _) s

theorem execRdbits_answers (count : Word) (s : State) : ∃ t, execRdbits count s = .next t := by
  refine inSession_answers fun ses _ => ?_
  split
  · exact settle_answers (bind_done_not_stuck (readBits_not_stuck _ _ _) _) s
  · exact ⟨_, rfl⟩

/-- ENCODE is the one unit command that reads the node memory's parents. -/
theorem execEncode_answers (sym : Word) {s : State} (h : ∀ ses, s.session = some ses → parentsRise ses.nodes) :
    ∃ t, execEncode sym s = .next t :=
  inSession_answers fun ses hs =>
    settle_answers (bind_done_not_stuck (encodeSymbol_goesOn (w := ⟨ses, s.obuf⟩) (h ses hs) _).not_stuck _) s

theorem execDecode_answers (s : State) : ∃ t, execDecode s = .next t :=
  inSession_answers fun _ _ => settle_answers (bind_done_not_stuck (decodeSymbol_not_stuck _ _) _) s

theorem execFindmatch_answers (s : State) : ∃ t, execFindmatch s = .next t :=
  inSession_answers fun ses _ => ⟨answer (BitVec.ofNat 32 (findMatch s.ibuf ses).1)
    (BitVec.ofNat 32 (findMatch s.ibuf ses).2) s, rfl⟩

theorem execAdvance_answers (n : Word) (s : State) : ∃ t, execAdvance n s = .next t := by
  refine inSession_answers fun ses _ => ?_
  split <;> exact ⟨_, rfl⟩

theorem execPutlit_answers (byte : Byte) (s : State) : ∃ t, execPutlit byte s = .next t :=
  inSession_answers fun _ _ => settle_answers (bind_results_not_stuck (putByte_not_stuck _ _)) s

theorem execCopy_answers (dist len : Word) (s : State) : ∃ t, execCopy dist len s = .next t :=
  inSession_answers fun _ _ => settle_answers (bind_results_not_stuck (copyMatch_not_stuck _ _ _)) s

/-- COMPRESS starts from the initial model, so it answers in every state. -/
theorem execCompress_answers (ilen ocap : Word) (s : State) : ∃ t, execCompress ilen ocap s = .next t := by
  unfold execCompress
  split
  · exact ⟨_, rfl⟩
  · have hstuck := (compressAll_goesOn s.ibuf (w := freshWork .enc ilen ocap) parentsRise_initModel).not_stuck
    cases hr : compressAll s.ibuf (freshWork .enc ilen ocap) with
    | done n w => exact ⟨_, rfl⟩
    | raise k => exact ⟨_, rfl⟩
    | stuck x => exact absurd hr (hstuck x)

theorem execDecompress_answers (ilen ocap : Word) (s : State) : ∃ t, execDecompress ilen ocap s = .next t := by
  unfold execDecompress
  split
  · exact tokenLoop_answers _ _
  · exact ⟨_, rfl⟩
  · rename_i x hx
    exact absurd hx (readHeader_not_stuck _ _ _ x)

/-- Where parents rise, every instruction gives a next state. -/
theorem exec_answers (i : Instr) {s : State} (h : ∀ ses, s.session = some ses → parentsRise ses.nodes) :
    ∃ t, exec i s = .next t := by
  cases i with
  | nop | inite _ _ | initd _ _ | release => exact ⟨_, rfl⟩
  | rdreg regno => exact execRdreg_answers regno s
  | wrbits value count => exact execWrbits_answers value count s
  | flush => exact execFlush_answers s
  | rdbits count => exact execRdbits_answers count s
  | encode sym => exact execEncode_answers sym h
  | decode => exact execDecode_answers s
  | findmatch => exact execFindmatch_answers s
  | advance n => exact execAdvance_answers n s
  | putlit byte => exact execPutlit_answers byte s
  | copy dist len => exact execCopy_answers dist len s
  | compress ilen ocap => exact execCompress_answers ilen ocap s
  | decompress ilen ocap => exact execDecompress_answers ilen ocap s
  | lit byte => exact tokenLit_answers byte s
  | eos => exact tokenEos_answers s
  | matchL3 r | matchL4 r | matchL5 r | matchL6 r | matchL7 r | matchL8 r | matchL9 r | matchL10 r | matchL11 r
  | matchL12 r | matchL13 r | matchL14 r | matchL15 r | matchL16 r | matchL17 r | matchL18 r =>
    exact tokenMatch_answers _ r s

/-! ### Steps -/

/-- Inside DECOMPRESS a step goes on from every state: fetching a token rebuilds the node memory. -/
theorem step_answers_of_fetchTokenInstr {s : State} {ses : Session} (h : fetch s = fetchTokenInstr ses s) :
    ∃ t, step s = .next t := by
  unfold step
  rw [h]
  unfold fetchTokenInstr
  cases hf : fetchToken s.ibuf ⟨ses, s.obuf⟩ with
  | done token w =>
    obtain ⟨-, -, -, hnodes, -⟩ := fetchToken_done hf
    dsimp only
    cases decodeToken (BitVec.ofNat 9 token.1) token.2 with
    | ok i =>
      refine exec_answers i fun ses' e => ?_
      obtain rfl := Option.some.inj e
      rw [hnodes]
      exact parentsRise_update _ _
    | error e => exact ⟨_, rfl⟩
  | raise k => exact ⟨_, rfl⟩
  | stuck x => exact absurd hf (fetchToken_not_stuck _ _ x)

/-- Where parents rise, every step gives a next state. -/
theorem step_answers {s : State} (h : ∀ ses, s.session = some ses → parentsRise ses.nodes) :
    ∃ t, step s = .next t := by
  rcases step_cases s with ⟨-, ses, -, hf⟩ | ⟨-, ⟨-, e⟩ | ⟨w, rest, i, -, -, e⟩ | ⟨w, rest, d, -, -, e⟩ |
    ⟨a, b, rest, -, e⟩ | ⟨rest, -, e⟩⟩
  · exact step_answers_of_fetchTokenInstr hf
  · exact ⟨_, e⟩
  · rw [e]; exact exec_answers i h
  · exact ⟨_, e⟩
  · exact ⟨_, e⟩
  · exact ⟨_, e⟩

theorem step_command {s : State} {w : CommandWord} {rest : List HostEvent} {i : Instr} (h : s.inTokenLoop = false)
    (hp : s.port = .command w :: rest) (hd : decodeCommand w = .ok i) : step s = exec i { s with port := rest } := by
  unfold step
  rw [fetch_idle h]
  simp [fetchCommand, hp, hd]

end Sys2Proof.Machine
end

section
open Sys2Proof
open Sys2Proof.Machine

/-- Settles O60: the invariants make every parent a later node (R37), and then Code, the one operation that can be
stuck, has an answer. -/
theorem stepAlwaysAnswers : Obligations.StepAlwaysAnswers := by
  rintro s ⟨-, -, hses⟩
  exact step_answers fun ses hs => parentsRise_of_modelOk (hses ses hs).model

/-- Settles O6: outside the token loop step fetches from the port, and the word there decodes to i. -/
theorem stepRunsDecodedCommand : Obligations.StepRunsDecodedCommand :=
  fun _ _ _ _ hidle hport hdecode => step_command hidle hport hdecode

end

section
/-! SUPPORT. The addresses a memory holds after a store, and the window as the end of a stream of bytes
(10_state R25, R34, R42). -/

namespace Sys2Proof.Machine

/-- Storing inside or right after a run of consecutive addresses gives such a run again. -/
theorem memWrite_keys_range' {m : Memory} {lo n a : Nat} (v : Byte) (h : m.map Prod.fst = List.range' lo n)
    (hlo : lo ≤ a) (ha : a ≤ lo + n) : (memWrite m a v).map Prod.fst = List.range' lo (max n (a + 1 - lo)) := by
  induction m generalizing lo n with
  | nil =>
    obtain rfl : n = 0 := List.range'_eq_nil_iff.1 h.symm
    obtain rfl : a = lo := by omega
    simp [memWrite]
  | cons c rest ih =>
    obtain ⟨b, u⟩ := c
    cases n with
    | zero => simp at h
    | succ n =>
      obtain ⟨rfl, hrest⟩ : b = lo ∧ rest.map Prod.fst = List.range' (lo + 1) n := by
        simpa [List.range'_succ] using h
      by_cases e : a = b
      · subst e
        simp [memWrite, hrest, List.range'_succ]
      · have hstored := ih hrest (by omega) (by omega)
        rw [memWrite, if_neg (by omega), if_neg e, List.map_cons, hstored,
          show max (n + 1) (a + 1 - b) = max n (a + 1 - (b + 1)) + 1 by omega, List.range'_succ]

theorem memWrite_keys_range {m : Memory} {n a : Nat} (v : Byte) (h : m.map Prod.fst = List.range n) (ha : a ≤ n) :
    (memWrite m a v).map Prod.fst = List.range (max n (a + 1)) := by
  rw [List.range_eq_range'] at h ⊢
  exact memWrite_keys_range' v h (Nat.zero_le a) (by omega)

theorem wf_of_keys_range {m : Memory} {n : Nat} (h : m.map Prod.fst = List.range n) : m.wf :=
  List.pairwise_map.1 (h ▸ List.pairwise_lt_range)

/-- A register below another one does not wrap when it is counted up. -/
theorem toNat_succ_of_lt {x y : Word} (h : x < y) : (x + 1).toNat = x.toNat + 1 := by
  bv_omega

/-- The ring slot after the present one, even where WPOS wraps: 4096 divides 2^32. -/
theorem toNat_succ_mod_windowCap (x : Word) : (x + 1).toNat % Config.windowCap = (x.toNat + 1) % Config.windowCap := by
  rw [BitVec.toNat_add]
  change (x.toNat + 1) % 2 ^ 32 % 4096 = (x.toNat + 1) % 4096
  omega

/-! ### Stores outside of which nothing changes -/

theorem unchangedOutside_refl (m : Memory) (lo hi : Nat) : unchangedOutside m m lo hi := fun _ _ => rfl

theorem unchangedOutside_memWrite (m : Memory) (a : Nat) (v : Byte) :
    unchangedOutside m (memWrite m a v) a (a + 1) :=
  fun _ h => memLookup_memWrite_other m v (by omega)

theorem unchangedOutside.trans {m m₁ m₂ : Memory} {lo mid hi : Nat} (h₁ : unchangedOutside m m₁ lo mid)
    (h₂ : unchangedOutside m₁ m₂ mid hi) (hlo : lo ≤ mid) (hhi : mid ≤ hi) : unchangedOutside m m₂ lo hi :=
  fun a ha => (h₂ a (by omega)).trans (h₁ a (by omega))

theorem otherSlotsKept_refl (ses : Session) (n : Nat) : otherSlotsKept ses ses n := fun _ _ => rfl

/-- Appending one byte stores to one slot, and then n more to the n after it. -/
theorem otherSlotsKept_succ {ses ses₁ ses' : Session} {b : Byte} {n : Nat}
    (hwin : ses₁.win = memWrite ses.win (ses.wpos.toNat % Config.windowCap) b) (hpos : ses₁.wpos = ses.wpos + 1)
    (h : otherSlotsKept ses₁ ses' n) : otherSlotsKept ses ses' (n + 1) := by
  intro j hj
  have hslot : j ≠ ses.wpos.toNat % Config.windowCap := fun e => hj 0 (by omega) e.symm
  rw [h j fun i hi => ?_, hwin, memLookup_memWrite_other _ _ hslot]
  have hnext := hj (i + 1) (by omega)
  rwa [hpos, Nat.add_mod, toNat_succ_mod_windowCap, ← Nat.add_mod, Nat.add_assoc, Nat.add_comm 1 i]

/-! ### The window -/

/-- The ring holds the last 4096 of the first count bytes of a stream. -/
def windowHolds (win : Memory) (count : Nat) (stream : Nat → Option Byte) : Prop :=
  ∀ a, a < count → count ≤ a + Config.windowCap →
    ∃ v, memLookup win (a % Config.windowCap) = some v ∧ stream a = some v

/-- Appending the stream's next byte to the ring. -/
theorem windowHolds_append {win : Memory} {count : Nat} {stream stream' : Nat → Option Byte} {b : Byte}
    (h : windowHolds win count stream) (hsame : ∀ a, a < count → stream' a = stream a)
    (hnext : stream' count = some b) :
    windowHolds (memWrite win (count % Config.windowCap) b) (count + 1) stream' := by
  intro a ha hcap
  by_cases e : a = count
  · subst e
    exact ⟨b, memLookup_memWrite_same _ _ _, hnext⟩
  · obtain ⟨v, hwin, hv⟩ := h a (by omega) (by omega)
    refine ⟨v, ?_, (hsame a (by omega)).trans hv⟩
    rw [memLookup_memWrite_other, hwin]
    change count + 1 ≤ a + 4096 at hcap
    change a % 4096 ≠ count % 4096
    omega

theorem windowIsOutput_iff {ses : Session} {obuf : Memory} (h : ses.wpos = ses.olen) :
    windowIsOutput ses obuf ↔ windowHolds ses.win ses.olen.toNat (memLookup obuf) := by
  unfold windowIsOutput fill
  rw [h]
  constructor
  · intro hw a ha hcap
    have := hw (ses.olen.toNat - a) (by omega) (by omega)
    rwa [show ses.olen.toNat - (ses.olen.toNat - a) = a by omega] at this
  · exact fun hw d h1 h2 => hw _ (by omega) (by omega)

theorem windowIsInput_iff {ses : Session} {ibuf : Memory} (h : ses.wpos = ses.ipos) :
    windowIsInput ses ibuf ↔ windowHolds ses.win ses.ipos.toNat fun a => some (ibufByte ibuf a) := by
  unfold windowIsInput fill
  rw [h]
  constructor
  · intro hw a ha hcap
    have := hw (ses.ipos.toNat - a) (by omega) (by omega)
    rw [show ses.ipos.toNat - (ses.ipos.toNat - a) = a by omega] at this
    exact ⟨_, this, rfl⟩
  · intro hw d h1 h2
    obtain ⟨v, hwin, hv⟩ := hw (ses.ipos.toNat - d) (by omega) (by omega)
    exact hwin.trans hv.symm

/-- The slots below fill hold a value, one more of them after a byte is appended until all do (R34). -/
theorem slots_append {win : Memory} {count : Nat} (b : Byte)
    (h : win.map Prod.fst = List.range (min count Config.windowCap)) :
    (memWrite win (count % Config.windowCap) b).map Prod.fst = List.range (min (count + 1) Config.windowCap) := by
  have hle : count % Config.windowCap ≤ min count Config.windowCap := by
    have := Nat.mod_le count Config.windowCap
    have := Nat.mod_lt count (show 0 < Config.windowCap by decide)
    omega
  rw [memWrite_keys_range b h hle]
  congr 1
  change max (min count 4096) (count % 4096 + 1) = min (count + 1) 4096
  omega

end Sys2Proof.Machine
end

section
/-! SUPPORT. The counts and the links of the tree that Build gives for legal leaf counts (41_huffman R151, R158), and
that Update keeps the counts legal (41_huffman R152, R153; 10_state R36, R37). -/

namespace Sys2Proof.Machine

/-! ### Counts -/

/-- The merges add up counts, where no sum leaves 16 bits: count n is the count of node n, in the set or created. -/
theorem mergeSteps_count {k n i bound : Nat} {set : List Ranked} {m : Merge} {count : Nat → Nat}
    (hbound : bound < 65536) (hsum : (set.map Prod.fst).sum ≤ bound) (hset : ∀ x ∈ set, count x.2 = x.1)
    (hcreated : ∀ j m', (mergeSteps k n set)[j]? = some m' → count (n + j) = m'.count)
    (hm : (mergeSteps k n set)[i]? = some m) : m.count = count m.left + count m.right ∧ m.count ≤ bound := by
  induction k generalizing n set i with
  | zero => simp [mergeSteps] at hm
  | succ k ih =>
    match set, hsum, hset, hcreated, hm with
    | [], _, _, _, hm => simp [mergeSteps] at hm
    | [_], _, _, _, hm => simp [mergeSteps] at hm
    | a :: b :: rest, hsum, hset, hcreated, hm =>
      simp only [List.map_cons, List.sum_cons] at hsum
      have hmod : (a.1 + b.1) % 65536 = a.1 + b.1 := Nat.mod_eq_of_lt (by omega)
      simp only [mergeSteps, hmod] at hm hcreated
      cases i with
      | zero =>
        obtain rfl := Option.some.inj hm
        refine ⟨?_, by change a.1 + b.1 ≤ bound; omega⟩
        rw [hset a (by simp), hset b (by simp)]
      | succ i =>
        have hperm := insertRanked_perm (a.1 + b.1, n) rest
        refine ih (n := n + 1) (set := insertRanked (a.1 + b.1, n) rest) ?_ (fun x hx => ?_) (fun j m' hj => ?_)
          (by simpa using hm)
        · rw [(hperm.map Prod.fst).sum_eq, List.map_cons, List.sum_cons]
          omega
        · rcases List.mem_cons.1 (hperm.mem_iff.1 hx) with rfl | hx
          · exact hcreated 0 _ rfl
          · exact hset x (by simp [hx])
        · rw [Nat.add_assoc, Nat.add_comm 1 j]
          exact hcreated (j + 1) m' (by simpa using hj)

/-- The last merge has the whole sum. -/
theorem mergeSteps_last_count {k n : Nat} {set : List Ranked} {m : Merge} (hlen : set.length = k + 2)
    (hsum : (set.map Prod.fst).sum < 65536) (hm : (mergeSteps (k + 1) n set)[k]? = some m) :
    m.count = (set.map Prod.fst).sum := by
  induction k generalizing n set with
  | zero =>
    match set, hlen, hsum, hm with
    | [a, b], _, hsum, hm =>
      obtain rfl := Option.some.inj hm
      simp only [List.map_cons, List.map_nil, List.sum_cons, List.sum_nil, Nat.add_zero] at hsum ⊢
      exact Nat.mod_eq_of_lt hsum
  | succ k ih =>
    match set, hlen, hsum, hm with
    | a :: b :: rest, hlen, hsum, hm =>
      simp only [List.map_cons, List.sum_cons] at hsum ⊢
      have hmod : (a.1 + b.1) % 65536 = a.1 + b.1 := Nat.mod_eq_of_lt (by omega)
      have hperm := insertRanked_perm (a.1 + b.1, n) rest
      have hrest : ((insertRanked (a.1 + b.1, n) rest).map Prod.fst).sum = a.1 + (b.1 + (rest.map Prod.fst).sum) := by
        rw [(hperm.map Prod.fst).sum_eq, List.map_cons, List.sum_cons, Nat.add_assoc]
      rw [mergeSteps, hmod] at hm
      rw [← hrest]
      refine ih (by rw [hperm.length_eq]; simpa using hlen) (by omega) (by simpa using hm)

theorem leaves_sum (counts : List Nat) :
    ((counts.zipIdx.foldr insertRanked []).map Prod.fst).sum = counts.sum := by
  rw [((foldr_insertRanked_perm counts.zipIdx).map Prod.fst).sum_eq, List.zipIdx_map_fst]

/-- CNT[n] as Build leaves it, as a number. -/
def builtCount (counts : List Nat) (n : Nat) : Nat :=
  if n < Config.nsym then counts.getD n 0 else (((mergesOf counts)[n - Config.nsym]?).map Merge.count).getD 0

theorem builtCount_merge {counts : List Nat} {i : Nat} {m : Merge} (hm : (mergesOf counts)[i]? = some m) :
    builtCount counts (Config.nsym + i) = m.count := by
  unfold builtCount
  rw [if_neg (by omega), Nat.add_sub_cancel_left, hm]
  rfl

/-- The leaf counts Build works on at a command boundary (10_state R36). -/
structure LegalCounts (counts : List Nat) : Prop where
  length : counts.length = Config.nsym
  pos : ∀ c ∈ counts, 1 ≤ c
  sum : counts.sum ≤ 4095

theorem legalCounts_of_modelOk {nodes : NodeMemory} (h : modelOk nodes) : LegalCounts (leafCounts nodes) :=
  ⟨leafCounts_length nodes, h.2.1, h.2.2⟩

namespace LegalCounts
variable {counts : List Nat} (h : LegalCounts counts)
include h

theorem le_sum {c : Nat} (hc : c ∈ counts) : c ≤ 4095 :=
  (List.le_sum_of_mem hc).trans h.sum

theorem leafCounts_build : leafCounts (build counts) = counts :=
  Machine.leafCounts_build h.length fun c hc => by have := h.le_sum hc; omega

theorem modelOk_build : modelOk (build counts) := by
  unfold modelOk
  rw [h.leafCounts_build]
  exact ⟨rfl, h.pos, h.sum⟩

/-- Every merge of Build sums the counts of the two nodes it takes. -/
theorem merge_count {i : Nat} {m : Merge} (hm : (mergesOf counts)[i]? = some m) :
    m.count = builtCount counts m.left + builtCount counts m.right ∧ m.count ≤ 4095 := by
  refine mergeSteps_count (by decide) ((leaves_sum counts).trans_le h.sum) (fun x hx => ?_)
    (fun j m' hj => builtCount_merge hj) hm
  have hleaf := (foldr_insertRanked_perm counts.zipIdx).mem_iff.1 hx
  rw [List.mem_zipIdx_iff_getElem?] at hleaf
  have hlt := (List.getElem?_eq_some_iff.1 hleaf).1
  rw [h.length] at hlt
  rw [builtCount, if_pos hlt, List.getD_eq_getElem?_getD, hleaf]
  rfl

theorem last_merge_count {m : Merge} (hm : (mergesOf counts)[271]? = some m) : m.count = counts.sum := by
  have hsum := leaves_sum counts
  have hle := h.sum
  rw [← hsum]
  exact mergeSteps_last_count (leaves_length h.length) (by omega) hm

theorem exists_merge {n : Nat} (hlo : Config.nsym ≤ n) (hhi : n < Config.nnode) :
    ∃ m, (mergesOf counts)[n - Config.nsym]? = some m := by
  refine ⟨_, List.getElem?_eq_getElem ?_⟩
  rw [mergesOf_length h.length]
  change n < 545 at hhi
  change 273 ≤ n at hlo
  change n - 273 < 272
  omega

theorem builtCount_le (n : Nat) : builtCount counts n ≤ 4095 := by
  unfold builtCount
  split
  · rw [List.getD_eq_getElem?_getD]
    cases hn : counts[n]? with
    | none => simp
    | some c => exact h.le_sum (List.mem_of_getElem? hn)
  · cases hm : (mergesOf counts)[n - Config.nsym]? with
    | none => simp
    | some m => exact (h.merge_count hm).2

/-! ### Nodes -/

theorem build_cnt {n : Nat} (hn : n < Config.nnode) : (build counts)[n].cnt.toNat = builtCount counts n := by
  have hle := h.builtCount_le n
  rw [build_getElem _ _ hn]
  unfold builtCount at hle ⊢
  unfold builtNode
  split
  · rename_i hleaf
    rw [if_pos hleaf] at hle
    exact Nat.mod_eq_of_lt (by omega)
  · rename_i hleaf
    obtain ⟨m, hm⟩ := h.exists_merge (Nat.le_of_not_lt hleaf) hn
    rw [if_neg hleaf] at hle
    rw [hm] at hle ⊢
    exact Nat.mod_eq_of_lt (Nat.lt_of_le_of_lt hle (by decide))

/-- Node 273 + i has the two nodes that merge i takes as its children. -/
theorem build_children {i : Nat} {m : Merge} (hm : (mergesOf counts)[i]? = some m)
    (hn : Config.nsym + i < Config.nnode) :
    (build counts)[Config.nsym + i].left.toNat = m.left ∧ (build counts)[Config.nsym + i].right.toNat = m.right := by
  obtain ⟨hleft, hright⟩ := mergesOf_takes_older h.length hm
  change 273 + i < 545 at hn
  change m.left < 273 + i at hleft
  change m.right < 273 + i at hright
  rw [build_getElem _ _ hn]
  unfold builtNode
  rw [if_neg (Nat.not_lt.2 (Nat.le_add_right _ _)), Nat.add_sub_cancel_left, hm]
  exact ⟨Nat.mod_eq_of_lt (by omega), Nat.mod_eq_of_lt (by omega)⟩

theorem takenBy_nodup : (takenBy (mergesOf counts) ++ [Config.root]).Nodup :=
  (takenBy_mergesOf_perm h.length).nodup_iff.2 List.nodup_range

theorem root_not_taken {m : Merge} (hm : m ∈ mergesOf counts) : m.left ≠ Config.root ∧ m.right ≠ Config.root := by
  have hnot : Config.root ∉ takenBy (mergesOf counts) := fun hmem =>
    List.disjoint_of_nodup_append h.takenBy_nodup hmem (by simp)
  constructor <;> intro e <;> exact hnot (List.mem_flatMap.2 ⟨m, hm, by simp [e]⟩)

/-- No two merges take the same node, and no merge takes one twice. -/
theorem merge_takes_once {i j : Nat} {m m' : Merge} (hi : (mergesOf counts)[i]? = some m)
    (hj : (mergesOf counts)[j]? = some m') {n : Nat} (hn : m.left = n ∨ m.right = n)
    (hn' : m'.left = n ∨ m'.right = n) : i = j := by
  obtain ⟨-, hdisjoint⟩ := List.nodup_flatMap.1 h.takenBy_nodup.of_append_left
  obtain ⟨hilt, rfl⟩ := List.getElem?_eq_some_iff.1 hi
  obtain ⟨hjlt, rfl⟩ := List.getElem?_eq_some_iff.1 hj
  have hmem : ∀ {m : Merge}, m.left = n ∨ m.right = n → n ∈ [m.left, m.right] := by
    rintro m (rfl | rfl) <;> simp
  rcases Nat.lt_trichotomy i j with hlt | heq | hgt
  · exact (List.pairwise_iff_getElem.1 hdisjoint i j hilt hjlt hlt (hmem hn) (hmem hn')).elim
  · exact heq
  · exact (List.pairwise_iff_getElem.1 hdisjoint j i hjlt hilt hgt (hmem hn') (hmem hn)).elim

theorem merge_left_ne_right {m : Merge} (hm : m ∈ mergesOf counts) : m.left ≠ m.right := by
  have := (List.nodup_flatMap.1 h.takenBy_nodup.of_append_left).1 m hm
  simpa using this

/-- The parent of a node is the node that the merge taking it creates. -/
theorem build_par {i n : Nat} {m : Merge} (hm : (mergesOf counts)[i]? = some m) (hn : m.left = n ∨ m.right = n)
    (hlt : n < Config.root) : ((build counts)[n]'(Nat.lt_succ_of_lt hlt)).par.toNat = Config.nsym + i := by
  obtain ⟨j, m', hm', hn', hpar⟩ := parentOf_mergesOf h.length hlt
  rw [build_getElem _ _ (Nat.lt_succ_of_lt hlt), builtNode_par, hpar, h.merge_takes_once hm' hm hn' hn]

theorem build_root_par : (build counts)[Config.root].par = Config.noNode := by
  rw [build_getElem _ _ (by decide), builtNode_par, parentOf]
  have hnone : (mergesOf counts).findIdx?
      (fun m => Nat.beq m.left Config.root || Nat.beq m.right Config.root) = none := by
    rw [List.findIdx?_eq_none_iff]
    intro m hm
    obtain ⟨hleft, hright⟩ := h.root_not_taken hm
    refine Bool.eq_false_iff.2 fun e => ?_
    rcases (by simpa using e : m.left = Config.root ∨ m.right = Config.root) with e | e
    · exact hleft e
    · exact hright e
  rw [hnone]

theorem isCodeTree_build : isCodeTree (build counts) := by
  refine ⟨fun n hn hleaf => ?_, fun n hn hinner => ?_, fun n hn hlt => ?_, h.build_root_par⟩
  · rw [build_getElem _ _ hn, builtNode, if_pos hleaf]
    exact ⟨rfl, rfl⟩
  · obtain ⟨i, rfl⟩ := Nat.exists_eq_add_of_le hinner
    obtain ⟨m, hm⟩ := h.exists_merge hinner hn
    rw [Nat.add_sub_cancel_left] at hm
    obtain ⟨holdl, holdr⟩ := mergesOf_takes_older h.length hm
    obtain ⟨hleft, hright⟩ := h.build_children hm hn
    obtain ⟨hrootl, hrootr⟩ := h.root_not_taken (List.mem_of_getElem? hm)
    change 273 + i < 545 at hn
    change m.left < 273 + i at holdl
    change m.right < 273 + i at holdr
    change m.left ≠ 544 at hrootl
    change m.right ≠ 544 at hrootr
    refine ⟨m.left, m.right, by change _ < 545; omega, by change _ < 545; omega, hleft, hright, holdl, holdr,
      h.merge_left_ne_right (List.mem_of_getElem? hm), h.build_par hm (.inl rfl) (by change _ < 544; omega),
      h.build_par hm (.inr rfl) (by change _ < 544; omega), ?_⟩
    rw [h.build_cnt hn, h.build_cnt, h.build_cnt, builtCount_merge hm]
    exact (h.merge_count hm).1
  · obtain ⟨i, m, hm, htakes, hpar⟩ := parentOf_mergesOf h.length hlt
    have hi := (List.getElem?_eq_some_iff.1 hm).1
    rw [mergesOf_length h.length] at hi
    have hp : Config.nsym + i < Config.nnode := by change i < 272 at hi; change 273 + i < 545; omega
    obtain ⟨hleft, hright⟩ := h.build_children hm hp
    have holder := mergesOf_takes_older h.length hm
    refine ⟨Config.nsym + i, hp, h.build_par hm htakes hlt, by omega, Nat.le_add_right _ _, ?_⟩
    rw [hleft, hright]
    exact htakes

theorem build_root_cnt : (build counts)[Config.root].cnt.toNat = counts.sum := by
  obtain ⟨m, hm⟩ := h.exists_merge (n := Config.root) (by decide) (by decide)
  rw [h.build_cnt (by decide), ← h.last_merge_count hm]
  exact builtCount_merge hm

/-! ### Bounds -/

theorem nsym_le_sum : Config.nsym ≤ counts.sum := by
  have := List.card_nsmul_le_sum counts 1 h.pos
  rwa [h.length, smul_eq_mul, Nat.mul_one] at this

/-- A leaf count leaves room for at least 1 in each of the 272 others. -/
theorem le_3823 {c : Nat} (hc : c ∈ counts) : c ≤ 3823 := by
  have hperm := List.perm_cons_erase hc
  have hothers := List.card_nsmul_le_sum (counts.erase c) 1 fun x hx => h.pos x (List.mem_of_mem_erase hx)
  rw [List.length_erase_of_mem hc, h.length, smul_eq_mul, Nat.mul_one] at hothers
  change 272 ≤ _ at hothers
  have hsum := h.sum
  rw [hperm.sum_eq, List.sum_cons] at hsum
  omega

end LegalCounts

/-! ### Update -/

/-- Counting a symbol: no count is lost to 16 bits, and the total rises by 1. -/
theorem bumped_counts {counts : List Nat} {sym : Nat} (hpos : ∀ c ∈ counts, 1 ≤ c) (hmax : ∀ c ∈ counts, c ≤ 4095)
    (hs : sym < counts.length) :
    (∀ c ∈ counts.modify sym fun c => (c + 1) % 65536, 1 ≤ c) ∧
      (counts.modify sym fun c => (c + 1) % 65536).sum = counts.sum + 1 := by
  induction counts generalizing sym with
  | nil => simp at hs
  | cons c counts ih =>
    simp only [List.forall_mem_cons] at hpos hmax
    cases sym with
    | zero =>
      have hmod : (c + 1) % 65536 = c + 1 := Nat.mod_eq_of_lt (by omega)
      simp only [List.modify_zero_cons, hmod, List.forall_mem_cons, List.sum_cons]
      exact ⟨⟨by omega, hpos.2⟩, by omega⟩
    | succ sym =>
      obtain ⟨hpos', hsum⟩ := ih hpos.2 hmax.2 (by simpa using hs)
      simp only [List.modify_succ_cons, List.forall_mem_cons, List.sum_cons, hsum]
      exact ⟨⟨hpos.1, hpos'⟩, by omega⟩

/-- Halving with rounding up keeps counts positive and about halves their sum. -/
theorem rescale_sum (counts : List Nat) : 2 * (rescale counts).sum ≤ counts.sum + counts.length := by
  unfold rescale
  induction counts with
  | nil => simp
  | cons c counts ih => simp only [List.map_cons, List.sum_cons, List.length_cons]; omega

/-- Update keeps the counts legal: at a total of 4096 it halves them (R152, R153). -/
theorem LegalCounts.updatedCounts {counts : List Nat} (h : LegalCounts counts) {sym : Nat} (hs : sym < Config.nsym) :
    LegalCounts (updatedCounts sym counts) := by
  obtain ⟨hpos, hsum⟩ := bumped_counts h.pos (fun _ => h.le_sum) (h.length ▸ hs)
  have hle := h.sum
  have key : (∀ c ∈ Machine.updatedCounts sym counts, 1 ≤ c) ∧ (Machine.updatedCounts sym counts).sum ≤ 4095 := by
    unfold Machine.updatedCounts
    dsimp only
    split
    · have hhalf := rescale_sum (counts.modify sym fun c => (c + 1) % 65536)
      rw [List.length_modify, h.length, hsum] at hhalf
      change _ ≤ counts.sum + 1 + 273 at hhalf
      refine ⟨fun c hc => ?_, by omega⟩
      obtain ⟨b, hb, rfl⟩ := List.mem_map.1 hc
      have := hpos b hb
      omega
    · rename_i hlt
      change ¬ 4096 ≤ _ at hlt
      exact ⟨hpos, by omega⟩
  exact ⟨(updatedCounts_length sym counts).trans h.length, key.1, key.2⟩

theorem modelOk_update {nodes : NodeMemory} (h : modelOk nodes) {sym : Nat} (hs : sym < Config.nsym) :
    modelOk (update sym nodes) :=
  ((legalCounts_of_modelOk h).updatedCounts hs).modelOk_build

theorem modelOk_initModel : modelOk initModel :=
  LegalCounts.modelOk_build (counts := List.replicate Config.nsym Config.initCount)
    ⟨List.length_replicate .., fun c hc => (List.eq_of_mem_replicate hc).ge, by rw [List.sum_replicate]; decide⟩

end Sys2Proof.Machine
end

section
/-! SUPPORT. What each operation writes (10_state R45), and that it keeps the invariant of the session
(10_state R25 to R42). -/

namespace Sys2Proof.Machine

/-! ### Updates of the session -/

theorem sessionInv_initSession (d : Dir) (ilen ocap : Word) : SessionInv (initSession d ilen ocap) [] where
  room := Nat.zero_le _
  output := rfl
  accumulator := fun i _ => by simp
  cursor := Nat.zero_le _
  input := Nat.zero_le _
  slots := rfl
  encoding := fun _ => ⟨rfl, rfl, rfl⟩
  decoding := fun _ => ⟨rfl, fun d h1 h2 => absurd (h1.trans h2) (show ¬ 1 ≤ min 0 4096 by decide), rfl, rfl, rfl⟩
  model := modelOk_initModel
  loop := nofun

theorem wf_of_sessionInv {ses : Session} {obuf : Memory} (h : SessionInv ses obuf) : obuf.wf :=
  wf_of_keys_range h.output

theorem declared_of_enc {ses : Session} {obuf : Memory} (h : SessionInv ses obuf) (henc : ses.dir = .enc) :
    ses.declared = none :=
  Option.eq_none_iff_forall_ne_some.2 fun total e => absurd (henc.symm.trans (h.loop total e).1) (by decide)

section
variable {ses : Session} {obuf : Memory} (h : SessionInv ses obuf)
include h

theorem sessionInv_of_modelOk {nodes : NodeMemory} (hok : modelOk nodes) :
    SessionInv { ses with nodes := nodes } obuf :=
  { h with model := hok }

theorem sessionInv_update_nodes {sym : Nat} (hs : sym < Config.nsym) :
    SessionInv { ses with nodes := update sym ses.nodes } obuf :=
  sessionInv_of_modelOk h (modelOk_update h.model hs)

/-- The read cursor of a DEC session may stand anywhere up to the end of the input (R30). -/
theorem sessionInv_of_onlyReaderMoved {ses' : Session} (hmoved : OnlyReaderMoved ses ses') (hdec : ses.dir = .dec)
    (hcursor : readPos ses' ≤ 8 * ses.ilen.toNat) : SessionInv ses' obuf := by
  rw [hmoved] at hcursor ⊢
  exact { h with cursor := hcursor, encoding := fun henc => absurd (hdec.symm.trans henc) (by decide) }

/-- Storing a byte at OLEN keeps exactly the bytes below OLEN written (R25). -/
theorem output_memWrite (v : Byte) (hroom : ses.olen < ses.ocap) :
    (memWrite obuf ses.olen.toNat v).map Prod.fst = List.range (ses.olen + 1).toNat := by
  rw [memWrite_keys_range v h.output (Nat.le_refl _), toNat_succ_of_lt hroom, Nat.max_eq_right (Nat.le_succ _)]

theorem sessionInv_emit (v : Byte) (hroom : ses.olen < ses.ocap) (henc : ses.dir = .enc) :
    SessionInv { ses with olen := ses.olen + 1, wacc := 0, wnb := 0 } (memWrite obuf ses.olen.toNat v) :=
  { h with
    room := by change (ses.olen + 1).toNat ≤ _; rw [toNat_succ_of_lt hroom]; exact hroom
    output := output_memWrite h v hroom
    accumulator := fun i _ => by simp
    decoding := fun hdec => absurd (henc.symm.trans hdec) (by decide)
    loop := fun total e => absurd ((declared_of_enc h henc).symm.trans e) nofun }

/-- A byte appended to OBUF and to the window of a DEC session with room for it. -/
theorem sessionInv_append (b : Byte) (hroom : ses.olen < ses.ocap) (hdec : ses.dir = .dec)
    (hlimit : ∀ total, ses.declared = some total → ses.olen ≠ total) :
    SessionInv (appendWindow b { ses with olen := ses.olen + 1 }) (memWrite obuf ses.olen.toNat b) := by
  obtain ⟨hpos, hwindow, hwacc, hwnb, hipos⟩ := h.decoding hdec
  have hsucc := toNat_succ_of_lt hroom
  have hwpos : ses.wpos.toNat = ses.olen.toNat := by rw [hpos]
  have hnext : (ses.wpos + 1).toNat = ses.wpos.toNat + 1 := by rw [hpos]; exact hsucc
  refine { h with
    room := by change (ses.olen + 1).toNat ≤ _; rw [hsucc]; exact hroom
    output := output_memWrite h b hroom
    slots := ?_
    encoding := fun henc => absurd (hdec.symm.trans henc) (by decide)
    decoding := fun _ => ⟨congrArg (· + 1) hpos, ?_, hwacc, hwnb, hipos⟩
    loop := fun total e => ?_ }
  · have hslots := slots_append b h.slots
    rw [← hnext] at hslots
    exact hslots
  · rw [windowIsOutput_iff (congrArg (· + 1) hpos)]
    change windowHolds (memWrite ses.win (ses.wpos.toNat % Config.windowCap) b) (ses.olen + 1).toNat _
    rw [hsucc, hwpos]
    exact windowHolds_append ((windowIsOutput_iff hpos).1 hwindow)
      (fun a ha => memLookup_memWrite_other _ _ (Nat.ne_of_lt ha)) (memLookup_memWrite_same _ _ _)
  · obtain ⟨hd, hcap, hle⟩ := h.loop total e
    have hne : ses.olen.toNat ≠ total.toNat := fun heq => hlimit total e (BitVec.eq_of_toNat_eq heq)
    refine ⟨hd, hcap, ?_⟩
    change (ses.olen + 1).toNat ≤ _
    omega

end

/-! ### Writing bits -/

/-- One bit has been written. -/
def BitWritten (w w' : Work) : Prop := ∃ b, writeBit b w = .done () w'

theorem writeBits_bits {n : Nat} {v : Word} {w w' : Work} (h : writeBits n v w = .done () w') :
    Relation.ReflTransGen BitWritten w w' := by
  induction n generalizing w with
  | zero => cases h; exact .refl
  | succ n ih =>
    obtain ⟨_, w₁, hbit, hrest⟩ := bind_eq_done.1 h
    exact .head ⟨_, hbit⟩ (ih hrest)

theorem writeCode_bits {bits : List Bool} {w w' : Work} (h : writeCode bits w = .done () w') :
    Relation.ReflTransGen BitWritten w w' := by
  induction bits generalizing w with
  | nil => cases h; exact .refl
  | cons b bits ih =>
    obtain ⟨_, w₁, hbit, hrest⟩ := bind_eq_done.1 h
    exact .head ⟨_, hbit⟩ (ih hrest)

/-- What a writer of the bit stream may have changed: OLEN, which does not fall, WACC and WNB, and the bytes of OBUF
from the old OLEN up to the new (10_state R45). -/
structure OnlyStreamWritten (w w' : Work) : Prop where
  session : OnlyWriterMoved w.ses w'.ses
  grows : w.ses.olen.toNat ≤ w'.ses.olen.toNat
  output : unchangedOutside w.obuf w'.obuf w.ses.olen.toNat w'.ses.olen.toNat

theorem OnlyStreamWritten.refl (w : Work) : OnlyStreamWritten w w :=
  ⟨.refl _, Nat.le_refl _, unchangedOutside_refl _ _ _⟩

theorem OnlyStreamWritten.trans {w w₁ w' : Work} (h : OnlyStreamWritten w w₁) (h' : OnlyStreamWritten w₁ w') :
    OnlyStreamWritten w w' :=
  ⟨h.session.trans h'.session, h.grows.trans h'.grows, h.output.trans h'.output h.grows h'.grows⟩

theorem onlyStreamWritten_bit {w w' : Work} (h : BitWritten w w') : OnlyStreamWritten w w' := by
  obtain ⟨b, hb⟩ := h
  obtain ⟨hmoved, -, ⟨holen, hobuf⟩ | ⟨hroom, holen, v, hobuf⟩⟩ := writeBit_done hb
  · exact ⟨hmoved, by rw [holen], by rw [hobuf]; exact unchangedOutside_refl _ _ _⟩
  · have hsucc : w'.ses.olen.toNat = w.ses.olen.toNat + 1 := by rw [holen, toNat_succ_of_lt hroom]
    refine ⟨hmoved, by omega, ?_⟩
    rw [hobuf, hsucc]
    exact unchangedOutside_memWrite _ _ _

theorem onlyStreamWritten_bits {w w' : Work} (h : Relation.ReflTransGen BitWritten w w') : OnlyStreamWritten w w' := by
  induction h with
  | refl => exact .refl _
  | tail _ hbit ih => exact ih.trans (onlyStreamWritten_bit hbit)

theorem onlyStreamWritten_flush {w w' : Work} (h : flushBits w = .done () w') : OnlyStreamWritten w w' := by
  rcases flushBits_cases w with ⟨-, e⟩ | ⟨-, e⟩ <;> rw [e] at h
  · cases h; exact .refl _
  · rcases emitByte_cases w with ⟨hroom, e⟩ | ⟨-, e⟩ <;> rw [e] at h <;> cases h
    refine ⟨rfl, ?_, ?_⟩ <;> dsimp only <;> rw [toNat_succ_of_lt hroom]
    · exact Nat.le_succ _
    · exact unchangedOutside_memWrite _ _ _

/-- Placing a bit at position 7 - WNB leaves the positions below it clear (R26, R131). -/
theorem placed_clear {acc : Byte} {nb : BitVec 3} (b : Bool) (h : ∀ i, i < 8 - nb.toNat → acc.getLsbD i = false)
    (hnb : nb.toNat + 1 ≠ 8) (i : Nat) (hi : i < 8 - (nb + 1).toNat) :
    (acc ||| (BitVec.ofBool b).setWidth 8 <<< (7 - nb.toNat)).getLsbD i = false := by
  have hsucc : (nb + 1).toNat = nb.toNat + 1 := by bv_omega
  rw [BitVec.getLsbD_or, h i (by omega), BitVec.getLsbD_shiftLeft]
  simp only [show i < 7 - nb.toNat by omega, decide_true, Bool.not_true, Bool.and_false, Bool.false_and, Bool.or_false]

section
variable {w w' : Work} (h : SessionInv w.ses w.obuf) (henc : w.ses.dir = .enc)
include h henc

theorem sessionInv_writeBit {b : Bool} (hb : writeBit b w = .done () w') : SessionInv w'.ses w'.obuf := by
  unfold writeBit at hb
  dsimp only at hb
  split at hb
  · rcases emitByte_cases { w with ses := { w.ses with wacc := w.ses.wacc |||
      ((BitVec.ofBool b).setWidth 8 <<< (7 - w.ses.wnb.toNat)) } } with ⟨hroom, e⟩ | ⟨-, e⟩ <;>
      rw [e] at hb <;> cases hb
    exact sessionInv_emit h _ hroom henc
  · rename_i hnb
    cases hb
    exact { h with
      accumulator := placed_clear b h.accumulator hnb
      decoding := fun hdec => absurd (henc.symm.trans hdec) (by decide) }

theorem sessionInv_bits (hbits : Relation.ReflTransGen BitWritten w w') : SessionInv w'.ses w'.obuf := by
  induction hbits with
  | refl => exact h
  | tail hbits hbit ih =>
    obtain ⟨b, hb⟩ := hbit
    have hdir := (onlyStreamWritten_bits hbits).session
    exact sessionInv_writeBit ih (by rw [hdir]; exact henc) hb

theorem sessionInv_flush (hflush : flushBits w = .done () w') : SessionInv w'.ses w'.obuf := by
  rcases flushBits_cases w with ⟨-, e⟩ | ⟨-, e⟩ <;> rw [e] at hflush
  · cases hflush; exact h
  · rcases emitByte_cases w with ⟨hroom, e⟩ | ⟨-, e⟩ <;> rw [e] at hflush <;> cases hflush
    exact sessionInv_emit h _ hroom henc

theorem sessionInv_encodeSymbol {sym n : Nat} (hencode : encodeSymbol sym w = .done n w') :
    SessionInv w'.ses w'.obuf := by
  obtain ⟨bits, w₁, hs, -, -, hcode, hnodes, rfl⟩ := encodeSymbol_done hencode
  rw [← hnodes]
  exact sessionInv_update_nodes (sessionInv_bits h henc (writeCode_bits hcode)) hs

end

/-! ### Reading bits -/

theorem readLoop_pos (ibuf : Memory) (n : Nat) (v : Word) {ses : Session}
    (h : readPos ses + n ≤ 8 * ses.ilen.toNat) : readPos (readLoop ibuf n v ses).2 = readPos ses + n := by
  induction n generalizing v ses with
  | zero => rfl
  | succ n ih =>
    have hlen := ses.ilen.isLt
    have hbit : readPos (readBit ibuf ses).2 = readPos ses + 1 := readBit_pos (by unfold readPos at h; omega)
    have hilen : (readBit ibuf ses).2.ilen = ses.ilen := by rw [readBit_frame ibuf ses]
    rw [readLoop, ih _ (by rw [hbit, hilen]; omega), hbit]
    omega

section
variable {ibuf : Memory} {w w' : Work} (h : SessionInv w.ses w.obuf) (hdec : w.ses.dir = .dec)
include h hdec

theorem sessionInv_readBits {count : Nat} {v : Word} (hread : readBits ibuf count w = .done v w') :
    SessionInv w'.ses w'.obuf := by
  rcases readBits_cases ibuf count w with ⟨hcount, e⟩ | ⟨-, e⟩ <;> rw [e] at hread <;> cases hread
  have hcursor := h.cursor
  have hfits : readPos w.ses + count ≤ 8 * w.ses.ilen.toNat := by
    unfold unreadBits at hcount
    unfold readPos at hcursor ⊢
    omega
  exact sessionInv_of_onlyReaderMoved h (readLoop_frame _ _ _ _) hdec ((readLoop_pos ibuf count 0 hfits).trans_le hfits)

theorem sessionInv_decodeWalk {left n : Nat} {r : Nat × Nat} (hwalk : decodeWalk ibuf left n w = .done r w') :
    SessionInv w'.ses w'.obuf := by
  induction left generalizing n w with
  | zero =>
    unfold decodeWalk at hwalk
    split at hwalk <;> cases hwalk
    exact h
  | succ left ih =>
    unfold decodeWalk at hwalk
    split at hwalk
    · cases hwalk; exact h
    · split at hwalk
      · cases hwalk
      · obtain ⟨b, w₁, hread, hrest⟩ := bind_eq_done.1 hwalk
        exact ih (sessionInv_readBits h hdec hread) (by rw [(readBits_done hread).1]; exact hdec) hrest

theorem sessionInv_decodeSymbol {r : Nat × Nat} (hdecode : decodeSymbol ibuf w = .done r w') :
    SessionInv w'.ses w'.obuf := by
  obtain ⟨q, w₁, hwalk, hdone⟩ := bind_eq_done.1 hdecode
  obtain ⟨-, -, hs, -⟩ := decodeWalk_frame hwalk
  cases hdone
  exact sessionInv_update_nodes (sessionInv_decodeWalk h hdec hwalk) hs

/-- Fetching a token keeps the invariant, in the same DEC session and with the same OBUF. -/
theorem sessionInv_fetchToken {t : Nat × Option Residual} (hfetch : fetchToken ibuf w = .done t w') :
    SessionInv w'.ses w'.obuf := by
  obtain ⟨r, w₁, hdecode, hrest⟩ := bind_eq_done.1 hfetch
  have h₁ := sessionInv_decodeSymbol h hdec hdecode
  split at hrest
  · cases hrest; exact h₁
  · obtain ⟨v, w₂, hread, hdone⟩ := bind_eq_done.1 hrest
    cases hdone
    obtain ⟨w₀, -, hmoved, -, rfl⟩ := decodeSymbol_done hdecode
    exact sessionInv_readBits h₁ (by change w₀.ses.dir = .dec; rw [hmoved]; exact hdec) hread

end

/-! ### Appending bytes to the output -/

/-- So many bytes have been appended to OBUF and to the window, one after the other. -/
inductive BytesPut : Nat → Work → Work → Prop
  | zero (w : Work) : BytesPut 0 w w
  | succ {n : Nat} {w w₁ w' : Work} (b : Byte) : putByte b w = .done () w₁ → BytesPut n w₁ w' → BytesPut (n + 1) w w'

theorem putByte_put {b : Byte} {w w' : Work} (h : putByte b w = .done () w') : BytesPut 1 w w' := .succ b h (.zero w')

theorem copyLoop_put {dist n : Nat} {w w' : Work} (h : copyLoop dist n w = .done () w') : BytesPut n w w' := by
  induction n generalizing w with
  | zero => cases h; exact .zero _
  | succ n ih =>
    obtain ⟨_, w₁, hput, hrest⟩ := bind_eq_done.1 h
    exact .succ _ hput (ih hrest)

/-- The effect of one PUTLIT, which needs room (R184). -/
theorem putByte_done {b : Byte} {w w' : Work} (h : putByte b w = .done () w') :
    w.ses.olen < w.ses.ocap ∧ w'.ses = appendWindow b { w.ses with olen := w.ses.olen + 1 } ∧
      w'.obuf = memWrite w.obuf w.ses.olen.toNat b := by
  rcases putByte_cases b w with ⟨hroom, e⟩ | ⟨-, e⟩ <;> rw [e] at h <;> cases h
  exact ⟨hroom, rfl, rfl⟩

/-- Appending n bytes moves OLEN by n, and writes OLEN, WPOS and the n bytes of OBUF and slots from there on
(10_state R45). -/
theorem bytesPut_writes {n : Nat} {w w' : Work} (h : BytesPut n w w') :
    OnlyOutputMoved w.ses w'.ses ∧ w'.ses.olen.toNat = w.ses.olen.toNat + n ∧
      unchangedOutside w.obuf w'.obuf w.ses.olen.toNat w'.ses.olen.toNat ∧ otherSlotsKept w.ses w'.ses n := by
  induction h with
  | zero w => exact ⟨.refl _, rfl, unchangedOutside_refl _ _ _, otherSlotsKept_refl _ _⟩
  | succ b hput hrest ih =>
    obtain ⟨hmoved, holen, hobuf, hslots⟩ := ih
    obtain ⟨hroom, hses₁, hobuf₁⟩ := putByte_done hput
    have hsucc := toNat_succ_of_lt hroom
    rw [hses₁] at holen hobuf hslots
    rw [hobuf₁] at hobuf
    change _ = (BitVec.toNat (_ + 1)) + _ at holen
    change unchangedOutside _ _ (BitVec.toNat (_ + 1)) _ at hobuf
    rw [hsucc] at holen hobuf
    refine ⟨(putByte_frame hput).1.trans hmoved, by omega, ?_, otherSlotsKept_succ (b := b) rfl rfl hslots⟩
    exact (unchangedOutside_memWrite _ _ b).trans hobuf (by omega) (by omega)

/-- Appending n bytes within L, where there is one, keeps the invariant of a DEC session. -/
theorem sessionInv_bytesPut {n : Nat} {w w' : Work} (hput : BytesPut n w w') (h : SessionInv w.ses w.obuf)
    (hdec : w.ses.dir = .dec) (hlimit : ∀ total, w.ses.declared = some total → w.ses.olen.toNat + n ≤ total.toNat) :
    SessionInv w'.ses w'.obuf := by
  induction hput with
  | zero w => exact h
  | succ b hput hrest ih =>
    obtain ⟨hroom, hses₁, hobuf₁⟩ := putByte_done hput
    have hsucc := toNat_succ_of_lt hroom
    rw [hses₁, hobuf₁] at ih
    refine ih (sessionInv_append h b hroom hdec fun total e heq => ?_) hdec fun total e => ?_
    · have := hlimit total e
      rw [heq] at this
      omega
    · have := hlimit total e
      change (BitVec.toNat (_ + 1)) + _ ≤ _
      omega

/-! ### Advancing in the input -/

/-- The session after ADVANCE 1. -/
def advanceOne (ibuf : Memory) (ses : Session) : Session :=
  { appendWindow (ibufByte ibuf ses.ipos.toNat) ses with ipos := ses.ipos + 1 }

theorem advanceBy_succ (ibuf : Memory) (n : Nat) (ses : Session) :
    advanceBy ibuf (n + 1) ses = advanceBy ibuf n (advanceOne ibuf ses) := rfl

theorem otherSlotsKept_advanceBy (ibuf : Memory) (n : Nat) (ses : Session) :
    otherSlotsKept ses (advanceBy ibuf n ses) n := by
  induction n generalizing ses with
  | zero => exact otherSlotsKept_refl _ _
  | succ n ih =>
    rw [advanceBy_succ]
    exact otherSlotsKept_succ (ses₁ := advanceOne ibuf ses) rfl rfl (ih _)

/-- A property of sessions that ADVANCE 1 keeps while there is input left is kept by ADVANCE n, if n bytes are left. -/
theorem advanceBy_keeps {ibuf : Memory} {P : Session → Prop}
    (hstep : ∀ ses, P ses → ses.ipos < ses.ilen → P (advanceOne ibuf ses)) {n : Nat} {ses : Session} (h : P ses)
    (hn : ses.ipos.toNat + n ≤ ses.ilen.toNat) : P (advanceBy ibuf n ses) := by
  induction n generalizing ses with
  | zero => exact h
  | succ n ih =>
    have hlt : ses.ipos < ses.ilen := by change ses.ipos.toNat < _; omega
    rw [advanceBy_succ]
    refine ih (hstep ses h hlt) ?_
    change (ses.ipos + 1).toNat + n ≤ ses.ilen.toNat
    rw [toNat_succ_of_lt hlt]
    omega

theorem sessionInv_advanceOne {ibuf : Memory} {ses : Session} {obuf : Memory} (h : SessionInv ses obuf)
    (henc : ses.dir = .enc) (hlt : ses.ipos < ses.ilen) : SessionInv (advanceOne ibuf ses) obuf := by
  obtain ⟨hpos, hrbyte, hrbit⟩ := h.encoding henc
  have hsucc := toNat_succ_of_lt hlt
  refine { h with
    input := by change (ses.ipos + 1).toNat ≤ _; rw [hsucc]; exact hlt
    slots := ?_
    encoding := fun _ => ⟨congrArg (· + 1) hpos, hrbyte, hrbit⟩
    decoding := fun hdec => absurd (henc.symm.trans hdec) (by decide) }
  have hslots := slots_append (ibufByte ibuf ses.ipos.toNat) h.slots
  have hwpos : (ses.wpos + 1).toNat = ses.wpos.toNat + 1 := by rw [hpos]; exact hsucc
  rw [← hwpos] at hslots
  exact hslots

/-- What the compressing side keeps of an ENC session: the window is the input before IPOS (R42). -/
def windowFollowsInput (ibuf : Memory) (ses : Session) : Prop :=
  ses.wpos = ses.ipos ∧ ses.ipos.toNat ≤ ses.ilen.toNat ∧ windowIsInput ses ibuf

theorem windowFollowsInput_advanceOne {ibuf : Memory} {ses : Session} (h : windowFollowsInput ibuf ses)
    (hlt : ses.ipos < ses.ilen) : windowFollowsInput ibuf (advanceOne ibuf ses) := by
  obtain ⟨hpos, -, hwindow⟩ := h
  have hsucc := toNat_succ_of_lt hlt
  refine ⟨congrArg (· + 1) hpos, by change (ses.ipos + 1).toNat ≤ _; rw [hsucc]; exact hlt, ?_⟩
  rw [windowIsInput_iff (congrArg (· + 1) hpos)]
  change windowHolds (memWrite ses.win (ses.wpos.toNat % Config.windowCap) _) (ses.ipos + 1).toNat _
  rw [hsucc, hpos]
  exact windowHolds_append ((windowIsInput_iff hpos).1 hwindow) (fun _ _ => rfl) rfl

end Sys2Proof.Machine
end

section
/-! SUPPORT. What every instruction that gives a next state has done, said once: it answered and nothing more, it
worked on the open session, or it left none open or a new one (10_state R45, 43_sequencer R206). -/

namespace Sys2Proof.Machine

/-- What no instruction writes: IBUF, MAX_INPUT_LEN and the host's acts to come (10_state R24, 20_memory R73). -/
structure HostSideKept (s t : State) : Prop where
  ibuf : t.ibuf = s.ibuf
  maxInputLen : t.maxInputLen = s.maxInputLen
  port : t.port = s.port

theorem HostSideKept.refl (s : State) : HostSideKept s s := ⟨rfl, rfl, rfl⟩

theorem HostSideKept.trans {s t u : State} (h : HostSideKept s t) (h' : HostSideKept t u) : HostSideKept s u :=
  ⟨h'.ibuf.trans h.ibuf, h'.maxInputLen.trans h.maxInputLen, h'.port.trans h.port⟩

/-- What an instruction that leads from s to t has done, where working on the open session has this effect. -/
inductive Ran (opens : Bool) (effect : Work → Work → Prop) (s : State) : State → Prop
  /-- only a response is given -/
  | answered (r : Response) : Ran opens effect s { s with resp := some r }
  /-- the open session and OBUF are worked on -/
  | worked (ses : Session) (w : Work) (resp : Option Response) : s.session = some ses → effect ⟨ses, s.obuf⟩ w →
      Ran opens effect s { s with session := some w.ses, obuf := w.obuf, resp := resp }
  /-- no session is open, or a new one, in which nothing of the input has been tokenized -/
  | restarted {t : State} : HostSideKept s t → (s.obuf.wf → t.obuf.wf) →
      (∀ ses, t.session = some ses → opens = true ∧ SessionInv ses t.obuf ∧ (ses.dir = .enc → ses.wpos = 0)) →
      Ran opens effect s t

section
variable {opens : Bool} {effect : Work → Work → Prop} {s t : State}

theorem ran_reject : Ran opens effect s (reject s) := .answered _

theorem ran_fail (k : Failure) : Ran opens effect s (fail k s) :=
  .restarted ⟨rfl, rfl, rfl⟩ (fun _ => List.Pairwise.nil) nofun

/-- A command of a direction has run in a session of that direction, or is Rejected. -/
theorem ran_inSession {d : Dir} {run : Work → Out} (h : inSession d s run = .next t)
    (hrun : ∀ ses, s.session = some ses → ses.dir = d → run ⟨ses, s.obuf⟩ = .next t → Ran opens effect s t) :
    Ran opens effect s t := by
  rcases inSession_cases d s run with ⟨ses, hs, hd, e⟩ | ⟨-, e⟩ <;> rw [e] at h
  · exact hrun ses hs hd h
  · cases h; exact ran_reject

theorem ran_settle {α : Type} {ses : Session} {r : Res α} {f : α → Work → Word × Word} (hs : s.session = some ses)
    (h : settle (r.bind fun a w => .done (f a w) w) s = .next t)
    (hdone : ∀ a w, r = .done a w → effect ⟨ses, s.obuf⟩ w) : Ran opens effect s t := by
  rcases settle_next h with ⟨out, w, e, rfl⟩ | ⟨k, -, rfl⟩
  · obtain ⟨a, w', hr, e⟩ := bind_eq_done.1 e
    cases e
    exact .worked ses w _ hs (hdone a w hr)
  · exact ran_fail k

/-- A unit command of a direction, whose work is one operation. -/
theorem ran_unit {α : Type} {d : Dir} {r : Work → Res α} {f : α → Work → Word × Word}
    (h : (inSession d s fun w => settle ((r w).bind fun a w => .done (f a w) w) s) = .next t)
    (hdone : ∀ ses a w, ses.dir = d → r ⟨ses, s.obuf⟩ = .done a w → effect ⟨ses, s.obuf⟩ w) : Ran opens effect s t :=
  ran_inSession h fun ses hs hd h => ran_settle hs h fun a w hr => hdone ses a w hd hr

theorem ran_keepGoing {ses : Session} {r : Res Unit} (hs : s.session = some ses) (h : keepGoing r s = .next t)
    (hdone : ∀ w, r = .done () w → effect ⟨ses, s.obuf⟩ w) : Ran opens effect s t := by
  rcases keepGoing_next h with ⟨w, hr, rfl⟩ | ⟨k, -, rfl⟩
  · exact .worked ses w s.resp hs (hdone w hr)
  · exact ran_fail k

theorem Ran.mono {effect' : Work → Work → Prop} (h : Ran opens effect s t)
    (heffect : ∀ w w', effect w w' → effect' w w') : Ran opens effect' s t := by
  cases h with
  | answered r => exact .answered r
  | worked ses w resp hs he => exact .worked ses w resp hs (heffect _ _ he)
  | restarted hkept hwf hnew => exact .restarted hkept hwf hnew

theorem Ran.hostSideKept (h : Ran opens effect s t) : HostSideKept s t := by
  cases h with
  | answered r => exact ⟨rfl, rfl, rfl⟩
  | worked ses w resp _ _ => exact ⟨rfl, rfl, rfl⟩
  | restarted hkept _ _ => exact hkept

/-- The machine's invariant holds after an instruction whose effect keeps the session's. -/
theorem Ran.inv (h : Ran opens effect s t) (hinv : s.Inv)
    (hkeeps : ∀ ses w, s.session = some ses → SessionInv ses s.obuf → effect ⟨ses, s.obuf⟩ w →
      SessionInv w.ses w.obuf) : t.Inv := by
  obtain ⟨hibuf, hobuf, hses⟩ := hinv
  cases h with
  | answered r => exact ⟨hibuf, hobuf, hses⟩
  | worked ses w resp hs he =>
    have hw := hkeeps ses w hs (hses ses hs) he
    exact ⟨hibuf, wf_of_sessionInv hw, fun ses' e => Option.some.inj e ▸ hw⟩
  | restarted hkept hwf hnew =>
    exact ⟨hkept.ibuf ▸ hibuf, hwf hobuf, fun ses' e => (hnew ses' e).2.1⟩

end

/-! ### Effects on the open session -/

/-- The effect of the token LIT, inside DECOMPRESS only before L bytes are out (R215). -/
def LitPut (b : Byte) (w w' : Work) : Prop :=
  w.ses.dir = .dec ∧ (∀ total, w.ses.declared = some total → w.ses.olen ≠ total) ∧ putByte b w = .done () w'

/-- The effect of a MATCH token, inside DECOMPRESS only where L leaves room for it (R215). -/
def MatchCopied (len : Nat) (residual : Residual) (w w' : Work) : Prop :=
  w.ses.dir = .dec ∧ (∀ total, w.ses.declared = some total → w.ses.olen.toNat + len ≤ total.toNat) ∧
    copyLoop (residual.toNat + 1) len w = .done () w'

/-- The effect of each instruction where it works on the open session. -/
def InstrEffect (ibuf : Memory) : Instr → Work → Work → Prop
  | .wrbits value count, w, w' => w.ses.dir = .enc ∧ writeBits count.toNat value w = .done () w'
  | .flush, w, w' => w.ses.dir = .enc ∧ flushBits w = .done () w'
  | .encode sym, w, w' => w.ses.dir = .enc ∧ ∃ len, encodeSymbol sym.toNat w = .done len w'
  | .advance n, w, w' => w.ses.dir = .enc ∧ n.toNat ≤ w.ses.ilen.toNat - w.ses.ipos.toNat ∧
      w' = { w with ses := advanceBy ibuf n.toNat w.ses }
  | .rdbits count, w, w' => w.ses.dir = .dec ∧ ∃ v, readBits ibuf count.toNat w = .done v w'
  | .decode, w, w' => w.ses.dir = .dec ∧ ∃ r, decodeSymbol ibuf w = .done r w'
  | .putlit b, w, w' => w.ses.dir = .dec ∧ putByte b w = .done () w'
  | .copy dist len, w, w' => w.ses.dir = .dec ∧ copyLoop dist.toNat len.toNat w = .done () w'
  | .lit b, w, w' => LitPut b w w'
  | i, w, w' => ∃ len residual, matchOf i = some (len, residual) ∧ MatchCopied len residual w w'

/-! ### Tokens -/

/-- A COPY that succeeds has passed its tests and copied (R185). -/
theorem copyMatch_done {dist len : Nat} {w w' : Work} (h : copyMatch dist len w = .done () w') :
    copyLoop dist len w = .done () w' := by
  rcases copyMatch_cases dist len w with ⟨-, e⟩ | ⟨-, e⟩ <;> rw [e] at h
  · exact h
  · cases h

section
variable {opens : Bool} {s t : State}

theorem tokenLit_ran {b : Byte} (h : tokenLit b s = .next t) : Ran opens (LitPut b) s t := by
  refine ran_inSession h fun ses hs hd h => ?_
  dsimp only at h
  split at h
  · rename_i hnone
    exact ran_settle hs h fun _ w hput => ⟨hd, by simp [hnone], hput⟩
  · rename_i total htotal
    split at h
    · cases h; exact ran_fail _
    · rename_i hlt
      refine ran_keepGoing hs h fun w hput => ⟨hd, fun total' e => ?_, hput⟩
      obtain rfl := Option.some.inj (htotal.symm.trans e)
      exact hlt

theorem tokenMatch_ran {len : Nat} {residual : Residual} (h : tokenMatch len residual s = .next t) :
    Ran opens (MatchCopied len residual) s t := by
  refine ran_inSession h fun ses hs hd h => ?_
  dsimp only at h
  split at h
  · rename_i hnone
    exact ran_settle hs h fun _ w hcopy => ⟨hd, by simp [hnone], copyMatch_done hcopy⟩
  · rename_i total htotal
    split at h
    · cases h; exact ran_fail _
    · split at h
      · cases h; exact ran_fail _
      · rename_i hroom
        refine ran_keepGoing hs h fun w hcopy => ⟨hd, fun total' e => ?_, copyMatch_done hcopy⟩
        obtain rfl := Option.some.inj (htotal.symm.trans e)
        exact Nat.le_of_not_lt hroom

theorem tokenEos_ran {effect : Work → Work → Prop} (h : tokenEos s = .next t) : Ran opens effect s t := by
  refine ran_inSession h fun ses hs hd h => ?_
  dsimp only at h
  split at h
  · cases h; exact .answered _
  · split at h
    · cases h; exact .restarted ⟨rfl, rfl, rfl⟩ id nofun
    · cases h; exact ran_fail _

end

section
variable {w w' : Work} (h : SessionInv w.ses w.obuf)
include h

theorem sessionInv_litPut {b : Byte} (hput : LitPut b w w') : SessionInv w'.ses w'.obuf := by
  obtain ⟨hdec, hlimit, hput⟩ := hput
  refine sessionInv_bytesPut (putByte_put hput) h hdec fun total e => ?_
  have hle := (h.loop total e).2.2
  have hne : w.ses.olen.toNat ≠ total.toNat := fun heq => hlimit total e (BitVec.eq_of_toNat_eq heq)
  omega

theorem sessionInv_matchCopied {len : Nat} {residual : Residual} (hcopy : MatchCopied len residual w w') :
    SessionInv w'.ses w'.obuf :=
  sessionInv_bytesPut (copyLoop_put hcopy.2.2) h hcopy.1 hcopy.2.1

end

/-! ### COMPRESS and DECOMPRESS -/

theorem encodeSymbol_wf {sym n : Nat} {w w' : Work} (h : encodeSymbol sym w = .done n w') (hw : w.obuf.wf) :
    w'.obuf.wf := by
  obtain ⟨bits, w₁, -, -, -, hcode, -, rfl⟩ := encodeSymbol_done h
  exact (writeCode_frame hcode).2 hw

theorem flushBits_wf {w w' : Work} (h : flushBits w = .done () w') (hw : w.obuf.wf) : w'.obuf.wf := by
  rcases flushBits_cases w with ⟨-, e⟩ | ⟨-, e⟩ <;> rw [e] at h
  · cases h; exact hw
  · rcases emitByte_cases w with ⟨-, e⟩ | ⟨-, e⟩ <;> rw [e] at h <;> cases h
    exact memWrite_wf hw _ _

theorem compressToken_wf {ibuf : Memory} {w w' : Work} (h : compressToken ibuf w = .done () w') (hw : w.obuf.wf) :
    w'.obuf.wf := by
  unfold compressToken at h
  dsimp only at h
  split at h
  · obtain ⟨_, w₁, hencode, h⟩ := bind_eq_done.1 h
    obtain ⟨_, w₂, hresidual, h⟩ := bind_eq_done.1 h
    cases h
    exact (writeBits_frame hresidual).2 (encodeSymbol_wf hencode hw)
  · obtain ⟨_, w₁, hencode, h⟩ := bind_eq_done.1 h
    cases h
    exact encodeSymbol_wf (w' := w₁) hencode hw

theorem compressLoop_wf {ibuf : Memory} {turns : Nat} {w w' : Work} (h : compressLoop ibuf turns w = .done () w')
    (hw : w.obuf.wf) : w'.obuf.wf := by
  induction turns generalizing w with
  | zero => cases h; exact hw
  | succ turns ih =>
    unfold compressLoop at h
    split at h
    · obtain ⟨_, w₁, htoken, hrest⟩ := bind_eq_done.1 h
      exact ih hrest (compressToken_wf htoken hw)
    · cases h; exact hw

theorem compressAll_wf {ibuf : Memory} {w w' : Work} {n : Word} (h : compressAll ibuf w = .done n w')
    (hw : w.obuf.wf) : w'.obuf.wf := by
  obtain ⟨_, w₂, hheader, h⟩ := bind_eq_done.1 h
  obtain ⟨_, w₁, htag, hlength⟩ := bind_eq_done.1 hheader
  obtain ⟨_, w₃, hloop, h⟩ := bind_eq_done.1 h
  obtain ⟨_, w₄, heos, h⟩ := bind_eq_done.1 h
  obtain ⟨_, w₅, hflush, h⟩ := bind_eq_done.1 h
  cases h
  exact flushBits_wf hflush (encodeSymbol_wf heos (compressLoop_wf hloop
    ((writeBits_frame hlength).2 ((writeBits_frame htag).2 hw))))

theorem execCompress_ran {ilen ocap : Word} {effect : Work → Work → Prop} {s t : State}
    (h : execCompress ilen ocap s = .next t) : Ran true effect s t := by
  unfold execCompress at h
  split at h
  · cases h; exact ran_fail _
  · rcases settleMacro_next h with ⟨n, w, hdone, rfl⟩ | ⟨k, -, rfl⟩
    · exact .restarted ⟨rfl, rfl, rfl⟩ (fun _ => compressAll_wf hdone List.Pairwise.nil) nofun
    · exact ran_fail k

/-- The header leaves a good DEC session at the start of its token loop (R215, R216). -/
theorem readHeader_done {ibuf : Memory} {maxLen : Word} {w w' : Work} (hdec : w.ses.dir = .dec)
    (h : SessionInv w.ses w.obuf) (hstart : w.ses.olen = 0) (hheader : readHeader ibuf maxLen w = .done () w') :
    w'.ses.dir = .dec ∧ SessionInv w'.ses w'.obuf := by
  obtain ⟨tag, w₁, htag, hheader⟩ := bind_eq_done.1 hheader
  have h₁ := sessionInv_readBits h hdec htag
  have hmoved₁ := (readBits_done htag).1
  have hdec₁ : w₁.ses.dir = .dec := by rw [hmoved₁]; exact hdec
  split at hheader
  · cases hheader
  · obtain ⟨total, w₂, htotal, hheader⟩ := bind_eq_done.1 hheader
    have h₂ := sessionInv_readBits h₁ hdec₁ htotal
    have hmoved₂ := (readBits_done htotal).1
    have hdec₂ : w₂.ses.dir = .dec := by rw [hmoved₂]; exact hdec₁
    have holen : w₂.ses.olen = 0 := by rw [hmoved₂]; dsimp only; rw [hmoved₁]; exact hstart
    split at hheader
    · cases hheader
    · split at hheader
      · cases hheader
      · rename_i hcap
        cases hheader
        refine ⟨hdec₂, { h₂ with loop := fun total' e => ?_ }⟩
        obtain rfl := Option.some.inj e
        refine ⟨hdec₂, Nat.le_of_not_lt hcap, ?_⟩
        change w₂.ses.olen.toNat ≤ _
        rw [holen]
        exact Nat.zero_le _

/-- What holds all along a DECOMPRESS that was started in s. -/
structure Decompressing (s t : State) : Prop where
  kept : HostSideKept s t
  obuf : t.obuf.wf
  session : ∀ ses, t.session = some ses → ses.dir = .dec ∧ SessionInv ses t.obuf

theorem HostSideKept.decompressing {s t : State} {ses : Session} {obuf : Memory} {resp : Option Response}
    (h : HostSideKept s t) (hdec : ses.dir = .dec) (hinv : SessionInv ses obuf) :
    Decompressing s { t with session := some ses, obuf := obuf, resp := resp } :=
  ⟨⟨h.ibuf, h.maxInputLen, h.port⟩, wf_of_sessionInv hinv, fun _ e => Option.some.inj e ▸ ⟨hdec, hinv⟩⟩

theorem Decompressing.ran {effect : Work → Work → Prop} {s t u : State} (h : Decompressing s t)
    (hran : Ran false effect t u)
    (hkeeps : ∀ w w', SessionInv w.ses w.obuf → effect w w' → w'.ses.dir = .dec ∧ SessionInv w'.ses w'.obuf) :
    Decompressing s u := by
  have hkept := h.kept.trans hran.hostSideKept
  cases hran with
  | answered r => exact ⟨hkept, h.obuf, h.session⟩
  | worked ses w resp hs he =>
    obtain ⟨hdec, hw⟩ := hkeeps ⟨ses, t.obuf⟩ w (h.session ses hs).2 he
    exact h.kept.decompressing hdec hw
  | restarted _ hwf hnew => exact ⟨hkept, hwf h.obuf, fun ses' e => absurd (hnew ses' e).1 (by decide)⟩

theorem runToken_decompressing {s t u : State} {token : Nat × Option Residual} (h : Decompressing s t)
    (hrun : runToken token t = .next u) : Decompressing s u := by
  unfold runToken at hrun
  split at hrun
  · refine h.ran (tokenLit_ran hrun) fun w w' hinv hput => ⟨?_, sessionInv_litPut hinv hput⟩
    rw [(putByte_frame hput.2.2).1]
    exact hput.1
  · split at hrun
    · exact h.ran (effect := fun _ _ => False) (tokenEos_ran hrun) fun _ _ _ he => he.elim
    · refine h.ran (tokenMatch_ran hrun) fun w w' hinv hcopy => ⟨?_, sessionInv_matchCopied hinv hcopy⟩
      rw [(copyLoop_frame hcopy.2.2).1]
      exact hcopy.1

theorem tokenStep_decompressing {s t u : State} (h : Decompressing s t) (hstep : tokenStep t = .next u) :
    Decompressing s u := by
  unfold tokenStep at hstep
  split at hstep
  · cases hstep
    exact ⟨⟨h.kept.ibuf, h.kept.maxInputLen, h.kept.port⟩, h.obuf, h.session⟩
  · rename_i ses hs
    obtain ⟨hdec, hinv⟩ := h.session ses hs
    split at hstep
    · rename_i token w hfetch
      have hw : SessionInv w.ses w.obuf := sessionInv_fetchToken hinv hdec hfetch
      obtain ⟨-, -, -, -, hmoved⟩ := fetchToken_done hfetch
      have hdec' : w.ses.dir = .dec := by rw [hmoved]; exact hdec
      exact runToken_decompressing (h.kept.decompressing hdec' hw) hstep
    · cases hstep
      exact ⟨⟨h.kept.ibuf, h.kept.maxInputLen, h.kept.port⟩, List.Pairwise.nil, nofun⟩
    · cases hstep

theorem tokenLoop_decompressing {turns : Nat} {s t u : State} (h : Decompressing s t)
    (hloop : tokenLoop turns t = .next u) : Decompressing s u := by
  induction turns generalizing t with
  | zero => cases hloop; exact h
  | succ turns ih =>
    unfold tokenLoop at hloop
    split at hloop
    · split at hloop
      · rename_i t' hstep
        exact ih (tokenStep_decompressing h hstep) hloop
      · cases hloop
      · cases hloop
    · cases hloop; exact h

theorem execDecompress_ran {ilen ocap : Word} {effect : Work → Work → Prop} {s t : State}
    (h : execDecompress ilen ocap s = .next t) : Ran true effect s t := by
  unfold execDecompress at h
  split at h
  · rename_i w hheader
    obtain ⟨hdec, hinv⟩ := readHeader_done rfl (sessionInv_initSession .dec ilen ocap) rfl hheader
    have hend := tokenLoop_decompressing ((HostSideKept.refl s).decompressing hdec hinv) h
    refine .restarted hend.kept (fun _ => hend.obuf) fun ses e => ?_
    obtain ⟨hdec, hinv⟩ := hend.session ses e
    exact ⟨rfl, hinv, fun henc => absurd (hdec.symm.trans henc) (by decide)⟩
  · cases h; exact ran_fail _
  · cases h

/-! ### Every instruction -/

theorem execRdreg_ran {regno : Word} {opens : Bool} {effect : Work → Work → Prop} {s t : State}
    (h : execRdreg regno s = .next t) : Ran opens effect s t := by
  unfold execRdreg at h
  split at h <;> cases h
  · exact .answered _
  · exact ran_reject

theorem open_ran {d : Dir} {ilen ocap : Word} {effect : Work → Work → Prop} {s : State} :
    Ran true effect s (answer 0 0 (openSession d ilen ocap s)) := by
  refine .restarted ⟨rfl, rfl, rfl⟩ (fun _ => List.Pairwise.nil) fun ses e => ?_
  obtain rfl := Option.some.inj e
  exact ⟨rfl, sessionInv_initSession d ilen ocap, fun _ => rfl⟩

section
variable {opens : Bool} {s t : State}

theorem execWrbits_ran {value count : Word} (h : execWrbits value count s = .next t) :
    Ran opens (InstrEffect s.ibuf (.wrbits value count)) s t := by
  refine ran_inSession h fun ses hs hd h => ?_
  split at h
  · exact ran_settle hs h fun _ w hwrite => ⟨hd, hwrite⟩
  · cases h; exact ran_reject

theorem execRdbits_ran {count : Word} (h : execRdbits count s = .next t) :
    Ran opens (InstrEffect s.ibuf (.rdbits count)) s t := by
  refine ran_inSession h fun ses hs hd h => ?_
  split at h
  · exact ran_settle hs h fun v w hread => ⟨hd, v, hread⟩
  · cases h; exact ran_reject

theorem execFindmatch_ran {effect : Work → Work → Prop}
    (h : execFindmatch s = .next t) : Ran opens effect s t := by
  refine ran_inSession h fun ses hs hd h => ?_
  cases h; exact .answered _

theorem execAdvance_ran {n : Word} (h : execAdvance n s = .next t) :
    Ran opens (InstrEffect s.ibuf (.advance n)) s t := by
  refine ran_inSession h fun ses hs hd h => ?_
  split at h
  · rename_i hrange
    exact ran_settle (r := .done () ⟨advanceBy s.ibuf n.toNat ses, s.obuf⟩) (f := fun _ _ => (0, 0)) hs h
      fun _ w e => by cases e; exact ⟨hd, of_decide_eq_true hrange, rfl⟩
  · cases h; exact ran_reject

theorem execFlush_ran (h : execFlush s = .next t) : Ran opens (InstrEffect s.ibuf .flush) s t :=
  ran_unit h fun _ _ _ hd hflush => ⟨hd, hflush⟩

theorem execEncode_ran {sym : Word} (h : execEncode sym s = .next t) :
    Ran opens (InstrEffect s.ibuf (.encode sym)) s t :=
  ran_unit h fun _ len _ hd hencode => ⟨hd, len, hencode⟩

theorem execDecode_ran (h : execDecode s = .next t) : Ran opens (InstrEffect s.ibuf .decode) s t :=
  ran_unit h fun _ r _ hd hdecode => ⟨hd, r, hdecode⟩

theorem execPutlit_ran {byte : Byte} (h : execPutlit byte s = .next t) :
    Ran opens (InstrEffect s.ibuf (.putlit byte)) s t :=
  ran_unit h fun _ _ _ hd hput => ⟨hd, hput⟩

theorem execCopy_ran {dist len : Word} (h : execCopy dist len s = .next t) :
    Ran opens (InstrEffect s.ibuf (.copy dist len)) s t :=
  ran_unit h fun _ _ _ hd hcopy => ⟨hd, copyMatch_done hcopy⟩

end

theorem exec_match_ran {i : Instr} {len : Nat} {residual : Residual} {s t : State}
    (hi : matchOf i = some (len, residual)) (h : tokenMatch len residual s = .next t) :
    Ran false (fun w w' => ∃ len residual, matchOf i = some (len, residual) ∧ MatchCopied len residual w w') s t :=
  (tokenMatch_ran h).mono fun _ _ hcopy => ⟨len, residual, hi, hcopy⟩

/-- Everything an instruction that gives a next state can have done. -/
theorem exec_ran {i : Instr} {s t : State} (h : exec i s = .next t) :
    Ran (opensSession i) (InstrEffect s.ibuf i) s t := by
  cases i with
  | nop => cases h; exact .answered _
  | inite ilen ocap => cases h; exact open_ran
  | initd ilen ocap => cases h; exact open_ran
  | release => cases h; exact .restarted ⟨rfl, rfl, rfl⟩ id nofun
  | rdreg regno => exact execRdreg_ran h
  | wrbits value count => exact execWrbits_ran h
  | flush => exact execFlush_ran h
  | rdbits count => exact execRdbits_ran h
  | encode sym => exact execEncode_ran h
  | decode => exact execDecode_ran h
  | findmatch => exact execFindmatch_ran h
  | advance n => exact execAdvance_ran h
  | putlit byte => exact execPutlit_ran h
  | copy dist len => exact execCopy_ran h
  | compress ilen ocap => exact execCompress_ran h
  | decompress ilen ocap => exact execDecompress_ran h
  | lit byte => exact tokenLit_ran h
  | eos => exact tokenEos_ran h
  | matchL3 r | matchL4 r | matchL5 r | matchL6 r | matchL7 r | matchL8 r | matchL9 r | matchL10 r | matchL11 r
  | matchL12 r | matchL13 r | matchL14 r | matchL15 r | matchL16 r | matchL17 r | matchL18 r =>
    exact exec_match_ran rfl h

end Sys2Proof.Machine
end

section
/-! SUPPORT. What the effect of an instruction writes and keeps, instruction by instruction, and that steps keep the
invariant. -/

namespace Sys2Proof.Machine

/-! ### What is written -/

theorem wroteOnly_refl (i : Instr) (ses : Session) (obuf : Memory) : wroteOnly i ses ses obuf obuf := by
  have hobuf := unchangedOutside_refl obuf ses.olen.toNat ses.olen.toNat
  have hslots := otherSlotsKept_refl ses
  cases i with
  | nop | rdreg _ | findmatch | eos | rdbits _ | decode => exact ⟨rfl, rfl⟩
  | wrbits _ _ | flush | encode _ => exact ⟨rfl, hobuf⟩
  | advance n => exact ⟨rfl, rfl, hslots _⟩
  | inite _ _ | initd _ _ | release | compress _ _ | decompress _ _ => trivial
  | putlit _ | copy _ _ | lit _ | matchL3 _ | matchL4 _ | matchL5 _ | matchL6 _ | matchL7 _ | matchL8 _ | matchL9 _
  | matchL10 _ | matchL11 _ | matchL12 _ | matchL13 _ | matchL14 _ | matchL15 _ | matchL16 _ | matchL17 _
  | matchL18 _ => exact ⟨rfl, hobuf, hslots _⟩

theorem wroteOnly_of_opensSession {i : Instr} (h : opensSession i = true) (ses ses' : Session) (obuf obuf' : Memory) :
    wroteOnly i ses ses' obuf obuf' := by
  cases i with
  | inite _ _ | initd _ _ | compress _ _ | decompress _ _ => trivial
  | _ => cases h

/-- The frame of every instruction that appends n bytes. -/
theorem bytesPut_wroteOnly {n : Nat} {w w' : Work} (h : BytesPut n w w') :
    w'.ses = { w.ses with olen := w'.ses.olen, wpos := w'.ses.wpos, win := w'.ses.win } ∧
      unchangedOutside w.obuf w'.obuf w.ses.olen.toNat w'.ses.olen.toNat ∧
      otherSlotsKept w.ses w'.ses (w'.ses.olen.toNat - w.ses.olen.toNat) := by
  obtain ⟨hmoved, holen, hobuf, hslots⟩ := bytesPut_writes h
  rw [holen, Nat.add_sub_cancel_left, ← holen]
  exact ⟨hmoved, hobuf, hslots⟩

theorem encodeSymbol_wroteOnly {sym : Word} {len : Nat} {w w' : Work} (h : encodeSymbol sym.toNat w = .done len w') :
    wroteOnly (.encode sym) w.ses w'.ses w.obuf w'.obuf := by
  obtain ⟨bits, w₁, -, -, -, hcode, -, rfl⟩ := encodeSymbol_done h
  have hwritten := onlyStreamWritten_bits (writeCode_bits hcode)
  refine ⟨?_, hwritten.output⟩
  dsimp only
  conv_lhs => rw [hwritten.session]

theorem decodeSymbol_wroteOnly {ibuf : Memory} {r : Nat × Nat} {w w' : Work} (h : decodeSymbol ibuf w = .done r w') :
    wroteOnly .decode w.ses w'.ses w.obuf w'.obuf := by
  obtain ⟨w₁, -, hmoved, hobuf, rfl⟩ := decodeSymbol_done h
  refine ⟨?_, hobuf⟩
  dsimp only
  conv_lhs => rw [hmoved]

theorem instrEffect_wroteOnly {ibuf : Memory} {i : Instr} {w w' : Work} (h : InstrEffect ibuf i w w') :
    wroteOnly i w.ses w'.ses w.obuf w'.obuf := by
  cases i with
  | wrbits value count =>
    have hwritten := onlyStreamWritten_bits (writeBits_bits h.2)
    exact ⟨hwritten.session, hwritten.output⟩
  | flush =>
    have hwritten := onlyStreamWritten_flush h.2
    exact ⟨hwritten.session, hwritten.output⟩
  | encode sym =>
    obtain ⟨-, len, hencode⟩ := h
    exact encodeSymbol_wroteOnly hencode
  | rdbits count =>
    obtain ⟨-, v, hread⟩ := h
    obtain ⟨hmoved, hobuf, -⟩ := readBits_done hread
    exact ⟨hmoved, hobuf⟩
  | decode =>
    obtain ⟨-, r, hdecode⟩ := h
    exact decodeSymbol_wroteOnly hdecode
  | advance n =>
    obtain ⟨-, -, rfl⟩ := h
    exact ⟨advanceBy_frame _ _ _, rfl, otherSlotsKept_advanceBy _ _ _⟩
  | putlit byte => exact bytesPut_wroteOnly (putByte_put h.2)
  | copy dist len => exact bytesPut_wroteOnly (copyLoop_put h.2)
  | lit byte => exact bytesPut_wroteOnly (putByte_put h.2.2)
  | nop | inite _ _ | initd _ _ | release | rdreg _ | findmatch | compress _ _ | decompress _ _ | eos =>
    obtain ⟨_, _, hmatch, -⟩ := h
    cases hmatch
  | matchL3 r | matchL4 r | matchL5 r | matchL6 r | matchL7 r | matchL8 r | matchL9 r | matchL10 r | matchL11 r
  | matchL12 r | matchL13 r | matchL14 r | matchL15 r | matchL16 r | matchL17 r | matchL18 r =>
    obtain ⟨len, residual, -, hcopy⟩ := h
    exact bytesPut_wroteOnly (copyLoop_put hcopy.2.2)

theorem Ran.wroteOnly {i : Instr} {s t : State} (h : Ran (opensSession i) (InstrEffect s.ibuf i) s t)
    {ses ses' : Session} (hs : s.session = some ses) (ht : t.session = some ses') :
    wroteOnly i ses ses' s.obuf t.obuf := by
  cases h with
  | answered r =>
    obtain rfl := Option.some.inj (hs.symm.trans ht)
    exact wroteOnly_refl _ _ _
  | worked ses₀ w resp hs₀ he =>
    obtain rfl := Option.some.inj (hs₀.symm.trans hs)
    obtain rfl := Option.some.inj ht
    exact instrEffect_wroteOnly he
  | restarted _ _ hnew => exact wroteOnly_of_opensSession (hnew ses' ht).1 _ _ _ _

/-! ### What is kept -/

/-- Every instruction keeps the invariant of the session it works on; a command runs outside the token loop. -/
theorem sessionInv_instrEffect {ibuf : Memory} {i : Instr} {w w' : Work} (h : SessionInv w.ses w.obuf)
    (hidle : isCommand i = true → w.ses.declared = none) (he : InstrEffect ibuf i w w') :
    SessionInv w'.ses w'.obuf := by
  have hlimit : isCommand i = true → ∀ n total, w.ses.declared = some total → w.ses.olen.toNat + n ≤ total.toNat :=
    fun hi _ _ e => nomatch (hidle hi).symm.trans e
  cases i with
  | wrbits value count => exact sessionInv_bits h he.1 (writeBits_bits he.2)
  | flush => exact sessionInv_flush h he.1 he.2
  | encode sym =>
    obtain ⟨henc, len, hencode⟩ := he
    exact sessionInv_encodeSymbol h henc hencode
  | rdbits count =>
    obtain ⟨hdec, v, hread⟩ := he
    exact sessionInv_readBits h hdec hread
  | decode =>
    obtain ⟨hdec, r, hdecode⟩ := he
    exact sessionInv_decodeSymbol h hdec hdecode
  | advance n =>
    obtain ⟨henc, hn, rfl⟩ := he
    have hinput := h.input
    refine (advanceBy_keeps (P := fun ses => ses.dir = .enc ∧ SessionInv ses w.obuf) (fun ses hses hlt => ?_)
      ⟨henc, h⟩ (by omega)).2
    exact ⟨hses.1, sessionInv_advanceOne hses.2 hses.1 hlt⟩
  | putlit byte => exact sessionInv_bytesPut (putByte_put he.2) h he.1 (hlimit rfl _)
  | copy dist len => exact sessionInv_bytesPut (copyLoop_put he.2) h he.1 (hlimit rfl _)
  | lit byte => exact sessionInv_litPut h he
  | nop | inite _ _ | initd _ _ | release | rdreg _ | findmatch | compress _ _ | decompress _ _ | eos =>
    obtain ⟨_, _, hmatch, -⟩ := he
    cases hmatch
  | matchL3 r | matchL4 r | matchL5 r | matchL6 r | matchL7 r | matchL8 r | matchL9 r | matchL10 r | matchL11 r
  | matchL12 r | matchL13 r | matchL14 r | matchL15 r | matchL16 r | matchL17 r | matchL18 r =>
    obtain ⟨len, residual, -, hcopy⟩ := he
    exact sessionInv_matchCopied h hcopy

theorem exec_inv {i : Instr} {s t : State} (h : s.Inv)
    (hidle : isCommand i = true → ∀ ses, s.session = some ses → ses.declared = none) (hexec : exec i s = .next t) :
    t.Inv :=
  (exec_ran hexec).inv h fun ses _ hs hses he => sessionInv_instrEffect hses (fun hi => hidle hi ses hs) he

theorem windowFollowsInput_of_onlyWriterMoved {ibuf : Memory} {ses ses' : Session} (hmoved : OnlyWriterMoved ses ses')
    (h : windowFollowsInput ibuf ses) : windowFollowsInput ibuf ses' := by
  rw [hmoved]; exact h

theorem windowFollowsInput_with_nodes {ibuf : Memory} {ses : Session} (nodes : NodeMemory)
    (h : windowFollowsInput ibuf ses) : windowFollowsInput ibuf { ses with nodes := nodes } := h

theorem windowFollowsInput_encodeSymbol {ibuf : Memory} {sym len : Nat} {w w' : Work}
    (hencode : encodeSymbol sym w = .done len w') (h : windowFollowsInput ibuf w.ses) :
    windowFollowsInput ibuf w'.ses := by
  obtain ⟨bits, w₁, -, -, -, hcode, -, rfl⟩ := encodeSymbol_done hencode
  exact windowFollowsInput_with_nodes _ (windowFollowsInput_of_onlyWriterMoved (writeCode_frame hcode).1 h)

theorem windowFollowsInput_advanceBy {ibuf : Memory} {n : Nat} {ses : Session} (h : windowFollowsInput ibuf ses)
    (hn : n ≤ ses.ilen.toNat - ses.ipos.toNat) : windowFollowsInput ibuf (advanceBy ibuf n ses) := by
  have hinput := h.2.1
  exact advanceBy_keeps (P := windowFollowsInput ibuf) (fun _ => windowFollowsInput_advanceOne) h (by omega)

/-- No instruction writes DIR of an open session. -/
theorem instrEffect_dir {ibuf : Memory} {i : Instr} {w w' : Work} (h : InstrEffect ibuf i w w') :
    w'.ses.dir = w.ses.dir := by
  have hwrote := instrEffect_wroteOnly h
  cases i with
  | inite _ _ | initd _ _ | release | compress _ _ | decompress _ _ =>
    obtain ⟨_, _, hmatch, -⟩ := h
    cases hmatch
  | _ => rw [hwrote.1]

/-- An instruction that works on an ENC session keeps its window following the input. -/
theorem windowFollowsInput_instrEffect {ibuf : Memory} {i : Instr} {w w' : Work} (he : InstrEffect ibuf i w w')
    (henc : w.ses.dir = .enc) (h : windowFollowsInput ibuf w.ses) : windowFollowsInput ibuf w'.ses := by
  have hnotdec : w.ses.dir ≠ .dec := by rw [henc]; decide
  cases i with
  | wrbits value count => exact windowFollowsInput_of_onlyWriterMoved (writeBits_frame he.2).1 h
  | flush => exact windowFollowsInput_of_onlyWriterMoved (flushBits_frame he.2) h
  | encode sym =>
    obtain ⟨-, len, hencode⟩ := he
    exact windowFollowsInput_encodeSymbol hencode h
  | advance n =>
    obtain ⟨-, hn, rfl⟩ := he
    exact windowFollowsInput_advanceBy h hn
  | rdbits _ | decode | putlit _ | copy _ _ | lit _ => exact absurd he.1 hnotdec
  | nop | inite _ _ | initd _ _ | release | rdreg _ | findmatch | compress _ _ | decompress _ _ | eos =>
    obtain ⟨_, _, hmatch, -⟩ := he
    cases hmatch
  | matchL3 r | matchL4 r | matchL5 r | matchL6 r | matchL7 r | matchL8 r | matchL9 r | matchL10 r | matchL11 r
  | matchL12 r | matchL13 r | matchL14 r | matchL15 r | matchL16 r | matchL17 r | matchL18 r =>
    obtain ⟨_, _, -, hcopy⟩ := he
    exact absurd hcopy.1 hnotdec

theorem windowFollowsInput_start (ibuf : Memory) {ses : Session} {obuf : Memory} (h : SessionInv ses obuf)
    (henc : ses.dir = .enc) (hstart : ses.wpos = 0) : windowFollowsInput ibuf ses := by
  refine ⟨(h.encoding henc).1, h.input, fun d h1 h2 => ?_⟩
  rw [fill, hstart] at h2
  exact absurd (h1.trans h2) (show ¬ 1 ≤ min 0 4096 by decide)

theorem exec_encWindowInv {i : Instr} {s t : State} (h : s.encWindowInv) (hexec : exec i s = .next t) :
    t.encWindowInv := by
  rintro ses' ⟨ht, henc⟩
  have hran := exec_ran hexec
  cases hran with
  | answered r => exact h ses' ⟨ht, henc⟩
  | worked ses w resp hs he =>
    obtain rfl := Option.some.inj ht
    have henc' : ses.dir = .enc := (instrEffect_dir he).symm.trans henc
    exact windowFollowsInput_instrEffect he henc' (h ses ⟨hs, henc'⟩)
  | restarted _ _ hnew =>
    obtain ⟨-, hinv, hstart⟩ := hnew ses' ht
    exact windowFollowsInput_start _ hinv henc (hstart henc)

/-! ### Steps -/

theorem isCommand_of_decodeToken {sym : SymbolIndex} {residual : Option Residual} {i : Instr}
    (h : decodeToken sym residual = .ok i) : isCommand i = false := by
  have hmatch : ∀ row ∈ matchMap, ∀ r, isCommand (row.2 r) = false := by
    simp [matchMap, isCommand]
  unfold decodeToken at h
  split at h
  · split at h <;> cases h
    rfl
  · split at h
    · split at h <;> cases h
      rfl
    · split at h <;> cases h
      rename_i hrow
      exact hmatch _ (List.mem_of_find?_eq_some hrow) _

/-- Inside DECOMPRESS a step keeps the invariant: so does the fetch of its token, and then the token. -/
theorem step_inv_of_fetchTokenInstr {s t : State} {ses : Session} (h : s.Inv) (hs : s.session = some ses)
    (hdec : ses.dir = .dec) (hfetch : fetch s = fetchTokenInstr ses s) (hstep : step s = .next t) : t.Inv := by
  obtain ⟨hibuf, hobuf, hses⟩ := h
  have hfailed : ∀ k, (fail k s).Inv := fun _ => ⟨hibuf, List.Pairwise.nil, nofun⟩
  unfold step at hstep
  rw [hfetch] at hstep
  unfold fetchTokenInstr at hstep
  cases hread : fetchToken s.ibuf ⟨ses, s.obuf⟩ with
  | done token w =>
    have hw : SessionInv w.ses w.obuf := sessionInv_fetchToken (hses ses hs) hdec hread
    rw [hread] at hstep
    dsimp only at hstep
    cases hdecode : decodeToken (BitVec.ofNat 9 token.1) token.2 with
    | ok i =>
      rw [hdecode] at hstep
      refine exec_inv (s := { s with session := some w.ses, obuf := w.obuf })
        ⟨hibuf, wf_of_sessionInv hw, fun ses' e => Option.some.inj e ▸ hw⟩ (fun hi => ?_) hstep
      exact absurd (hi.symm.trans (isCommand_of_decodeToken hdecode)) nofun
    | error e => rw [hdecode] at hstep; cases hstep; exact hfailed _
  | raise k => rw [hread] at hstep; cases hstep; exact hfailed k
  | stuck x => rw [hread] at hstep; cases hstep

theorem step_inv {s t : State} (h : s.Inv) (hstep : step s = .next t) : t.Inv := by
  rcases step_cases s with ⟨hloop, ses, hs, hfetch⟩ | ⟨hloop, ⟨-, e⟩ | ⟨w, rest, i, -, -, e⟩ | ⟨w, rest, d, -, -, e⟩ |
    ⟨a, b, rest, -, e⟩ | ⟨rest, -, e⟩⟩
  · obtain ⟨ses', hs', hdeclared⟩ := (inTokenLoop_iff s).1 hloop
    obtain rfl := Option.some.inj (hs.symm.trans hs')
    obtain ⟨total, htotal⟩ := Option.isSome_iff_exists.1 hdeclared
    exact step_inv_of_fetchTokenInstr h hs ((h.2.2 ses hs).loop total htotal).1 hfetch hstep
  all_goals
    rw [e] at hstep
  · cases hstep; exact h
  · refine exec_inv (s := { s with port := rest }) h (fun _ ses hs => ?_) hstep
    rw [← Option.not_isSome_iff_eq_none]
    intro hsome
    exact absurd ((inTokenLoop_iff s).2 ⟨ses, hs, hsome⟩) (by simp [hloop])
  · cases hstep; exact h
  · cases hstep
    exact ⟨memWrite_wf h.1 _ _, h.2⟩
  · cases hstep
    exact ⟨h.1, List.Pairwise.nil, nofun⟩

end Sys2Proof.Machine
end

section
open Sys2Proof
open Sys2Proof.Machine

/-- Settles O58: the invariant of the session is kept by each operation, so by each instruction and by each step. -/
theorem stepKeepsInv : Obligations.StepKeepsInv :=
  fun _ _ h hstep => step_inv h hstep

/-- Settles O59: only ADVANCE moves the window of an ENC session, and it appends the input byte at IPOS. -/
theorem execKeepsEncWindow : Obligations.ExecKeepsEncWindow :=
  fun _ _ _ h hexec => exec_encWindowInv h hexec

/-- Settles O21: the merges take every node but ROOT exactly once, each two older ones, and below 65536 they add up
counts. -/
theorem buildGivesCodeTree : Obligations.BuildGivesCodeTree := by
  intro counts hlen hpos hsum
  have h : LegalCounts counts := ⟨hlen, hpos, hsum⟩
  exact ⟨h.isCodeTree_build, h.leafCounts_build, h.build_root_cnt⟩

/-- Settles O27: the leaf counts bound each other through their sum, and no node counts more than ROOT's total. -/
theorem countsStayLegal : Obligations.CountsStayLegal := by
  intro nodes hok
  have h := legalCounts_of_modelOk hok
  have hroot := h.build_root_cnt
  have hnode : ∀ n (hn : n < Config.nnode), nodes[n].cnt.toNat ≤ 4095 := by
    intro n hn
    rw [hok.1]
    simp only [h.build_cnt hn]
    exact h.builtCount_le n
  rw [← hok.1] at hroot
  refine ⟨fun c hc => ⟨h.pos c hc, h.le_3823 hc⟩, hroot ▸ h.nsym_le_sum, hroot, fun n node hn => ?_⟩
  obtain ⟨hlt, rfl⟩ := Vector.getElem?_eq_some_iff.1 hn
  exact hnode n hlt

/-- Settles O56: an instruction only answers, works on the open session within its frame, or ends or opens a session. -/
theorem instructionsWriteOnly : Obligations.InstructionsWriteOnly := by
  intro i s t hexec
  have hran := exec_ran hexec
  obtain ⟨hibuf, hmax, hport⟩ := hran.hostSideKept
  exact ⟨hibuf, hmax, hport, fun _ _ hs ht => hran.wroteOnly hs ht⟩

/-- Settles O10: the reset state is a literal. -/
theorem resetLeavesNoSession : Obligations.ResetLeavesNoSession :=
  ⟨rfl, rfl, rfl, rfl, rfl, rfl⟩

/-- Settles O57: no byte is placed and no session is open after reset. -/
theorem invHoldsAtReset : Obligations.InvHoldsAtReset :=
  ⟨reset_memories_wf.1, reset_memories_wf.2, nofun⟩

end

section
/-! SUPPORT. The acts of the host between commands that are not commands (20_memory R70 and R73, 70_reset_and_hazards
R280 and R281), beside `step_waits`. -/

namespace Sys2Proof.Machine

theorem step_placesByte {s : State} {addr : Word} {byte : Byte} {rest : List HostEvent} (h : s.inTokenLoop = false)
    (hp : s.port = .place addr byte :: rest) : step s = .next (placeByte addr byte { s with port := rest }) := by
  unfold step
  rw [fetch_idle h]
  simp [fetchCommand, hp]

theorem step_resets {s : State} {rest : List HostEvent} (h : s.inTokenLoop = false) (hp : s.port = .reset :: rest) :
    step s = .next (resetBlock { s with port := rest }) := by
  unfold step
  rw [fetch_idle h]
  simp [fetchCommand, hp]

end Sys2Proof.Machine
end

section
open Sys2Proof
open Sys2Proof.Machine

/-- Settles O9: outside the token loop step takes the act of the host that stands first at the port, and the one store
it makes to IBUF is at the placed address. -/
theorem hostActsBetweenCommands : Obligations.HostActsBetweenCommands := by
  intro s hidle
  refine ⟨step_waits hidle, fun addr byte rest hport => ?_, fun _ hport => step_resets hidle hport⟩
  exact ⟨memWrite s.ibuf addr.toNat byte, step_placesByte hidle hport, memLookup_memWrite_same _ _ _,
    fun _ hother => memLookup_memWrite_other _ _ hother⟩

end

section
/-! SUPPORT. The fields of a command word and the rows of the opcode and match maps (30_encoding R90, R91, R100): what
decodes, to which row, and what does not. -/

namespace Sys2Proof

open Laws.TableRow (commandOp_packCommand)

@[simp] theorem commandA0_packCommand (op : BitVec 8) (a0 a1 : Word) : commandA0 (packCommand op a0 a1) = a0 := by
  unfold commandA0 packCommand
  rw [BitVec.extractLsb'_append_eq_of_le (Nat.le_refl 32)]
  exact BitVec.extractLsb'_append_eq_right

@[simp] theorem commandA1_packCommand (op : BitVec 8) (a0 a1 : Word) : commandA1 (packCommand op a0 a1) = a1 :=
  BitVec.extractLsb'_append_eq_right

/-- A packed command decodes by the row of its op, with the operands packed into it. -/
theorem decodeCommand_packCommand (op : BitVec 8) (a0 a1 : Word) :
    decodeCommand (packCommand op a0 a1) =
      (opcodeMap.find? fun row => row.1 == op).elim (.error .reservedOpcode) fun row => .ok (row.2 a0 a1) := by
  unfold decodeCommand
  rw [commandOp_packCommand, commandA0_packCommand, commandA1_packCommand]
  cases opcodeMap.find? fun row => row.1 == op <;> rfl

theorem decodeCommand_ok {w : CommandWord} {i : Instr} (h : decodeCommand w = .ok i) :
    ∃ row ∈ opcodeMap, row.1 = commandOp w ∧ i = row.2 (commandA0 w) (commandA1 w) := by
  unfold decodeCommand at h
  split at h
  · rename_i row hrow
    cases h
    exact ⟨row, List.mem_of_find?_eq_some hrow, by simpa using List.find?_some hrow, rfl⟩
  · cases h

theorem decodeCommand_of_mem {w : CommandWord} (h : commandOp w ∈ opcodeMap.map Prod.fst) :
    ∃ i, decodeCommand w = .ok i := by
  obtain ⟨row, hrow, hop⟩ := List.mem_map.1 h
  obtain ⟨found, hfound⟩ := Option.isSome_iff_exists.1
    (List.find?_isSome (p := fun row => row.1 == commandOp w).2 ⟨row, hrow, by simpa using hop⟩)
  exact ⟨_, by rw [decodeCommand, hfound]⟩

theorem decodeCommand_of_not_mem {w : CommandWord} (h : commandOp w ∉ opcodeMap.map Prod.fst) :
    decodeCommand w = .error .reservedOpcode := by
  have hnone : opcodeMap.find? (fun row => row.1 == commandOp w) = none :=
    List.find?_eq_none.2 fun row hrow hop => h (List.mem_map.2 ⟨row, hrow, by simpa using hop⟩)
  rw [decodeCommand, hnone]

/-- The commands of a row are encoded with the row's op. -/
theorem commandOp_of_encode_row {row : BitVec 8 × (Word → Word → Instr)} (h : row ∈ opcodeMap) {a0 a1 : Word}
    {w : CommandWord} (hw : encode (row.2 a0 a1) = .command w) : commandOp w = row.1 := by
  have hrows : ∀ row ∈ opcodeMap, ∀ a0 a1, ∃ b0 b1, encode (row.2 a0 a1) = .command (packCommand row.1 b0 b1) := by
    simp only [opcodeMap, List.forall_mem_cons, List.not_mem_nil, false_implies, implies_true, and_true]
    and_intros <;> exact fun _ _ => ⟨_, _, rfl⟩
  obtain ⟨b0, b1, he⟩ := hrows row h a0 a1
  obtain rfl := Encoded.command.inj (he.symm.trans hw)
  exact commandOp_packCommand _ _ _

/-- The operand byte of PUTLIT is the low byte of a0 (R98). -/
theorem extractLsb'_setWidth_byte {n : Nat} (byte : Byte) (h : 8 ≤ n) : (byte.setWidth n).extractLsb' 0 8 = byte := by
  rw [← BitVec.setWidth_eq_extractLsb' h, BitVec.setWidth_setWidth_of_le _ h, BitVec.setWidth_eq]

/-! ### Tokens -/

theorem decodeToken_lit (byte : Byte) : decodeToken (byte.setWidth 9) none = .ok (.lit byte) := by
  have hle : (byte.setWidth 9).toNat ≤ 255 := by rw [BitVec.toNat_setWidth_of_le (by decide)]; omega
  simp only [decodeToken, if_pos hle, extractLsb'_setWidth_byte byte (show 8 ≤ 9 by decide)]

theorem encode_of_mem_matchMap : ∀ row ∈ matchMap, ∀ r, encode (row.2 r) = .token row.1 (some r) := by
  simp [matchMap, encode]

/-- Decoding the encoding of an instruction gives it back, row by row of the table. -/
theorem decode_encode (i : Instr) : decode (encode i) = .ok i := by
  cases i with
  | putlit byte =>
    exact (decodeCommand_packCommand _ _ _).trans
      (congrArg (fun b => Except.ok (Instr.putlit b)) (extractLsb'_setWidth_byte byte (show 8 ≤ 32 by decide)))
  | lit byte => exact decodeToken_lit byte
  | inite _ _ | initd _ _ | rdreg _ | wrbits _ _ | rdbits _ | encode _ | advance _ | copy _ _ | compress _ _
  | decompress _ _ => exact (decodeCommand_packCommand _ _ _).trans rfl
  | nop | release | flush | decode | findmatch | eos
  | matchL3 _ | matchL4 _ | matchL5 _ | matchL6 _ | matchL7 _ | matchL8 _ | matchL9 _ | matchL10 _ | matchL11 _
  | matchL12 _ | matchL13 _ | matchL14 _ | matchL15 _ | matchL16 _ | matchL17 _ | matchL18 _ => rfl

theorem encode_of_decodeToken {sym : SymbolIndex} {residual : Option Residual} {i : Instr}
    (h : decodeToken sym residual = .ok i) : encode i = .token sym residual := by
  unfold decodeToken at h
  split at h
  · rename_i hlit
    split at h <;> cases h
    have hsym : ((sym.extractLsb' 0 8).setWidth 9 : SymbolIndex) = sym := by
      apply BitVec.eq_of_toNat_eq
      rw [BitVec.toNat_setWidth, BitVec.extractLsb'_toNat, Nat.shiftRight_zero]
      omega
    rw [encode, hsym]
  · split at h
    · rename_i heos
      split at h <;> cases h
      rw [encode, show sym = 256#9 from BitVec.eq_of_toNat_eq heos]
    · split at h <;> cases h
      rename_i row r hrow
      have hsym : row.1 = sym := by simpa using List.find?_some hrow
      rw [encode_of_mem_matchMap _ (List.mem_of_find?_eq_some hrow), hsym]

end Sys2Proof
end

section
/-! SUPPORT. A command that is not accepted is Rejected (43_sequencer R206, 60_exceptions R245, R255), and a command
word that does not decode is too (30_encoding R95). -/

namespace Sys2Proof.Machine

theorem step_reservedCommand {s : State} {w : CommandWord} {rest : List HostEvent} {e : DecodeError}
    (h : s.inTokenLoop = false) (hp : s.port = .command w :: rest) (hd : decodeCommand w = .error e) :
    step s = .next (reject { s with port := rest }) := by
  unfold step
  rw [fetch_idle h]
  simp [fetchCommand, hp, hd]

theorem lacks_of_isIn_eq_false {d : Dir} {s : State} (h : s.isIn d = false) : s.lacks d := by
  intro ses hs
  simpa [State.isIn, hs] using h

theorem sessionRegister_eq_none {ses : Session} {regno : Nat} (hlow : 9 < regno)
    (hnode : ¬ (0x400 ≤ regno ∧ regno ≤ 0x620))
    (hslot : ¬ (0x1000 ≤ regno ∧ regno ≤ 0x1FFF ∧ regno - 0x1000 < fill ses)) : sessionRegister ses regno = none := by
  unfold sessionRegister
  rw [if_neg (by omega), if_neg (by omega), if_neg (by omega), if_neg (by omega), if_neg (by omega), if_neg (by omega),
    if_neg (by omega), if_neg (by omega), if_neg (by omega), if_neg hnode, if_neg hslot]

/-- RDREG finds a register only where it is accepted (R39, R205). -/
theorem execRdreg_rejects {s : State} {regno : Word} (h : accepted (.rdreg regno) s = false) :
    execRdreg regno s = .next (reject s) := by
  have hnone : readRegister s regno.toNat = none := by
    unfold accepted at h
    unfold readRegister
    by_cases hzero : regno.toNat = 0
    · simp [hzero, isRegisterNumber] at h
    · rw [if_neg hzero]
      cases hs : s.session with
      | none => rfl
      | some ses =>
        simp only [State.sessionHas, hs, isRegisterNumber, Bool.and_eq_false_iff, Bool.or_eq_false_iff,
          decide_eq_false_iff_not] at h
        refine sessionRegister_eq_none ?_ ?_ ?_ <;> omega
  rw [execRdreg, hnone]

/-- A command of a direction that tests its operand is Rejected where every session of the direction fails the test. -/
theorem inSession_test_rejects {d : Dir} {s : State} {test : Session → Bool} {run : Work → Out}
    (h : ∀ ses, s.session = some ses → ses.dir = d → test ses = false) :
    (inSession d s fun w => if test w.ses then run w else .next (reject s)) = .next (reject s) := by
  rcases inSession_cases d s fun w => if test w.ses then run w else .next (reject s) with ⟨ses, hs, hd, e⟩ | ⟨-, e⟩
  · simp [e, h ses hs hd]
  · exact e

theorem execWrbits_rejects {s : State} {value count : Word} (h : (s.isIn .enc && countInRange count) = false) :
    execWrbits value count s = .next (reject s) :=
  inSession_test_rejects (test := fun _ => countInRange count) fun ses hs hd => by
    simpa [State.isIn, hs, hd] using h

theorem execRdbits_rejects {s : State} {count : Word} (h : (s.isIn .dec && countInRange count) = false) :
    execRdbits count s = .next (reject s) :=
  inSession_test_rejects (test := fun _ => countInRange count) fun ses hs hd => by
    simpa [State.isIn, hs, hd] using h

theorem execAdvance_rejects {s : State} {n : Word}
    (h : (s.isIn .enc && s.sessionHas fun ses => advanceInRange ses n) = false) :
    execAdvance n s = .next (reject s) :=
  inSession_test_rejects (test := fun ses => advanceInRange ses n) fun ses hs hd => by
    simpa [State.isIn, State.sessionHas, hs, hd] using h

/-- What the host does next is no ground for accepting a command or not. -/
theorem accepted_port (i : Instr) (s : State) (port : List HostEvent) :
    accepted i { s with port := port } = accepted i s := by
  cases i <;> rfl

theorem exec_rejects {i : Instr} {s : State} (h : accepted i s = false) : exec i s = .next (reject s) := by
  cases i with
  | rdreg regno => exact execRdreg_rejects h
  | flush | encode _ | findmatch | decode | putlit _ | copy _ _ =>
    simp only [exec, execFlush, execEncode, execFindmatch, execDecode, execPutlit, execCopy,
      inSession_rejects (lacks_of_isIn_eq_false h)]
  | wrbits value count => exact execWrbits_rejects h
  | rdbits count => exact execRdbits_rejects h
  | advance n => exact execAdvance_rejects h
  | nop | inite _ _ | initd _ _ | release | compress _ _ | decompress _ _ | lit _ | eos
  | matchL3 _ | matchL4 _ | matchL5 _ | matchL6 _ | matchL7 _ | matchL8 _ | matchL9 _ | matchL10 _ | matchL11 _
  | matchL12 _ | matchL13 _ | matchL14 _ | matchL15 _ | matchL16 _ | matchL17 _ | matchL18 _ => cases h

/-! ### Tokens -/

theorem step_token {s : State} {ses : Session} (hs : s.session = some ses) (h : ses.declared.isSome = true)
    {t : Nat × Option Residual} {w : Work} {i : Instr} (hfetch : fetchToken s.ibuf ⟨ses, s.obuf⟩ = .done t w)
    (hdecode : decodeToken (BitVec.ofNat 9 t.1) t.2 = .ok i) :
    step s = exec i { s with session := some w.ses, obuf := w.obuf } := by
  unfold step
  rw [fetch_inTokenLoop hs h]
  simp only [fetchTokenInstr, hfetch, hdecode]

theorem step_token_raise {s : State} {ses : Session} (hs : s.session = some ses) (h : ses.declared.isSome = true)
    {k : Failure} (hfetch : fetchToken s.ibuf ⟨ses, s.obuf⟩ = .raise k) : step s = .next (fail k s) := by
  unfold step
  rw [fetch_inTokenLoop hs h]
  simp only [fetchTokenInstr, hfetch]

/-- A MATCH token of any length runs the one meaning of matches, and none is longer than MAX_MATCH (R102, R215). -/
theorem exec_of_matchOf {i : Instr} {len : Nat} {residual : Residual} (h : matchOf i = some (len, residual))
    (s : State) : exec i s = tokenMatch len residual s ∧ len ≤ Config.maxMatch := by
  cases i with
  | matchL3 r | matchL4 r | matchL5 r | matchL6 r | matchL7 r | matchL8 r | matchL9 r | matchL10 r | matchL11 r
  | matchL12 r | matchL13 r | matchL14 r | matchL15 r | matchL16 r | matchL17 r | matchL18 r =>
    cases h; exact ⟨rfl, by decide⟩
  | _ => cases h

theorem tokenLit_rejects {b : Byte} {s : State} (h : s.lacks .dec) : tokenLit b s = .next (reject s) :=
  inSession_rejects h _

theorem tokenMatch_rejects {len : Nat} {residual : Residual} {s : State} (h : s.lacks .dec) :
    tokenMatch len residual s = .next (reject s) :=
  inSession_rejects h _

theorem tokenEos_rejects {s : State} (h : s.lacks .dec) : tokenEos s = .next (reject s) :=
  inSession_rejects h _

theorem exec_token_rejects {i : Instr} {s : State} (h : s.lacks .dec) (hi : isCommand i = false) :
    exec i s = .next (reject s) := by
  cases i with
  | lit b => exact tokenLit_rejects h
  | eos => exact tokenEos_rejects h
  | matchL3 r | matchL4 r | matchL5 r | matchL6 r | matchL7 r | matchL8 r | matchL9 r | matchL10 r | matchL11 r
  | matchL12 r | matchL13 r | matchL14 r | matchL15 r | matchL16 r | matchL17 r | matchL18 r =>
    exact tokenMatch_rejects h
  | _ => cases hi

/-! ### WRBITS -/

/-- WRBITS reads only the count low bits of its value (30_encoding R96, 40_bitstream R131). -/
theorem writeBits_congr {n : Nat} {value value' : Word} (h : ∀ i, i < n → value.getLsbD i = value'.getLsbD i)
    (w : Work) : writeBits n value w = writeBits n value' w := by
  induction n generalizing w with
  | zero => rfl
  | succ n ih =>
    simp only [writeBits, h n (Nat.lt_succ_self n)]
    congr 1
    funext _ w
    exact ih (fun i hi => h i (Nat.lt_succ_of_lt hi)) w

end Sys2Proof.Machine
end

section
open Sys2Proof
open Sys2Proof.Machine

/-- Settles O1: every command packs its op and the operands its row takes, every token is a row of the symbol table. -/
theorem encodeDecodeRoundTrip : Obligations.EncodeDecodeRoundTrip :=
  decode_encode

/-- Settles O2: what a symbol decodes to is encoded as that symbol, and the round trip gives the converse. -/
theorem tokenDecodingIsExact : Obligations.TokenDecodingIsExact := by
  refine fun sym residual i => ⟨encode_of_decodeToken, fun h => ?_⟩
  have := decode_encode i
  rwa [h] at this

/-- Settles O3: the words are literals. -/
theorem specWordsDecode : Obligations.SpecWordsDecode :=
  ⟨rfl, rfl, rfl, rfl, rfl, rfl, rfl, rfl⟩

/-- Settles O4: each row of the opcode map names the operands it takes, and WRBITS writes the count low bits. -/
theorem unusedOperandsIgnored : Obligations.UnusedOperandsIgnored := by
  refine ⟨fun a0 a1 => ?_, fun value value' count s h => ?_⟩
  · have hbyte := BitVec.setWidth_eq_extractLsb' (x := a0) (show 8 ≤ 32 by decide)
    rw [hbyte]
    and_intros <;> exact (decodeCommand_packCommand _ a0 a1).trans rfl
  · change execWrbits value count s = execWrbits value' count s
    simp only [execWrbits, writeBits_congr h]

/-- Settles O5: the sixteen values are the ops of the opcode map, and what the state does not accept is Rejected. -/
theorem reservedOpcodesRejected : Obligations.ReservedOpcodesRejected := by
  intro s w rest hidle hport legal
  refine ⟨fun hop => step_reservedCommand hidle hport (decodeCommand_of_not_mem hop), decodeCommand_of_mem,
    fun i w' hi hw' => ?_, fun i hi hnot => ?_⟩
  · obtain ⟨row, hrow, hop, rfl⟩ := decodeCommand_ok hi
    exact (commandOp_of_encode_row hrow hw').trans hop
  · rw [step_command hidle hport hi]
    exact exec_rejects ((accepted_port i s rest).trans hnot)

/-- Settles O7: inside the token loop step fetches at the read cursor, and the token there decodes to i. -/
theorem stepRunsDecodedToken : Obligations.StepRunsDecodedToken :=
  fun _ _ hs hloop => ⟨fun _ _ _ hfetch hdecode => step_token hs hloop hfetch hdecode,
    fun _ hfetch => step_token_raise hs hloop hfetch⟩

/-- Settles O51: without a declared length a token settles as its unit command does, and both need a DEC session. -/
theorem handDrivenTokens : Obligations.HandDrivenTokens := by
  refine fun s => ⟨fun ses ⟨hs, hdec⟩ hnone => ⟨fun b => ?_, fun i len residual hi => ?_, ?_⟩, fun hlacks i hi => ?_⟩
  · change tokenLit b s = execPutlit b s
    rw [tokenLit, execPutlit, inSession_live hs hdec, inSession_live hs hdec]
    simp only [hnone]
  · obtain ⟨hexec, hlen⟩ := exec_of_matchOf hi s
    have hdist : (BitVec.ofNat 32 (residual.toNat + 1)).toNat = residual.toNat + 1 := by
      rw [BitVec.toNat_ofNat]; omega
    have hlen : (BitVec.ofNat 32 len).toNat = len := by
      rw [BitVec.toNat_ofNat]; change len ≤ 18 at hlen; omega
    change _ = execCopy _ _ s
    rw [hexec, tokenMatch, execCopy, inSession_live hs hdec, inSession_live hs hdec]
    simp only [hnone, hdist, hlen]
  · change tokenEos s = _
    rw [tokenEos, inSession_live hs hdec]
    simp only [hnone]
    rfl
  · exact exec_token_rejects hlacks hi

end

section
/-! SUPPORT. Bits read as numbers (20_memory R60, R61), and what RDBITS gives where the bits are there
(40_bitstream R133). -/

namespace Sys2Proof.Machine

theorem bitsToNat_foldl (bits : List Bool) (k : Nat) :
    bits.foldl (fun v b => 2 * v + b.toNat) k = k * 2 ^ bits.length + bitsToNat bits := by
  unfold bitsToNat
  induction bits generalizing k with
  | nil => simp
  | cons b bits ih =>
    rw [List.foldl_cons, List.foldl_cons, ih, ih (2 * 0 + b.toNat), List.length_cons, Nat.pow_succ]
    ring

theorem bitsToNat_cons (b : Bool) (bits : List Bool) :
    bitsToNat (b :: bits) = b.toNat * 2 ^ bits.length + bitsToNat bits := by
  rw [bitsToNat, List.foldl_cons, bitsToNat_foldl, Nat.mul_zero, Nat.zero_add]

@[simp] theorem lowBits_length (n : Nat) (v : Word) : (lowBits n v).length = n := by simp [lowBits]

theorem lowBits_succ (n : Nat) (v : Word) : lowBits (n + 1) v = v.getLsbD n :: lowBits n v := by
  simp only [lowBits, List.range_succ_eq_map, List.map_cons, List.map_map]
  congr 1
  refine List.map_congr_left fun i _ => ?_
  simp only [Function.comp, Nat.add_sub_cancel, Nat.succ_eq_add_one, Nat.sub_sub, Nat.add_comm 1 i]

/-- The n low bits of a value, read as a number again. -/
theorem bitsToNat_lowBits (n : Nat) (v : Word) : bitsToNat (lowBits n v) = v.toNat % 2 ^ n := by
  induction n with
  | zero => simp [lowBits, bitsToNat, Nat.mod_one]
  | succ n ih =>
    rw [lowBits_succ, bitsToNat_cons, ih, lowBits_length, Nat.mod_pow_succ, BitVec.getLsbD, Nat.toNat_testBit]
    ring

@[simp] theorem ibufBits_length (ibuf : Memory) (p n : Nat) : (ibufBits ibuf p n).length = n := by simp [ibufBits]

theorem ibufBits_succ (ibuf : Memory) (p n : Nat) :
    ibufBits ibuf p (n + 1) = ibufBit ibuf p :: ibufBits ibuf (p + 1) n := by
  simp only [ibufBits, List.range_succ_eq_map, List.map_cons, List.map_map]
  congr 1
  refine List.map_congr_left fun i _ => ?_
  simp only [Function.comp, Nat.succ_eq_add_one, Nat.add_assoc, Nat.add_comm 1 i]

theorem ibufBits_add (ibuf : Memory) (p m n : Nat) :
    ibufBits ibuf p (m + n) = ibufBits ibuf p m ++ ibufBits ibuf (p + m) n := by
  simp only [ibufBits, List.range_add, List.map_append, List.map_map, Function.comp_def, Nat.add_assoc]

/-- The bit at the read cursor (R30). -/
theorem readBit_bit (ibuf : Memory) (ses : Session) : (readBit ibuf ses).1 = ibufBit ibuf (readPos ses) := by
  have hbit := ses.rbit.isLt
  unfold readBit ibufBit readPos
  rw [show (8 * ses.rbyte.toNat + ses.rbit.toNat) / 8 = ses.rbyte.toNat by omega,
    show (8 * ses.rbyte.toNat + ses.rbit.toNat) % 8 = ses.rbit.toNat by omega]

theorem shiftLeft_or_ofBool (k : Nat) (b : Bool) :
    (BitVec.ofNat 32 k <<< 1) ||| (BitVec.ofBool b).setWidth 32 = BitVec.ofNat 32 (2 * k + b.toNat) := by
  have hbit : (BitVec.ofBool b).setWidth 32 = BitVec.ofNat 32 b.toNat := by cases b <;> rfl
  rw [← BitVec.add_eq_or_of_and_eq_zero, hbit, BitVec.ofNat_add, BitVec.ofNat_mul]
  · bv_omega
  · cases b
    · simp
    · ext i
      simp
      omega

/-- The loop of RDBITS reads the bits from the cursor on, the first of them most significant. -/
theorem readLoop_bits (ibuf : Memory) (n k : Nat) {ses : Session} (h : readPos ses + n ≤ 8 * ses.ilen.toNat) :
    (readLoop ibuf n (BitVec.ofNat 32 k) ses).1 =
      BitVec.ofNat 32 ((ibufBits ibuf (readPos ses) n).foldl (fun v b => 2 * v + b.toNat) k) := by
  induction n generalizing k ses with
  | zero => rfl
  | succ n ih =>
    have hlen := ses.ilen.isLt
    have hpos : readPos (readBit ibuf ses).2 = readPos ses + 1 := readBit_pos (by unfold readPos at h; omega)
    have hilen : (readBit ibuf ses).2.ilen = ses.ilen := by rw [readBit_frame ibuf ses]
    rw [readLoop, shiftLeft_or_ofBool, ih _ (by rw [hpos, hilen]; omega), hpos, ibufBits_succ, List.foldl_cons,
      readBit_bit]

/-- The reader has moved so many bits on, and nothing else of the session has changed. -/
structure ReaderMoved (n : Nat) (ses ses' : Session) : Prop where
  frame : OnlyReaderMoved ses ses'
  pos : readPos ses' = readPos ses + n

theorem ReaderMoved.trans {m n : Nat} {a b c : Session} (h : ReaderMoved m a b) (h' : ReaderMoved n b c) :
    ReaderMoved (m + n) a c :=
  ⟨h.frame.trans h'.frame, by rw [h'.pos, h.pos, Nat.add_assoc]⟩

theorem ReaderMoved.ilen {n : Nat} {ses ses' : Session} (h : ReaderMoved n ses ses') : ses'.ilen = ses.ilen := by
  rw [h.frame]

theorem ReaderMoved.nodes {n : Nat} {ses ses' : Session} (h : ReaderMoved n ses ses') : ses'.nodes = ses.nodes := by
  rw [h.frame]

/-- RDBITS that finds its bits (R133). -/
theorem readBits_reads {ibuf : Memory} {n : Nat} {w : Work} (h : readPos w.ses + n ≤ 8 * w.ses.ilen.toNat) :
    ∃ ses', readBits ibuf n w =
        .done (BitVec.ofNat 32 (bitsToNat (ibufBits ibuf (readPos w.ses) n))) { w with ses := ses' } ∧
      ReaderMoved n w.ses ses' := by
  rcases readBits_cases ibuf n w with ⟨-, e⟩ | ⟨hshort, -⟩
  · exact ⟨_, e.trans (congrArg (Res.done · _) (readLoop_bits ibuf n 0 h)), readLoop_frame _ _ _ _,
      readLoop_pos ibuf n 0 h⟩
  · have hbit := w.ses.rbit.isLt
    unfold unreadBits at hshort
    unfold readPos at h
    omega

theorem readBits_reads_bit {ibuf : Memory} {w : Work} (h : readPos w.ses + 1 ≤ 8 * w.ses.ilen.toNat) :
    ∃ ses', readBits ibuf 1 w = .done (BitVec.ofNat 32 (ibufBit ibuf (readPos w.ses)).toNat) { w with ses := ses' } ∧
      ReaderMoved 1 w.ses ses' := by
  simpa [ibufBits, bitsToNat] using readBits_reads (ibuf := ibuf) h

end Sys2Proof.Machine
end

section
/-! SUPPORT. The way a code takes through the tree, from ROOT to its leaf, and DECODE, which takes the way of the bits
it reads (41_huffman R150, R156, R158). -/

namespace Sys2Proof.Machine

theorem walkFrom_cons {nodes : NodeMemory} {b : Bool} {bits : List Bool} {n m : Nat}
    (h : walkFrom nodes (b :: bits) n = some m) : ∃ node, nodes[n]? = some node ∧
      walkFrom nodes bits (if b then node.right.toNat else node.left.toNat) = some m := by
  unfold walkFrom at h
  split at h
  · rename_i node hnode
    exact ⟨node, hnode, h⟩
  · cases h

section
variable {nodes : NodeMemory} (h : isCodeTree nodes)
include h

theorem isCodeTree_children {n : Nat} {node : Node} (hinner : Config.nsym ≤ n) (hnode : nodes[n]? = some node) :
    node.left.toNat < n ∧ node.right.toNat < n := by
  obtain ⟨hn, rfl⟩ := Vector.getElem?_eq_some_iff.1 hnode
  obtain ⟨a, b, -, -, hleft, hright, ha, hb, -⟩ := h.2.1 n hn hinner
  exact ⟨hleft.trans_lt ha, hright.trans_lt hb⟩

/-- A way that ends in a leaf does not pass another leaf. -/
theorem eq_nil_of_walkFrom_leaf {bits : List Bool} {n sym : Nat} (hn : n < Config.nsym) (hs : sym < Config.nsym)
    (hwalk : walkFrom nodes bits n = some sym) : bits = [] := by
  cases bits with
  | nil => rfl
  | cons b bits =>
    obtain ⟨node, hnode, hrest⟩ := walkFrom_cons hwalk
    obtain ⟨hlt, rfl⟩ := Vector.getElem?_eq_some_iff.1 hnode
    obtain ⟨hleft, hright⟩ := h.1 n hlt hn
    rw [hleft, hright, ite_self] at hrest
    cases bits with
    | nil =>
      obtain rfl := Option.some.inj hrest
      exact absurd hs (by decide)
    | cons b' bits =>
      obtain ⟨node, hnone, -⟩ := walkFrom_cons hrest
      exact absurd (Vector.getElem?_eq_some_iff.1 hnone).1 (by decide)

theorem inner_of_walkFrom_cons {b : Bool} {bits : List Bool} {n sym : Nat} (hs : sym < Config.nsym)
    (hwalk : walkFrom nodes (b :: bits) n = some sym) : Config.nsym ≤ n :=
  Nat.le_of_not_lt fun hleaf => List.cons_ne_nil _ _ (eq_nil_of_walkFrom_leaf h hleaf hs hwalk)

/-- A way to a leaf goes down at every bit, so it is no longer than there are internal nodes to pass. -/
theorem walkFrom_length_le {bits : List Bool} {n sym : Nat} (hn : n < Config.nnode) (hs : sym < Config.nsym)
    (hwalk : walkFrom nodes bits n = some sym) : bits.length + 272 ≤ max n 272 := by
  induction bits generalizing n with
  | nil => simp
  | cons b bits ih =>
    have hinner := inner_of_walkFrom_cons h hs hwalk
    obtain ⟨node, hnode, hrest⟩ := walkFrom_cons hwalk
    obtain ⟨hleft, hright⟩ := isCodeTree_children h hinner hnode
    have hchild : (if b then node.right.toNat else node.left.toNat) < n := by split <;> assumption
    have := ih (hchild.trans hn) hrest
    change 273 ≤ n at hinner
    rw [List.length_cons]
    omega

/-- Code collects the bits of the way from ROOT down to where it started. -/
theorem codeFrom_walk {fuel n sym : Nat} {path bits : List Bool} (hn : n ≤ Config.root)
    (hpath : walkFrom nodes path n = some sym) (hcode : codeFrom nodes fuel n path = some bits) :
    walkFrom nodes bits Config.root = some sym := by
  induction fuel generalizing n path with
  | zero =>
    unfold codeFrom at hcode
    split at hcode <;> cases hcode
    rename_i hroot
    rwa [← hroot]
  | succ fuel ih =>
    unfold codeFrom at hcode
    split at hcode
    · rename_i hroot
      cases hcode
      rwa [← hroot]
    · rename_i hbelow
      have hlt : n < Config.nnode := Nat.lt_succ_of_le hn
      obtain ⟨p, hp, hpar, -, -, hchild⟩ := h.2.2.1 n hlt (Nat.lt_of_le_of_ne hn hbelow)
      rw [Vector.getElem?_eq_getElem hlt] at hcode
      dsimp only at hcode
      rw [hpar, Vector.getElem?_eq_getElem hp] at hcode
      refine ih (Nat.le_of_lt_succ hp) ?_ hcode
      rw [walkFrom, Vector.getElem?_eq_getElem hp]
      dsimp only
      by_cases hright : (nodes[p]).right.toNat = n
      · simpa [hright] using hpath
      · simpa [hright, hchild.resolve_right hright] using hpath

/-- The code of a symbol leads from ROOT to its leaf (R158). -/
theorem code_walk {sym : Nat} {bits : List Bool} (hs : sym < Config.nsym) (hcode : code nodes sym = some bits) :
    walkFrom nodes bits Config.root = some sym :=
  codeFrom_walk h (by change sym < 273 at hs; change sym ≤ 544; omega) rfl hcode

end

theorem isCodeTree_of_modelOk {nodes : NodeMemory} (h : modelOk nodes) : isCodeTree nodes := by
  rw [h.1]
  exact (legalCounts_of_modelOk h).isCodeTree_build

theorem decodeWalk_leaf (ibuf : Memory) (left : Nat) {n : Nat} (w : Work) (h : n < Config.nsym) :
    decodeWalk ibuf left n w = .done (n, left) w := by
  cases left <;> simp only [decodeWalk, if_pos h]

theorem decodeWalk_inner (ibuf : Memory) (left : Nat) {n : Nat} {w : Work} {node : Node} (h : Config.nsym ≤ n)
    (hnode : w.ses.nodes[n]? = some node) :
    decodeWalk ibuf (left + 1) n w = (readBits ibuf 1 w).bind fun b w =>
      decodeWalk ibuf left (if b = 0 then node.left.toNat else node.right.toNat) w := by
  simp only [decodeWalk, if_neg (Nat.not_lt.2 h), hnode]

/-- DECODE walks as the bits at the read cursor say (R156). -/
theorem decodeWalk_reads {ibuf : Memory} {bits : List Bool} {left n sym : Nat} {w : Work}
    (h : isCodeTree w.ses.nodes) (hs : sym < Config.nsym) (hwalk : walkFrom w.ses.nodes bits n = some sym)
    (hleft : bits.length ≤ left) (hroom : readPos w.ses + bits.length ≤ 8 * w.ses.ilen.toNat)
    (hbits : ibufBits ibuf (readPos w.ses) bits.length = bits) :
    ∃ ses', decodeWalk ibuf left n w = .done (sym, left - bits.length) { w with ses := ses' } ∧
      ReaderMoved bits.length w.ses ses' := by
  induction bits generalizing left n w with
  | nil =>
    obtain rfl := Option.some.inj hwalk
    exact ⟨w.ses, decodeWalk_leaf ibuf left w hs, .refl _, rfl⟩
  | cons b bits ih =>
    obtain ⟨left, rfl⟩ : ∃ k, left = k + 1 := ⟨left - 1, by rw [List.length_cons] at hleft; omega⟩
    have hinner := inner_of_walkFrom_cons h hs hwalk
    obtain ⟨node, hnode, hrest⟩ := walkFrom_cons hwalk
    rw [List.length_cons] at hleft hroom hbits ⊢
    rw [ibufBits_succ] at hbits
    obtain ⟨hbit, hbits⟩ := List.cons.inj hbits
    obtain ⟨ses₁, hread, hmoved⟩ := readBits_reads_bit (ibuf := ibuf) (w := w) (by omega)
    obtain ⟨ses', hdecode, hmoved'⟩ := ih (left := left) (w := { w with ses := ses₁ }) (by rw [hmoved.nodes]; exact h)
      (by rw [hmoved.nodes]; exact hrest) (by omega) (by rw [hmoved.pos, hmoved.ilen]; omega)
      (by rw [hmoved.pos]; exact hbits)
    refine ⟨ses', ?_, Nat.add_comm 1 _ ▸ hmoved.trans hmoved'⟩
    rw [decodeWalk_inner ibuf left hinner hnode, hread, bind_done, hbit, Nat.add_sub_add_right, ← hdecode]
    cases b <;> rfl

/-- A symbol of so many bits has been read: the reader has moved past them and the model has taken the symbol. -/
structure SymbolRead (sym n : Nat) (ses ses' : Session) : Prop where
  frame : ses' = { ses with rbyte := ses'.rbyte, rbit := ses'.rbit, nodes := update sym ses.nodes }
  pos : readPos ses' = readPos ses + n

theorem SymbolRead.ilen {sym n : Nat} {ses ses' : Session} (h : SymbolRead sym n ses ses') : ses'.ilen = ses.ilen := by
  rw [h.frame]

theorem SymbolRead.trans {sym m n : Nat} {a b c : Session} (h : SymbolRead sym m a b) (h' : ReaderMoved n b c) :
    SymbolRead sym (m + n) a c := by
  refine ⟨?_, by rw [h'.pos, h.pos, Nat.add_assoc]⟩
  conv_lhs => rw [h'.frame]
  rw [h.frame]

theorem ReaderMoved.symbolRead {n : Nat} {ses ses₁ : Session} (h : ReaderMoved n ses ses₁) (sym : Nat) :
    SymbolRead sym n ses { ses₁ with nodes := update sym ses₁.nodes } := by
  refine ⟨?_, (show readPos { ses₁ with nodes := update sym ses₁.nodes } = readPos ses₁ by
    unfold readPos; rfl).trans h.pos⟩
  conv_lhs => rw [h.frame]

/-- DECODE finds the symbol whose code stands at the read cursor, and the model takes it (R156). -/
theorem decodeSymbol_reads {ibuf : Memory} {bits : List Bool} {sym : Nat} {w : Work} (h : isCodeTree w.ses.nodes)
    (hs : sym < Config.nsym) (hcode : code w.ses.nodes sym = some bits)
    (hroom : readPos w.ses + bits.length ≤ 8 * w.ses.ilen.toNat)
    (hbits : ibufBits ibuf (readPos w.ses) bits.length = bits) :
    ∃ ses', decodeSymbol ibuf w = .done (sym, bits.length) { w with ses := ses' } ∧
      SymbolRead sym bits.length w.ses ses' := by
  have hwalk := code_walk h hs hcode
  have hlen : bits.length ≤ Config.nsym - 1 := by
    have := walkFrom_length_le h (by decide) hs hwalk
    change bits.length + 272 ≤ max 544 272 at this
    change bits.length ≤ 272
    omega
  obtain ⟨ses₁, hdecode, hmoved⟩ := decodeWalk_reads h hs hwalk hlen hroom hbits
  refine ⟨_, ?_, hmoved.symbolRead sym⟩
  simp only [decodeSymbol, hdecode, bind_done, Nat.sub_sub_self hlen]

/-- A residual read back from its bits (R61, R102). -/
theorem setWidth_bitsToNat_residualBits (r : Residual) :
    (BitVec.ofNat 32 (bitsToNat (residualBits (some r)))).setWidth 12 = r := by
  rw [residualBits, bitsToNat_lowBits]
  apply BitVec.eq_of_toNat_eq
  rw [BitVec.toNat_setWidth, BitVec.toNat_ofNat, BitVec.toNat_setWidth]
  change r.toNat % 2 ^ 32 % 2 ^ 12 % 2 ^ 32 % 2 ^ 12 = r.toNat
  omega

/-- Fetching a token reads the code of its symbol and the residual of a match (30_encoding R103). -/
theorem fetchToken_reads {ibuf : Memory} {bits : List Bool} {sym : Nat} {residual : Option Residual} {w : Work}
    (h : isCodeTree w.ses.nodes) (hs : sym < Config.nsym) (hresidual : residual.isSome = true ↔ Config.symEos < sym)
    (hcode : code w.ses.nodes sym = some bits)
    (hroom : readPos w.ses + (bits ++ residualBits residual).length ≤ 8 * w.ses.ilen.toNat)
    (hbits : ibufBits ibuf (readPos w.ses) (bits ++ residualBits residual).length = bits ++ residualBits residual) :
    ∃ ses', fetchToken ibuf w = .done (sym, residual) { w with ses := ses' } ∧
      SymbolRead sym (bits ++ residualBits residual).length w.ses ses' := by
  rw [List.length_append] at hroom hbits ⊢
  rw [ibufBits_add] at hbits
  obtain ⟨hcodeBits, hresidualBits⟩ := List.append_inj hbits (ibufBits_length _ _ _)
  obtain ⟨ses₁, hdecode, hread⟩ := decodeSymbol_reads h hs hcode (by omega) hcodeBits
  unfold fetchToken
  rw [hdecode, bind_done]
  cases residual with
  | none => exact ⟨ses₁, if_pos (Nat.le_of_not_lt fun hlt => nomatch hresidual.2 hlt), hread⟩
  | some r =>
    have hlen : (residualBits (some r)).length = Config.windowBits := lowBits_length _ _
    rw [hlen] at hroom hresidualBits ⊢
    obtain ⟨ses', hbits, hmoved⟩ := readBits_reads (ibuf := ibuf) (n := Config.windowBits) (w := { w with ses := ses₁ })
      (by rw [hread.pos, hread.ilen]; omega)
    rw [hread.pos, hresidualBits] at hbits
    refine ⟨ses', ?_, hread.trans hmoved⟩
    rw [if_neg (Nat.not_le.2 (hresidual.1 rfl)), hbits, bind_done, setWidth_bitsToNat_residualBits]

end Sys2Proof.Machine
end

section
open Sys2Proof
open Sys2Proof.Machine

/-- Settles O8: the code leads to its leaf, so DECODE walks there, and RDBITS reads the residual back. -/
theorem fetchTokenReads : Obligations.FetchTokenReads := by
  intro s ses sym residual bits hok hs hresidual hcode hroom hbits
  obtain ⟨ses', hfetch, hread⟩ := fetchToken_reads (w := ⟨ses, s.obuf⟩) (isCodeTree_of_modelOk hok) hs hresidual hcode
    hroom hbits
  exact ⟨ses', hfetch, hread.pos, hread.frame⟩

end

section
/-! SUPPORT. Which failures an operation can raise where the node memory is a code tree (60_exceptions R243), and that
fetching a token reads at least one bit (43_sequencer R231). -/

namespace Sys2Proof.Machine

theorem flushBits_raise {w : Work} {k : Failure} (h : flushBits w = .raise k) : k = .allocationFailure := by
  rcases flushBits_cases w with ⟨-, e⟩ | ⟨-, e⟩ <;> rw [e] at h
  · cases h
  · rcases emitByte_cases w with ⟨-, e⟩ | ⟨-, e⟩ <;> rw [e] at h <;> cases h
    rfl

theorem copyMatch_raise {dist len : Nat} {w : Work} {k : Failure} (h : copyMatch dist len w = .raise k) :
    k = .allocationFailure ∨ k = .limitExceeded := by
  rcases copyMatch_cases dist len w with ⟨-, e⟩ | ⟨-, e⟩ <;> rw [e] at h
  · exact .inl (copyLoop_raise h)
  · cases h; exact .inr rfl

/-! ### COMPRESS -/

theorem bestMatch_le (ibuf : Memory) (ses : Session) (left d : Nat) {best : Nat × Nat}
    (h : best.1 ≤ Config.maxMatch) : (bestMatch ibuf ses left d best).1 ≤ Config.maxMatch := by
  induction left generalizing d best with
  | zero => exact h
  | succ left ih =>
    refine ih _ ?_
    split
    · exact (matchLen_le ibuf ses d).1
    · exact h

/-- FINDMATCH answers no length above MAX_MATCH (R181). -/
theorem findMatch_le (ibuf : Memory) (ses : Session) : (findMatch ibuf ses).1 ≤ Config.maxMatch := by
  have h := bestMatch_le ibuf ses (fill ses) 1 (best := (0, 0)) (Nat.zero_le _)
  unfold findMatch
  dsimp only
  split
  · exact h
  · exact Nat.zero_le _

theorem encodeSymbol_raise_of_symbol {sym : Nat} {w : Work} {k : Failure} (hs : sym < Config.nsym)
    (h : encodeSymbol sym w = .raise k) : k = .allocationFailure := by
  rcases encodeSymbol_raise h with ⟨hno, -⟩ | ⟨-, hk⟩
  · exact absurd hno (Nat.not_le.2 hs)
  · exact hk

theorem compressToken_raise {ibuf : Memory} {w : Work} {k : Failure} (h : compressToken ibuf w = .raise k) :
    k = .allocationFailure := by
  unfold compressToken at h
  dsimp only at h
  split at h
  · have hsym : 254 + (findMatch ibuf w.ses).1 < Config.nsym := by
      have := findMatch_le ibuf w.ses
      change _ ≤ 18 at this
      change _ < 273
      omega
    rcases bind_eq_raise.1 h with h | ⟨_, w₁, -, h⟩
    · exact encodeSymbol_raise_of_symbol hsym h
    · rcases bind_eq_raise.1 h with h | ⟨_, w₂, -, h⟩
      · exact writeBits_raise h
      · cases h
  · rcases bind_eq_raise.1 h with h | ⟨_, w₁, -, h⟩
    · exact encodeSymbol_raise_of_symbol ((BitVec.isLt _).trans (by decide)) h
    · cases h

theorem compressLoop_raise {ibuf : Memory} {turns : Nat} {w : Work} {k : Failure}
    (h : compressLoop ibuf turns w = .raise k) : k = .allocationFailure := by
  induction turns generalizing w with
  | zero => cases h
  | succ turns ih =>
    unfold compressLoop at h
    split at h
    · rcases bind_eq_raise.1 h with h | ⟨_, w₁, -, h⟩
      · exact compressToken_raise h
      · exact ih h
    · cases h

/-- After its first test COMPRESS can only run out of room: every symbol it encodes is one (R210). -/
theorem compressAll_raise {ibuf : Memory} {w : Work} {k : Failure} (h : compressAll ibuf w = .raise k) :
    k = .allocationFailure := by
  rcases bind_eq_raise.1 h with h | ⟨_, w₁, -, h⟩
  · rcases bind_eq_raise.1 h with h | ⟨_, w₂, -, h⟩ <;> exact writeBits_raise h
  rcases bind_eq_raise.1 h with h | ⟨_, w₂, -, h⟩
  · exact compressLoop_raise h
  rcases bind_eq_raise.1 h with h | ⟨_, w₃, -, h⟩
  · exact encodeSymbol_raise_of_symbol (by decide) h
  rcases bind_eq_raise.1 h with h | ⟨_, w₄, -, h⟩
  · exact flushBits_raise h
  · cases h

/-! ### Reading tokens -/

theorem readBits_moved {ibuf : Memory} {count : Nat} {v : Word} {w w' : Work}
    (h : readBits ibuf count w = .done v w') : ReaderMoved count w.ses w'.ses := by
  rcases readBits_cases ibuf count w with ⟨hcount, e⟩ | ⟨-, e⟩ <;> rw [e] at h <;> cases h
  refine ⟨readLoop_frame _ _ _ _, ?_⟩
  cases count with
  | zero => rfl
  | succ count =>
    refine readLoop_pos ibuf _ 0 ?_
    unfold unreadBits at hcount
    unfold readPos
    omega

/-- The walk of DECODE reads one bit for each of the steps it takes, and takes one at least from an internal node. -/
theorem decodeWalk_moved {ibuf : Memory} {left n : Nat} {w w' : Work} {r : Nat × Nat}
    (h : decodeWalk ibuf left n w = .done r w') :
    ReaderMoved (left - r.2) w.ses w'.ses ∧ (Config.nsym ≤ n → r.2 < left) := by
  induction left generalizing n w with
  | zero =>
    unfold decodeWalk at h
    split at h <;> cases h
    rename_i hleaf
    exact ⟨⟨.refl _, rfl⟩, fun hinner => absurd hleaf (Nat.not_lt.2 hinner)⟩
  | succ left ih =>
    unfold decodeWalk at h
    split at h
    · rename_i hleaf
      cases h
      exact ⟨⟨.refl _, by rw [Nat.sub_self]; rfl⟩, fun hinner => absurd hleaf (Nat.not_lt.2 hinner)⟩
    · split at h
      · cases h
      · obtain ⟨b, w₁, hread, hrest⟩ := bind_eq_done.1 h
        have hle := (decodeWalk_frame hrest).2.2.2
        have hmoved := (readBits_moved hread).trans (ih hrest).1
        rw [show 1 + (left - r.2) = left + 1 - r.2 by omega] at hmoved
        exact ⟨hmoved, fun _ => Nat.lt_succ_of_le hle⟩

/-- DECODE that succeeds has read the bits it answers, at least one of them (R156). -/
theorem decodeSymbol_read {ibuf : Memory} {w w' : Work} {r : Nat × Nat} (h : decodeSymbol ibuf w = .done r w') :
    SymbolRead r.1 r.2 w.ses w'.ses ∧ 1 ≤ r.2 := by
  obtain ⟨q, w₁, hwalk, hdone⟩ := bind_eq_done.1 h
  obtain ⟨hmoved, hinner⟩ := decodeWalk_moved hwalk
  cases hdone
  exact ⟨hmoved.symbolRead q.1, Nat.sub_pos_of_lt (hinner (by decide))⟩

theorem fetchToken_read {ibuf : Memory} {w w' : Work} {t : Nat × Option Residual}
    (h : fetchToken ibuf w = .done t w') : ∃ n, SymbolRead t.1 n w.ses w'.ses ∧ 1 ≤ n := by
  obtain ⟨r, w₁, hdecode, hrest⟩ := bind_eq_done.1 h
  obtain ⟨hread, hpos⟩ := decodeSymbol_read hdecode
  split at hrest
  · cases hrest; exact ⟨_, hread, hpos⟩
  · obtain ⟨v, w₂, hbits, hdone⟩ := bind_eq_done.1 hrest
    cases hdone
    exact ⟨_, hread.trans (readBits_moved hbits), Nat.le_add_right_of_le hpos⟩

/-- In a code tree the walk of DECODE comes to a leaf before its steps run out, if it does not run out of bits. -/
theorem decodeWalk_raise_of_isCodeTree {ibuf : Memory} {left n : Nat} {w : Work} {k : Failure}
    (htree : isCodeTree w.ses.nodes) (hn : n < Config.nnode) (hleft : n < left + Config.nsym)
    (h : decodeWalk ibuf left n w = .raise k) : k = .unexpectedEndOfStream := by
  induction left generalizing n w with
  | zero =>
    rw [decodeWalk_leaf ibuf 0 w (by omega)] at h
    cases h
  | succ left ih =>
    by_cases hleaf : n < Config.nsym
    · rw [decodeWalk_leaf ibuf _ w hleaf] at h
      cases h
    · have hnode := Vector.getElem?_eq_getElem (xs := w.ses.nodes) hn
      obtain ⟨hchildl, hchildr⟩ := isCodeTree_children htree (Nat.le_of_not_lt hleaf) hnode
      rw [decodeWalk_inner ibuf left (Nat.le_of_not_lt hleaf) hnode] at h
      rcases bind_eq_raise.1 h with h | ⟨b, w₁, hread, h⟩
      · exact readBits_raise h
      · have hnodes := (readBits_moved hread).nodes
        refine ih (by rw [hnodes]; exact htree) ?_ ?_ h <;> split <;> omega

/-- DECODE cannot give InvalidSymbol in a code tree (R156, R243). -/
theorem decodeSymbol_raise_of_isCodeTree {ibuf : Memory} {w : Work} {k : Failure} (htree : isCodeTree w.ses.nodes)
    (h : decodeSymbol ibuf w = .raise k) : k = .unexpectedEndOfStream := by
  rcases bind_eq_raise.1 h with h | ⟨r, w₁, -, h⟩
  · exact decodeWalk_raise_of_isCodeTree htree (by decide) (by decide) h
  · cases h

theorem fetchToken_raise_of_isCodeTree {ibuf : Memory} {w : Work} {k : Failure} (htree : isCodeTree w.ses.nodes)
    (h : fetchToken ibuf w = .raise k) : k = .unexpectedEndOfStream := by
  rcases bind_eq_raise.1 h with h | ⟨r, w₁, -, h⟩
  · exact decodeSymbol_raise_of_isCodeTree htree h
  · split at h
    · cases h
    · rcases bind_eq_raise.1 h with h | ⟨v, w₂, -, h⟩
      · exact readBits_raise h
      · cases h

/-! ### The header -/

theorem readHeader_raise {ibuf : Memory} {maxLen : Word} {w : Work} {k : Failure}
    (h : readHeader ibuf maxLen w = .raise k) :
    k = .unexpectedEndOfStream ∨ k = .malformedHeader ∨ k = .allocationFailure := by
  rcases bind_eq_raise.1 h with h | ⟨tag, w₁, -, h⟩
  · exact .inl (readBits_raise h)
  split at h
  · cases h; exact .inr (.inl rfl)
  rcases bind_eq_raise.1 h with h | ⟨total, w₂, -, h⟩
  · exact .inl (readBits_raise h)
  split at h
  · cases h; exact .inr (.inl rfl)
  split at h <;> cases h
  exact .inr (.inr rfl)

/-- Past the header SEQ is inside the token loop, over the same input (R215). -/
theorem readHeader_enters {ibuf : Memory} {maxLen : Word} {w w' : Work} (h : readHeader ibuf maxLen w = .done () w') :
    w'.ses.declared.isSome = true ∧ w'.ses.ilen = w.ses.ilen := by
  obtain ⟨tag, w₁, htag, h⟩ := bind_eq_done.1 h
  split at h
  · cases h
  obtain ⟨total, w₂, htotal, h⟩ := bind_eq_done.1 h
  split at h
  · cases h
  split at h <;> cases h
  exact ⟨rfl, (readBits_moved htotal).ilen.trans (readBits_moved htag).ilen⟩

end Sys2Proof.Machine
end

section
/-! SUPPORT. The responses of each command (60_exceptions R243), DECOMPRESS by the turns of its token loop. -/

namespace Sys2Proof.Machine

/-- The outcome is a next state with such a response. -/
def Responds (o : Out) (p : Rsp → Prop) : Prop := ∃ t r, o = .next t ∧ t.resp = some r ∧ p r.rsp

theorem Responds.imp {o : Out} {p q : Rsp → Prop} (h : Responds o p) (hpq : ∀ r, p r → q r) : Responds o q := by
  obtain ⟨t, r, ht, hr, hp⟩ := h
  exact ⟨t, r, ht, hr, hpq _ hp⟩

theorem Responds.of_next {o : Out} {p : Rsp → Prop} (h : Responds o p) {t : State} {r : Response} (ht : o = .next t)
    (hr : t.resp = some r) : p r.rsp := by
  obtain ⟨t', r', ht', hr', hp⟩ := h
  obtain rfl := Host.Outcome.next.inj (ht.symm.trans ht')
  obtain rfl := Option.some.inj (hr.symm.trans hr')
  exact hp

section
variable {p : Rsp → Prop} {s : State}

theorem responds_reject (h : p .rejected) : Responds (.next (reject s)) p := ⟨_, _, rfl, rfl, h⟩

theorem responds_answer {r0 r1 : Word} (h : p .ok) : Responds (.next (answer r0 r1 s)) p := ⟨_, _, rfl, rfl, h⟩

theorem responds_fail {k : Failure} (h : p (.failed k)) : Responds (.next (fail k s)) p := ⟨_, _, rfl, rfl, h⟩

theorem responds_inSession {d : Dir} {run : Work → Out} (hrejected : p .rejected)
    (hrun : ∀ ses, s.session = some ses → Responds (run ⟨ses, s.obuf⟩) p) : Responds (inSession d s run) p := by
  rcases inSession_cases d s run with ⟨ses, hs, -, e⟩ | ⟨-, e⟩ <;> rw [e]
  · exact hrun ses hs
  · exact responds_reject hrejected

theorem responds_settle {α : Type} {r : Res α} {f : α → Work → Word × Word} (hstuck : ∀ x, r ≠ .stuck x) (hok : p .ok)
    (hraise : ∀ k, r = .raise k → p (.failed k)) : Responds (settle (r.bind fun a w => .done (f a w) w) s) p := by
  cases r with
  | done a w => exact ⟨_, _, rfl, rfl, hok⟩
  | raise k => exact responds_fail (hraise k rfl)
  | stuck x => exact absurd rfl (hstuck x)

/-- A unit command of a direction, whose work is one operation. -/
theorem responds_unit {α : Type} {d : Dir} {r : Work → Res α} {f : α → Work → Word × Word} (hrejected : p .rejected)
    (hok : p .ok) (hstuck : ∀ ses, s.session = some ses → ∀ x, r ⟨ses, s.obuf⟩ ≠ .stuck x)
    (hraise : ∀ ses, s.session = some ses → ∀ k, r ⟨ses, s.obuf⟩ = .raise k → p (.failed k)) :
    Responds (inSession d s fun w => settle ((r w).bind fun a w => .done (f a w) w) s) p :=
  responds_inSession hrejected fun ses hs => responds_settle (hstuck ses hs) hok (hraise ses hs)

end

/-! ### DECOMPRESS -/

/-- The responses of DECOMPRESS. -/
def decompressMay (r : Rsp) : Prop := mayAnswer (.decompress 0 0) r = true

/-- What a turn of the token loop leads to: the loop goes on in a session that has moved so, or DECOMPRESS has ended
with one of its responses. -/
inductive TurnTaken (moved : Session → Prop) (u : State) : Prop
  | goesOn (ses : Session) : u.session = some ses → moved ses → TurnTaken moved u
  | ended (r : Response) : u.session = none → u.resp = some r → decompressMay r.rsp → TurnTaken moved u

theorem turnTaken_fail {moved : Session → Prop} {k : Failure} {s : State} (h : decompressMay (.failed k)) :
    TurnTaken moved (fail k s) := .ended _ rfl rfl h

section
variable {s u : State} {ses : Session} (hs : s.session = some ses) (hdec : ses.dir = .dec)

theorem keepGoing_turn {r : Res Unit} (h : keepGoing r s = .next u)
    (hdone : ∀ w, r = .done () w → OnlyOutputMoved ses w.ses) (hraise : ∀ k, r = .raise k → decompressMay (.failed k)) :
    TurnTaken (OnlyOutputMoved ses) u := by
  rcases keepGoing_next h with ⟨w, hr, rfl⟩ | ⟨k, hr, rfl⟩
  · exact .goesOn w.ses rfl (hdone w hr)
  · exact turnTaken_fail (hraise k hr)

include hs hdec

theorem tokenLit_turn {total : Word} (hloop : ses.declared = some total) {b : Byte} (h : tokenLit b s = .next u) :
    TurnTaken (OnlyOutputMoved ses) u := by
  rw [tokenLit, inSession_live hs hdec] at h
  simp only [hloop] at h
  split at h
  · cases h; exact turnTaken_fail rfl
  · exact keepGoing_turn h (fun w hput => (putByte_frame hput).1) fun k hk => by rw [putByte_raise hk]; rfl

theorem tokenMatch_turn {total : Word} (hloop : ses.declared = some total) {len : Nat} {residual : Residual}
    (h : tokenMatch len residual s = .next u) : TurnTaken (OnlyOutputMoved ses) u := by
  rw [tokenMatch, inSession_live hs hdec] at h
  simp only [hloop] at h
  split at h
  · cases h; exact turnTaken_fail rfl
  split at h
  · cases h; exact turnTaken_fail rfl
  · exact keepGoing_turn h (fun w hcopy => (copyLoop_frame (copyMatch_done hcopy)).1) fun k hk => by
      rcases copyMatch_raise hk with rfl | rfl <;> rfl

theorem tokenEos_turn {moved : Session → Prop} {total : Word} (hloop : ses.declared = some total)
    (h : tokenEos s = .next u) : TurnTaken moved u := by
  rw [tokenEos, inSession_live hs hdec] at h
  simp only [hloop] at h
  split at h
  · cases h; exact .ended _ rfl rfl rfl
  · cases h; exact turnTaken_fail rfl

theorem runToken_turn {total : Word} (hloop : ses.declared = some total) {token : Nat × Option Residual}
    (h : runToken token s = .next u) : TurnTaken (OnlyOutputMoved ses) u := by
  unfold runToken at h
  split at h
  · exact tokenLit_turn hs hdec hloop h
  split at h
  · exact tokenEos_turn hs hdec hloop h
  · exact tokenMatch_turn hs hdec hloop h

/-- A turn that goes on has read at least one bit of the same input. -/
theorem tokenStep_turn (htree : isCodeTree ses.nodes) (hloop : ses.declared.isSome = true)
    (h : tokenStep s = .next u) :
    TurnTaken (fun ses' => ses'.declared.isSome = true ∧ ses'.ilen = ses.ilen ∧ readPos ses < readPos ses') u := by
  unfold tokenStep at h
  rw [hs] at h
  dsimp only at h
  split at h
  · rename_i token w hfetch
    obtain ⟨total, htotal⟩ := Option.isSome_iff_exists.1 hloop
    obtain ⟨n, ⟨hframe, hpos⟩, hn⟩ := fetchToken_read hfetch
    have hturn := runToken_turn (s := { s with session := some w.ses, obuf := w.obuf }) rfl
      (by rw [hframe]; exact hdec) (by rw [hframe]; exact htotal) h
    cases hturn with
    | goesOn ses' hs' hmoved =>
      have hpos' : readPos ses' = readPos ses + n := by rw [← hpos, hmoved]; rfl
      refine .goesOn ses' hs' ⟨?_, ?_, by omega⟩
      · rw [hmoved]; dsimp only; rw [hframe]; exact hloop
      · rw [hmoved]; dsimp only; rw [hframe]
    | ended r hnone hr hmay => exact .ended r hnone hr hmay
  · rename_i k hraise
    cases h
    rw [fetchToken_raise_of_isCodeTree htree hraise]
    exact turnTaken_fail rfl
  · cases h

end

theorem tokenLoop_ended {u : State} (h : u.session = none) (turns : Nat) : tokenLoop turns u = .next u := by
  cases turns with
  | zero => rfl
  | succ turns => rw [tokenLoop, State.inTokenLoop, h]; rfl

/-- With more turns than there are unread bits the token loop comes to its end (R231). -/
theorem tokenLoop_responds {turns : Nat} {s t : State} {ses : Session} (h : Decompressing s t)
    (hs : t.session = some ses) (hloop : ses.declared.isSome = true)
    (hturns : 8 * ses.ilen.toNat < readPos ses + turns) : Responds (tokenLoop turns t) decompressMay := by
  induction turns generalizing t ses with
  | zero => exact absurd (h.session ses hs).2.cursor (Nat.not_le.2 hturns)
  | succ turns ih =>
    obtain ⟨hdec, hinv⟩ := h.session ses hs
    obtain ⟨u, hstep⟩ := tokenStep_answers t
    have hin : t.inTokenLoop = true := (inTokenLoop_iff t).2 ⟨ses, hs, hloop⟩
    rw [tokenLoop, if_pos hin, hstep]
    dsimp only
    cases tokenStep_turn hs hdec (isCodeTree_of_modelOk hinv.model) hloop hstep with
    | goesOn ses' hs' hmoved =>
      obtain ⟨hloop', hilen, hlt⟩ := hmoved
      exact ih (tokenStep_decompressing h hstep) hs' hloop' (by rw [hilen]; omega)
    | ended r hnone hr hmay => exact ⟨u, r, tokenLoop_ended hnone turns, hr, hmay⟩

theorem execDecompress_responds (ilen ocap : Word) (s : State) :
    Responds (execDecompress ilen ocap s) decompressMay := by
  unfold execDecompress
  split
  · rename_i w hheader
    obtain ⟨hdec, hinv⟩ := readHeader_done rfl (sessionInv_initSession .dec ilen ocap) rfl hheader
    obtain ⟨hloop, hilen⟩ := readHeader_enters hheader
    refine tokenLoop_responds ((HostSideKept.refl s).decompressing hdec hinv) rfl hloop ?_
    rw [hilen]
    exact Nat.lt_of_lt_of_le (Nat.lt_succ_self _) (Nat.le_add_left _ _)
  · rename_i k hraise
    rcases readHeader_raise hraise with rfl | rfl | rfl <;> exact responds_fail rfl
  · rename_i x hx
    exact absurd hx (readHeader_not_stuck _ _ _ x)

/-! ### COMPRESS -/

theorem execCompress_responds (ilen ocap : Word) (s : State) : Responds (execCompress ilen ocap s)
    fun r => r = .ok ∨ r = .failed .allocationFailure ∨ (r = .failed .inputTooLarge ∧ s.maxInputLen < ilen) := by
  unfold execCompress
  split
  · rename_i hlt
    exact responds_fail (.inr (.inr ⟨rfl, hlt⟩))
  · have hstuck := (compressAll_goesOn s.ibuf (w := freshWork .enc ilen ocap) parentsRise_initModel).not_stuck
    cases hr : compressAll s.ibuf (freshWork .enc ilen ocap) with
    | done n w => exact ⟨_, _, rfl, rfl, .inl rfl⟩
    | raise k => rw [compressAll_raise hr]; exact responds_fail (.inr (.inl rfl))
    | stuck x => exact absurd hr (hstuck x)

/-! ### Every command -/

theorem exec_responds {i : Instr} {s : State} (hi : isCommand i = true) (h : s.Inv) :
    Responds (exec i s) (mayAnswer i · = true) := by
  have hmodel : ∀ ses, s.session = some ses → modelOk ses.nodes := fun ses hs => (h.2.2 ses hs).model
  cases i with
  | nop | inite _ _ | initd _ _ | release => exact ⟨_, _, rfl, rfl, rfl⟩
  | rdreg regno =>
    change Responds (execRdreg regno s) _
    unfold execRdreg
    split
    · exact responds_answer rfl
    · exact responds_reject rfl
  | wrbits value count =>
    change Responds (execWrbits value count s) _
    refine responds_inSession rfl fun ses _ => ?_
    split
    · exact responds_settle (writeBits_not_stuck _ _ _) rfl fun k hk => by rw [writeBits_raise hk]; rfl
    · exact responds_reject rfl
  | flush =>
    exact responds_unit rfl rfl (fun _ _ => flushBits_not_stuck _) fun _ _ k hk => by rw [flushBits_raise hk]; rfl
  | rdbits count =>
    change Responds (execRdbits count s) _
    refine responds_inSession rfl fun ses _ => ?_
    split
    · exact responds_settle (readBits_not_stuck _ _ _) rfl fun k hk => by rw [readBits_raise hk]; rfl
    · exact responds_reject rfl
  | encode sym =>
    refine responds_unit rfl rfl (fun ses hs => ?_) fun _ _ k hk => ?_
    · exact (encodeSymbol_goesOn (w := ⟨ses, s.obuf⟩) (parentsRise_of_modelOk (hmodel ses hs)) _).not_stuck
    · rcases encodeSymbol_raise hk with ⟨-, rfl⟩ | ⟨-, rfl⟩ <;> rfl
  | decode =>
    exact responds_unit rfl rfl (fun _ _ => decodeSymbol_not_stuck _ _) fun ses hs k hk => by
      rw [decodeSymbol_raise_of_isCodeTree (isCodeTree_of_modelOk (hmodel ses hs)) hk]; rfl
  | findmatch =>
    change Responds (execFindmatch s) _
    exact responds_inSession rfl fun _ _ => responds_answer rfl
  | advance n =>
    change Responds (execAdvance n s) _
    refine responds_inSession rfl fun ses _ => ?_
    split
    · exact ⟨_, _, rfl, rfl, rfl⟩
    · exact responds_reject rfl
  | putlit byte =>
    exact responds_unit rfl rfl (fun _ _ => putByte_not_stuck _ _) fun _ _ k hk => by rw [putByte_raise hk]; rfl
  | copy dist len =>
    refine responds_unit rfl rfl (fun _ _ => copyMatch_not_stuck _ _ _) fun _ _ k hk => ?_
    rcases copyMatch_raise hk with rfl | rfl <;> rfl
  | compress ilen ocap =>
    refine (execCompress_responds ilen ocap s).imp fun r hr => ?_
    rcases hr with rfl | rfl | ⟨rfl, -⟩ <;> rfl
  | decompress ilen ocap => exact execDecompress_responds ilen ocap s
  | _ => cases hi

theorem mayAnswer_inputTooLarge {i : Instr} (hi : isCommand i = true)
    (h : mayAnswer i (.failed .inputTooLarge) = true) : ∃ ilen ocap, i = .compress ilen ocap := by
  cases i with
  | compress ilen ocap => exact ⟨ilen, ocap, rfl⟩
  | nop | inite _ _ | initd _ _ | release | rdreg _ | wrbits _ _ | flush | rdbits _ | encode _ | decode | findmatch
  | advance _ | putlit _ | copy _ _ | decompress _ _ => cases h
  | _ => cases hi

/-- No input is longer than 2^32 - 1, so InputTooLarge needs a smaller MAX_INPUT_LEN (R243). -/
theorem maxInputLen_of_inputTooLarge {i : Instr} {s t : State} {r : Response} (hi : isCommand i = true)
    (hmay : mayAnswer i r.rsp = true) (hexec : exec i s = .next t) (hr : t.resp = some r)
    (hlarge : r.rsp = .failed .inputTooLarge) : s.maxInputLen < 0xFFFFFFFF := by
  rw [hlarge] at hmay
  obtain ⟨ilen, ocap, rfl⟩ := mayAnswer_inputTooLarge hi hmay
  have hwhy := (execCompress_responds ilen ocap s).of_next hexec hr
  rw [hlarge] at hwhy
  obtain h | h | ⟨-, hlt⟩ := hwhy
  · cases h
  · cases h
  · bv_omega

/-! ### The response record -/

theorem responseRecord_rsp (r : Response) : (responseRecord r).extractLsb' 64 4 = rspCode r.rsp := by
  unfold responseRecord
  rw [BitVec.extractLsb'_append_eq_of_le (by decide)]
  exact BitVec.extractLsb'_append_eq_left

theorem responseRecord_r0 (r : Response) : (responseRecord r).extractLsb' 32 32 = r.r0 := by
  unfold responseRecord
  rw [BitVec.extractLsb'_append_eq_of_le (by decide)]
  exact BitVec.extractLsb'_append_eq_right

theorem responseRecord_r1 (r : Response) : (responseRecord r).extractLsb' 0 32 = r.r1 :=
  BitVec.extractLsb'_append_eq_right

theorem rspCode_cases (r : Rsp) : (rspCode r).toNat ≤ 6 ∨ rspCode r = 15 := by
  cases r with
  | ok | rejected => decide
  | failed k => cases k <;> decide

end Sys2Proof.Machine
end

section
open Sys2Proof
open Sys2Proof.Machine

/-- Settles O55: each operation raises its own failures only, InvalidSymbol none in a code tree, and the token loop of
DECOMPRESS ends because every turn reads a bit. -/
theorem responsesByCommand : Obligations.ResponsesByCommand := by
  refine ⟨fun r => ?_, rfl, rfl, rfl, rfl, rfl, rfl, rfl, rfl, fun i s hi h => ?_⟩
  · exact ⟨responseRecord_rsp r, responseRecord_r0 r, responseRecord_r1 r⟩
  · obtain ⟨t, r, hexec, hr, hmay⟩ := exec_responds hi h
    refine ⟨t, r, hexec, hr, hmay, maxInputLen_of_inputTooLarge hi hmay hexec hr, ?_⟩
    rw [responseRecord_rsp]
    exact rspCode_cases r.rsp

end

section
/-! SUPPORT. The stream that the writers put out (10_state R27, 40_bitstream R130, R131): a bit placed, a byte emitted,
and a list of bits written one after the other, with the room it needs. -/

namespace Sys2Proof.Machine

/-! ### Bytes and their bits -/

/-- The n leading bits of a byte, most significant first (20_memory R60). -/
def leadingBits (v : Byte) (n : Nat) : List Bool := (List.range n).map fun i => v.getLsbD (7 - i)

/-- The bits of the bytes OBUF[0 .. n-1] (R27). -/
def storedBits (obuf : Memory) (n : Nat) : List Bool :=
  (List.range (8 * n)).map fun p => ((memLookup obuf (p / 8)).getD 0).getLsbD (7 - p % 8)

theorem writtenBits_eq (ses : Session) (obuf : Memory) :
    writtenBits ses obuf = storedBits obuf ses.olen.toNat ++ leadingBits ses.wacc ses.wnb.toNat := rfl

@[simp] theorem leadingBits_length (v : Byte) (n : Nat) : (leadingBits v n).length = n := by simp [leadingBits]

theorem storedBits_memWrite (obuf : Memory) (n : Nat) (v : Byte) :
    storedBits (memWrite obuf n v) (n + 1) = storedBits obuf n ++ leadingBits v 8 := by
  unfold storedBits leadingBits
  rw [Nat.mul_succ, List.range_add, List.map_append, List.map_map]
  congr 1
  · refine List.map_congr_left fun p hp => ?_
    have hlt := List.mem_range.1 hp
    rw [memLookup_memWrite_other obuf v (show p / 8 ≠ n by omega)]
  · refine List.map_congr_left fun i hi => ?_
    have hlt := List.mem_range.1 hi
    rw [Function.comp, show (8 * n + i) / 8 = n by omega, show (8 * n + i) % 8 = i by omega, memLookup_memWrite_same]
    rfl

/-- Padding: where the unplaced bits are clear, the byte is its placed bits and zeros (R26, R132). -/
theorem leadingBits_of_clear {v : Byte} {n : Nat} (hn : n ≤ 8) (h : ∀ i, i < 8 - n → v.getLsbD i = false) :
    leadingBits v 8 = leadingBits v n ++ List.replicate (8 - n) false := by
  have hsplit : leadingBits v (n + (8 - n)) = leadingBits v n ++ List.replicate (8 - n) false := by
    rw [leadingBits, List.range_add, List.map_append, List.map_map]
    have hpad : ∀ i ∈ List.range (8 - n), v.getLsbD (7 - (n + i)) = false := fun i hi =>
      h _ (by have hlt := List.mem_range.1 hi; omega)
    refine congrArg (leadingBits v n ++ ·) ((List.map_eq_replicate_iff.2 hpad).trans ?_)
    rw [List.length_range]
  rwa [Nat.add_sub_cancel' hn] at hsplit

/-- WACC with a bit placed at position 7 - WNB (R131). -/
def placedBit (b : Bool) (ses : Session) : Byte :=
  ses.wacc ||| ((BitVec.ofBool b).setWidth 8 <<< (7 - ses.wnb.toNat))

theorem getLsbD_placedBit (b : Bool) (ses : Session) {i : Nat} (hi : i ≤ ses.wnb.toNat) :
    (placedBit b ses).getLsbD (7 - i) = (ses.wacc.getLsbD (7 - i) || (decide (i = ses.wnb.toNat) && b)) := by
  have hnb := ses.wnb.isLt
  unfold placedBit
  rw [BitVec.getLsbD_or, BitVec.getLsbD_shiftLeft, BitVec.getLsbD_setWidth, BitVec.getLsbD_ofBool]
  congr 1
  by_cases h : i = ses.wnb.toNat
  · subst h
    simp
    omega
  · simp [h]
    omega

theorem leadingBits_placedBit (b : Bool) {ses : Session} (h : unplacedClear ses) :
    leadingBits (placedBit b ses) (ses.wnb.toNat + 1) = leadingBits ses.wacc ses.wnb.toNat ++ [b] := by
  rw [leadingBits, List.range_succ, List.map_append, List.map_singleton, getLsbD_placedBit b ses (Nat.le_refl _),
    h _ (by omega), decide_eq_true rfl, Bool.true_and, Bool.false_or]
  refine congrArg (· ++ [b]) (List.map_congr_left fun i hi => ?_)
  have hlt := List.mem_range.1 hi
  rw [getLsbD_placedBit b ses hlt.le, decide_eq_false hlt.ne, Bool.false_and, Bool.or_false]

/-! ### The stream grows -/

theorem writePos_lt_add_eight (ses : Session) : writePos ses < 8 * ses.olen.toNat + 8 :=
  Nat.add_lt_add_left ses.wnb.isLt _

/-- OLEN does not fall where the write cursor does not. -/
theorem olen_le_of_writePos_le {ses ses' : Session} (h : writePos ses ≤ writePos ses') :
    ses.olen.toNat ≤ ses'.olen.toNat := by
  have hlt := writePos_lt_add_eight ses'
  unfold writePos at h
  omega

theorem bitsAppended_nil {ses : Session} (obuf : Memory) (h : unplacedClear ses) : bitsAppended ses obuf [] ses obuf :=
  ⟨(List.append_nil _).symm, rfl, h, unchangedOutside_refl _ _ _⟩

theorem unplacedClear_of_bitsAppended {ses ses' : Session} {obuf obuf' : Memory} {bits : List Bool}
    (h : bitsAppended ses obuf bits ses' obuf') : unplacedClear ses' := h.2.2.1

theorem bitsAppended_append {a b c : Session} {m₀ m₁ m₂ : Memory} {xs ys : List Bool}
    (h : bitsAppended a m₀ xs b m₁) (h' : bitsAppended b m₁ ys c m₂) : bitsAppended a m₀ (xs ++ ys) c m₂ := by
  obtain ⟨hbits, hpos, -, houtside⟩ := h
  obtain ⟨hbits', hpos', hclear, houtside'⟩ := h'
  refine ⟨by rw [hbits', hbits, List.append_assoc], by rw [hpos', hpos, List.length_append, Nat.add_assoc], hclear,
    houtside.trans houtside' (olen_le_of_writePos_le ?_) (olen_le_of_writePos_le ?_)⟩ <;> omega

/-- The session after EmitByte (R130). -/
def emitted (ses : Session) : Session := { ses with olen := ses.olen + 1, wacc := 0, wnb := 0 }

theorem writePos_emitted {ses : Session} (h : ses.olen < ses.ocap) :
    writePos (emitted ses) = 8 * (ses.olen.toNat + 1) := by
  change 8 * (ses.olen + 1).toNat + 0 = _
  rw [toNat_succ_of_lt h, Nat.add_zero]

/-- Emitting a byte that begins with the placed bits of WACC appends the rest of it (R130). -/
theorem bitsAppended_emitted {ses : Session} {v : Byte} {bits : List Bool} (obuf : Memory)
    (hroom : ses.olen < ses.ocap) (hv : leadingBits v 8 = leadingBits ses.wacc ses.wnb.toNat ++ bits) :
    bitsAppended ses obuf bits (emitted ses) (memWrite obuf ses.olen.toNat v) := by
  have holen : (emitted ses).olen.toNat = ses.olen.toNat + 1 := toNat_succ_of_lt hroom
  have hlen := congrArg List.length hv
  rw [List.length_append, leadingBits_length, leadingBits_length] at hlen
  refine ⟨?_, ?_, fun i _ => by simp [emitted], ?_⟩
  · rw [writtenBits_eq, writtenBits_eq, holen, storedBits_memWrite, hv, ← List.append_assoc]
    exact List.append_nil _
  · rw [writePos_emitted hroom, writePos]
    omega
  · rw [holen]
    exact unchangedOutside_memWrite _ _ _

/-! ### Room -/

/-- The room for bits written in two parts: room for the first, and after them for the second. -/
theorem bitRoom_add {ses ses' : Session} {m : Nat} (n : Nat) (hpos : writePos ses' = writePos ses + m)
    (hocap : ses'.ocap = ses.ocap) : bitRoom ses (m + n) ↔ bitRoom ses m ∧ bitRoom ses' n := by
  have hnb := ses.wnb.isLt
  have hnb' := ses'.wnb.isLt
  unfold writePos at hpos
  unfold bitRoom
  rw [hocap]
  omega

theorem bitRoom_of_le {ses : Session} {m n : Nat} (hle : m ≤ n) (h : bitRoom ses n) : bitRoom ses m := by
  unfold bitRoom at h ⊢
  omega

theorem bitRoom_one (ses : Session) : bitRoom ses 1 ↔ (ses.wnb.toNat + 1 = 8 → ses.olen < ses.ocap) := by
  have hnb := ses.wnb.isLt
  unfold bitRoom
  rw [BitVec.lt_def]
  omega

/-! ### One bit -/

/-- WACC takes a bit that does not fill it (R131). -/
theorem writeBit_places {b : Bool} {w : Work} (h : w.ses.wnb.toNat + 1 ≠ 8) :
    writeBit b w = .done () { w with ses := { w.ses with wacc := placedBit b w.ses, wnb := w.ses.wnb + 1 } } :=
  if_neg h

/-- The eighth bit emits the byte (R131). -/
theorem writeBit_emits {b : Bool} {w : Work} (h : w.ses.wnb.toNat + 1 = 8) (hroom : w.ses.olen < w.ses.ocap) :
    writeBit b w = .done () ⟨emitted w.ses, memWrite w.obuf w.ses.olen.toNat (placedBit b w.ses)⟩ :=
  (if_pos h).trans (emitByte_room hroom)

theorem writeBit_full {b : Bool} {w : Work} (h : ¬ bitRoom w.ses 1) : writeBit b w = .raise .allocationFailure := by
  rw [bitRoom_one] at h
  obtain ⟨hnb, hfull⟩ := Classical.not_imp.1 h
  exact (if_pos hnb).trans (emitByte_full (BitVec.not_lt.1 hfull))

/-- Every case of writing a bit that succeeds: it is placed in WACC, or it fills a byte, which is emitted (R131). -/
theorem writeBit_done_cases {b : Bool} {w w' : Work} (h : writeBit b w = .done () w') :
    (w.ses.wnb.toNat + 1 ≠ 8 ∧ w' = { w with ses := { w.ses with wacc := placedBit b w.ses, wnb := w.ses.wnb + 1 } }) ∨
    (w.ses.wnb.toNat + 1 = 8 ∧ w.ses.olen < w.ses.ocap ∧
      w' = ⟨emitted w.ses, memWrite w.obuf w.ses.olen.toNat (placedBit b w.ses)⟩) := by
  by_cases hnb : w.ses.wnb.toNat + 1 = 8
  · by_cases hroom : w.ses.olen < w.ses.ocap
    · rw [writeBit_emits hnb hroom] at h
      cases h
      exact .inr ⟨hnb, hroom, rfl⟩
    · rw [writeBit_full (by rw [bitRoom_one]; exact fun hr => hroom (hr hnb))] at h
      cases h
  · rw [writeBit_places hnb] at h
    cases h
    exact .inl ⟨hnb, rfl⟩

theorem writeBit_room {b : Bool} {w : Work} (h : bitRoom w.ses 1) : ∃ w', writeBit b w = .done () w' := by
  by_cases hnb : w.ses.wnb.toNat + 1 = 8
  · exact ⟨_, writeBit_emits hnb ((bitRoom_one _).1 h hnb)⟩
  · exact ⟨_, writeBit_places hnb⟩

theorem toNat_wnb_succ {ses : Session} (h : ses.wnb.toNat + 1 ≠ 8) : (ses.wnb + 1).toNat = ses.wnb.toNat + 1 := by
  bv_omega

theorem writeBit_pos {b : Bool} {w w' : Work} (h : writeBit b w = .done () w') :
    writePos w'.ses = writePos w.ses + 1 := by
  obtain ⟨hnb, rfl⟩ | ⟨hnb, hroom, rfl⟩ := writeBit_done_cases h
  · change 8 * w.ses.olen.toNat + (w.ses.wnb + 1).toNat = _
    rw [toNat_wnb_succ hnb]
    rfl
  · rw [writePos_emitted hroom, writePos]
    omega

theorem writeBit_appends {b : Bool} {w w' : Work} (h : writeBit b w = .done () w') (hclear : unplacedClear w.ses) :
    bitsAppended w.ses w.obuf [b] w'.ses w'.obuf := by
  have hpos := writeBit_pos h
  have hplaced := leadingBits_placedBit b hclear
  obtain ⟨hnb, rfl⟩ | ⟨hnb, hroom, rfl⟩ := writeBit_done_cases h
  · refine ⟨?_, hpos, placed_clear b hclear hnb, unchangedOutside_refl _ _ _⟩
    rw [writtenBits_eq, writtenBits_eq]
    dsimp only
    rw [toNat_wnb_succ hnb, hplaced, List.append_assoc]
  · rw [hnb] at hplaced
    exact bitsAppended_emitted w.obuf hroom hplaced

/-! ### A list of bits -/

/-- WRBITS writes the count low bits of its value as ENCODE writes the bits of a code (R131, 41_huffman R155). -/
theorem writeBits_eq_writeCode (n : Nat) (v : Word) (w : Work) : writeBits n v w = writeCode (lowBits n v) w := by
  induction n generalizing w with
  | zero => rfl
  | succ n ih =>
    rw [lowBits_succ, writeBits, writeCode]
    exact congrArg _ (funext fun _ => funext ih)

theorem writeBit_ocap {b : Bool} {w w' : Work} (h : writeBit b w = .done () w') : w'.ses.ocap = w.ses.ocap := by
  rw [(writeBit_done h).1]

theorem writeCode_room {bits : List Bool} {w : Work} (h : bitRoom w.ses bits.length) :
    ∃ w', writeCode bits w = .done () w' := by
  induction bits generalizing w with
  | nil => exact ⟨w, rfl⟩
  | cons b bits ih =>
    rw [List.length_cons, Nat.add_comm] at h
    obtain ⟨w₁, hbit⟩ := writeBit_room (b := b) (w := w) (bitRoom_of_le (Nat.le_add_right _ _) h)
    obtain ⟨w', hrest⟩ := ih ((bitRoom_add _ (writeBit_pos hbit) (writeBit_ocap hbit)).1 h).2
    exact ⟨w', by rw [writeCode, hbit, bind_done, hrest]⟩

theorem writeCode_full {bits : List Bool} {w : Work} (h : ¬ bitRoom w.ses bits.length) :
    writeCode bits w = .raise .allocationFailure := by
  induction bits generalizing w with
  | nil => exact absurd (.inl (Nat.div_eq_of_lt w.ses.wnb.isLt)) h
  | cons b bits ih =>
    rw [List.length_cons, Nat.add_comm] at h
    rw [writeCode]
    by_cases hroom : bitRoom w.ses 1
    · obtain ⟨w₁, hbit⟩ := writeBit_room (b := b) hroom
      rw [hbit, bind_done]
      exact ih fun hrest => h ((bitRoom_add _ (writeBit_pos hbit) (writeBit_ocap hbit)).2 ⟨hroom, hrest⟩)
    · rw [writeBit_full hroom, bind_raise]

theorem writeCode_pos {bits : List Bool} {w w' : Work} (h : writeCode bits w = .done () w') :
    writePos w'.ses = writePos w.ses + bits.length := by
  induction bits generalizing w with
  | nil => cases h; rfl
  | cons b bits ih =>
    obtain ⟨_, w₁, hbit, hrest⟩ := bind_eq_done.1 h
    rw [ih hrest, writeBit_pos hbit, List.length_cons, Nat.add_assoc, Nat.add_comm 1]

theorem writeCode_appends {bits : List Bool} {w w' : Work} (h : writeCode bits w = .done () w')
    (hclear : unplacedClear w.ses) : bitsAppended w.ses w.obuf bits w'.ses w'.obuf := by
  induction bits generalizing w with
  | nil => cases h; exact bitsAppended_nil _ hclear
  | cons b bits ih =>
    obtain ⟨_, w₁, hbit, hrest⟩ := bind_eq_done.1 h
    have hone := writeBit_appends hbit hclear
    exact bitsAppended_append hone (ih hrest (unplacedClear_of_bitsAppended hone))

/-! ### FLUSH -/

/-- FLUSH of a partial byte with room (R132). -/
theorem flushBits_emits {w : Work} (h : w.ses.wnb ≠ 0) (hroom : w.ses.olen < w.ses.ocap) :
    flushBits w = .done () ⟨emitted w.ses, memWrite w.obuf w.ses.olen.toNat w.ses.wacc⟩ := by
  obtain ⟨hzero, -⟩ | ⟨-, e⟩ := flushBits_cases w
  · exact absurd hzero h
  · exact e.trans (emitByte_room hroom)

theorem flushBits_full {w : Work} (h : w.ses.wnb ≠ 0) (hfull : w.ses.ocap ≤ w.ses.olen) :
    flushBits w = .raise .allocationFailure := by
  obtain ⟨hzero, -⟩ | ⟨-, e⟩ := flushBits_cases w
  · exact absurd hzero h
  · exact e.trans (emitByte_full hfull)

theorem flushBits_aligned {w : Work} (h : w.ses.wnb = 0) : flushBits w = .done () w := by
  obtain ⟨-, e⟩ | ⟨hne, -⟩ := flushBits_cases w
  · exact e
  · exact absurd h hne

/-- A flushed partial byte has its placed bits and then zeros (R132). -/
theorem bitsAppended_padding {ses : Session} (obuf : Memory) (hroom : ses.olen < ses.ocap)
    (hclear : unplacedClear ses) : bitsAppended ses obuf (List.replicate (8 - ses.wnb.toNat) false) (emitted ses)
      (memWrite obuf ses.olen.toNat ses.wacc) :=
  bitsAppended_emitted obuf hroom (leadingBits_of_clear ses.wnb.isLt.le hclear)

end Sys2Proof.Machine
end

section
/-! SUPPORT. The commands of BSU, WRBITS, FLUSH and RDBITS, in a session of their direction (40_bitstream R131 to
R133). -/

namespace Sys2Proof.Machine

theorem isIn_eq_false_of_lacks {d : Dir} {s : State} (h : s.lacks d) : s.isIn d = false := by
  unfold State.isIn
  split
  · rename_i ses hs
    exact decide_eq_false (h ses hs)
  · rfl

/-- An operation that leaves the session and OBUF as they are only answers. -/
theorem settle_same {s : State} {ses : Session} (hs : s.session = some ses) (out : Word × Word) :
    settle (.done out ⟨ses, s.obuf⟩) s = .next { s with resp := some ⟨.ok, out.1, out.2⟩ } := by
  rw [settle, ← hs]

theorem okResponse_toNat (v : Word) : okResponse v.toNat 0 = some ⟨.ok, v, 0⟩ := by
  rw [okResponse, BitVec.ofNat_toNat, BitVec.setWidth_eq]
  rfl

/-- A command of a direction that takes a bit count is Rejected outside the direction and above 32 bits (R131, R133). -/
theorem exec_rejects_count {i : Instr} {d : Dir} {s : State} {count : Word}
    (hi : accepted i s = (s.isIn d && isBitCount count.toNat)) (h : s.lacks d ∨ 32 < count.toNat) :
    exec i s = .next (reject s) := by
  refine exec_rejects (hi.trans (Bool.and_eq_false_iff.2 (h.imp isIn_eq_false_of_lacks fun hlt => ?_)))
  exact decide_eq_false (Nat.not_le.2 hlt)

section
variable {s : State} {ses : Session} {count : Word}

theorem exec_wrbits_eq (value : Word) (h : s.encSession ses) (hcount : count.toNat ≤ 32) :
    exec (.wrbits value count) s =
      settle ((writeCode (lowBits count.toNat value) ⟨ses, s.obuf⟩).bind fun _ w => .done (0, 0) w) s := by
  rw [← writeBits_eq_writeCode, exec, execWrbits, inSession_live h.1 h.2]
  exact if_pos (decide_eq_true hcount)

theorem exec_flush_eq (h : s.encSession ses) :
    exec .flush s = settle ((flushBits ⟨ses, s.obuf⟩).bind fun _ w => .done (w.ses.olen, 0) w) s := by
  rw [exec, execFlush, inSession_live h.1 h.2]

theorem exec_rdbits_eq (h : s.decSession ses) (hcount : count.toNat ≤ 32) :
    exec (.rdbits count) s = settle ((readBits s.ibuf count.toNat ⟨ses, s.obuf⟩).bind fun v w => .done (v, 0) w) s := by
  rw [exec, execRdbits, inSession_live h.1 h.2]
  exact if_pos (decide_eq_true hcount)

/-- WRBITS with room (R131). -/
theorem exec_wrbits_appends (value : Word) (h : s.encSession ses) (hclear : unplacedClear ses)
    (hcount : count.toNat ≤ 32) (hroom : bitRoom ses count.toNat) :
    ∃ ses' obuf', exec (.wrbits value count) s =
        .next { s with session := some ses', obuf := obuf', resp := okResponse 0 0 } ∧
      bitsAppended ses s.obuf (lowBits count.toNat value) ses' obuf' ∧ OnlyWriterMoved ses ses' := by
  rw [exec_wrbits_eq value h hcount]
  obtain ⟨w, hw⟩ := writeCode_room (bits := lowBits count.toNat value) (w := ⟨ses, s.obuf⟩)
    (by rw [lowBits_length]; exact hroom)
  have happended := writeCode_appends hw hclear
  exact ⟨w.ses, w.obuf, by rw [hw]; rfl, happended, (writeCode_frame hw).1⟩

theorem exec_wrbits_full (value : Word) (h : s.encSession ses) (hcount : count.toNat ≤ 32)
    (hroom : ¬ bitRoom ses count.toNat) : exec (.wrbits value count) s = .next (fail .allocationFailure s) := by
  rw [exec_wrbits_eq value h hcount, writeCode_full (by rw [lowBits_length]; exact hroom)]
  rfl

theorem exec_flush_aligned (h : s.encSession ses) (hnb : ses.wnb = 0) :
    exec .flush s = .next { s with resp := okResponse ses.olen.toNat 0 } := by
  rw [exec_flush_eq h, flushBits_aligned (w := ⟨ses, s.obuf⟩) hnb, bind_done, settle_same h.1, okResponse_toNat]

theorem exec_flush_emits (h : s.encSession ses) (hnb : ses.wnb ≠ 0) (hroom : ses.olen < ses.ocap) :
    exec .flush s = .next { s with
      session := some (emitted ses), obuf := memWrite s.obuf ses.olen.toNat ses.wacc,
      resp := okResponse (ses.olen.toNat + 1) 0 } := by
  rw [exec_flush_eq h, flushBits_emits (w := ⟨ses, s.obuf⟩) hnb hroom, ← toNat_succ_of_lt hroom, okResponse_toNat]
  rfl

theorem exec_flush_full (h : s.encSession ses) (hnb : ses.wnb ≠ 0) (hfull : ses.ocap ≤ ses.olen) :
    exec .flush s = .next (fail .allocationFailure s) := by
  rw [exec_flush_eq h, flushBits_full (w := ⟨ses, s.obuf⟩) hnb hfull]
  rfl

/-- RDBITS where its bits are there (R133). -/
theorem exec_rdbits_reads (h : s.decSession ses) (hcount : count.toNat ≤ 32)
    (hroom : readPos ses + count.toNat ≤ 8 * ses.ilen.toNat) :
    ∃ ses', exec (.rdbits count) s = .next { s with
        session := some ses', resp := okResponse (bitsToNat (ibufBits s.ibuf (readPos ses) count.toNat)) 0 } ∧
      ReaderMoved count.toNat ses ses' := by
  obtain ⟨ses', hread, hmoved⟩ := readBits_reads (ibuf := s.ibuf) (w := ⟨ses, s.obuf⟩) hroom
  exact ⟨ses', by rw [exec_rdbits_eq h hcount, hread]; rfl, hmoved⟩

/-- A request for no bits needs none (R133). -/
theorem exec_rdbits_zero (h : s.decSession ses) : exec (.rdbits 0) s = .next { s with resp := okResponse 0 0 } :=
  (exec_rdbits_eq h (Nat.zero_le _)).trans (settle_same h.1 (0, 0))

/-- A request that cannot be met in full (R133). -/
theorem exec_rdbits_short (h : s.decSession ses) (hcount : count.toNat ≤ 32) (hpos : 0 < count.toNat)
    (hshort : 8 * ses.ilen.toNat < readPos ses + count.toNat) :
    exec (.rdbits count) s = .next (fail .unexpectedEndOfStream s) := by
  rw [exec_rdbits_eq h hcount]
  obtain ⟨hunread, -⟩ | ⟨-, e⟩ := readBits_cases s.ibuf count.toNat ⟨ses, s.obuf⟩
  · unfold unreadBits at hunread
    unfold readPos at hshort
    dsimp only at hunread
    omega
  · rw [e]
    rfl

end

end Sys2Proof.Machine
end

section
open Sys2Proof
open Sys2Proof.Machine

/-- Settles O16: WRBITS writes its bits one after the other, and each byte they fill needs room. -/
theorem wrbitsAppendsBits : Obligations.WrbitsAppendsBits := fun _ value _ =>
  ⟨exec_rejects_count rfl, fun _ henc hclear hcount hroom => exec_wrbits_appends value henc hclear hcount hroom,
    fun _ henc hcount hfull => exec_wrbits_full value henc hcount hfull⟩

/-- Settles O17: FLUSH emits a partial byte, whose unplaced bits are the padding. -/
theorem flushPadsWithZeros : Obligations.FlushPadsWithZeros := fun s =>
  ⟨fun hlacks => exec_rejects (isIn_eq_false_of_lacks hlacks), fun _ henc hnb => exec_flush_aligned henc hnb,
    fun _ henc hclear hnb hroom => ⟨_, exec_flush_emits henc hnb hroom, bitsAppended_padding s.obuf hroom hclear⟩,
    fun _ henc hnb hfull => exec_flush_full henc hnb hfull⟩

/-- Settles O18: RDBITS tests the unread bits before it reads any. -/
theorem rdbitsReturnsBits : Obligations.RdbitsReturnsBits := by
  refine fun s count => ⟨exec_rejects_count rfl, fun ses hdec hcount hroom => ?_, fun ses hdec hzero => ?_,
    fun ses hdec hcount hpos hshort => exec_rdbits_short hdec hcount hpos hshort⟩
  · obtain ⟨ses', hexec, hmoved⟩ := exec_rdbits_reads hdec hcount hroom
    exact ⟨ses', hexec, hmoved.pos, hmoved.frame⟩
  · rw [hzero]
    exact exec_rdbits_zero hdec

end

section
/-! SUPPORT. Fields written one after the other in an ENC session and read back in a DEC session over the bytes written
(40_bitstream R134). -/

namespace Sys2Proof.Machine

/-! ### Runs of commands -/

theorem runAll_cons {i : Instr} {rest : List Instr} {s t u : State} {outs : List (Option Response)}
    (h : exec i s = .next t) (hrest : runAll rest t = some (u, outs)) :
    runAll (i :: rest) s = some (u, t.resp :: outs) := by
  rw [runAll, h]
  dsimp only
  rw [hrest]
  rfl

theorem runAll_append {is js : List Instr} {s t u : State} {outs outs' : List (Option Response)}
    (h : runAll is s = some (t, outs)) (h' : runAll js t = some (u, outs')) :
    runAll (is ++ js) s = some (u, outs ++ outs') := by
  induction is generalizing s outs with
  | nil => cases h; exact h'
  | cons i is ih =>
    rw [runAll] at h
    split at h
    · rename_i s₁ hexec
      obtain ⟨⟨t₁, outs₁⟩, hrun, e⟩ := Option.map_eq_some_iff.1 h
      cases e
      exact runAll_cons hexec (ih hrun)
    · cases h
    · cases h

/-! ### Writing -/

/-- An ENC session of this capacity is open, and exactly these bits have been written in it (10_state R26, R27). -/
def State.wroteStream (s : State) (ocap : Word) (bits : List Bool) : Prop :=
  ∃ ses, s.encSession ses ∧ ses.ocap = ocap ∧ writtenBits ses s.obuf = bits ∧ unplacedClear ses

/-- The write cursor is the length of the stream (R27). -/
theorem writtenBits_length (ses : Session) (obuf : Memory) : (writtenBits ses obuf).length = writePos ses := by
  rw [writtenBits_eq, List.length_append, leadingBits_length, storedBits, List.length_map, List.length_range, writePos]

/-- Bits up to the byte boundary (R132). -/
def zeroPadding (n : Nat) : List Bool := List.replicate (8 * ((n + 7) / 8) - n) false

theorem zeroPadding_writePos (ses : Session) :
    zeroPadding (writePos ses) = List.replicate ((8 - ses.wnb.toNat) % 8) false := by
  have hnb := ses.wnb.isLt
  rw [zeroPadding, writePos]
  congr 1
  omega

/-- The bits of a list of fields, each the count low bits of its value. -/
def fieldBits (fields : List (Word × Word)) : List Bool := fields.flatMap fun f => lowBits f.2.toNat f.1

theorem fieldBits_length (fields : List (Word × Word)) :
    (fieldBits fields).length = (fields.map fun f => f.2.toNat).sum := by
  simp [fieldBits, List.length_flatMap]

theorem fieldBits_cons (f : Word × Word) (fields : List (Word × Word)) :
    fieldBits (f :: fields) = lowBits f.2.toNat f.1 ++ fieldBits fields := List.flatMap_cons

theorem exec_inite_wroteStream (ilen ocap : Word) (s : State) :
    ∃ t, exec (.inite ilen ocap) s = .next t ∧ t.wroteStream ocap [] :=
  ⟨_, rfl, initSession .enc ilen ocap, ⟨rfl, rfl⟩, rfl, rfl, (sessionInv_initSession .enc ilen ocap).accumulator⟩

section
variable {s : State} {ocap : Word} {bits : List Bool} (h : s.wroteStream ocap bits)
include h

theorem exec_wrbits_wroteStream (value : Word) {count : Word} (hcount : count.toNat ≤ 32)
    (hroom : (bits.length + count.toNat) / 8 ≤ ocap.toNat) :
    ∃ t, exec (.wrbits value count) s = .next t ∧ t.wroteStream ocap (bits ++ lowBits count.toNat value) := by
  obtain ⟨ses, henc, rfl, rfl, hclear⟩ := h
  have hbitRoom : bitRoom ses count.toNat := by
    rw [writtenBits_length, writePos] at hroom
    unfold bitRoom
    omega
  obtain ⟨ses', obuf', hexec, ⟨hbits, -, hclear', -⟩, hframe⟩ :=
    exec_wrbits_appends value henc hclear hcount hbitRoom
  exact ⟨_, hexec, ses', ⟨rfl, by rw [hframe]; exact henc.2⟩, by rw [hframe], hbits, hclear'⟩

theorem exec_flush_wroteStream (hroom : (bits.length + 7) / 8 ≤ ocap.toNat) :
    ∃ t, exec .flush s = .next t ∧ t.wroteStream ocap (bits ++ zeroPadding bits.length) := by
  obtain ⟨ses, henc, rfl, rfl, hclear⟩ := h
  rw [writtenBits_length] at hroom ⊢
  rw [zeroPadding_writePos]
  by_cases haligned : ses.wnb = 0
  · refine ⟨_, exec_flush_aligned henc haligned, ses, henc, rfl, ?_, hclear⟩
    rw [haligned]
    exact (List.append_nil _).symm
  · have hne : ses.wnb.toNat ≠ 0 := fun e => haligned (BitVec.eq_of_toNat_eq e)
    have hlt : ses.olen < ses.ocap := by rw [writePos] at hroom; rw [BitVec.lt_def]; omega
    obtain ⟨hbits, -, hclear', -⟩ := bitsAppended_padding s.obuf hlt hclear
    refine ⟨_, exec_flush_emits henc haligned hlt, emitted ses, ⟨rfl, henc.2⟩, rfl, ?_, hclear'⟩
    rw [Nat.mod_eq_of_lt (show 8 - ses.wnb.toNat < 8 by omega)]
    exact hbits

end

theorem runAll_wrbits_wroteStream {fields : List (Word × Word)} {s : State} {ocap : Word} {bits : List Bool}
    (h : s.wroteStream ocap bits) (hcounts : ∀ f ∈ fields, f.2.toNat ≤ 32)
    (hroom : (bits.length + (fieldBits fields).length) / 8 ≤ ocap.toNat) :
    ∃ t outs, runAll (fields.map fun f => .wrbits f.1 f.2) s = some (t, outs) ∧
      t.wroteStream ocap (bits ++ fieldBits fields) := by
  induction fields generalizing s bits with
  | nil => exact ⟨s, [], rfl, by rwa [fieldBits, List.flatMap_nil, List.append_nil]⟩
  | cons f fields ih =>
    obtain ⟨hcount, hcounts⟩ := List.forall_mem_cons.1 hcounts
    rw [fieldBits_cons, List.length_append, lowBits_length] at hroom
    obtain ⟨s₁, hexec, h₁⟩ := exec_wrbits_wroteStream h f.1 hcount (by omega)
    obtain ⟨t, outs, hrun, ht⟩ := ih h₁ hcounts (by rw [List.length_append, lowBits_length]; omega)
    refine ⟨t, _, runAll_cons hexec hrun, ?_⟩
    rwa [fieldBits_cons, ← List.append_assoc]

/-- INITE, the WRBITS and FLUSH: the stream is the fields and the padding (R134). -/
theorem runAll_writes_fields {fields : List (Word × Word)} (ilen : Word) {ocap : Word} (s : State)
    (hcounts : ∀ f ∈ fields, f.2.toNat ≤ 32) (hroom : ((fieldBits fields).length + 7) / 8 ≤ ocap.toNat) :
    ∃ t outs, runAll ([.inite ilen ocap] ++ fields.map (fun f => .wrbits f.1 f.2) ++ [.flush]) s = some (t, outs) ∧
      t.wroteStream ocap (fieldBits fields ++ zeroPadding (fieldBits fields).length) := by
  obtain ⟨t₁, hinite, h₁⟩ := exec_inite_wroteStream ilen ocap s
  obtain ⟨t₂, outs, hwrite, h₂⟩ := runAll_wrbits_wroteStream h₁ hcounts (by rw [List.length_nil]; omega)
  obtain ⟨t₃, hflush, h₃⟩ := exec_flush_wroteStream h₂ hroom
  exact ⟨t₃, _, runAll_append (runAll_append (runAll_cons hinite rfl) hwrite) (runAll_cons hflush rfl), h₃⟩

/-- A padded stream is whole bytes, so nothing of it is left in WACC. -/
theorem wroteStream_padded {s : State} {ocap : Word} {bits : List Bool}
    (h : s.wroteStream ocap (bits ++ zeroPadding bits.length)) :
    ∃ ses, s.session = some ses ∧ ses.olen.toNat = (bits.length + 7) / 8 ∧
      storedBits s.obuf ses.olen.toNat = bits ++ zeroPadding bits.length := by
  obtain ⟨ses, henc, -, hbits, -⟩ := h
  have hnb := ses.wnb.isLt
  have hpos := congrArg List.length hbits
  rw [writtenBits_length, writePos, List.length_append, zeroPadding, List.length_replicate] at hpos
  have haligned : ses.wnb.toNat = 0 := by omega
  refine ⟨ses, henc.1, by omega, ?_⟩
  rw [writtenBits_eq, haligned] at hbits
  exact (List.append_nil _).symm.trans hbits

/-! ### Reading -/

/-- The bytes written, read as an IBUF (R134). -/
theorem ibufBits_of_carriedOver {obuf ibuf : Memory} {n : Nat} (h : carriedOver obuf ibuf n) :
    ibufBits ibuf 0 (8 * n) = storedBits obuf n := by
  refine List.map_congr_left fun p hp => ?_
  have hlt := List.mem_range.1 hp
  rw [h (p / 8) (by omega), Nat.zero_add]
  rfl

theorem exec_initd_decSession (ilen ocap : Word) (s : State) :
    ∃ t, exec (.initd ilen ocap) s = .next t ∧ t.decSession (initSession .dec ilen ocap) ∧ t.ibuf = s.ibuf ∧
      t.resp = okResponse 0 0 :=
  ⟨_, rfl, ⟨rfl, rfl⟩, rfl, rfl⟩

@[simp] theorem readPos_initSession (d : Dir) (ilen ocap : Word) : readPos (initSession d ilen ocap) = 0 := rfl

theorem ibufBit_mem_ibufBits (ibuf : Memory) {p q n : Nat} (hlo : p ≤ q) (hhi : q < p + n) :
    ibufBit ibuf q ∈ ibufBits ibuf p n :=
  List.mem_map.2 ⟨q - p, List.mem_range.2 (by omega), by rw [Nat.add_sub_cancel' hlo]⟩

theorem runAll_rdbits {fields : List (Word × Word)} {s : State} {ses : Session} (h : s.decSession ses)
    (hcounts : ∀ f ∈ fields, f.2.toNat ≤ 32) (hroom : readPos ses + (fieldBits fields).length ≤ 8 * ses.ilen.toNat)
    (hbits : ibufBits s.ibuf (readPos ses) (fieldBits fields).length = fieldBits fields) :
    ∃ t ses', runAll (fields.map fun f => .rdbits f.2) s =
        some (t, fields.map fun f => okResponse (f.1.toNat % 2 ^ f.2.toNat) 0) ∧
      t.session = some ses' ∧ readPos ses' = readPos ses + (fieldBits fields).length := by
  induction fields generalizing s ses with
  | nil => exact ⟨s, ses, rfl, h.1, rfl⟩
  | cons f fields ih =>
    obtain ⟨hcount, hcounts⟩ := List.forall_mem_cons.1 hcounts
    rw [fieldBits_cons, List.length_append, lowBits_length] at hroom hbits ⊢
    rw [ibufBits_add] at hbits
    obtain ⟨hfirst, hrest⟩ := List.append_inj hbits (by rw [ibufBits_length, lowBits_length])
    obtain ⟨ses₁, hexec, hmoved⟩ := exec_rdbits_reads h hcount (by omega)
    rw [hfirst, bitsToNat_lowBits] at hexec
    obtain ⟨t, ses', hrun, ht, hpos⟩ := ih (s := { s with
        session := some ses₁, resp := okResponse (f.1.toNat % 2 ^ f.2.toNat) 0 }) (ses := ses₁)
      ⟨rfl, by rw [hmoved.frame]; exact h.2⟩ hcounts (by rw [hmoved.pos, hmoved.ilen]; omega)
      (by rw [hmoved.pos]; exact hrest)
    exact ⟨t, ses', runAll_cons hexec hrun, ht, by rw [hpos, hmoved.pos, Nat.add_assoc]⟩

end Sys2Proof.Machine
end

section
open Sys2Proof
open Sys2Proof.Machine

/-- Settles O19: the stream written is the fields and the padding, and RDBITS reads a field back from its bits. -/
theorem writtenFieldsReadBack : Obligations.WrittenFieldsReadBack := by
  intro s ilen ocap fields hcounts total hocap
  have htotal : (fieldBits fields).length = total := fieldBits_length fields
  obtain ⟨t, outs, hrun, hstream⟩ := runAll_writes_fields ilen s hcounts (htotal ▸ hocap)
  obtain ⟨ses, hses, holen, hstored⟩ := wroteStream_padded hstream
  rw [htotal] at holen hstored
  refine ⟨t, outs, ses, hrun, hses, holen, fun s' ocap' hcarried => ?_⟩
  have hbits := (ibufBits_of_carriedOver hcarried).trans hstored
  rw [show 8 * ses.olen.toNat = total + (8 * ses.olen.toNat - total) by omega, ibufBits_add, Nat.zero_add] at hbits
  obtain ⟨hfields, hpadding⟩ := List.append_inj hbits (by rw [ibufBits_length, htotal])
  obtain ⟨opened, hinitd, hdec, hibuf, hresp⟩ := exec_initd_decSession ses.olen ocap' s'
  obtain ⟨t', ses', hread, hses', hpos⟩ := runAll_rdbits (fields := fields) hdec hcounts
    (by rw [readPos_initSession, initSession_ilen]; omega) (by rw [readPos_initSession, hibuf, htotal]; exact hfields)
  rw [readPos_initSession, Nat.zero_add, htotal] at hpos
  refine ⟨t', ses', hresp ▸ runAll_cons hinitd hread, hses', hpos, fun p hlo hhi => ?_⟩
  have hmem := ibufBit_mem_ibufBits s'.ibuf (n := 8 * ses.olen.toNat - total) hlo (by omega)
  rw [hpadding] at hmem
  exact List.eq_of_mem_replicate hmem

end

section
/-! SUPPORT. How each command that leaves the session open moves the write cursor and the read cursor
(40_bitstream R135). -/

namespace Sys2Proof.Machine

/-! ### What the answer of a command says of its work -/

/-- A command of a direction is Rejected or has run in the open session. -/
theorem inSession_open {d : Dir} {run : Work → Out} {s t : State} {ses : Session} (hs : s.session = some ses)
    (h : inSession d s run = .next t) : t = reject s ∨ (ses.dir = d ∧ run ⟨ses, s.obuf⟩ = .next t) := by
  by_cases hd : ses.dir = d
  · exact .inr ⟨hd, (inSession_live hs hd run).symm.trans h⟩
  · rw [inSession_rejects fun ses' hs' => Option.some.inj (hs.symm.trans hs') ▸ hd] at h
    cases h
    exact .inl rfl

/-- A unit command that leaves the session open has done its operation. -/
theorem settle_open {α : Type} {r : Res α} {f : α → Work → Word × Word} {s t : State} {ses' : Session}
    (h : settle (r.bind fun a w => .done (f a w) w) s = .next t) (ht : t.session = some ses') :
    ∃ a w, r = .done a w ∧ ses' = w.ses ∧ t.resp = some ⟨.ok, (f a w).1, (f a w).2⟩ := by
  rcases settle_next h with ⟨out, w, e, rfl⟩ | ⟨k, -, rfl⟩
  · obtain ⟨a, w, hr, e⟩ := bind_eq_done.1 e
    cases e
    exact ⟨a, w, hr, (Option.some.inj ht).symm, rfl⟩
  · cases ht

/-! ### Cursors that stay -/

theorem readPos_of_onlyWriterMoved {ses ses' : Session} (h : OnlyWriterMoved ses ses') :
    readPos ses' = readPos ses := by
  rw [h]; rfl

theorem readPos_of_onlyOutputMoved {ses ses' : Session} (h : OnlyOutputMoved ses ses') :
    readPos ses' = readPos ses := by
  rw [h]; rfl

theorem cursors_of_onlyInputMoved {ses ses' : Session} (h : OnlyInputMoved ses ses') :
    writePos ses' = writePos ses ∧ readPos ses' = readPos ses := by
  rw [h]; exact ⟨rfl, rfl⟩

theorem writePos_with_nodes (ses : Session) (nodes : NodeMemory) :
    writePos { ses with nodes := nodes } = writePos ses := rfl

theorem readPos_with_nodes (ses : Session) (nodes : NodeMemory) :
    readPos { ses with nodes := nodes } = readPos ses := rfl

/-! ### Operations -/

theorem flushBits_pos {w w' : Work} (h : flushBits w = .done () w') :
    writePos w'.ses = writePos w.ses + (8 - w.ses.wnb.toNat) % 8 := by
  have hnb := w.ses.wnb.isLt
  rcases flushBits_cases w with ⟨hzero, e⟩ | ⟨hne, e⟩
  · rw [e] at h
    cases h
    rw [hzero]
    rfl
  · have hne : w.ses.wnb.toNat ≠ 0 := fun e => hne (BitVec.eq_of_toNat_eq e)
    rcases emitByte_cases w with ⟨hroom, e'⟩ | ⟨-, e'⟩ <;> rw [e, e'] at h <;> cases h
    refine (writePos_emitted hroom).trans ?_
    rw [writePos]
    omega

/-- Code takes at most so many turns, a bit each. -/
theorem codeFrom_length_le {nodes : NodeMemory} {fuel n : Nat} {path bits : List Bool}
    (h : codeFrom nodes fuel n path = some bits) : bits.length ≤ path.length + fuel := by
  induction fuel generalizing n path with
  | zero =>
    unfold codeFrom at h
    split at h <;> cases h
    exact Nat.le_refl _
  | succ fuel ih =>
    unfold codeFrom at h
    split at h
    · cases h; exact Nat.le_add_right _ _
    split at h
    · cases h
    split at h
    · cases h
    have := ih h
    rw [List.length_cons] at this
    omega

theorem code_length_le {nodes : NodeMemory} {sym : Nat} {bits : List Bool} (h : code nodes sym = some bits) :
    bits.length ≤ Config.nnode := by
  have hlen := codeFrom_length_le (path := []) h
  rwa [List.length_nil, Nat.zero_add] at hlen

theorem writeBits_pos {n : Nat} {v : Word} {w w' : Work} (h : writeBits n v w = .done () w') :
    writePos w'.ses = writePos w.ses + n := by
  rw [writeBits_eq_writeCode] at h
  rw [writeCode_pos h, lowBits_length]

/-- ENCODE that succeeds has written the bits it answers (R155), whatever the node memory. -/
theorem encodeSymbol_pos {sym len : Nat} {w w' : Work} (h : encodeSymbol sym w = .done len w') :
    writePos w'.ses = writePos w.ses + len ∧ readPos w'.ses = readPos w.ses ∧ len < 2 ^ 32 := by
  obtain ⟨bits, w₁, -, hcode, rfl, hwrite, -, rfl⟩ := encodeSymbol_done h
  have hpos := writeCode_pos hwrite
  have hread := readPos_of_onlyWriterMoved (writeCode_frame hwrite).1
  exact ⟨(writePos_with_nodes _ _).trans hpos, (readPos_with_nodes _ _).trans hread,
    (code_length_le hcode).trans_lt (by decide)⟩

theorem decodeSymbol_length_lt {ibuf : Memory} {w w' : Work} {r : Nat × Nat} (h : decodeSymbol ibuf w = .done r w') :
    r.2 < 2 ^ 32 := by
  obtain ⟨q, w₁, -, hdone⟩ := bind_eq_done.1 h
  cases hdone
  exact (Nat.sub_le _ _).trans_lt (by decide)

/-! ### Commands -/

/-- A command that answers OK has moved each cursor by the bits it has written or read. -/
structure CursorsMoved (i : Instr) (ses ses' : Session) (r : Response) : Prop where
  ok : r.rsp = .ok
  write : ses.dir = .enc → writePos ses' = writePos ses + bitsWritten i ses r
  read : readPos ses' = readPos ses + bitsRead i r

/-- In a DEC session nothing is said of the write cursor. -/
theorem cursorsMoved_of_dec {i : Instr} {ses ses' : Session} {r0 r1 : Word} (hdec : ses.dir = .dec)
    (hread : readPos ses' = readPos ses + bitsRead i ⟨.ok, r0, r1⟩) : CursorsMoved i ses ses' ⟨.ok, r0, r1⟩ :=
  ⟨rfl, fun henc => absurd (henc.symm.trans hdec) (by decide), hread⟩

/-- A command is Rejected and leaves the session as it is, or answers OK and moves the cursors. -/
def CursorsAnswered (i : Instr) (ses ses' : Session) (r : Response) : Prop :=
  (r.rsp = .rejected ∧ ses' = ses) ∨ CursorsMoved i ses ses' r

section
variable {i : Instr} {s t : State} {ses ses' : Session} {r : Response}
  (hs : s.session = some ses) (ht : t.session = some ses') (hr : t.resp = some r)
include hs ht hr

theorem cursorsAnswered_reject (h : t = reject s) : CursorsAnswered i ses ses' r := by
  subst h
  cases hr
  exact .inl ⟨rfl, Option.some.inj (ht.symm.trans hs)⟩

theorem cursorsAnswered_answer {r0 r1 : Word} (h : t = answer r0 r1 s) (hwrite : bitsWritten i ses ⟨.ok, r0, r1⟩ = 0)
    (hread : bitsRead i ⟨.ok, r0, r1⟩ = 0) : CursorsAnswered i ses ses' r := by
  subst h
  cases hr
  obtain rfl : ses' = ses := Option.some.inj (ht.symm.trans hs)
  exact .inr ⟨rfl, fun _ => by rw [hwrite, Nat.add_zero], by rw [hread, Nat.add_zero]⟩

omit hs in
theorem cursorsAnswered_settle {α : Type} {op : Res α} {f : α → Work → Word × Word}
    (h : settle (op.bind fun a w => .done (f a w) w) s = .next t)
    (hdone : ∀ a w, op = .done a w → CursorsMoved i ses w.ses ⟨.ok, (f a w).1, (f a w).2⟩) :
    CursorsAnswered i ses ses' r := by
  obtain ⟨a, w, hop, rfl, hresp⟩ := settle_open h ht
  obtain rfl := Option.some.inj (hr.symm.trans hresp)
  exact .inr (hdone a w hop)

theorem cursorsAnswered_inSession {d : Dir} {run : Work → Out} (h : inSession d s run = .next t)
    (hrun : ses.dir = d → run ⟨ses, s.obuf⟩ = .next t → CursorsAnswered i ses ses' r) :
    CursorsAnswered i ses ses' r := by
  rcases inSession_open hs h with hreject | ⟨hd, hrun'⟩
  · exact cursorsAnswered_reject hs ht hr hreject
  · exact hrun hd hrun'

/-- A unit command of a direction, whose work is one operation. -/
theorem cursorsAnswered_unit {α : Type} {d : Dir} {op : Work → Res α} {f : α → Work → Word × Word}
    (h : (inSession d s fun w => settle ((op w).bind fun a w => .done (f a w) w) s) = .next t)
    (hdone : ∀ a w, ses.dir = d → op ⟨ses, s.obuf⟩ = .done a w →
      CursorsMoved i ses w.ses ⟨.ok, (f a w).1, (f a w).2⟩) : CursorsAnswered i ses ses' r :=
  cursorsAnswered_inSession hs ht hr h fun hd h => cursorsAnswered_settle ht hr h fun a w => hdone a w hd

/-- A unit command that tests its operand first. -/
theorem cursorsAnswered_tested {α : Type} {d : Dir} {test : Work → Bool} {op : Work → Res α}
    {f : α → Work → Word × Word}
    (h : (inSession d s fun w =>
      if test w then settle ((op w).bind fun a w => .done (f a w) w) s else .next (reject s)) = .next t)
    (hdone : ∀ a w, ses.dir = d → op ⟨ses, s.obuf⟩ = .done a w →
      CursorsMoved i ses w.ses ⟨.ok, (f a w).1, (f a w).2⟩) : CursorsAnswered i ses ses' r := by
  refine cursorsAnswered_inSession hs ht hr h fun hd h => ?_
  split at h
  · exact cursorsAnswered_settle ht hr h fun a w => hdone a w hd
  · exact cursorsAnswered_reject hs ht hr (Host.Outcome.next.inj h).symm

theorem execRdreg_cursors {regno : Word} (h : execRdreg regno s = .next t) :
    CursorsAnswered (.rdreg regno) ses ses' r := by
  unfold execRdreg at h
  split at h
  · exact cursorsAnswered_answer hs ht hr (Host.Outcome.next.inj h).symm rfl rfl
  · exact cursorsAnswered_reject hs ht hr (Host.Outcome.next.inj h).symm

theorem execWrbits_cursors {value count : Word} (h : execWrbits value count s = .next t) :
    CursorsAnswered (.wrbits value count) ses ses' r :=
  cursorsAnswered_tested hs ht hr h fun _ _ _ hwrite =>
    ⟨rfl, fun _ => writeBits_pos hwrite, readPos_of_onlyWriterMoved (writeBits_frame hwrite).1⟩

theorem execFlush_cursors (h : execFlush s = .next t) : CursorsAnswered .flush ses ses' r :=
  cursorsAnswered_unit hs ht hr h fun _ _ _ hflush =>
    ⟨rfl, fun _ => flushBits_pos hflush, readPos_of_onlyWriterMoved (flushBits_frame hflush)⟩

theorem execEncode_cursors {sym : Word} (h : execEncode sym s = .next t) :
    CursorsAnswered (.encode sym) ses ses' r := by
  refine cursorsAnswered_unit hs ht hr h fun len w _ hencode => ?_
  obtain ⟨hwrite, hread, hlt⟩ := encodeSymbol_pos hencode
  have hlen : (BitVec.ofNat 32 len).toNat = len := Nat.mod_eq_of_lt hlt
  exact ⟨rfl, fun _ => hwrite.trans (congrArg (writePos ses + ·) hlen.symm), hread⟩

theorem execFindmatch_cursors (h : execFindmatch s = .next t) : CursorsAnswered .findmatch ses ses' r :=
  cursorsAnswered_inSession hs ht hr h fun _ h =>
    cursorsAnswered_answer hs ht hr (Host.Outcome.next.inj h).symm rfl rfl

theorem execAdvance_cursors {n : Word} (h : execAdvance n s = .next t) :
    CursorsAnswered (.advance n) ses ses' r := by
  refine cursorsAnswered_inSession hs ht hr h fun _ h => ?_
  split at h
  · cases h
    cases ht
    cases hr
    obtain ⟨hwrite, hread⟩ := cursors_of_onlyInputMoved (advanceBy_frame s.ibuf n.toNat ses)
    exact .inr ⟨rfl, fun _ => hwrite, hread⟩
  · exact cursorsAnswered_reject hs ht hr (Host.Outcome.next.inj h).symm

theorem execRdbits_cursors {count : Word} (h : execRdbits count s = .next t) :
    CursorsAnswered (.rdbits count) ses ses' r :=
  cursorsAnswered_tested hs ht hr h fun _ _ hdec hread => cursorsMoved_of_dec hdec (readBits_moved hread).pos

theorem execDecode_cursors (h : execDecode s = .next t) : CursorsAnswered .decode ses ses' r := by
  refine cursorsAnswered_unit hs ht hr h fun r w hdec hdecode => cursorsMoved_of_dec hdec ?_
  have hlen : (BitVec.ofNat 32 r.2).toNat = r.2 := Nat.mod_eq_of_lt (decodeSymbol_length_lt hdecode)
  exact (decodeSymbol_read hdecode).1.pos.trans (congrArg (readPos ses + ·) hlen.symm)

theorem execPutlit_cursors {byte : Byte} (h : execPutlit byte s = .next t) :
    CursorsAnswered (.putlit byte) ses ses' r :=
  cursorsAnswered_unit hs ht hr h fun _ _ hdec hput =>
    cursorsMoved_of_dec hdec (readPos_of_onlyOutputMoved (putByte_frame hput).1)

theorem execCopy_cursors {dist len : Word} (h : execCopy dist len s = .next t) :
    CursorsAnswered (.copy dist len) ses ses' r :=
  cursorsAnswered_unit hs ht hr h fun _ _ hdec hcopy =>
    cursorsMoved_of_dec hdec (readPos_of_onlyOutputMoved (copyLoop_frame (copyMatch_done hcopy)).1)

theorem exec_cursors (hcommand : isCommand i = true) (hopens : opensSession i = false) (h : exec i s = .next t) :
    CursorsAnswered i ses ses' r := by
  cases i with
  | nop => exact cursorsAnswered_answer hs ht hr (Host.Outcome.next.inj h).symm rfl rfl
  | release => cases h; cases ht
  | rdreg regno => exact execRdreg_cursors hs ht hr h
  | wrbits value count => exact execWrbits_cursors hs ht hr h
  | flush => exact execFlush_cursors hs ht hr h
  | rdbits count => exact execRdbits_cursors hs ht hr h
  | encode sym => exact execEncode_cursors hs ht hr h
  | decode => exact execDecode_cursors hs ht hr h
  | findmatch => exact execFindmatch_cursors hs ht hr h
  | advance n => exact execAdvance_cursors hs ht hr h
  | putlit byte => exact execPutlit_cursors hs ht hr h
  | copy dist len => exact execCopy_cursors hs ht hr h
  | inite _ _ | initd _ _ | compress _ _ | decompress _ _ => cases hopens
  | _ => cases hcommand

end

end Sys2Proof.Machine
end

section
open Sys2Proof
open Sys2Proof.Machine

/-- Settles O20: each operation moves the cursors by its bits, and the answer of ENCODE and DECODE is their number. -/
theorem cursorsMoveByBitsMoved : Obligations.CursorsMoveByBitsMoved := by
  intro i s t ses ses' r hcommand hopens hexec hs ht hr
  exact (exec_cursors hs ht hr hcommand hopens hexec).imp_right fun ⟨hok, hwrite, hread⟩ => ⟨hok, hwrite, hread⟩

end

section
/-! SUPPORT. The order in which Build takes the nodes (41_huffman R151), and that it creates them in rising counts. -/

namespace Sys2Proof.Machine

/-! ### Ranks -/

/-- The order of R151 is the lexicographic one of counts and indices. -/
theorem ranksBefore_iff (x y : Ranked) : ranksBefore x y = true ↔ toLex x ≤ toLex y := by
  simp [ranksBefore, Prod.Lex.toLex_le_toLex]

theorem ranksBefore_isTrans : IsTrans Ranked fun x y => ranksBefore x y = true where
  trans x y z hxy hyz := (ranksBefore_iff x z).2 (((ranksBefore_iff x y).1 hxy).trans ((ranksBefore_iff y z).1 hyz))

theorem ranksBefore_total : Std.Total fun x y => ranksBefore x y = true where
  total x y := (le_total (toLex x) (toLex y)).imp (ranksBefore_iff x y).2 (ranksBefore_iff y x).2

theorem insertRanked_sorted (x : Ranked) {set : List Ranked} (h : set.Pairwise fun x y => ranksBefore x y = true) :
    (insertRanked x set).Pairwise fun x y => ranksBefore x y = true := by
  have := ranksBefore_isTrans
  have := ranksBefore_total
  rw [insertRanked_eq_orderedInsert]
  exact List.Pairwise.orderedInsert x set h

/-- The set A at the start of Build is in rank order. -/
theorem foldr_insertRanked_sorted (l : List Ranked) :
    (l.foldr insertRanked []).Pairwise fun x y => ranksBefore x y = true := by
  induction l with
  | nil => exact .nil
  | cons x l ih => exact insertRanked_sorted x ih

/-! ### The nodes taken -/

/-- Where count gives the counts of the nodes, node a ranks before node b or is b. -/
def ranksUpTo (count : Nat → Nat) (a b : Nat) : Prop := toLex (count a, a) ≤ toLex (count b, b)

theorem ranksUpTo.count_le {count : Nat → Nat} {a b : Nat} (h : ranksUpTo count a b) : count a ≤ count b := by
  rcases Prod.Lex.toLex_le_toLex.1 h with hlt | ⟨heq, -⟩
  · exact hlt.le
  · exact heq.le

/-- The first node that the merges take is in the set they start from. -/
theorem head_takenBy_mergeSteps {k n y : Nat} {set : List Ranked} (h : y ∈ (takenBy (mergeSteps k n set)).head?) :
    ∃ x ∈ set, x.2 = y := by
  match k, set, h with
  | 0, _, h => simp [mergeSteps, takenBy] at h
  | _ + 1, [], h => simp [mergeSteps, takenBy] at h
  | _ + 1, [_], h => simp [mergeSteps, takenBy] at h
  | _ + 1, a :: b :: rest, h => exact ⟨a, by simp, by simpa [mergeSteps, takenBy] using h⟩

/-- From a set in rank order the merges take the nodes in rank order: what a merge creates ranks after what it takes. -/
theorem mergeSteps_takes_in_order {k n : Nat} {set : List Ranked} {count : Nat → Nat}
    (hsorted : set.Pairwise fun x y => ranksBefore x y = true) (hsum : (set.map Prod.fst).sum < 65536)
    (hold : ∀ x ∈ set, x.2 < n) (hset : ∀ x ∈ set, count x.2 = x.1)
    (hcreated : ∀ j m, (mergeSteps k n set)[j]? = some m → count (n + j) = m.count) :
    (takenBy (mergeSteps k n set)).IsChain (ranksUpTo count) := by
  induction k generalizing n set with
  | zero => exact .nil
  | succ k ih =>
    match set, hsorted, hsum, hold, hset, hcreated with
    | [], _, _, _, _, _ => exact .nil
    | [_], _, _, _, _, _ => exact .nil
    | a :: b :: rest, hsorted, hsum, hold, hset, hcreated =>
      simp only [List.map_cons, List.sum_cons] at hsum
      have hmod : (a.1 + b.1) % 65536 = a.1 + b.1 := Nat.mod_eq_of_lt (by omega)
      simp only [mergeSteps, hmod] at hcreated ⊢
      obtain ⟨hfirst, hsorted⟩ := List.pairwise_cons.1 hsorted
      obtain ⟨hsecond, hsorted⟩ := List.pairwise_cons.1 hsorted
      have hperm := insertRanked_perm (a.1 + b.1, n) rest
      have hcount : ∀ x ∈ insertRanked (a.1 + b.1, n) rest, count x.2 = x.1 ∧ x.2 < n + 1 := by
        intro x hx
        rcases List.mem_cons.1 (hperm.mem_iff.1 hx) with rfl | hx
        · exact ⟨hcreated 0 _ rfl, Nat.lt_succ_self n⟩
        · exact ⟨hset x (by simp [hx]), Nat.lt_succ_of_lt (hold x (by simp [hx]))⟩
      have hafter : ∀ x ∈ insertRanked (a.1 + b.1, n) rest, ranksUpTo count b.2 x.2 := by
        intro x hx
        rw [ranksUpTo, hset b (by simp), (hcount x hx).1]
        rcases List.mem_cons.1 (hperm.mem_iff.1 hx) with rfl | hx
        · have := hold b (by simp)
          rw [Prod.Lex.toLex_le_toLex]
          dsimp only
          omega
        · exact (ranksBefore_iff b x).1 (hsecond x hx)
      refine List.isChain_cons_cons.2 ⟨?_, List.isChain_cons.2 ⟨fun y hy => ?_, ?_⟩⟩
      · rw [ranksUpTo, hset a (by simp), hset b (by simp)]
        exact (ranksBefore_iff a b).1 (hfirst b (by simp))
      · obtain ⟨x, hx, rfl⟩ := head_takenBy_mergeSteps hy
        exact hafter x hx
      · refine ih (insertRanked_sorted _ hsorted) ?_ (fun x hx => (hcount x hx).2) (fun x hx => (hcount x hx).1)
          fun j m hj => ?_
        · rw [(hperm.map Prod.fst).sum_eq, List.map_cons, List.sum_cons]
          omega
        · rw [Nat.add_assoc, Nat.add_comm 1 j]
          exact hcreated (j + 1) m (by simpa using hj)

/-- Merge i takes the nodes 2 i and 2 i + 1 of all that are taken. -/
theorem takenBy_getElem? {merges : List Merge} {i : Nat} {m : Merge} (h : merges[i]? = some m) :
    (takenBy merges)[2 * i]? = some m.left ∧ (takenBy merges)[2 * i + 1]? = some m.right := by
  induction merges generalizing i with
  | nil => simp at h
  | cons m' merges ih =>
    have hcons : takenBy (m' :: merges) = m'.left :: m'.right :: takenBy merges := rfl
    rw [hcons]
    cases i with
    | zero =>
      obtain rfl := Option.some.inj h
      exact ⟨rfl, rfl⟩
    | succ i => simpa [Nat.mul_succ] using ih (by simpa using h)

theorem builtCount_of_mem_leaves {counts : List Nat} (hl : counts.length = Config.nsym) {x : Ranked}
    (hx : x ∈ counts.zipIdx.foldr insertRanked []) : builtCount counts x.2 = x.1 := by
  have hleaf := (foldr_insertRanked_perm counts.zipIdx).mem_iff.1 hx
  rw [List.mem_zipIdx_iff_getElem?] at hleaf
  have hlt := (List.getElem?_eq_some_iff.1 hleaf).1
  rw [hl] at hlt
  rw [builtCount, if_pos hlt, List.getD_eq_getElem?_getD, hleaf]
  rfl

namespace LegalCounts
variable {counts : List Nat} (h : LegalCounts counts)
include h

/-- Build takes the nodes in the order of count and index (R151). -/
theorem takes_in_order : (takenBy (mergesOf counts)).Pairwise (ranksUpTo (builtCount counts)) := by
  have : Trans (ranksUpTo (builtCount counts)) (ranksUpTo (builtCount counts)) (ranksUpTo (builtCount counts)) :=
    ⟨fun hab hbc => le_trans hab hbc⟩
  refine List.isChain_iff_pairwise.1 (mergeSteps_takes_in_order (foldr_insertRanked_sorted _) ?_ (fun x hx => ?_)
    (fun x hx => builtCount_of_mem_leaves h.length hx) fun j m hj => builtCount_merge hj)
  · rw [leaves_sum]
    exact h.sum.trans_lt (by decide)
  · exact List.mem_range.1 ((leaves_perm h.length).mem_iff.1 (List.mem_map_of_mem hx))

/-- Of two nodes that Build takes, the one taken first ranks before the other. -/
theorem ranks_of_taken {i j a b : Nat} (hij : i < j) (ha : (takenBy (mergesOf counts))[i]? = some a)
    (hb : (takenBy (mergesOf counts))[j]? = some b) : ranksUpTo (builtCount counts) a b ∧ a ≠ b := by
  obtain ⟨hi, rfl⟩ := List.getElem?_eq_some_iff.1 ha
  obtain ⟨hj, rfl⟩ := List.getElem?_eq_some_iff.1 hb
  exact ⟨List.pairwise_iff_getElem.1 h.takes_in_order i j hi hj hij,
    List.pairwise_iff_getElem.1 h.takenBy_nodup.of_append_left i j hi hj hij⟩

/-- What Build takes are nodes. -/
theorem taken_lt {a : Nat} (ha : a ∈ takenBy (mergesOf counts)) : a < Config.nnode :=
  List.mem_range.1 ((takenBy_mergesOf_perm h.length).mem_iff.1 (List.mem_append_left _ ha))

theorem nodeRanksBefore_of_taken {i j a b : Nat} (hij : i < j) (ha : (takenBy (mergesOf counts))[i]? = some a)
    (hb : (takenBy (mergesOf counts))[j]? = some b) : nodeRanksBefore (build counts) a b := by
  obtain ⟨hranks, hne⟩ := h.ranks_of_taken hij ha hb
  have hlta := h.taken_lt (List.mem_of_getElem? ha)
  have hltb := h.taken_lt (List.mem_of_getElem? hb)
  refine ⟨_, _, Vector.getElem?_eq_getElem hlta, Vector.getElem?_eq_getElem hltb, ?_⟩
  rw [h.build_cnt hlta, h.build_cnt hltb]
  exact (Prod.Lex.toLex_le_toLex.1 hranks).imp_right fun ⟨heq, hle⟩ => ⟨heq, lt_of_le_of_ne hle hne⟩

/-- The children of node n, where they stand among the nodes taken. -/
theorem children_taken {n : Nat} {node : Node} (hn : Config.nsym ≤ n) (hnode : (build counts)[n]? = some node) :
    (takenBy (mergesOf counts))[2 * (n - Config.nsym)]? = some node.left.toNat ∧
      (takenBy (mergesOf counts))[2 * (n - Config.nsym) + 1]? = some node.right.toNat := by
  obtain ⟨hlt, rfl⟩ := Vector.getElem?_eq_some_iff.1 hnode
  obtain ⟨i, rfl⟩ := Nat.exists_eq_add_of_le hn
  obtain ⟨m, hm⟩ := h.exists_merge hn hlt
  rw [Nat.add_sub_cancel_left] at hm ⊢
  obtain ⟨hleft, hright⟩ := h.build_children hm hlt
  rw [hleft, hright]
  exact takenBy_getElem? hm

/-- Build creates nodes of rising counts: a later merge takes nodes of no smaller counts (R158). -/
theorem merge_count_mono {i j : Nat} {m m' : Merge} (hij : i < j) (hi : (mergesOf counts)[i]? = some m)
    (hj : (mergesOf counts)[j]? = some m') : m.count ≤ m'.count := by
  obtain ⟨hleft, hright⟩ := takenBy_getElem? hi
  obtain ⟨hleft', hright'⟩ := takenBy_getElem? hj
  rw [(h.merge_count hi).1, (h.merge_count hj).1]
  exact Nat.add_le_add (h.ranks_of_taken (by omega) hleft hleft').1.count_le
    (h.ranks_of_taken (by omega) hright hright').1.count_le

end LegalCounts

end Sys2Proof.Machine
end

section
open Sys2Proof
open Sys2Proof.Machine

/-- Settles O22: the nodes that Build takes, two for each internal node in turn, are in rank order. -/
theorem buildTakesLeastFirst : Obligations.BuildTakesLeastFirst := by
  intro counts hlen hpos hsum n node hn hnode
  have h : LegalCounts counts := ⟨hlen, hpos, hsum⟩
  obtain ⟨hleft, hright⟩ := h.children_taken hn hnode
  refine ⟨h.nodeRanksBefore_of_taken (Nat.lt_succ_self _) hleft hright, fun next hnext => ?_⟩
  have hlater : 2 * (n - Config.nsym) + 1 < 2 * (n + 1 - Config.nsym) := by
    change Config.nsym ≤ n at hn
    omega
  exact h.nodeRanksBefore_of_taken hlater hright (h.children_taken (Nat.le_succ_of_le hn) hnext).1

end

section
/-! SUPPORT. The way up from a node, which Code takes, is the way down to it (41_huffman R150, R158), and no code is
the beginning of another. -/

namespace Sys2Proof.Machine

theorem codeFrom_root (nodes : NodeMemory) (fuel : Nat) (bits : List Bool) :
    codeFrom nodes fuel Config.root bits = some bits := by
  cases fuel <;> exact if_pos rfl

/-- One turn of Code: to the parent, with the bit of the child it comes from (R150). -/
theorem codeFrom_succ {nodes : NodeMemory} {fuel n p : Nat} (bits : List Bool) (hn : n < Config.root)
    (hp : p < Config.nnode) (hpar : (nodes[n]'(Nat.lt_succ_of_lt hn)).par.toNat = p) :
    codeFrom nodes (fuel + 1) n bits = codeFrom nodes fuel p (decide (nodes[p].right.toNat = n) :: bits) := by
  rw [codeFrom, if_neg (Nat.ne_of_lt hn), Vector.getElem?_eq_getElem (Nat.lt_succ_of_lt hn)]
  dsimp only
  rw [hpar, Vector.getElem?_eq_getElem hp]
  dsimp only
  exact congrArg (fun b => codeFrom nodes fuel p (b :: bits)) (Bool.eq_iff_iff.2 (by simp))

theorem walkFrom_append (nodes : NodeMemory) (xs ys : List Bool) (n : Nat) :
    walkFrom nodes (xs ++ ys) n = (walkFrom nodes xs n).bind (walkFrom nodes ys) := by
  induction xs generalizing n with
  | nil => rfl
  | cons x xs ih =>
    rw [List.cons_append, walkFrom, walkFrom]
    split
    · exact ih _
    · rfl

section
variable {nodes : NodeMemory} (h : isCodeTree nodes)
include h

/-- A node that one bit leads to has the node it comes from as its parent, and the bit says which child it is. -/
theorem walkFrom_bit {b : Bool} {p n : Nat} (hn : n < Config.nnode) (hwalk : walkFrom nodes [b] p = some n) :
    ∃ (hp : p < Config.nnode) (hlt : n < Config.root), (nodes[n]'(Nat.lt_succ_of_lt hlt)).par.toNat = p ∧
      decide (nodes[p].right.toNat = n) = b := by
  obtain ⟨node, hnode, hchild⟩ := walkFrom_cons hwalk
  obtain ⟨hp, rfl⟩ := Vector.getElem?_eq_some_iff.1 hnode
  have hchild : (if b then nodes[p].right.toNat else nodes[p].left.toNat) = n := Option.some.inj hchild
  by_cases hleaf : p < Config.nsym
  · obtain ⟨hleft, hright⟩ := h.1 p hp hleaf
    rw [hleft, hright, ite_self] at hchild
    exact absurd (hchild.trans_lt hn) (by decide)
  · obtain ⟨l, r, hl, hr, hleft, hright, hlp, hrp, hne, hparl, hparr, -⟩ := h.2.1 p hp (Nat.le_of_not_lt hleaf)
    have hp' : p ≤ Config.root := Nat.le_of_lt_succ hp
    rw [hleft, hright] at hchild
    refine ⟨hp, ?_⟩
    rw [hright]
    cases b with
    | false =>
      obtain rfl : l = n := hchild
      exact ⟨hlp.trans_le hp', hparl, decide_eq_false hne.symm⟩
    | true =>
      obtain rfl : r = n := hchild
      exact ⟨hrp.trans_le hp', hparr, decide_eq_true rfl⟩

/-- Code goes up the way that leads down from ROOT. -/
theorem codeFrom_of_walk {bits : List Bool} {n fuel : Nat} (path : List Bool) (hn : n < Config.nnode)
    (hwalk : walkFrom nodes bits Config.root = some n) (hfuel : bits.length ≤ fuel) :
    codeFrom nodes fuel n path = some (bits ++ path) := by
  induction bits using List.reverseRecOn generalizing n fuel path with
  | nil =>
    obtain rfl := Option.some.inj hwalk
    exact codeFrom_root nodes fuel path
  | append_singleton bits b ih =>
    rw [List.length_append, List.length_singleton] at hfuel
    obtain ⟨fuel, rfl⟩ : ∃ k, fuel = k + 1 := ⟨fuel - 1, by omega⟩
    rw [walkFrom_append] at hwalk
    obtain ⟨p, hdown, hbit⟩ := Option.bind_eq_some_iff.1 hwalk
    obtain ⟨hp, hlt, hpar, hright⟩ := walkFrom_bit h hn hbit
    rw [codeFrom_succ path hlt hp hpar, hright, ih _ hp hdown (Nat.le_of_succ_le_succ hfuel), List.append_assoc,
      List.singleton_append]

theorem length_le_of_walk {sym : Nat} {bits : List Bool} (hs : sym < Config.nsym)
    (hwalk : walkFrom nodes bits Config.root = some sym) : bits.length ≤ 272 := by
  have hlen := walkFrom_length_le h (show Config.root < Config.nnode by decide) hs hwalk
  change bits.length + 272 ≤ max 544 272 at hlen
  omega

/-- The code of a symbol is the one way from ROOT to its leaf (R158). -/
theorem code_eq_some_iff {sym : Nat} {bits : List Bool} (hs : sym < Config.nsym) :
    code nodes sym = some bits ↔ walkFrom nodes bits Config.root = some sym := by
  refine ⟨code_walk h hs, fun hwalk => ?_⟩
  have hfuel : bits.length ≤ Config.nnode := (length_le_of_walk h hs hwalk).trans (by decide)
  rw [code, codeFrom_of_walk h [] (hs.trans (by decide)) hwalk hfuel, List.append_nil]

/-- A way to a leaf is not the beginning of a way to another (R158). -/
theorem eq_of_walk_prefix {bits bits' : List Bool} {sym sym' : Nat} (hs : sym < Config.nsym) (hs' : sym' < Config.nsym)
    (hwalk : walkFrom nodes bits Config.root = some sym) (hwalk' : walkFrom nodes bits' Config.root = some sym')
    (hprefix : bits <+: bits') : sym = sym' := by
  obtain ⟨rest, rfl⟩ := hprefix
  rw [walkFrom_append, hwalk, Option.bind_some] at hwalk'
  obtain rfl := eq_nil_of_walkFrom_leaf h hs hs' hwalk'
  exact Option.some.inj hwalk'

end

/-- Every symbol has a code, of 1 to 272 bits (R161). -/
theorem exists_code {nodes : NodeMemory} (hok : modelOk nodes) {sym : Nat} (hs : sym < Config.nsym) :
    ∃ bits, code nodes sym = some bits ∧ 1 ≤ bits.length ∧ bits.length ≤ 272 ∧
      walkFrom nodes bits Config.root = some sym := by
  have htree := isCodeTree_of_modelOk hok
  obtain ⟨bits, hcode⟩ := Option.ne_none_iff_exists'.1 (code_ne_none (parentsRise_of_modelOk hok) hs)
  have hwalk := code_walk htree hs hcode
  refine ⟨bits, hcode, List.length_pos_iff.2 ?_, length_le_of_walk htree hs hwalk, hwalk⟩
  rintro rfl
  obtain rfl := Option.some.inj hwalk
  exact absurd hs (by decide)

/-! ### Update (R152, R153) -/

theorem leafCounts_update {nodes : NodeMemory} (h : modelOk nodes) {sym : Nat} (hs : sym < Config.nsym) :
    leafCounts (update sym nodes) = updatedCounts sym (leafCounts nodes) :=
  ((legalCounts_of_modelOk h).updatedCounts hs).leafCounts_build

namespace LegalCounts
variable {counts : List Nat} (h : LegalCounts counts) {sym : Nat} (hs : sym < Config.nsym)
include h hs

/-- No count is lost to 16 bits when a symbol is counted. -/
theorem modify_eq_set : (counts.modify sym fun c => (c + 1) % 65536) = counts.set sym (counts.getD sym 0 + 1) := by
  have hlt : sym < counts.length := h.length ▸ hs
  have hle := h.le_sum (List.getElem_mem hlt)
  rw [List.modify_eq_set_get _ hlt, List.get_eq_getElem, List.getD_eq_getElem _ _ hlt,
    Nat.mod_eq_of_lt (show counts[sym] + 1 < 65536 by omega)]

theorem updatedCounts_eq : Machine.updatedCounts sym counts =
    if 4096 ≤ (counts.set sym (counts.getD sym 0 + 1)).sum then
      (counts.set sym (counts.getD sym 0 + 1)).map fun c => (c + 1) / 2
    else counts.set sym (counts.getD sym 0 + 1) := by
  rw [← h.modify_eq_set hs]
  rfl

/-- A symbol is counted, or at a total of 4096 the counts are halved. -/
theorem updatedCounts_sum : (counts.sum < 4095 → (Machine.updatedCounts sym counts).sum = counts.sum + 1) ∧
    (counts.sum = 4095 → 2 * (Machine.updatedCounts sym counts).sum ≤ 4096 + Config.nsym) := by
  have hsum := (bumped_counts h.pos (fun _ => h.le_sum) (h.length ▸ hs)).2
  unfold Machine.updatedCounts
  dsimp only
  rw [hsum]
  refine ⟨fun hlt => ?_, fun heq => ?_⟩
  · rw [if_neg (by change ¬ 4096 ≤ _; omega), hsum]
  · rw [if_pos (by change 4096 ≤ _; omega)]
    have hhalf := rescale_sum (counts.modify sym fun c => (c + 1) % 65536)
    rwa [hsum, heq, List.length_modify, h.length] at hhalf

end LegalCounts

theorem modelAfter_concat (syms : List Nat) (sym : Nat) :
    modelAfter (syms ++ [sym]) = update sym (modelAfter syms) := by
  simp [modelAfter]

theorem modelOk_modelAfter {syms : List Nat} (h : ∀ sym ∈ syms, sym < Config.nsym) : modelOk (modelAfter syms) := by
  induction syms using List.reverseRecOn with
  | nil => exact modelOk_initModel
  | append_singleton syms sym ih =>
    rw [List.forall_mem_append, List.forall_mem_singleton] at h
    rw [modelAfter_concat]
    exact modelOk_update (ih h.1) h.2

/-- The total grows by 1 for each symbol, as long as it stays below 4096 (R153). -/
theorem modelAfter_sum {syms : List Nat} (h : ∀ sym ∈ syms, sym < Config.nsym) (hlen : syms.length ≤ 3822) :
    (leafCounts (modelAfter syms)).sum = Config.nsym + syms.length := by
  induction syms using List.reverseRecOn with
  | nil =>
    change (leafCounts initModel).sum = _
    rw [initModel_leafCounts, List.sum_replicate]
    rfl
  | append_singleton syms sym ih =>
    rw [List.forall_mem_append, List.forall_mem_singleton] at h
    rw [List.length_append, List.length_singleton] at hlen ⊢
    have hok := modelOk_modelAfter h.1
    have hsum := ih h.1 (by omega)
    rw [modelAfter_concat, leafCounts_update hok h.2,
      ((legalCounts_of_modelOk hok).updatedCounts_sum h.2).1 (by rw [hsum]; change 273 + _ < _; omega), hsum,
      Nat.add_assoc]

end Sys2Proof.Machine
end

section
open Sys2Proof
open Sys2Proof.Machine

/-- Settles O24: a code is the way from ROOT to a leaf, and past a leaf no way goes on. -/
theorem codesArePrefixFree : Obligations.CodesArePrefixFree := by
  intro nodes hok
  have htree := isCodeTree_of_modelOk hok
  refine ⟨fun sym hs => exists_code hok hs, fun sym sym' bits bits' hs hs' hne hcode hcode' hprefix => ?_⟩
  exact hne (eq_of_walk_prefix htree hs hs' (code_walk htree hs hcode) (code_walk htree hs' hcode') hprefix)

/-- Settles O25: legal counts lose nothing to 16 bits, and Build keeps the leaf counts it is given. -/
theorem updateCountsSymbol : Obligations.UpdateCountsSymbol := by
  intro nodes sym hok hs before bumped
  have hupdated := modelOk_update hok hs
  refine ⟨?_, hupdated.1, hupdated⟩
  rw [leafCounts_update hok hs]
  exact (legalCounts_of_modelOk hok).updatedCounts_eq hs

/-- Settles O26: the total is 4095 after 3822 symbols, so the next one rescales. -/
theorem firstRescale : Obligations.FirstRescale := by
  refine fun syms h => ⟨modelAfter_sum h, fun hlen => ?_⟩
  obtain rfl | ⟨syms, sym, rfl⟩ := List.eq_nil_or_concat syms
  · simp at hlen
  · rw [List.concat_eq_append] at h hlen ⊢
    rw [List.forall_mem_append, List.forall_mem_singleton] at h
    rw [List.length_append, List.length_singleton] at hlen
    have hok := modelOk_modelAfter h.1
    have hsum := modelAfter_sum h.1 (by omega)
    have hhalf := ((legalCounts_of_modelOk hok).updatedCounts_sum h.2).2
      (by rw [hsum]; change 273 + _ = _; omega)
    rw [modelAfter_concat, leafCounts_update hok h.2]
    change 2 * _ ≤ 4096 + 273 at hhalf
    omega

end

section
/-! SUPPORT. The initial model (41_huffman R154): with equal counts Build takes the nodes in the order of their indices,
so that with the nodes numbered from ROOT = 1 downward the children of x are 2 x and 2 x + 1. -/

namespace Sys2Proof.Machine

theorem legalCounts_init : LegalCounts (List.replicate Config.nsym Config.initCount) :=
  initModel_leafCounts ▸ legalCounts_of_modelOk modelOk_initModel

theorem builtCount_init_leaf {n : Nat} (hn : n < Config.nsym) :
    builtCount (List.replicate Config.nsym Config.initCount) n = 1 := by
  rw [builtCount, if_pos hn, List.getD_eq_getElem?_getD, List.getElem?_replicate_of_lt hn]
  rfl

namespace LegalCounts
variable {counts : List Nat} (h : LegalCounts counts)
include h

/-- No node that Build makes has count 0. -/
theorem one_le_builtCount {n : Nat} (hn : n < Config.nnode) : 1 ≤ builtCount counts n := by
  induction n using Nat.strongRecOn with
  | ind n ih =>
    by_cases hleaf : n < Config.nsym
    · have hlt : n < counts.length := h.length ▸ hleaf
      rw [builtCount, if_pos hleaf, List.getD_eq_getElem _ _ hlt]
      exact h.pos _ (List.getElem_mem hlt)
    · obtain ⟨i, rfl⟩ := Nat.exists_eq_add_of_le (Nat.le_of_not_lt hleaf)
      obtain ⟨m, hm⟩ := h.exists_merge (Nat.le_add_right _ _) hn
      rw [Nat.add_sub_cancel_left] at hm
      have hlt := (mergesOf_takes_older h.length hm).1
      rw [builtCount_merge hm, (h.merge_count hm).1]
      exact Nat.le_add_right_of_le (ih _ hlt (hlt.trans hn))

theorem builtCount_mono_inner {i j : Nat} (hij : i < j) (hj : Config.nsym + j < Config.nnode) :
    builtCount counts (Config.nsym + i) ≤ builtCount counts (Config.nsym + j) := by
  obtain ⟨m, hm⟩ := h.exists_merge (n := Config.nsym + i) (Nat.le_add_right _ _) (by omega)
  obtain ⟨m', hm'⟩ := h.exists_merge (Nat.le_add_right _ _) hj
  rw [Nat.add_sub_cancel_left] at hm hm'
  rw [builtCount_merge hm, builtCount_merge hm']
  exact h.merge_count_mono hij hm hm'

end LegalCounts

/-- In the initial model counts rise with the index. -/
theorem builtCount_init_mono {a b : Nat} (hab : a < b) (hb : b < Config.nnode) :
    builtCount (List.replicate Config.nsym Config.initCount) a ≤
      builtCount (List.replicate Config.nsym Config.initCount) b := by
  by_cases hleaf : a < Config.nsym
  · rw [builtCount_init_leaf hleaf]
    exact legalCounts_init.one_le_builtCount hb
  · obtain ⟨i, rfl⟩ := Nat.exists_eq_add_of_le (Nat.le_of_not_lt hleaf)
    obtain ⟨j, rfl⟩ := Nat.exists_eq_add_of_le ((Nat.le_of_not_lt hleaf).trans hab.le)
    exact legalCounts_init.builtCount_mono_inner (by omega) hb

theorem takenBy_init : takenBy (mergesOf (List.replicate Config.nsym Config.initCount)) = List.range Config.root := by
  have hperm := takenBy_mergesOf_perm legalCounts_init.length
  rw [show List.range Config.nnode = List.range Config.root ++ [Config.root] from List.range_succ,
    List.perm_append_right_iff] at hperm
  refine List.Perm.eq_of_pairwise (fun a b _ _ hab hba => ?_) legalCounts_init.takes_in_order ?_ hperm
  · exact congrArg (fun x => (ofLex x).2) (le_antisymm hab hba)
  · refine List.pairwise_iff_getElem.2 fun i j hi hj hij => ?_
    rw [List.length_range] at hi hj
    rw [List.getElem_range, List.getElem_range, ranksUpTo, Prod.Lex.toLex_le_toLex]
    exact (Nat.lt_or_eq_of_le (builtCount_init_mono hij (Nat.lt_succ_of_lt hj))).imp_right fun heq => ⟨heq, hij.le⟩

/-- Merge i of the initial model takes the nodes 2 i and 2 i + 1. -/
theorem mergesOf_init {i : Nat} (hi : i < 272) :
    (mergesOf (List.replicate Config.nsym Config.initCount))[i]? = some ⟨2 * i, 2 * i + 1,
      builtCount (List.replicate Config.nsym Config.initCount) (Config.nsym + i)⟩ := by
  obtain ⟨m, hm⟩ := legalCounts_init.exists_merge (n := Config.nsym + i) (Nat.le_add_right _ _)
    (by change 273 + i < 545; omega)
  rw [Nat.add_sub_cancel_left] at hm
  obtain ⟨hleft, hright⟩ := takenBy_getElem? hm
  rw [takenBy_init, List.getElem?_range (by change _ < 544; omega), Option.some.injEq] at hleft hright
  rw [hm, builtCount_merge hm, hright, hleft]

/-- Going up from x comes to x / 2, and x even is a RIGHT child. -/
theorem codeFrom_init_succ {fuel x : Nat} (bits : List Bool) (hx : 2 ≤ x) (hmax : x ≤ 545) :
    codeFrom initModel (fuel + 1) (545 - x) bits =
      codeFrom initModel fuel (545 - x / 2) (decide (x % 2 = 0) :: bits) := by
  have hm := mergesOf_init (i := (545 - x) / 2) (by omega)
  have hlt : 545 - x < Config.root := by change _ < 544; omega
  have hp : Config.nsym + (545 - x) / 2 < Config.nnode := by change 273 + _ < 545; omega
  have hup : 545 - x / 2 = Config.nsym + (545 - x) / 2 := by change _ = 273 + _; omega
  have hpar : initModel[545 - x].par.toNat = Config.nsym + (545 - x) / 2 :=
    legalCounts_init.build_par hm (by dsimp only; omega) hlt
  have hright : initModel[Config.nsym + (545 - x) / 2].right.toNat = 2 * ((545 - x) / 2) + 1 :=
    (legalCounts_init.build_children hm hp).2
  rw [hup, codeFrom_succ bits hlt hp hpar, hright,
    decide_eq_decide.2 (show 2 * ((545 - x) / 2) + 1 = 545 - x ↔ x % 2 = 0 by omega)]

/-- The n + 1 low bits of a number are those of its half and its last one. -/
theorem lowBits_succ_div_two {n : Nat} (hn : n < 32) (v : Nat) :
    lowBits (n + 1) (BitVec.ofNat 32 v) = lowBits n (BitVec.ofNat 32 (v / 2)) ++ [decide (v % 2 = 1)] := by
  unfold lowBits
  rw [List.range_succ, List.map_append, List.map_singleton, Nat.add_sub_cancel, Nat.sub_self]
  congr 1
  · refine List.map_congr_left fun i hi => ?_
    have hlt := List.mem_range.1 hi
    rw [BitVec.getLsbD_ofNat, BitVec.getLsbD_ofNat, Nat.testBit_div_two, decide_eq_true (by omega : n - i < 32),
      decide_eq_true (by omega : n - 1 - i < 32), show n - 1 - i + 1 = n - i by omega]
  · rw [BitVec.getLsbD_ofNat, Nat.testBit_zero]
    rfl

/-- The code of x, which has k bits after its leading 1, is these bits inverted. -/
theorem codeFrom_init {k x fuel : Nat} (bits : List Bool) (hlo : 2 ^ k ≤ x) (hhi : x < 2 ^ (k + 1)) (hmax : x ≤ 545)
    (hfuel : k ≤ fuel) : codeFrom initModel fuel (545 - x) bits =
      some (lowBits k (BitVec.ofNat 32 (2 ^ (k + 1) - 1 - x)) ++ bits) := by
  induction k generalizing x fuel bits with
  | zero =>
    obtain rfl : x = 1 := by omega
    exact codeFrom_root _ _ _
  | succ k ih =>
    obtain ⟨fuel, rfl⟩ : ∃ f, fuel = f + 1 := ⟨fuel - 1, by omega⟩
    have hk : k + 1 < 10 := (Nat.pow_lt_pow_iff_right (a := 2) (by omega)).1 ((hlo.trans hmax).trans_lt (by decide))
    rw [Nat.pow_succ] at hlo hhi
    have hpos := Nat.two_pow_pos k
    rw [codeFrom_init_succ bits (by omega) hmax, ih _ (by omega) (by omega) (by omega) (by omega),
      lowBits_succ_div_two (by omega), List.append_assoc, List.singleton_append]
    have hhalf : (2 ^ (k + 1 + 1) - 1 - x) / 2 = 2 ^ (k + 1) - 1 - x / 2 := by rw [Nat.pow_succ]; omega
    have hlast : (2 ^ (k + 1 + 1) - 1 - x) % 2 = 1 ↔ x % 2 = 0 := by rw [Nat.pow_succ]; omega
    rw [hhalf, decide_eq_decide.2 hlast]

theorem code_init {k sym : Nat} (hs : sym < Config.nsym) (hlo : 2 ^ k ≤ 545 - sym) (hhi : 545 - sym < 2 ^ (k + 1))
    (hk : k ≤ Config.nnode) :
    code initModel sym = some (lowBits k (BitVec.ofNat 32 (2 ^ (k + 1) - 1 - (545 - sym)))) := by
  have h := codeFrom_init [] hlo hhi (Nat.sub_le _ _) hk
  rwa [show 545 - (545 - sym) = sym by change sym < 273 at hs; omega, List.append_nil] at h

end Sys2Proof.Machine
end

section
open Sys2Proof
open Sys2Proof.Machine

/-- Settles O23: numbered from ROOT = 1, symbol s is 545 - s, and its code is that number's bits after the leading 1,
inverted. -/
theorem initialCodes : Obligations.InitialCodes := by
  refine ⟨initModel_leafCounts, rfl, fun sym hlo hhi => ?_, fun sym hhi => ?_⟩
  · rw [code_init (k := 8) (by change _ < 273; omega) (by omega) (by omega) (by decide),
      show 2 ^ (8 + 1) - 1 - (545 - sym) = sym - 34 by omega]
  · rw [code_init (k := 9) (by change _ < 273; omega) (by omega) (by omega) (by decide),
      show 2 ^ (9 + 1) - 1 - (545 - sym) = 478 + sym by omega]

end

section
/-! SUPPORT. The commands of AHU, ENCODE and DECODE, in a session of their direction (41_huffman R155, R156). -/

namespace Sys2Proof.Machine

/-! ### ENCODE -/

theorem encodeSymbol_of_code {sym : Nat} {bits : List Bool} {w : Work} (hs : sym < Config.nsym)
    (hcode : code w.ses.nodes sym = some bits) : encodeSymbol sym w = (writeCode bits w).bind fun _ w =>
      .done bits.length { w with ses := { w.ses with nodes := update sym w.ses.nodes } } := by
  rw [encodeSymbol, if_neg (Nat.not_le.2 hs), hcode]

theorem bitsAppended_with_nodes {ses ses' : Session} {obuf obuf' : Memory} {bits : List Bool}
    (h : bitsAppended ses obuf bits ses' obuf') (nodes : NodeMemory) :
    bitsAppended ses obuf bits { ses' with nodes := nodes } obuf' := h

section
variable {s : State} {ses : Session} {sym : Word}

theorem exec_encode_eq (sym : Word) (h : s.encSession ses) : exec (.encode sym) s =
    settle ((encodeSymbol sym.toNat ⟨ses, s.obuf⟩).bind fun len w => .done (BitVec.ofNat 32 len, 0) w) s := by
  rw [exec, execEncode, inSession_live h.1 h.2]

theorem exec_encode_invalid (h : s.encSession ses) (hs : Config.nsym ≤ sym.toNat) :
    exec (.encode sym) s = .next (fail .invalidSymbol s) := by
  rw [exec_encode_eq sym h, encodeSymbol, if_pos hs]
  rfl

/-- ENCODE with room (R155). -/
theorem exec_encode_appends {bits : List Bool} (h : s.encSession ses) (hclear : unplacedClear ses)
    (hs : sym.toNat < Config.nsym) (hcode : code ses.nodes sym.toNat = some bits) (hroom : bitRoom ses bits.length) :
    ∃ ses' obuf', exec (.encode sym) s =
        .next { s with session := some ses', obuf := obuf', resp := okResponse bits.length 0 } ∧
      bitsAppended ses s.obuf bits ses' obuf' ∧
      ses' = { ses with
        olen := ses'.olen, wacc := ses'.wacc, wnb := ses'.wnb, nodes := update sym.toNat ses.nodes } := by
  obtain ⟨w, hw⟩ := writeCode_room (w := ⟨ses, s.obuf⟩) hroom
  have hframe : OnlyWriterMoved ses w.ses := (writeCode_frame hw).1
  have hnodes : w.ses.nodes = ses.nodes := by rw [hframe]
  have happended := writeCode_appends hw hclear
  refine ⟨{ w.ses with nodes := update sym.toNat ses.nodes }, w.obuf, ?_, bitsAppended_with_nodes happended _, ?_⟩
  · rw [exec_encode_eq sym h, encodeSymbol_of_code (w := ⟨ses, s.obuf⟩) hs hcode, hw, bind_done, bind_done, hnodes]
    rfl
  · conv_lhs => rw [hframe]

theorem exec_encode_full {bits : List Bool} (h : s.encSession ses) (hs : sym.toNat < Config.nsym)
    (hcode : code ses.nodes sym.toNat = some bits) (hroom : ¬ bitRoom ses bits.length) :
    exec (.encode sym) s = .next (fail .allocationFailure s) := by
  rw [exec_encode_eq sym h, encodeSymbol_of_code hs hcode, writeCode_full hroom]
  rfl

end

/-! ### DECODE -/

/-- The count bits at the read cursor, none of them past the end of the input, lead from node n to this leaf. -/
structure WayRead (ibuf : Memory) (ses : Session) (count n leaf : Nat) : Prop where
  way : walkFrom ses.nodes (ibufBits ibuf (readPos ses) count) n = some leaf
  inside : count = 0 ∨ readPos ses + count ≤ 8 * ses.ilen.toNat

/-- The walk of DECODE that succeeds has followed the bits it has read (R156). -/
theorem decodeWalk_follows {ibuf : Memory} {left n : Nat} {w w' : Work} {r : Nat × Nat}
    (h : decodeWalk ibuf left n w = .done r w') : WayRead ibuf w.ses (left - r.2) n r.1 := by
  induction left generalizing n w with
  | zero =>
    unfold decodeWalk at h
    split at h <;> cases h
    exact ⟨rfl, .inl rfl⟩
  | succ left ih =>
    by_cases hleaf : n < Config.nsym
    · rw [decodeWalk_leaf ibuf _ w hleaf] at h
      cases h
      rw [Nat.sub_self]
      exact ⟨rfl, .inl rfl⟩
    cases hnode : w.ses.nodes[n]? with
    | none =>
      rw [decodeWalk, if_neg hleaf, hnode] at h
      cases h
    | some node =>
      rw [decodeWalk_inner ibuf left (Nat.le_of_not_lt hleaf) hnode] at h
      rcases readBits_cases ibuf 1 w with ⟨hunread, -⟩ | ⟨-, e⟩
      · have hroom : readPos w.ses + 1 ≤ 8 * w.ses.ilen.toNat := by
          unfold unreadBits at hunread
          unfold readPos
          omega
        obtain ⟨ses₁, hread, hmoved⟩ := readBits_reads_bit (ibuf := ibuf) hroom
        rw [hread, bind_done] at h
        have hle := (decodeWalk_frame h).2.2.2
        obtain ⟨hway, hinside⟩ := ih h
        rw [hmoved.pos, hmoved.nodes] at hway
        rw [hmoved.pos, hmoved.ilen] at hinside
        rw [Nat.succ_sub hle]
        refine ⟨?_, .inr (by omega)⟩
        rw [ibufBits_succ, walkFrom, hnode]
        cases hbit : ibufBit ibuf (readPos w.ses) <;> rw [hbit] at hway <;> exact hway
      · rw [e] at h
        cases h

/-- DECODE that succeeds has read a code that stands at the read cursor (R156, R158). -/
theorem decodeSymbol_finds_code {ibuf : Memory} {w w' : Work} {r : Nat × Nat} (htree : isCodeTree w.ses.nodes)
    (h : decodeSymbol ibuf w = .done r w') : r.1 < Config.nsym ∧
      code w.ses.nodes r.1 = some (ibufBits ibuf (readPos w.ses) r.2) ∧
      readPos w.ses + r.2 ≤ 8 * w.ses.ilen.toNat := by
  have hpos := (decodeSymbol_read h).2
  obtain ⟨q, w₁, hwalk, hdone⟩ := bind_eq_done.1 h
  obtain ⟨hway, hinside⟩ := decodeWalk_follows hwalk
  have hs := (decodeWalk_frame hwalk).2.2.1
  cases hdone
  exact ⟨hs, (code_eq_some_iff htree hs).2 hway, hinside.resolve_left (Nat.ne_of_gt hpos)⟩

section
variable {s : State} {ses : Session}

theorem exec_decode_eq (h : s.decSession ses) : exec .decode s =
    settle ((decodeSymbol s.ibuf ⟨ses, s.obuf⟩).bind fun r w =>
      .done (BitVec.ofNat 32 r.1, BitVec.ofNat 32 r.2) w) s := by
  rw [exec, execDecode, inSession_live h.1 h.2]

/-- DECODE where the code of a symbol stands at the read cursor (R156). -/
theorem exec_decode_reads {sym : Nat} {bits : List Bool} (h : s.decSession ses) (hok : modelOk ses.nodes)
    (hs : sym < Config.nsym) (hcode : code ses.nodes sym = some bits)
    (hroom : readPos ses + bits.length ≤ 8 * ses.ilen.toNat)
    (hbits : ibufBits s.ibuf (readPos ses) bits.length = bits) :
    ∃ ses', exec .decode s = .next { s with session := some ses', resp := okResponse sym bits.length } ∧
      SymbolRead sym bits.length ses ses' := by
  obtain ⟨ses', hdecode, hread⟩ := decodeSymbol_reads (w := ⟨ses, s.obuf⟩) (isCodeTree_of_modelOk hok) hs hcode hroom
    hbits
  exact ⟨ses', by rw [exec_decode_eq h, hdecode]; rfl, hread⟩

/-- DECODE where no whole code is left (R156). -/
theorem exec_decode_short (h : s.decSession ses) (hok : modelOk ses.nodes)
    (hnone : ∀ sym bits, sym < Config.nsym → code ses.nodes sym = some bits →
      readPos ses + bits.length ≤ 8 * ses.ilen.toNat → ibufBits s.ibuf (readPos ses) bits.length ≠ bits) :
    exec .decode s = .next (fail .unexpectedEndOfStream s) := by
  have htree := isCodeTree_of_modelOk hok
  rw [exec_decode_eq h]
  cases hdecode : decodeSymbol s.ibuf ⟨ses, s.obuf⟩ with
  | done r w =>
    obtain ⟨hs, hcode, hroom⟩ := decodeSymbol_finds_code htree hdecode
    refine absurd ?_ (hnone r.1 _ hs hcode ?_) <;> rw [ibufBits_length]
    exact hroom
  | raise k =>
    obtain rfl := decodeSymbol_raise_of_isCodeTree htree hdecode
    rfl
  | stuck x => exact absurd hdecode (decodeSymbol_not_stuck _ _ x)

end

end Sys2Proof.Machine
end

section
open Sys2Proof
open Sys2Proof.Machine

/-- Settles O28: ENCODE writes the bits of the code one after the other, and each byte they fill needs room. -/
theorem encodeWritesCode : Obligations.EncodeWritesCode := fun _ _ =>
  ⟨fun hlacks => exec_rejects (isIn_eq_false_of_lacks hlacks), fun _ henc hs => exec_encode_invalid henc hs,
    fun _ _ henc hclear hs hcode hroom => exec_encode_appends henc hclear hs hcode hroom,
    fun _ _ henc hs hcode hfull => exec_encode_full henc hs hcode hfull⟩

/-- Settles O29: DECODE walks the one way that the bits at the read cursor take, and that is the code of its leaf. -/
theorem decodeReadsSymbol : Obligations.DecodeReadsSymbol := by
  refine fun s => ⟨fun hlacks => exec_rejects (isIn_eq_false_of_lacks hlacks),
    fun ses sym bits hdec hok hs hcode hroom hbits => ?_,
    fun ses hdec hok hnone => exec_decode_short hdec hok hnone⟩
  obtain ⟨ses', hexec, hread⟩ := exec_decode_reads hdec hok hs hcode hroom hbits
  exact ⟨ses', hexec, hread.pos, hread.frame⟩

end

section
/-! SUPPORT. A stream of symbols and raw fields, written in an ENC session and read back in a DEC session over the bytes
written: what each item puts into the stream, and what it makes of the node memory, is the same on both sides
(41_huffman R157). -/

namespace Sys2Proof.Machine

/-! ### Items -/

/-- The bits of an item, in the tree as it stands before it. -/
def StreamItem.bits (nodes : NodeMemory) : StreamItem → List Bool
  | .symbol sym => (code nodes sym.toNat).getD []
  | .field value count => lowBits count.toNat value

/-- The node memory after an item. -/
def StreamItem.modelNext (nodes : NodeMemory) : StreamItem → NodeMemory
  | .symbol sym => update sym.toNat nodes
  | .field _ _ => nodes

/-- The answer of the command that writes an item. -/
def StreamItem.written (nodes : NodeMemory) : StreamItem → Option Response
  | .symbol sym => okResponse (bits nodes (.symbol sym)).length 0
  | .field _ _ => okResponse 0 0

/-- The bits of a list of items, each in the tree its predecessors leave. -/
def itemsBits : NodeMemory → List StreamItem → List Bool
  | _, [] => []
  | nodes, item :: rest => item.bits nodes ++ itemsBits (item.modelNext nodes) rest

/-- The answers of the commands that write the items. -/
def itemsWritten : NodeMemory → List StreamItem → List (Option Response)
  | _, [] => []
  | nodes, item :: rest => item.written nodes :: itemsWritten (item.modelNext nodes) rest

/-- The node memory after a list of items. -/
def itemsModel (nodes : NodeMemory) (items : List StreamItem) : NodeMemory := items.foldl StreamItem.modelNext nodes

theorem itemsModel_eq_foldl_update (nodes : NodeMemory) (items : List StreamItem) :
    itemsModel nodes items = (symbolsOf items).foldl (fun nodes sym => update sym nodes) nodes := by
  induction items generalizing nodes with
  | nil => rfl
  | cons item items ih =>
    cases item with
    | symbol sym =>
      rw [itemsModel, List.foldl_cons, StreamItem.modelNext, symbolsOf, List.foldl_cons, ← ih]
      rfl
    | field value count =>
      rw [itemsModel, List.foldl_cons, StreamItem.modelNext, symbolsOf, ← ih]
      rfl

theorem itemsModel_initModel (items : List StreamItem) : itemsModel initModel items = modelAfter (symbolsOf items) :=
  itemsModel_eq_foldl_update initModel items

theorem itemsBits_append (nodes : NodeMemory) (xs ys : List StreamItem) :
    itemsBits nodes (xs ++ ys) = itemsBits nodes xs ++ itemsBits (itemsModel nodes xs) ys := by
  induction xs generalizing nodes with
  | nil => rfl
  | cons x xs ih => rw [List.cons_append, itemsBits, itemsBits, ih, List.append_assoc]; rfl

theorem itemsWritten_append (nodes : NodeMemory) (xs ys : List StreamItem) :
    itemsWritten nodes (xs ++ ys) = itemsWritten nodes xs ++ itemsWritten (itemsModel nodes xs) ys := by
  induction xs generalizing nodes with
  | nil => rfl
  | cons x xs ih => rw [List.cons_append, itemsWritten, itemsWritten, ih]; rfl

theorem itemsWritten_ok {nodes : NodeMemory} {items : List StreamItem} {o : Option Response}
    (h : o ∈ itemsWritten nodes items) : ∃ r, o = some r ∧ r.rsp = .ok := by
  induction items generalizing nodes with
  | nil => cases h
  | cons item items ih =>
    rcases List.mem_cons.1 h with rfl | h
    · cases item <;> exact ⟨_, rfl, rfl⟩
    · exact ih h

/-- An answer for each item, so that what follows the answers is not read back. -/
theorem zipWith_readBack_append (nodes : NodeMemory) (items : List StreamItem) (rest : List (Option Response)) :
    List.zipWith StreamItem.readBack items (itemsWritten nodes items ++ rest) =
      List.zipWith StreamItem.readBack items (itemsWritten nodes items) := by
  induction items generalizing nodes with
  | nil => rfl
  | cons item items ih => exact congrArg (List.cons _) (ih _)

theorem toNat_lt_of_ok {sym : Word} (h : (StreamItem.symbol sym).ok = true) : sym.toNat < Config.nsym :=
  of_decide_eq_true h

theorem toNat_le_of_ok {value count : Word} (h : (StreamItem.field value count).ok = true) : count.toNat ≤ 32 :=
  of_decide_eq_true h

section
variable {nodes : NodeMemory} (hok : modelOk nodes)
include hok

theorem code_eq_bits {sym : Word} (hs : sym.toNat < Config.nsym) :
    code nodes sym.toNat = some ((StreamItem.symbol sym).bits nodes) := by
  obtain ⟨bits, hcode, -⟩ := exists_code hok hs
  rw [StreamItem.bits, hcode]
  rfl

theorem modelOk_modelNext {item : StreamItem} (hitem : item.ok = true) : modelOk (item.modelNext nodes) := by
  cases item with
  | symbol sym => exact modelOk_update hok (toNat_lt_of_ok hitem)
  | field value count => exact hok

theorem bits_length_le {item : StreamItem} (hitem : item.ok = true) : (item.bits nodes).length ≤ item.bound := by
  cases item with
  | symbol sym =>
    obtain ⟨bits, hcode, -, hlen, -⟩ := exists_code hok (toNat_lt_of_ok hitem)
    obtain rfl := Option.some.inj ((code_eq_bits hok (toNat_lt_of_ok hitem)).symm.trans hcode)
    exact hlen
  | field value count => exact (lowBits_length _ _).le

end

theorem itemsBits_length_le {nodes : NodeMemory} {items : List StreamItem} (hok : modelOk nodes)
    (hitems : ∀ item ∈ items, item.ok = true) :
    (itemsBits nodes items).length ≤ (items.map StreamItem.bound).sum := by
  induction items generalizing nodes with
  | nil => exact Nat.le_refl 0
  | cons item items ih =>
    obtain ⟨hitem, hitems⟩ := List.forall_mem_cons.1 hitems
    rw [itemsBits, List.length_append, List.map_cons, List.sum_cons]
    exact Nat.add_le_add (bits_length_le hok hitem) (ih (modelOk_modelNext hok hitem) hitems)

/-! ### Writing -/

/-- What writing an item does to an ENC session. -/
structure ItemWritten (item : StreamItem) (ses : Session) (obuf : Memory) (ses' : Session) (obuf' : Memory) : Prop where
  appended : bitsAppended ses obuf (item.bits ses.nodes) ses' obuf'
  frame : ses' = { ses with
    olen := ses'.olen, wacc := ses'.wacc, wnb := ses'.wnb, nodes := item.modelNext ses.nodes }

theorem exec_writer {s : State} {ses : Session} {item : StreamItem} (h : s.encSession ses) (hclear : unplacedClear ses)
    (hok : modelOk ses.nodes) (hitem : item.ok = true) (hroom : bitRoom ses (item.bits ses.nodes).length) :
    ∃ ses' obuf', exec item.writer s =
        .next { s with session := some ses', obuf := obuf', resp := item.written ses.nodes } ∧
      ItemWritten item ses s.obuf ses' obuf' := by
  cases item with
  | symbol sym =>
    have hs := toNat_lt_of_ok hitem
    obtain ⟨ses', obuf', hexec, happended, hframe⟩ := exec_encode_appends h hclear hs (code_eq_bits hok hs) hroom
    exact ⟨ses', obuf', hexec, happended, hframe⟩
  | field value count =>
    have hroom : bitRoom ses count.toNat := by rwa [StreamItem.bits, lowBits_length] at hroom
    obtain ⟨ses', obuf', hexec, happended, hframe⟩ :=
      exec_wrbits_appends value h hclear (toNat_le_of_ok hitem) hroom
    exact ⟨ses', obuf', hexec, happended, hframe⟩

/-- An ENC session of this capacity is open, exactly these bits have been written in it, and this is its model. -/
def State.encoded (s : State) (ocap : Word) (bits : List Bool) (nodes : NodeMemory) : Prop :=
  ∃ ses, s.encSession ses ∧ ses.ocap = ocap ∧ writtenBits ses s.obuf = bits ∧ unplacedClear ses ∧ ses.nodes = nodes

theorem State.encoded.wroteStream {s : State} {ocap : Word} {bits : List Bool} {nodes : NodeMemory}
    (h : s.encoded ocap bits nodes) : s.wroteStream ocap bits := by
  obtain ⟨ses, henc, hocap, hbits, hclear, -⟩ := h
  exact ⟨ses, henc, hocap, hbits, hclear⟩

/-- A stream that stays within OCAP has room for its next bits. -/
theorem bitRoom_of_length {ses : Session} {obuf : Memory} {n : Nat}
    (h : (writtenBits ses obuf).length + n ≤ 8 * ses.ocap.toNat) : bitRoom ses n := by
  rw [writtenBits_length, writePos] at h
  unfold bitRoom
  omega

theorem exec_writer_encoded {s : State} {ocap : Word} {bits : List Bool} {nodes : NodeMemory} {item : StreamItem}
    (h : s.encoded ocap bits nodes) (hok : modelOk nodes) (hitem : item.ok = true)
    (hroom : bits.length + (item.bits nodes).length ≤ 8 * ocap.toNat) :
    ∃ t, exec item.writer s = .next t ∧ t.resp = item.written nodes ∧
      t.encoded ocap (bits ++ item.bits nodes) (item.modelNext nodes) := by
  obtain ⟨ses, henc, rfl, rfl, hclear, rfl⟩ := h
  obtain ⟨ses', obuf', hexec, ⟨hbits, -, hclear', -⟩, hframe⟩ :=
    exec_writer henc hclear hok hitem (bitRoom_of_length hroom)
  refine ⟨_, hexec, rfl, ses', ⟨rfl, ?_⟩, ?_, hbits, hclear', ?_⟩ <;> rw [hframe]
  exact henc.2

theorem runAll_writers {items : List StreamItem} {s : State} {ocap : Word} {bits : List Bool} {nodes : NodeMemory}
    (h : s.encoded ocap bits nodes) (hok : modelOk nodes) (hitems : ∀ item ∈ items, item.ok = true)
    (hroom : bits.length + (itemsBits nodes items).length ≤ 8 * ocap.toNat) :
    ∃ t, runAll (items.map StreamItem.writer) s = some (t, itemsWritten nodes items) ∧
      t.encoded ocap (bits ++ itemsBits nodes items) (itemsModel nodes items) := by
  induction items generalizing s bits nodes with
  | nil => exact ⟨s, rfl, by rwa [itemsBits, List.append_nil]⟩
  | cons item items ih =>
    obtain ⟨hitem, hitems⟩ := List.forall_mem_cons.1 hitems
    rw [itemsBits, List.length_append] at hroom
    obtain ⟨s₁, hexec, hresp, h₁⟩ := exec_writer_encoded h hok hitem (by omega)
    obtain ⟨t, hrun, ht⟩ := ih h₁ (modelOk_modelNext hok hitem) hitems (by rw [List.length_append]; omega)
    refine ⟨t, by rw [itemsWritten, ← hresp]; exact runAll_cons hexec hrun, ?_⟩
    rwa [itemsBits, ← List.append_assoc]

/-- INITE and the writers of the items (R157). -/
theorem runAll_inite_writers {items : List StreamItem} (ilen : Word) {ocap : Word} (s : State)
    (hitems : ∀ item ∈ items, item.ok = true) (hroom : (itemsBits initModel items).length ≤ 8 * ocap.toNat) :
    ∃ t, runAll (.inite ilen ocap :: items.map StreamItem.writer) s =
        some (t, okResponse 0 0 :: itemsWritten initModel items) ∧
      t.encoded ocap (itemsBits initModel items) (itemsModel initModel items) := by
  have hopen : (answer 0 0 (openSession .enc ilen ocap s)).encoded ocap [] initModel :=
    ⟨initSession .enc ilen ocap, ⟨rfl, rfl⟩, rfl, rfl, (sessionInv_initSession .enc ilen ocap).accumulator, rfl⟩
  obtain ⟨t, hrun, ht⟩ := runAll_writers hopen modelOk_initModel hitems (by rwa [List.length_nil, Nat.zero_add])
  exact ⟨t, runAll_cons rfl hrun, ht⟩

/-- FLUSH with room answers OK and pads the stream. -/
theorem exec_flush_answers_ok {s : State} {ocap : Word} {bits : List Bool} (h : s.wroteStream ocap bits)
    (hroom : bits.length ≤ 8 * ocap.toNat) :
    ∃ t r, exec .flush s = .next t ∧ t.resp = some r ∧ r.rsp = .ok ∧
      t.wroteStream ocap (bits ++ zeroPadding bits.length) := by
  obtain ⟨t, hexec, ht⟩ := exec_flush_wroteStream h (by omega)
  obtain ⟨ses, henc, -⟩ := h
  obtain ⟨ses', henc', -⟩ := id ht
  obtain ⟨_, w, -, -, hresp⟩ := settle_open ((exec_flush_eq henc).symm.trans hexec) henc'.1
  exact ⟨t, _, hexec, hresp, rfl, ht⟩

/-! ### Reading -/

/-- What reading an item does to a DEC session. -/
structure ItemRead (item : StreamItem) (ses ses' : Session) : Prop where
  frame : ses' = { ses with rbyte := ses'.rbyte, rbit := ses'.rbit, nodes := item.modelNext ses.nodes }
  pos : readPos ses' = readPos ses + (item.bits ses.nodes).length

/-- The reader of an item, where the item's bits stand at the read cursor, answers what its writer answered. -/
theorem exec_reader {s : State} {ses : Session} {item : StreamItem} (h : s.decSession ses) (hok : modelOk ses.nodes)
    (hitem : item.ok = true) (hroom : readPos ses + (item.bits ses.nodes).length ≤ 8 * ses.ilen.toNat)
    (hbits : ibufBits s.ibuf (readPos ses) (item.bits ses.nodes).length = item.bits ses.nodes) :
    ∃ ses', exec item.reader s =
        .next { s with session := some ses', resp := item.readBack (item.written ses.nodes) } ∧
      ItemRead item ses ses' := by
  cases item with
  | symbol sym =>
    have hs := toNat_lt_of_ok hitem
    obtain ⟨ses', hexec, hread⟩ := exec_decode_reads h hok hs (code_eq_bits hok hs) hroom hbits
    have hresp : okResponse sym.toNat ((StreamItem.symbol sym).bits ses.nodes).length =
        (StreamItem.symbol sym).readBack ((StreamItem.symbol sym).written ses.nodes) := by
      rw [okResponse, BitVec.ofNat_toNat, BitVec.setWidth_eq]
      rfl
    exact ⟨ses', hresp ▸ hexec, hread.frame, hread.pos⟩
  | field value count =>
    have hlen : ((StreamItem.field value count).bits ses.nodes).length = count.toNat := lowBits_length _ _
    rw [hlen] at hroom hbits
    obtain ⟨ses', hexec, hmoved⟩ := exec_rdbits_reads h (toNat_le_of_ok hitem) hroom
    rw [hbits, StreamItem.bits, bitsToNat_lowBits] at hexec
    exact ⟨ses', hexec, hmoved.frame, by rw [hlen]; exact hmoved.pos⟩

theorem runAll_readers {items : List StreamItem} {s : State} {ses : Session} (h : s.decSession ses)
    (hok : modelOk ses.nodes) (hitems : ∀ item ∈ items, item.ok = true)
    (hroom : readPos ses + (itemsBits ses.nodes items).length ≤ 8 * ses.ilen.toNat)
    (hbits : ibufBits s.ibuf (readPos ses) (itemsBits ses.nodes items).length = itemsBits ses.nodes items) :
    ∃ t ses', runAll (items.map StreamItem.reader) s =
        some (t, List.zipWith StreamItem.readBack items (itemsWritten ses.nodes items)) ∧
      t.session = some ses' ∧ ses'.nodes = itemsModel ses.nodes items := by
  induction items generalizing s ses with
  | nil => exact ⟨s, ses, rfl, h.1, rfl⟩
  | cons item items ih =>
    obtain ⟨hitem, hitems⟩ := List.forall_mem_cons.1 hitems
    rw [itemsBits, List.length_append] at hroom hbits
    rw [ibufBits_add] at hbits
    obtain ⟨hfirst, hrest⟩ := List.append_inj hbits (ibufBits_length _ _ _)
    obtain ⟨ses₁, hexec, hframe, hpos⟩ := exec_reader h hok hitem (by omega) hfirst
    have hnodes : ses₁.nodes = item.modelNext ses.nodes := by rw [hframe]
    have hilen : ses₁.ilen = ses.ilen := by rw [hframe]
    have hdir : ses₁.dir = .dec := by rw [hframe]; exact h.2
    obtain ⟨t, ses', hrun, ht, hmodel⟩ := ih (s := { s with
        session := some ses₁, resp := item.readBack (item.written ses.nodes) }) (ses := ses₁) ⟨rfl, hdir⟩
      (by rw [hnodes]; exact modelOk_modelNext hok hitem) hitems (by rw [hpos, hnodes, hilen]; omega)
      (by rw [hpos, hnodes]; exact hrest)
    rw [hnodes] at hrun hmodel
    exact ⟨t, ses', runAll_cons hexec hrun, ht, hmodel⟩

theorem ibufBits_prefix {ibuf : Memory} {p n : Nat} {xs ys : List Bool} (h : ibufBits ibuf p n = xs ++ ys) :
    xs.length ≤ n ∧ ibufBits ibuf p xs.length = xs := by
  have hle : xs.length ≤ n := by
    rw [← ibufBits_length ibuf p n, h, List.length_append]
    exact Nat.le_add_right _ _
  refine ⟨hle, ?_⟩
  rw [← Nat.add_sub_cancel' hle, ibufBits_add] at h
  exact (List.append_inj h (ibufBits_length _ _ _)).1

/-- INITD over bytes that begin with the items, and the readers of the items (R157). -/
theorem runAll_initd_readers {items : List StreamItem} (ilen ocap : Word) (s : State)
    (hitems : ∀ item ∈ items, item.ok = true) (hroom : (itemsBits initModel items).length ≤ 8 * ilen.toNat)
    (hbits : ibufBits s.ibuf 0 (itemsBits initModel items).length = itemsBits initModel items) :
    ∃ t ses, runAll (.initd ilen ocap :: items.map StreamItem.reader) s =
        some (t, okResponse 0 0 :: List.zipWith StreamItem.readBack items (itemsWritten initModel items)) ∧
      t.session = some ses ∧ ses.nodes = itemsModel initModel items := by
  obtain ⟨opened, hinitd, hdec, hibuf, hresp⟩ := exec_initd_decSession ilen ocap s
  obtain ⟨t, ses, hrun, ht, hmodel⟩ := runAll_readers hdec modelOk_initModel hitems
    (by rw [readPos_initSession, Nat.zero_add]; exact hroom) (by rw [hibuf]; exact hbits)
  exact ⟨t, ses, hresp ▸ runAll_cons hinitd hrun, ht, hmodel⟩

end Sys2Proof.Machine
end

section
open Sys2Proof
open Sys2Proof.Machine

/-- Settles O30: writer and reader of an item agree on its bits and on the model after it, so the reader of the first j
items finds their bits at the start of the stream. -/
theorem decoderInLockstep : Obligations.DecoderInLockstep := by
  intro s ilen ocap items hitems hocap
  have hroom := (itemsBits_length_le modelOk_initModel hitems).trans hocap
  obtain ⟨t₀, hwrite, hencoded⟩ := runAll_inite_writers ilen s hitems hroom
  obtain ⟨t, r, hflush, hresp, hrsp, hstream⟩ := exec_flush_answers_ok hencoded.wroteStream hroom
  obtain ⟨ses, hses, holen, hstored⟩ := wroteStream_padded hstream
  refine ⟨t, okResponse 0 0 :: (itemsWritten initModel items ++ [t.resp]), ses,
    runAll_append hwrite (runAll_cons hflush rfl), fun o ho => ?_, hses, fun j _ => ?_⟩
  · rcases List.mem_cons.1 ho with rfl | ho
    · exact ⟨_, rfl, rfl⟩
    rcases List.mem_append.1 ho with ho | ho
    · exact itemsWritten_ok ho
    · exact ⟨r, (List.mem_singleton.1 ho).trans hresp, hrsp⟩
  have hfirst : ∀ item ∈ items.take j, item.ok = true := fun item hitem => hitems item (List.mem_of_mem_take hitem)
  have hbits := itemsBits_append initModel (items.take j) (items.drop j)
  have hwritten := itemsWritten_append initModel (items.take j) (items.drop j)
  rw [List.take_append_drop] at hbits hwritten
  have hlen := congrArg List.length hbits
  rw [List.length_append] at hlen
  refine ⟨?_, fun s' ocap' hcarried => ?_⟩
  · obtain ⟨t₁, hrun, ses₁, henc, -, -, -, hmodel⟩ := runAll_inite_writers ilen (ocap := ocap) s hfirst (by omega)
    exact ⟨t₁, ses₁, _, hrun, henc.1, hmodel.trans (itemsModel_initModel _)⟩
  · have hread := (ibufBits_of_carriedOver hcarried).trans hstored
    rw [hbits, List.append_assoc] at hread
    obtain ⟨hinside, hfound⟩ := ibufBits_prefix hread
    obtain ⟨t₂, ses₂, hrun, hses₂, hmodel⟩ := runAll_initd_readers ses.olen ocap' s' hfirst hinside hfound
    refine ⟨t₂, ses₂, ?_, hses₂, hmodel.trans (itemsModel_initModel _)⟩
    rw [hrun, List.drop_succ_cons, List.drop_zero, hwritten, List.append_assoc, zipWith_readBack_append]

end

section
/-! SUPPORT. What MatchLen counts and which match FINDMATCH answers (42_matcher R180, R181, R186). -/

namespace Sys2Proof.Machine

/-- A command that every session of its direction accepts is Rejected where there is none (R206, R255). -/
theorem exec_rejects_lacks {i : Instr} {d : Dir} {s : State} (hi : accepted i s = s.isIn d) (h : s.lacks d) :
    exec i s = .next { s with resp := some ⟨.rejected, 0, 0⟩ } :=
  exec_rejects (hi.trans (isIn_eq_false_of_lacks h))

section
variable (ibuf : Memory) (ses : Session)

/-! ### MatchLen -/

/-- The loop of MatchLen goes on over equal bytes, and where it stops early the bytes differ. -/
theorem matchFrom_counts (d left l : Nat) :
    (∀ j, l ≤ j → j < matchFrom ibuf ses d left l → sourceByte ibuf ses d j = ibufByte ibuf (ses.ipos.toNat + j)) ∧
    (matchFrom ibuf ses d left l < l + left → sourceByte ibuf ses d (matchFrom ibuf ses d left l) ≠
      ibufByte ibuf (ses.ipos.toNat + matchFrom ibuf ses d left l)) := by
  induction left generalizing l with
  | zero => exact ⟨fun j hlo hhi => absurd hhi (Nat.not_lt.2 hlo), fun h => absurd h (Nat.lt_irrefl l)⟩
  | succ left ih =>
    by_cases heq : sourceByte ibuf ses d l = ibufByte ibuf (ses.ipos.toNat + l)
    · obtain ⟨hequal, hdiffer⟩ := ih (l + 1)
      rw [matchFrom, if_pos heq]
      refine ⟨fun j hlo hhi => ?_, fun h => hdiffer (by omega)⟩
      obtain rfl | hlt := Nat.eq_or_lt_of_le hlo
      · exact heq
      · exact hequal j hlt hhi
    · rw [matchFrom, if_neg heq]
      exact ⟨fun j hlo hhi => absurd hhi (Nat.not_lt.2 hlo), fun _ => heq⟩

theorem matchLen_equal {d j : Nat} (hj : j < matchLen ibuf ses d) :
    sourceByte ibuf ses d j = ibufByte ibuf (ses.ipos.toNat + j) :=
  (matchFrom_counts ibuf ses d _ 0).1 j (Nat.zero_le j) hj

theorem matchLen_differs {d : Nat} (h : matchLen ibuf ses d < min 18 (ses.ilen.toNat - ses.ipos.toNat)) :
    sourceByte ibuf ses d (matchLen ibuf ses d) ≠ ibufByte ibuf (ses.ipos.toNat + matchLen ibuf ses d) :=
  (matchFrom_counts ibuf ses d _ 0).2 (by rwa [Nat.zero_add])

/-! ### FINDMATCH -/

/-- Among the distances below a bound, best is the longest match and the nearest of them; (0, 0) where nothing
matches. -/
structure BestBelow (bound : Nat) (best : Nat × Nat) : Prop where
  longest : ∀ d, 1 ≤ d → d < bound → matchLen ibuf ses d ≤ best.1
  found : best.1 ≠ 0 → 1 ≤ best.2 ∧ best.2 < bound ∧ matchLen ibuf ses best.2 = best.1
  nearest : ∀ d, 1 ≤ d → d < best.2 → matchLen ibuf ses d < best.1

theorem bestBelow_none : BestBelow ibuf ses 1 (0, 0) where
  longest d hlo hhi := by omega
  found h := absurd rfl h
  nearest d _ hd := absurd hd (Nat.not_lt_zero d)

variable {ibuf ses}

/-- One turn of the search: only a strictly longer match replaces the best one (R181). -/
theorem BestBelow.next {bound : Nat} {best : Nat × Nat} (h : BestBelow ibuf ses bound best) (hbound : 1 ≤ bound) :
    BestBelow ibuf ses (bound + 1)
      (if best.1 < matchLen ibuf ses bound then (matchLen ibuf ses bound, bound) else best) := by
  split
  · rename_i hlonger
    have hbelow : ∀ d, 1 ≤ d → d < bound → matchLen ibuf ses d < matchLen ibuf ses bound := fun d hlo hhi =>
      (h.longest d hlo hhi).trans_lt hlonger
    refine ⟨fun d hlo hhi => ?_, fun _ => ⟨hbound, Nat.lt_succ_self bound, rfl⟩, hbelow⟩
    obtain rfl | hlt := Nat.eq_or_lt_of_le (Nat.le_of_lt_succ hhi)
    · exact Nat.le_refl _
    · exact (hbelow d hlo hlt).le
  · rename_i hshorter
    refine ⟨fun d hlo hhi => ?_, fun hne => ?_, h.nearest⟩
    · obtain rfl | hlt := Nat.eq_or_lt_of_le (Nat.le_of_lt_succ hhi)
      · exact Nat.le_of_not_lt hshorter
      · exact h.longest d hlo hlt
    · obtain ⟨hlo, hhi, hlen⟩ := h.found hne
      exact ⟨hlo, Nat.lt_succ_of_lt hhi, hlen⟩

theorem BestBelow.bestMatch {bound : Nat} {best : Nat × Nat} (h : BestBelow ibuf ses bound best) (hbound : 1 ≤ bound)
    (left : Nat) : BestBelow ibuf ses (bound + left) (bestMatch ibuf ses left bound best) := by
  induction left generalizing bound best with
  | zero => exact h
  | succ left ih =>
    rw [Nat.add_succ, ← Nat.succ_add]
    exact ih (h.next hbound) (Nat.le_succ_of_le hbound)

variable (ibuf ses)

/-- FINDMATCH finds no match of 3 bytes, or the longest there is, nearest on tie (R181, R186). -/
theorem findMatch_cases :
    (findMatch ibuf ses = (0, 0) ∧ ∀ d, 1 ≤ d → d ≤ fill ses → matchLen ibuf ses d < 3) ∨
    (3 ≤ (findMatch ibuf ses).1 ∧ BestBelow ibuf ses (1 + fill ses) (findMatch ibuf ses)) := by
  have hbest := (bestBelow_none ibuf ses).bestMatch (Nat.le_refl 1) (fill ses)
  rw [findMatch]
  split
  · rename_i hmin
    exact .inr ⟨hmin, hbest⟩
  · rename_i hmin
    exact .inl ⟨rfl, fun d hlo hhi => (hbest.longest d hlo (by omega)).trans_lt (Nat.lt_of_not_le hmin)⟩

end

theorem exec_findmatch_eq {s : State} {ses : Session} (h : s.encSession ses) :
    exec .findmatch s =
      .next { s with resp := okResponse (findMatch s.ibuf ses).1 (findMatch s.ibuf ses).2 } := by
  rw [exec, execFindmatch, inSession_live h.1 h.2]
  rfl

end Sys2Proof.Machine
end

section
open Sys2Proof
open Sys2Proof.Machine

/-- Settles O31: the loop of MatchLen compares the byte the distance before with each lookahead byte in turn. -/
theorem matchLenCounts : Obligations.MatchLenCounts := fun ibuf ses d _ _ =>
  ⟨Nat.le_min.2 (matchLen_le ibuf ses d), fun _ hj => matchLen_equal ibuf ses hj, matchLen_differs ibuf ses⟩

/-- Settles O32: at every turn of the search the best match so far is the longest, nearest on tie, of the distances
searched. -/
theorem findmatchCanonical : Obligations.FindmatchCanonical := by
  refine fun s => ⟨exec_rejects_lacks rfl, fun ses henc => ⟨_, _, exec_findmatch_eq henc, ?_⟩⟩
  rcases findMatch_cases s.ibuf ses with ⟨hnone, hshort⟩ | ⟨hmin, hbest⟩
  · exact .inl ⟨congrArg Prod.fst hnone, congrArg Prod.snd hnone, hshort⟩
  · obtain ⟨hlo, hhi, hlen⟩ := hbest.found (by omega)
    exact .inr ⟨hmin, hlo, by omega, hlen, fun d hd hfill => hbest.longest d hd (by omega), hbest.nearest⟩

end

section
/-! SUPPORT. What ADVANCE stores in the window, and PUTLIT in OBUF and the window (42_matcher R182 to R184). -/

namespace Sys2Proof.Machine

/-- Slots counted from the register after the present one, even where WPOS wraps. -/
theorem toNat_succ_add_mod_windowCap (x : Word) (i : Nat) :
    ((x + 1).toNat + i) % Config.windowCap = (x.toNat + (i + 1)) % Config.windowCap := by
  rw [Nat.add_mod, toNat_succ_mod_windowCap, ← Nat.add_mod, Nat.add_assoc, Nat.add_comm 1 i]

/-- Fewer than 4096 bytes appended after a byte leave its slot. -/
theorem otherSlotsKept.last {ses ses₁ ses' : Session} {n : Nat} (h : otherSlotsKept ses₁ ses' n)
    (hpos : ses₁.wpos = ses.wpos + 1) (hn : n < 4096) :
    memLookup ses'.win (ses.wpos.toNat % Config.windowCap) =
      memLookup ses₁.win (ses.wpos.toNat % Config.windowCap) := by
  refine h _ fun i hi => ?_
  rw [hpos, toNat_succ_add_mod_windowCap]
  change (ses.wpos.toNat + (i + 1)) % 4096 ≠ ses.wpos.toNat % 4096
  omega

/-! ### ADVANCE -/

/-- Each of the last 4096 bytes that ADVANCE moves stands in its slot (R182). -/
theorem advanceBy_stores {ibuf : Memory} {n i : Nat} {ses : Session} (hn : ses.ipos.toNat + n ≤ 2 ^ 32) (hi : i < n)
    (hlast : n ≤ i + 4096) :
    memLookup (advanceBy ibuf n ses).win ((ses.wpos.toNat + i) % Config.windowCap) =
      some (ibufByte ibuf (ses.ipos.toNat + i)) := by
  induction n generalizing ses i with
  | zero => exact absurd hi (Nat.not_lt_zero i)
  | succ n ih =>
    rw [advanceBy_succ]
    cases i with
    | zero =>
      rw [Nat.add_zero, Nat.add_zero, (otherSlotsKept_advanceBy ibuf n (advanceOne ibuf ses)).last rfl (by omega)]
      exact memLookup_memWrite_same _ _ _
    | succ i =>
      have hsucc : (advanceOne ibuf ses).ipos.toNat = ses.ipos.toNat + 1 := by
        change (ses.ipos + 1).toNat = _
        bv_omega
      have hstored := ih (ses := advanceOne ibuf ses) (i := i) (by omega) (by omega) (by omega)
      rw [hsucc, Nat.add_assoc, Nat.add_comm 1 i] at hstored
      rw [← toNat_succ_add_mod_windowCap]
      exact hstored

section
variable {s : State} {ses : Session} {n : Word}

theorem exec_advance_eq (h : s.encSession ses) (hn : n.toNat ≤ ses.ilen.toNat - ses.ipos.toNat) :
    exec (.advance n) s =
      .next { s with session := some (advanceBy s.ibuf n.toNat ses), resp := okResponse 0 0 } := by
  rw [exec, execAdvance, inSession_live h.1 h.2]
  exact if_pos (decide_eq_true hn)

theorem exec_advance_lacks (h : s.lacks .enc) :
    exec (.advance n) s = .next { s with resp := some ⟨.rejected, 0, 0⟩ } :=
  execAdvance_rejects (Bool.and_eq_false_iff.2 (.inl (isIn_eq_false_of_lacks h)))

theorem exec_advance_beyond (h : s.encSession ses) (hn : ses.ilen.toNat - ses.ipos.toNat < n.toNat) :
    exec (.advance n) s = .next { s with resp := some ⟨.rejected, 0, 0⟩ } := by
  refine execAdvance_rejects (Bool.and_eq_false_iff.2 (.inr ?_))
  rw [State.sessionHas, h.1]
  exact decide_eq_false (Nat.not_le.2 hn)

end

theorem advanceBy_eq (ibuf : Memory) (n : Word) (ses : Session) : advanceBy ibuf n.toNat ses =
    { ses with ipos := ses.ipos + n, wpos := ses.wpos + n, win := (advanceBy ibuf n.toNat ses).win } := by
  obtain ⟨hipos, hwpos⟩ := advanceBy_pos ibuf n.toNat ses
  rw [BitVec.ofNat_toNat, BitVec.setWidth_eq] at hipos hwpos
  rw [← hipos, ← hwpos]
  exact advanceBy_frame ibuf n.toNat ses

/-! ### PUTLIT -/

/-- The effect of appending one byte to OBUF and to the window, where there is room (R184). -/
structure BytePut (b : Byte) (w w' : Work) : Prop where
  room : w.ses.olen < w.ses.ocap
  olen : w'.ses.olen = w.ses.olen + 1
  wpos : w'.ses.wpos = w.ses.wpos + 1
  win : w'.ses.win = memWrite w.ses.win (w.ses.wpos.toNat % Config.windowCap) b
  obuf : w'.obuf = memWrite w.obuf w.ses.olen.toNat b

theorem bytePut_of_putByte {b : Byte} {w w' : Work} (h : putByte b w = .done () w') : BytePut b w w' := by
  obtain ⟨hroom, hses, hobuf⟩ := putByte_done h
  exact ⟨hroom, by rw [hses]; rfl, by rw [hses]; rfl, by rw [hses]; rfl, hobuf⟩

theorem BytePut.olen_toNat {b : Byte} {w w' : Work} (h : BytePut b w w') :
    w'.ses.olen.toNat = w.ses.olen.toNat + 1 := by
  rw [h.olen, toNat_succ_of_lt h.room]

theorem byteAppended_of_putByte {b : Byte} {w w' : Work} (h : putByte b w = .done () w') :
    byteAppended w.ses w.obuf b w'.ses w'.obuf := by
  have hbyte := bytePut_of_putByte h
  refine ⟨?_, ?_, ?_, ?_, otherSlotsKept_succ hbyte.win hbyte.wpos (otherSlotsKept_refl _ 0)⟩
  · rw [← hbyte.olen, ← hbyte.wpos]
    exact (putByte_frame h).1
  · rw [hbyte.obuf]
    exact memLookup_memWrite_same _ _ _
  · rw [hbyte.obuf]
    exact unchangedOutside_memWrite _ _ _
  · rw [hbyte.win]
    exact memLookup_memWrite_same _ _ _

section
variable {s : State} {ses : Session} {b : Byte}

theorem exec_putlit_eq (h : s.decSession ses) : exec (.putlit b) s =
    settle ((putByte b ⟨ses, s.obuf⟩).bind fun _ w => .done (0, 0) w) s := by
  rw [exec, execPutlit, inSession_live h.1 h.2]

/-- PUTLIT with room (R184). -/
theorem exec_putlit_appends (h : s.decSession ses) (hroom : ses.olen < ses.ocap) :
    ∃ ses' obuf', exec (.putlit b) s =
        .next { s with session := some ses', obuf := obuf', resp := okResponse 0 0 } ∧
      byteAppended ses s.obuf b ses' obuf' := by
  have hput := putByte_room (b := b) (w := ⟨ses, s.obuf⟩) hroom
  exact ⟨_, _, by rw [exec_putlit_eq h, hput]; rfl, byteAppended_of_putByte hput⟩

theorem exec_putlit_full (h : s.decSession ses) (hfull : ses.ocap ≤ ses.olen) :
    exec (.putlit b) s = .next (fail .allocationFailure s) := by
  rw [exec_putlit_eq h, putByte, if_pos hfull]
  rfl

end

end Sys2Proof.Machine
end

section
open Sys2Proof
open Sys2Proof.Machine

/-- Settles O33: ADVANCE is n times ADVANCE 1, and fewer than 4096 later bytes leave the slot of an earlier one. -/
theorem advanceMovesInput : Obligations.AdvanceMovesInput := fun s n =>
  ⟨exec_advance_lacks, fun _ henc hn => exec_advance_beyond henc hn, fun ses henc hn =>
    ⟨_, exec_advance_eq henc hn, advanceBy_eq s.ibuf n ses,
      fun _ hi hlast => advanceBy_stores (by have := ses.ilen.isLt; have := ses.ipos.isLt; omega) hi hlast,
      otherSlotsKept_advanceBy s.ibuf n.toNat ses⟩⟩

/-- Settles O34: PUTLIT tests the room in OBUF before it stores its byte there and in the window. -/
theorem putlitAppendsByte : Obligations.PutlitAppendsByte := fun _ _ =>
  ⟨exec_rejects_lacks rfl, fun _ hdec hroom => exec_putlit_appends hdec hroom,
    fun _ hdec hfull => exec_putlit_full hdec hfull⟩

end

section
/-! SUPPORT. The bytes that COPY appends (42_matcher R185, 70_reset R286, R287), and that they are the bytes a match
found by FINDMATCH stands for (42_matcher R188). -/

namespace Sys2Proof.Machine

/-! ### Appending bytes -/

theorem bytesPut_counters {n : Nat} {w w' : Work} (h : BytesPut n w w') :
    w'.ses.olen = w.ses.olen + BitVec.ofNat 32 n ∧ w'.ses.wpos = w.ses.wpos + BitVec.ofNat 32 n := by
  induction h with
  | zero w => exact ⟨(BitVec.add_zero _).symm, (BitVec.add_zero _).symm⟩
  | @succ n w w₁ w' b hput _ ih =>
    have hbyte := bytePut_of_putByte hput
    obtain ⟨holen, hwpos⟩ := ih
    rw [holen, hwpos, hbyte.olen, hbyte.wpos, Nat.add_comm n 1, BitVec.ofNat_add, ← BitVec.add_assoc,
      ← BitVec.add_assoc]
    exact ⟨rfl, rfl⟩

/-- The first of several appended bytes stands in OBUF and, if there are at most 4096, in its slot. -/
theorem bytesPut_first {n : Nat} {b : Byte} {w w₁ w' : Work} (hbyte : BytePut b w w₁) (hrest : BytesPut n w₁ w') :
    memLookup w'.obuf w.ses.olen.toNat = some b ∧
      (n < 4096 → memLookup w'.ses.win (w.ses.wpos.toNat % Config.windowCap) = some b) := by
  obtain ⟨-, -, hobuf, hslots⟩ := bytesPut_writes hrest
  constructor
  · rw [hobuf _ (.inl (by rw [hbyte.olen_toNat]; exact Nat.lt_succ_self _)), hbyte.obuf]
    exact memLookup_memWrite_same _ _ _
  · intro hn
    rw [hslots.last hbyte.wpos hn, hbyte.win]
    exact memLookup_memWrite_same _ _ _

/-- The window takes the bytes that OBUF takes. -/
theorem bytesPut_window {n : Nat} {w w' : Work} (h : BytesPut n w w') (hn : n ≤ 4096) {i : Nat} (hi : i < n) :
    memLookup w'.ses.win ((w.ses.wpos.toNat + i) % Config.windowCap) =
      memLookup w'.obuf (w.ses.olen.toNat + i) := by
  induction h generalizing i with
  | zero w => exact absurd hi (Nat.not_lt_zero i)
  | @succ n w w₁ w' b hput hrest ih =>
    have hbyte := bytePut_of_putByte hput
    cases i with
    | zero =>
      obtain ⟨hobuf, hwin⟩ := bytesPut_first hbyte hrest
      exact (hwin hn).trans hobuf.symm
    | succ i =>
      have hlater := ih (Nat.le_of_succ_le hn) (i := i) (Nat.lt_of_succ_lt_succ hi)
      rwa [hbyte.wpos, hbyte.olen_toNat, toNat_succ_add_mod_windowCap, Nat.add_assoc, Nat.add_comm 1 i] at hlater

theorem windowIsOutput_bytePut {b : Byte} {w w' : Work} (hbyte : BytePut b w w') (hpos : w.ses.wpos = w.ses.olen)
    (h : windowIsOutput w.ses w.obuf) : windowIsOutput w'.ses w'.obuf := by
  have hpos' : w'.ses.wpos = w'.ses.olen := by rw [hbyte.wpos, hbyte.olen, hpos]
  rw [windowIsOutput_iff hpos', hbyte.win, hbyte.olen_toNat, hbyte.obuf, hpos]
  exact windowHolds_append ((windowIsOutput_iff hpos).1 h)
    (fun a ha => memLookup_memWrite_other _ _ (Nat.ne_of_lt ha)) (memLookup_memWrite_same _ _ _)

/-- Appending bytes keeps the window the output (10_state R42). -/
theorem windowIsOutput_bytesPut {n : Nat} {w w' : Work} (h : BytesPut n w w') (hpos : w.ses.wpos = w.ses.olen)
    (hwindow : windowIsOutput w.ses w.obuf) : windowIsOutput w'.ses w'.obuf := by
  induction h with
  | zero w => exact hwindow
  | succ b hput _ ih =>
    have hbyte := bytePut_of_putByte hput
    exact ih (by rw [hbyte.wpos, hbyte.olen, hpos]) (windowIsOutput_bytePut hbyte hpos hwindow)

/-! ### The loop of COPY -/

theorem copyLoop_room {dist n : Nat} {w : Work} (h : w.ses.olen.toNat + n ≤ w.ses.ocap.toNat) :
    ∃ w', copyLoop dist n w = .done () w' := by
  induction n generalizing w with
  | zero => exact ⟨w, rfl⟩
  | succ n ih =>
    have hroom : w.ses.olen < w.ses.ocap := by change w.ses.olen.toNat < _; omega
    rw [copyLoop, putByte_room hroom, bind_done]
    refine ih ?_
    change (w.ses.olen + 1).toNat + n ≤ w.ses.ocap.toNat
    rw [toNat_succ_of_lt hroom]
    omega

theorem copyLoop_full {dist n : Nat} {w : Work} (hpos : 0 < n) (h : w.ses.ocap.toNat < w.ses.olen.toNat + n) :
    copyLoop dist n w = .raise .allocationFailure := by
  induction n generalizing w with
  | zero => exact absurd hpos (Nat.lt_irrefl 0)
  | succ n ih =>
    rw [copyLoop]
    rcases putByte_cases (windowByte w.ses.win ((w.ses.wpos.toNat - dist) % Config.windowCap)) w with
      ⟨hroom, e⟩ | ⟨-, e⟩ <;> rw [e]
    · have hsucc := toNat_succ_of_lt hroom
      have hlt : w.ses.olen.toNat < w.ses.ocap.toNat := hroom
      refine ih (by omega) ?_
      change w.ses.ocap.toNat < (w.ses.olen + 1).toNat + n
      omega
    · rfl

theorem windowByte_bytePut_other {b : Byte} {w w' : Work} (hbyte : BytePut b w w') {slot : Nat}
    (h : slot ≠ w.ses.wpos.toNat % Config.windowCap) : windowByte w'.ses.win slot = windowByte w.ses.win slot := by
  rw [windowByte, windowByte, hbyte.win, memLookup_memWrite_other _ _ h]

theorem windowByte_bytePut_same {b : Byte} {w w' : Work} (hbyte : BytePut b w w') :
    windowByte w'.ses.win (w.ses.wpos.toNat % Config.windowCap) = b := by
  rw [windowByte, hbyte.win, memLookup_memWrite_same, Option.getD_some]

/-- Byte i of a copy is the window byte dist back, or, once i has reached dist, a byte the copy itself has appended. -/
theorem copyLoop_bytes {dist n : Nat} {w w' : Work} (h : copyLoop dist n w = .done () w')
    (hpos : w.ses.wpos = w.ses.olen) (hlo : 1 ≤ dist) (hhi : dist ≤ fill w.ses) {i : Nat} (hi : i < n) :
    memLookup w'.obuf (w.ses.olen.toNat + i) =
      if i < dist then some (windowByte w.ses.win ((w.ses.wpos.toNat - dist + i) % Config.windowCap))
      else memLookup w'.obuf (w.ses.olen.toNat + i - dist) := by
  induction n generalizing w i with
  | zero => exact absurd hi (Nat.not_lt_zero i)
  | succ n ih =>
    obtain ⟨_, w₁, hput, hrest⟩ := bind_eq_done.1 h
    have hbyte := bytePut_of_putByte hput
    obtain ⟨hfirst, -⟩ := bytesPut_first hbyte (copyLoop_put hrest)
    obtain ⟨hwpos, hcap⟩ := Nat.le_min.1 hhi
    have hnext : w₁.ses.wpos.toNat = w.ses.wpos.toNat + 1 := by
      rw [hbyte.wpos, hpos]
      exact toNat_succ_of_lt hbyte.room
    cases i with
    | zero => rw [if_pos (show 0 < dist from hlo), Nat.add_zero, Nat.add_zero, hfirst]
    | succ i =>
      have hlater := ih hrest (by rw [hbyte.wpos, hbyte.olen, hpos]) (by rw [fill, hnext]; omega)
        (Nat.lt_of_succ_lt_succ hi)
      rw [hbyte.olen_toNat, hnext, Nat.add_assoc, Nat.add_comm 1 i] at hlater
      rw [hlater]
      obtain hlt | rfl | hgt := Nat.lt_trichotomy (i + 1) dist
      · rw [if_pos (by omega), if_pos hlt, windowByte_bytePut_other hbyte, Nat.sub_add_comm hwpos, Nat.add_assoc,
          Nat.add_comm 1 i]
        change dist ≤ 4096 at hcap
        change (w.ses.wpos.toNat + 1 - dist + i) % 4096 ≠ w.ses.wpos.toNat % 4096
        omega
      · rw [if_pos (Nat.lt_succ_self i), if_neg (Nat.lt_irrefl _), Nat.add_sub_cancel, hfirst,
          show w.ses.wpos.toNat + 1 - (i + 1) + i = w.ses.wpos.toNat by omega, windowByte_bytePut_same hbyte]
      · rw [if_neg (by omega), if_neg (by omega)]

theorem bytesCopied_of_copyLoop {dist n : Nat} {w w' : Work} (h : copyLoop dist n w = .done () w')
    (hpos : w.ses.wpos = w.ses.olen) (hlo : 1 ≤ dist) (hhi : dist ≤ fill w.ses) (hn : n ≤ 4096) :
    bytesCopied w.ses w.obuf dist n w'.ses w'.obuf := by
  obtain ⟨hmoved, holen, hobuf, hslots⟩ := bytesPut_writes (copyLoop_put h)
  obtain ⟨hcount, hwcount⟩ := bytesPut_counters (copyLoop_put h)
  rw [holen] at hobuf
  refine ⟨?_, fun i hi => copyLoop_bytes h hpos hlo hhi hi, fun i hi => bytesPut_window (copyLoop_put h) hn hi, hobuf,
    hslots⟩
  rw [← hcount, ← hwcount]
  exact hmoved

/-! ### COPY -/

/-- The operands with which COPY copies (R185). -/
theorem copyInRange_iff {ses : Session} {dist len : Nat} : copyInRange ses dist len = true ↔
    1 ≤ dist ∧ dist ≤ fill ses ∧ 3 ≤ len ∧ len ≤ 18 := by
  simp only [copyInRange, Bool.and_eq_true, decide_eq_true_eq, and_assoc]
  exact Iff.rfl

section
variable {s : State} {ses : Session} {dist len : Word}

theorem exec_copy_eq (h : s.decSession ses) : exec (.copy dist len) s =
    settle ((copyMatch dist.toNat len.toNat ⟨ses, s.obuf⟩).bind fun _ w => .done (0, 0) w) s := by
  rw [exec, execCopy, inSession_live h.1 h.2]

theorem exec_copy_limit (h : s.decSession ses) (hrange : ¬ copyInRange ses dist.toNat len.toNat = true) :
    exec (.copy dist len) s = .next (fail .limitExceeded s) := by
  rw [exec_copy_eq h, copyMatch, if_neg hrange]
  rfl

/-- COPY in its range with room for all bytes (R185). -/
theorem exec_copy_copies (h : s.decSession ses) (hrange : copyInRange ses dist.toNat len.toNat = true)
    (hroom : ses.olen.toNat + len.toNat ≤ ses.ocap.toNat) :
    ∃ w, copyLoop dist.toNat len.toNat ⟨ses, s.obuf⟩ = .done () w ∧
      exec (.copy dist len) s = .next { s with session := some w.ses, obuf := w.obuf, resp := okResponse 0 0 } := by
  obtain ⟨w, hw⟩ := copyLoop_room (dist := dist.toNat) (w := ⟨ses, s.obuf⟩) hroom
  refine ⟨w, hw, ?_⟩
  rw [exec_copy_eq h, copyMatch, if_pos hrange, hw]
  rfl

theorem exec_copy_full (h : s.decSession ses) (hrange : copyInRange ses dist.toNat len.toNat = true)
    (hfull : ses.ocap.toNat < ses.olen.toNat + len.toNat) :
    exec (.copy dist len) s = .next (fail .allocationFailure s) := by
  obtain ⟨-, -, hlen, -⟩ := copyInRange_iff.1 hrange
  rw [exec_copy_eq h, copyMatch, if_pos hrange, copyLoop_full (by omega) hfull]
  rfl

end

/-! ### COPY and FINDMATCH -/

/-- Src reads the input byte the distance before, where the window is the input so far (R180, R188). -/
theorem sourceByte_eq_ibufByte {ibuf : Memory} {ses : Session} (hwindow : windowFollowsInput ibuf ses) {d : Nat}
    (hhi : d ≤ fill ses) (j : Nat) :
    sourceByte ibuf ses d j = ibufByte ibuf (ses.ipos.toNat + j - d) := by
  obtain ⟨hpos, -, hinput⟩ := hwindow
  unfold sourceByte
  split
  · rename_i hlt
    obtain ⟨hwpos, hcap⟩ := Nat.le_min.1 hhi
    have hslot := hinput (d - j) (by omega) (by omega)
    rw [show ses.wpos.toNat - (d - j) = ses.wpos.toNat - d + j by omega,
      show ses.ipos.toNat - (d - j) = ses.ipos.toNat + j - d by omega] at hslot
    rw [windowByte, hslot, Option.getD_some]
  · rfl

/-- Every byte of a match is the input byte the distance before it (R180, R188). -/
theorem matchLen_repeats_input {ibuf : Memory} {ses : Session} (hwindow : windowFollowsInput ibuf ses) {d i : Nat}
    (hhi : d ≤ fill ses) (hi : i < matchLen ibuf ses d) :
    ibufByte ibuf (ses.ipos.toNat + i - d) = ibufByte ibuf (ses.ipos.toNat + i) :=
  (sourceByte_eq_ibufByte hwindow hhi i).symm.trans (matchLen_equal ibuf ses hi)

/-- Every byte of a copy is the output byte dist before it, where the window is the output so far (R185). -/
theorem copyLoop_repeats_output {dist n : Nat} {w w' : Work} (h : copyLoop dist n w = .done () w')
    (hpos : w.ses.wpos = w.ses.olen) (hwindow : windowIsOutput w.ses w.obuf) (hlo : 1 ≤ dist)
    (hhi : dist ≤ fill w.ses) {i : Nat} (hi : i < n) :
    memLookup w'.obuf (w.ses.olen.toNat + i) = memLookup w'.obuf (w.ses.olen.toNat + i - dist) := by
  rw [copyLoop_bytes h hpos hlo hhi hi]
  split
  · obtain ⟨-, -, hobuf, -⟩ := bytesPut_writes (copyLoop_put h)
    obtain ⟨hwpos, hcap⟩ := Nat.le_min.1 hhi
    obtain ⟨v, hwin, hv⟩ := hwindow (dist - i) (by omega) (by omega)
    rw [hpos] at hwin hwpos ⊢
    rw [show w.ses.olen.toNat - (dist - i) = w.ses.olen.toNat - dist + i by omega] at hwin
    rw [show w.ses.olen.toNat - (dist - i) = w.ses.olen.toNat + i - dist by omega] at hv
    rw [windowByte, hwin, Option.getD_some, hobuf _ (.inl (by omega)), hv]
  · rfl

/-- Output and input that begin alike and then both repeat what stands dist before go on alike. -/
theorem carriedOver_of_repeats {obuf ibuf : Memory} {m dist n : Nat} (h : carriedOver obuf ibuf m) (hdist : 1 ≤ dist)
    (hm : dist ≤ m)
    (hout : ∀ i, i < n → memLookup obuf (m + i) = memLookup obuf (m + i - dist))
    (hin : ∀ i, i < n → ibufByte ibuf (m + i - dist) = ibufByte ibuf (m + i)) : carriedOver obuf ibuf (m + n) := by
  intro a ha
  induction a using Nat.strong_induction_on with
  | _ a ih =>
    by_cases hlt : a < m
    · exact h a hlt
    · obtain ⟨i, rfl⟩ := Nat.exists_eq_add_of_le (Nat.le_of_not_lt hlt)
      rw [hout i (by omega), ih (m + i - dist) (by omega) (by omega), hin i (by omega)]

/-- The operands of a match that FINDMATCH has answered. -/
theorem exec_findmatch_answer {s : State} {ses : Session} {dist len : Word} (h : s.encSession ses)
    (hexec : exec .findmatch s = .next { s with resp := some ⟨.ok, len, dist⟩ }) (hlen : 3 ≤ len.toNat) :
    1 ≤ dist.toNat ∧ dist.toNat ≤ fill ses ∧ matchLen s.ibuf ses dist.toNat = len.toNat := by
  have hresp := congrArg State.resp (Host.Outcome.next.inj ((exec_findmatch_eq h).symm.trans hexec))
  obtain ⟨-, rfl, rfl⟩ := Response.mk.inj (Option.some.inj hresp)
  have hmax : (findMatch s.ibuf ses).1 ≤ 18 := findMatch_le s.ibuf ses
  have hnat : (BitVec.ofNat 32 (findMatch s.ibuf ses).1).toNat = (findMatch s.ibuf ses).1 :=
    Nat.mod_eq_of_lt (by omega)
  rw [hnat] at hlen ⊢
  rcases findMatch_cases s.ibuf ses with ⟨hnone, -⟩ | ⟨-, hbest⟩
  · rw [hnone] at hlen
    exact absurd hlen (by decide)
  · obtain ⟨hlo, hhi, hmatch⟩ := hbest.found (by omega)
    have hcap : fill ses ≤ 4096 := Nat.min_le_right _ _
    rw [BitVec.toNat_ofNat, Nat.mod_eq_of_lt (by omega)]
    exact ⟨hlo, by omega, hmatch⟩

end Sys2Proof.Machine
end

section
open Sys2Proof
open Sys2Proof.Machine

/-- Settles O35: each byte copied moves WPOS and so the source, which from byte dist on is a byte copied before. -/
theorem copyRepeatsBytes : Obligations.CopyRepeatsBytes := by
  refine fun s dist len => ⟨exec_rejects_lacks rfl, fun ses hdec hout => ?_, fun ses hdec hrange hpos hroom => ?_,
    fun ses hdec hrange hfull => exec_copy_full hdec (copyInRange_iff.2 hrange) hfull⟩
  · exact exec_copy_limit hdec fun hrange => hout (copyInRange_iff.1 hrange)
  · obtain ⟨w, hcopy, hexec⟩ := exec_copy_copies hdec (copyInRange_iff.2 hrange) hroom
    obtain ⟨hlo, hhi, -, hlen⟩ := hrange
    exact ⟨_, _, hexec, bytesCopied_of_copyLoop hcopy hpos hlo hhi (by omega)⟩

/-- Settles O36: both the input that matched and the bytes copied repeat what stands the distance before. -/
theorem copyInvertsMatch : Obligations.CopyInvertsMatch := by
  intro s s' ses ses' dist len henc hinv hfind hlen hdec hpos hwindow hp hcarried hroom
  have hfollows : windowFollowsInput s.ibuf ses := hinv ses henc
  obtain ⟨hlo, hhi, hmatch⟩ := exec_findmatch_answer henc hfind hlen
  obtain ⟨hmax, -⟩ := hmatch ▸ matchLen_le s.ibuf ses dist.toNat
  have hfill : fill ses' = fill ses := by rw [fill, fill, hpos, hp, hfollows.1]
  have hhi' : dist.toNat ≤ fill ses' := hfill ▸ hhi
  obtain ⟨w, hcopy, hexec⟩ := exec_copy_copies hdec (copyInRange_iff.2 ⟨hlo, hhi', hlen, hmax⟩) hroom
  have hput := copyLoop_put hcopy
  have hout := fun i => copyLoop_repeats_output (i := i) hcopy hpos hwindow hlo hhi'
  obtain ⟨hmoved, holen, hobuf, -⟩ := bytesPut_writes hput
  obtain ⟨hcount, hwcount⟩ := bytesPut_counters hput
  rw [BitVec.ofNat_toNat, BitVec.setWidth_eq] at hcount hwcount
  rw [holen] at hobuf
  rw [hp] at hobuf hcount hout
  refine ⟨_, w.ses, hexec, rfl, ⟨rfl, ?_⟩, hcount, ?_, windowIsOutput_bytesPut hput hpos hwindow, ?_, hobuf⟩
  · rw [hmoved]
    exact hdec.2
  · rw [hwcount, hcount, hpos, hp]
  · have hbefore : carriedOver w.obuf s.ibuf ses.ipos.toNat := fun a ha => (hobuf a (.inl ha)).trans (hcarried a ha)
    exact carriedOver_of_repeats hbefore hlo (hfollows.1 ▸ (Nat.le_min.1 hhi).1) hout fun i hi =>
      matchLen_repeats_input hfollows hhi (hmatch ▸ hi)

end

section
/-! SUPPORT. RDREG, register by register (10_state R39, 43_sequencer R205), and that a command that is accepted is
not Rejected (43_sequencer R206, 60_exceptions R245). -/

namespace Sys2Proof.Machine

/-! ### RDREG -/

theorem exec_rdreg_reads {s : State} {regno : Word} {r : Word × Word} (h : readRegister s regno.toNat = some r) :
    exec (.rdreg regno) s = .next { s with resp := some ⟨.ok, r.1, r.2⟩ } := by
  rw [exec, execRdreg, h]
  rfl

theorem accepted_rdreg (regno : Word) (s : State) : accepted (.rdreg regno) s = (isRegisterNumber regno.toNat &&
    (decide (regno.toNat = 0) ||
      s.sessionHas fun ses => decide (regno.toNat < 0x1000) || decide (regno.toNat - 0x1000 < fill ses))) := rfl

theorem exec_rdreg_rejects {s : State} {regno : Word} (h : accepted (.rdreg regno) s = false) :
    exec (.rdreg regno) s = .next { s with resp := some ⟨.rejected, 0, 0⟩ } :=
  exec_rejects h

/-- A number answered as a register of any width up to 32 bits. -/
theorem okResponse_setWidth {w : Nat} (v : BitVec w) : okResponse v.toNat 0 = some ⟨.ok, v.setWidth 32, 0⟩ := by
  rw [okResponse, BitVec.ofNat_toNat]
  rfl

/-- The second result of RDREG for a node is PAR, LEFT and RIGHT side by side (R39). -/
theorem nodeWord_eq (n : Node) :
    nodeWord n = BitVec.ofNat 32 (n.par.toNat * 2 ^ 20 + n.left.toNat * 2 ^ 10 + n.right.toNat) := by
  have hpar := n.par.isLt
  have hleft := n.left.isLt
  have hright := n.right.isLt
  apply BitVec.eq_of_toNat_eq
  rw [nodeWord, BitVec.toNat_append, BitVec.toNat_append, BitVec.toNat_append,
    ← Nat.shiftLeft_add_eq_or_of_lt hright, ← Nat.shiftLeft_add_eq_or_of_lt hleft,
    ← Nat.shiftLeft_add_eq_or_of_lt hpar, Nat.shiftLeft_eq, Nat.shiftLeft_eq, Nat.shiftLeft_eq, BitVec.toNat_ofNat,
    BitVec.toNat_ofNat]
  omega

section
variable {s : State} {ses : Session} (hs : s.session = some ses)
include hs

theorem exec_rdreg_session {regno r0 r1 : Word} (hne : regno.toNat ≠ 0)
    (h : sessionRegister ses regno.toNat = some (r0, r1)) :
    exec (.rdreg regno) s = .next { s with resp := some ⟨.ok, r0, r1⟩ } := by
  refine exec_rdreg_reads (r := (r0, r1)) ?_
  rw [readRegister, if_neg hne, hs, ← h]

/-- A register of one word, answered as its value. -/
theorem exec_rdreg_value {w : Nat} {v : BitVec w} {regno : Word} (hne : regno.toNat ≠ 0)
    (h : sessionRegister ses regno.toNat = some (v.setWidth 32, 0)) :
    exec (.rdreg regno) s = .next { s with resp := okResponse v.toNat 0 } := by
  rw [exec_rdreg_session hs hne h, okResponse_setWidth]

theorem exec_rdreg_node {n : Nat} {node : Node} (hn : ses.nodes[n]? = some node) :
    exec (.rdreg (BitVec.ofNat 32 (0x400 + n))) s = .next { s with
      resp := okResponse node.cnt.toNat
        (node.par.toNat * 2 ^ 20 + node.left.toNat * 2 ^ 10 + node.right.toNat) } := by
  have hlt : n < 545 := (Vector.getElem?_eq_some_iff.1 hn).1
  have hregno : (BitVec.ofNat 32 (0x400 + n)).toNat = 0x400 + n := by
    rw [BitVec.toNat_ofNat]
    omega
  rw [okResponse, BitVec.ofNat_toNat, ← nodeWord_eq]
  refine exec_rdreg_session hs (by rw [hregno]; omega) ?_
  rw [hregno, sessionRegister]
  iterate 9 rw [if_neg (by omega)]
  rw [if_pos (by omega), Nat.add_sub_cancel_left, hn]
  rfl

theorem exec_rdreg_slot {j : Nat} {b : Byte} (hj : j < fill ses) (hb : memLookup ses.win j = some b) :
    exec (.rdreg (BitVec.ofNat 32 (0x1000 + j))) s = .next { s with resp := okResponse b.toNat 0 } := by
  have hlt : j < 4096 := hj.trans_le (Nat.min_le_right _ _)
  have hregno : (BitVec.ofNat 32 (0x1000 + j)).toNat = 0x1000 + j := by
    rw [BitVec.toNat_ofNat]
    omega
  refine exec_rdreg_value hs (by omega) ?_
  rw [hregno, sessionRegister]
  iterate 10 rw [if_neg (by omega)]
  rw [if_pos (by omega), Nat.add_sub_cancel_left, windowByte, hb]
  rfl

theorem exec_rdreg_empty_slot {j : Nat} (hfill : fill ses ≤ j) (hj : j < 4096) :
    exec (.rdreg (BitVec.ofNat 32 (0x1000 + j))) s = .next { s with resp := some ⟨.rejected, 0, 0⟩ } := by
  have hregno : (BitVec.ofNat 32 (0x1000 + j)).toNat = 0x1000 + j := by
    rw [BitVec.toNat_ofNat]
    omega
  refine exec_rdreg_rejects ?_
  have hnot : ¬ j < fill ses := Nat.not_lt.2 hfill
  simp [accepted_rdreg, State.sessionHas, hs, hregno, hnot]

end

theorem exec_rdreg_noRegister {s : State} {regno : Word}
    (h : isRegisterNumber regno.toNat = false ∨ (regno ≠ 0 ∧ s.session = none)) :
    exec (.rdreg regno) s = .next { s with resp := some ⟨.rejected, 0, 0⟩ } := by
  refine exec_rdreg_rejects ?_
  rcases h with h | ⟨hne, hs⟩
  · rw [accepted_rdreg, h, Bool.false_and]
  · have hzero : regno.toNat ≠ 0 := fun e => hne (BitVec.eq_of_toNat_eq e)
    simp [accepted_rdreg, State.sessionHas, hs, hzero]

/-! ### Accepted commands -/

/-- A register number that is accepted names a register (R39, R205). -/
theorem readRegister_of_accepted {s : State} {regno : Word} (h : accepted (.rdreg regno) s = true) :
    ∃ r, readRegister s regno.toNat = some r := by
  unfold readRegister
  by_cases hzero : regno.toNat = 0
  · exact ⟨_, if_pos hzero⟩
  rw [if_neg hzero]
  cases hs : s.session with
  | none => simp [accepted_rdreg, State.sessionHas, hs, hzero] at h
  | some ses =>
    simp only [accepted_rdreg, State.sessionHas, hs, isRegisterNumber, Bool.and_eq_true, Bool.or_eq_true,
      decide_eq_true_eq] at h
    dsimp only
    by_cases hsmall : regno.toNat ≤ 9
    · generalize regno.toNat = n at *
      interval_cases n
      · exact absurd rfl hzero
      all_goals exact ⟨_, rfl⟩
    · unfold sessionRegister
      iterate 9 rw [if_neg (by omega)]
      by_cases hnode : 0x400 ≤ regno.toNat ∧ regno.toNat ≤ 0x620
      · have hlt : regno.toNat - 0x400 < Config.nnode := by change _ < 545; omega
        rw [if_pos hnode, Vector.getElem?_eq_getElem hlt]
        exact ⟨_, rfl⟩
      · rw [if_neg hnode, if_pos (by omega)]
        exact ⟨_, rfl⟩

/-- The outcome is no next state with the response Rejected. -/
def NotRejected (o : Out) : Prop := ∀ t r, o = .next t → t.resp = some r → r.rsp ≠ .rejected

theorem notRejected_of_responds {o : Out} {p : Rsp → Prop} (h : Responds o p) (hp : ¬ p .rejected) :
    NotRejected o := fun _ _ ht hr e => hp (e ▸ h.of_next ht hr)

theorem notRejected_answer (r0 r1 : Word) (s : State) : NotRejected (.next (answer r0 r1 s)) :=
  notRejected_of_responds (p := (· = .ok)) (responds_answer rfl) nofun

theorem notRejected_settle (r : Res (Word × Word)) (s : State) : NotRejected (settle r s) := by
  intro t resp ht hr
  rcases settle_next ht with ⟨_, _, -, rfl⟩ | ⟨k, -, rfl⟩ <;> cases hr <;> nofun

/-- A command of a direction is not Rejected in a session of the direction unless what it runs is. -/
theorem notRejected_inSession {d : Dir} {s : State} {run : Work → Out} (h : s.isIn d = true)
    (hrun : ∀ ses, s.session = some ses → NotRejected (run ⟨ses, s.obuf⟩)) : NotRejected (inSession d s run) := by
  unfold State.isIn at h
  split at h
  · rename_i ses hs
    rw [inSession_live hs (of_decide_eq_true h)]
    exact hrun ses hs
  · cases h

theorem notRejected_of_accepted {i : Instr} {s : State} (hi : isCommand i = true) (h : accepted i s = true) :
    NotRejected (exec i s) := by
  cases i with
  | nop | inite _ _ | initd _ _ | release => exact notRejected_answer _ _ _
  | rdreg regno =>
    obtain ⟨r, hr⟩ := readRegister_of_accepted h
    rw [exec, execRdreg, hr]
    exact notRejected_answer _ _ _
  | flush | encode _ | decode | putlit _ | copy _ _ =>
    simp only [exec, execFlush, execEncode, execDecode, execPutlit, execCopy]
    exact notRejected_inSession h fun _ _ => notRejected_settle _ _
  | findmatch =>
    rw [exec, execFindmatch]
    exact notRejected_inSession h fun _ _ => notRejected_answer _ _ _
  | wrbits value count | rdbits count =>
    obtain ⟨hin, hcount⟩ := Bool.and_eq_true_iff.1 h
    simp only [exec, execWrbits, execRdbits]
    refine notRejected_inSession hin fun ses _ => ?_
    rw [if_pos (show countInRange count = true from hcount)]
    exact notRejected_settle _ _
  | advance n =>
    obtain ⟨hin, hn⟩ := Bool.and_eq_true_iff.1 h
    rw [exec, execAdvance]
    refine notRejected_inSession hin fun ses hs => ?_
    rw [State.sessionHas, hs] at hn
    rw [if_pos (show advanceInRange ses n = true from hn)]
    exact notRejected_settle _ _
  | compress ilen ocap => exact notRejected_of_responds (execCompress_responds ilen ocap s) (by simp)
  | decompress ilen ocap => exact notRejected_of_responds (execDecompress_responds ilen ocap s) nofun
  | _ => cases hi

end Sys2Proof.Machine
end

section
open Sys2Proof
open Sys2Proof.Machine

/-- Settles O15: each register number finds its register, and where RDREG is not accepted it is Rejected. -/
theorem rdregReadsRegisters : Obligations.RdregReadsRegisters := by
  refine fun s => ⟨exec_rdreg_reads (r := (stateRegister s, 0)) rfl, fun ses hs => ?_,
    fun _ h => exec_rdreg_noRegister h⟩
  have value := fun {w : Nat} {v : BitVec w} {regno : Word} => exec_rdreg_value (v := v) (regno := regno) hs
  refine ⟨value (by decide) ?_, value (by decide) ?_, value (by decide) ?_, value (by decide) rfl,
    value (by decide) rfl, value (by decide) ?_, value (by decide) rfl, value (by decide) ?_, value (by decide) ?_,
    fun _ _ => exec_rdreg_node hs, fun _ _ => exec_rdreg_slot hs, fun _ => exec_rdreg_empty_slot hs⟩
  all_goals rw [BitVec.setWidth_eq]; rfl

/-- Settles O54: what is not accepted is Rejected, and of what is accepted each command answers otherwise. -/
theorem rejectedExactly : Obligations.RejectedExactly := by
  refine fun i s hi => ⟨fun ⟨t, r0, r1, hexec, hr⟩ => ?_, fun h => ⟨_, 0, 0, exec_rejects h, rfl⟩⟩
  refine Bool.eq_false_iff.2 fun haccepted => ?_
  exact notRejected_of_accepted hi haccepted t _ hexec hr rfl

/-- Settles O12: NOP only answers. -/
theorem nopDoesNothing : Obligations.NopDoesNothing :=
  fun _ => rfl

/-- Settles O13: both commands open InitSession of their direction, whose node memory is InitModel (R154, R204). -/
theorem openingInitialises : Obligations.OpeningInitialises :=
  fun _ _ _ => ⟨rfl, rfl⟩

/-- Settles O14: RELEASE drops the session and answers. -/
theorem releaseEndsSession : Obligations.ReleaseEndsSession :=
  fun _ => rfl

end

section
/-! SUPPORT. What each token does inside the token loop of DECOMPRESS (43_sequencer R215 to R217), as an operation on
the session and OBUF that goes on or ends the command. -/

namespace Sys2Proof.Machine

/-- The effect of a fetched token where DECOMPRESS has to give total bytes: it goes on, or ends with its result. -/
def tokenEffect (total : Word) (t : Nat × Option Residual) (w : Work) : Res (Option Word) :=
  if t.1 ≤ 255 then
    if w.ses.olen = total then .raise .malformedHeader
    else (putByte (BitVec.ofNat 8 t.1) w).bind fun _ w => .done none w
  else if t.1 = Config.symEos then
    if w.ses.olen = total then .done (some w.ses.olen) w else .raise .malformedHeader
  else if fill w.ses < (t.2.getD 0).toNat + 1 then .raise .limitExceeded
  else if total.toNat < w.ses.olen.toNat + (t.1 - 254) then .raise .malformedHeader
  else (copyMatch ((t.2.getD 0).toNat + 1) (t.1 - 254) w).bind fun _ w => .done none w

/-- The end of a turn of the token loop: it goes on without a response, or DECOMPRESS ends (R215). -/
def settleTurn (r : Res (Option Word)) (s : State) : Out :=
  match r with
  | .done none w => .next { s with session := some w.ses, obuf := w.obuf }
  | .done (some n) w => settleMacro (.done n w) s
  | .raise k => .next (fail k s)
  | .stuck f => .fault f

/-- A MATCH token has the symbol of its length, which is 3 to 18 (30_encoding R100, R102). -/
theorem encode_of_matchOf {i : Instr} {len : Nat} {residual : Residual} (h : matchOf i = some (len, residual)) :
    encode i = .token (BitVec.ofNat 9 (254 + len)) (some residual) ∧ 3 ≤ len ∧ len ≤ 18 := by
  cases i with
  | matchL3 r | matchL4 r | matchL5 r | matchL6 r | matchL7 r | matchL8 r | matchL9 r | matchL10 r | matchL11 r
  | matchL12 r | matchL13 r | matchL14 r | matchL15 r | matchL16 r | matchL17 r | matchL18 r =>
    cases h; exact ⟨rfl, by decide, by decide⟩
  | _ => cases h

theorem keepGoing_eq_settleTurn (r : Res Unit) (s : State) :
    keepGoing r s = settleTurn (r.bind fun _ w => .done none w) s := by
  cases r <;> rfl

section
variable {s : State} {ses : Session} {total : Word} (hdec : s.decSession ses) (hloop : ses.declared = some total)
include hdec hloop

theorem tokenLit_in_loop (b : Byte) : tokenLit b s =
    if ses.olen = total then .next (fail .malformedHeader s) else keepGoing (putByte b ⟨ses, s.obuf⟩) s := by
  rw [tokenLit, inSession_live hdec.1 hdec.2]
  simp only [hloop]

theorem tokenEos_in_loop : tokenEos s =
    if ses.olen = total then settleMacro (.done ses.olen ⟨ses, s.obuf⟩) s else .next (fail .malformedHeader s) := by
  rw [tokenEos, inSession_live hdec.1 hdec.2]
  simp only [hloop]

theorem tokenMatch_in_loop (len : Nat) (residual : Residual) : tokenMatch len residual s =
    if fill ses < residual.toNat + 1 then .next (fail .limitExceeded s)
    else if total.toNat < ses.olen.toNat + len then .next (fail .malformedHeader s)
    else keepGoing (copyMatch (residual.toNat + 1) len ⟨ses, s.obuf⟩) s := by
  rw [tokenMatch, inSession_live hdec.1 hdec.2]
  simp only [hloop]

/-- A token run inside the loop has its effect on the session and OBUF, and nothing else. -/
theorem runToken_eq_settleTurn (t : Nat × Option Residual) :
    runToken t s = settleTurn (tokenEffect total t ⟨ses, s.obuf⟩) s := by
  rw [runToken, tokenEffect, tokenLit_in_loop hdec hloop, tokenEos_in_loop hdec hloop, tokenMatch_in_loop hdec hloop,
    keepGoing_eq_settleTurn, keepGoing_eq_settleTurn]
  repeat' split
  all_goals rfl

theorem exec_lit_reached (b : Byte) (hend : ses.olen = total) : exec (.lit b) s = .next (fail .malformedHeader s) :=
  (tokenLit_in_loop hdec hloop b).trans (if_pos hend)

theorem exec_lit_appends (b : Byte) (hend : ses.olen ≠ total) (hroom : ses.olen < ses.ocap) :
    ∃ ses' obuf', exec (.lit b) s = .next { s with session := some ses', obuf := obuf' } ∧
      byteAppended ses s.obuf b ses' obuf' := by
  have hput := putByte_room (b := b) (w := ⟨ses, s.obuf⟩) hroom
  refine ⟨_, _, ?_, byteAppended_of_putByte hput⟩
  exact ((tokenLit_in_loop hdec hloop b).trans (if_neg hend)).trans (congrArg (keepGoing · s) hput)

theorem exec_lit_full (b : Byte) (hend : ses.olen ≠ total) (hfull : ses.ocap ≤ ses.olen) :
    exec (.lit b) s = .next (fail .allocationFailure s) :=
  ((tokenLit_in_loop hdec hloop b).trans (if_neg hend)).trans (congrArg (keepGoing · s) (if_pos hfull))

end

end Sys2Proof.Machine
end

section
open Sys2Proof
open Sys2Proof.Machine

/-- Settles O48: LIT tests the declared length, then it is PUTLIT without a response. -/
theorem litToken : Obligations.LitToken := fun _ _ b _ hdec hloop =>
  ⟨exec_lit_reached hdec hloop b, exec_lit_appends hdec hloop b, exec_lit_full hdec hloop b⟩

/-- Settles O49: MATCH tests its distance, then the room under the declared length, which is within OCAP, and copies. -/
theorem matchTokens : Obligations.MatchTokens := by
  intro i len residual s ses total hi hdec hloop
  rw [(exec_of_matchOf hi s).1, tokenMatch_in_loop hdec hloop]
  refine ⟨fun hfar => if_pos hfar, fun hnear hlong => ?_, fun hnear hfits hcap hpos => ?_⟩
  · rw [if_neg (Nat.not_lt.2 hnear), if_pos hlong]
    rfl
  · obtain ⟨-, hmin, hmax⟩ := encode_of_matchOf hi
    have hrange := copyInRange_iff.2 ⟨Nat.le_add_left 1 _, hnear, hmin, hmax⟩
    obtain ⟨w, hcopy⟩ := copyLoop_room (dist := residual.toNat + 1) (n := len) (w := ⟨ses, s.obuf⟩)
      (hfits.trans hcap)
    rw [if_neg (Nat.not_lt.2 hnear), if_neg (Nat.not_lt.2 hfits), copyMatch, if_pos hrange, hcopy]
    exact ⟨_, _, rfl, bytesCopied_of_copyLoop hcopy hpos (Nat.le_add_left 1 _) hnear (by omega)⟩

/-- Settles O50: EOS ends DECOMPRESS with OLEN where that is the declared length. -/
theorem eosToken : Obligations.EosToken := by
  intro s ses total hdec hloop
  have heos : exec .eos s = _ := tokenEos_in_loop hdec hloop
  rw [heos]
  refine ⟨fun hend => ?_, fun hend => if_neg hend⟩
  rw [if_pos hend, okResponse_toNat]
  rfl

end

section
/-! SUPPORT. The header of a compressed buffer (30_encoding R93, R94): its bytes read as bits, and what the checks
(1) to (5) of DECOMPRESS make of it (43_sequencer R216). -/

namespace Sys2Proof.Machine

/-! ### Bytes of IBUF as bits -/

theorem bitsToNat_append (xs ys : List Bool) :
    bitsToNat (xs ++ ys) = bitsToNat xs * 2 ^ ys.length + bitsToNat ys := by
  rw [bitsToNat, List.foldl_append, bitsToNat_foldl]
  rfl

theorem leadingBits_eq_lowBits (v : Byte) : leadingBits v 8 = lowBits 8 (v.setWidth 32) := by
  refine List.map_congr_left fun i _ => ?_
  rw [BitVec.getLsbD_setWidth, decide_eq_true (by omega), Bool.true_and]

theorem ibufBits_byte (ibuf : Memory) (a : Nat) : ibufBits ibuf (8 * a) 8 = leadingBits (ibufByte ibuf a) 8 := by
  refine List.map_congr_left fun i hi => ?_
  have hlt := List.mem_range.1 hi
  rw [ibufBit, show (8 * a + i) / 8 = a by omega, show (8 * a + i) % 8 = i by omega]

theorem bitsToNat_ibufBits_byte (ibuf : Memory) (a : Nat) :
    bitsToNat (ibufBits ibuf (8 * a) 8) = (ibufByte ibuf a).toNat := by
  have hlt := (ibufByte ibuf a).isLt
  rw [ibufBits_byte, leadingBits_eq_lowBits, bitsToNat_lowBits, BitVec.toNat_setWidth]
  omega

/-- Bytes 1 to 4 read as the bits 8 to 39 of the stream (R94). -/
theorem bitsToNat_ibufBits_length (ibuf : Memory) : bitsToNat (ibufBits ibuf 8 32) = declaredLength ibuf := by
  have hbyte := bitsToNat_ibufBits_byte ibuf
  have hsplit : ibufBits ibuf 8 32 = ibufBits ibuf (8 * 1) 8 ++ ibufBits ibuf (8 * 2) 8 ++
      ibufBits ibuf (8 * 3) 8 ++ ibufBits ibuf (8 * 4) 8 := by
    rw [show 32 = 8 + 8 + 8 + 8 from rfl, ibufBits_add, ibufBits_add, ibufBits_add]
  rw [hsplit, bitsToNat_append, bitsToNat_append, bitsToNat_append, hbyte, hbyte, hbyte, hbyte, declaredLength]
  simp only [ibufBits_length]
  ring

theorem declaredLength_lt (ibuf : Memory) : declaredLength ibuf < 2 ^ 32 := by
  have h1 := (ibufByte ibuf 1).isLt
  have h2 := (ibufByte ibuf 2).isLt
  have h3 := (ibufByte ibuf 3).isLt
  have h4 := (ibufByte ibuf 4).isLt
  unfold declaredLength
  omega

/-! ### Checks -/

/-- A request that cannot be met in full (40_bitstream R133). -/
theorem readBits_short {ibuf : Memory} {n : Nat} {w : Work} (hpos : 0 < n)
    (h : 8 * w.ses.ilen.toNat < readPos w.ses + n) : readBits ibuf n w = .raise .unexpectedEndOfStream := by
  rcases readBits_cases ibuf n w with ⟨hunread, -⟩ | ⟨-, e⟩
  · unfold unreadBits at hunread
    unfold readPos at h
    omega
  · exact e

/-- The DEC session at the start of the token loop: the read cursor at byte 5, the declared length known (R215). -/
def tokensOpened (ibuf : Memory) (ilen ocap : Word) : Session :=
  { initSession .dec ilen ocap with rbyte := 5, declared := some (BitVec.ofNat 32 (declaredLength ibuf)) }

/-- A reader that has moved to the start of a byte. -/
theorem ReaderMoved.at_byte {n : Nat} {ses ses' : Session} {a : Word} (h : ReaderMoved n ses ses')
    (hpos : readPos ses + n = 8 * a.toNat) : ses' = { ses with rbyte := a, rbit := 0 } := by
  have hbit := ses'.rbit.isLt
  have hat : 8 * ses'.rbyte.toNat + ses'.rbit.toNat = 8 * a.toNat := h.pos.trans hpos
  have hrbyte : ses'.rbyte = a := BitVec.eq_of_toNat_eq (by omega)
  have hrbit : ses'.rbit = 0 := BitVec.eq_of_toNat_eq (show _ = 0 by omega)
  rw [← hrbyte, ← hrbit]
  exact h.frame

/-- The header is read and checked as R216 says, and with it SEQ enters the token loop. -/
theorem readHeader_eq (ibuf : Memory) (maxLen ilen ocap : Word) :
    readHeader ibuf maxLen (freshWork .dec ilen ocap) =
      (headerVerdict ibuf maxLen.toNat ilen.toNat ocap.toNat).elim (.done () ⟨tokensOpened ibuf ilen ocap, []⟩)
        .raise := by
  have hstart : readPos (freshWork .dec ilen ocap).ses = 0 := rfl
  have hilen : (freshWork .dec ilen ocap).ses.ilen = ilen := rfl
  unfold readHeader headerVerdict
  by_cases hempty : ilen.toNat < 1
  · rw [if_pos hempty, readBits_short (by decide) (by rw [hstart, hilen]; omega)]
    rfl
  obtain ⟨ses₁, htag, hmoved₁⟩ := readBits_reads (ibuf := ibuf) (n := 8) (w := freshWork .dec ilen ocap)
    (by rw [hstart, hilen]; omega)
  have hpos₁ : readPos ses₁ = 8 := hmoved₁.pos
  have hilen₁ : ses₁.ilen = ilen := hmoved₁.ilen
  have htagByte : (BitVec.ofNat 32 (bitsToNat (ibufBits ibuf (readPos (freshWork .dec ilen ocap).ses) 8))).toNat =
      (ibufByte ibuf 0).toNat := by
    have hlt := (ibufByte ibuf 0).isLt
    rw [hstart, bitsToNat_ibufBits_byte ibuf 0, BitVec.toNat_ofNat]
    omega
  rw [if_neg hempty, htag, bind_done, htagByte]
  by_cases htagged : (ibufByte ibuf 0).toNat ≠ Config.formatTag
  · rw [if_pos htagged, if_pos (show _ ≠ 0x01 from htagged)]
    rfl
  rw [if_neg htagged, if_neg (show ¬ _ ≠ 0x01 from htagged)]
  by_cases hshort : ilen.toNat < 5
  · rw [if_pos hshort, readBits_short (by decide) (by dsimp only; rw [hpos₁, hilen₁]; omega)]
    rfl
  obtain ⟨ses₂, htotal, hmoved₂⟩ := readBits_reads (ibuf := ibuf) (n := 32)
    (w := { freshWork .dec ilen ocap with ses := ses₁ }) (by dsimp only; rw [hpos₁, hilen₁]; omega)
  have hses₂ := (hmoved₁.trans hmoved₂).at_byte (a := 5) rfl
  dsimp only at htotal
  rw [hpos₁, bitsToNat_ibufBits_length] at htotal
  have hlt : ∀ x : Word, x < BitVec.ofNat 32 (declaredLength ibuf) ↔ x.toNat < declaredLength ibuf := fun x => by
    rw [BitVec.lt_def, BitVec.toNat_ofNat, Nat.mod_eq_of_lt (declaredLength_lt ibuf)]
  rw [if_neg hshort, htotal, bind_done, hses₂]
  by_cases hlong : maxLen.toNat < declaredLength ibuf
  · rw [if_pos hlong, if_pos ((hlt _).2 hlong)]
    rfl
  rw [if_neg hlong, if_neg (mt (hlt _).1 hlong)]
  by_cases hcap : ocap.toNat < declaredLength ibuf
  · rw [if_pos hcap]
    exact if_pos ((hlt _).2 hcap)
  · rw [if_neg hcap]
    exact if_neg (mt (hlt _).1 hcap)

end Sys2Proof.Machine
end

section
/-! SUPPORT. DECOMPRESS as an operation on the session and OBUF: the header, then the tokens one after the other, to
the end (43_sequencer R215, R231). -/

namespace Sys2Proof.Machine

/-! ### Tokens -/

/-- The token loop in so many turns, which are to be enough (notes/assumptions/13.md). -/
def decodeTokens (ibuf : Memory) (total : Word) : Nat → Work → Res Word
  | 0, _ => .raise .unexpectedEndOfStream
  | turns + 1, w =>
    (fetchToken ibuf w).bind fun t w => (tokenEffect total t w).bind fun r w =>
      r.elim (decodeTokens ibuf total turns w) (.done · w)

/-- DECOMPRESS after InitSession; the result is the decoded length. -/
def decompressAll (ibuf : Memory) (maxLen : Word) (w : Work) : Res Word :=
  (readHeader ibuf maxLen w).bind fun _ w =>
    decodeTokens ibuf (w.ses.declared.getD 0) (8 * w.ses.ilen.toNat + 1) w

theorem tokenEffect_not_stuck (total : Word) (t : Nat × Option Residual) (w : Work) (x : Fault) :
    tokenEffect total t w ≠ .stuck x := by
  unfold tokenEffect
  split
  · split
    · nofun
    · exact bind_done_not_stuck (putByte_not_stuck _ _) _ x
  split
  · split <;> nofun
  split
  · nofun
  split
  · nofun
  · exact bind_done_not_stuck (copyMatch_not_stuck _ _ _) _ x

theorem decodeTokens_not_stuck (ibuf : Memory) (total : Word) (turns : Nat) (w : Work) (x : Fault) :
    decodeTokens ibuf total turns w ≠ .stuck x := by
  induction turns generalizing w with
  | zero => nofun
  | succ turns ih =>
    intro h
    rcases bind_eq_stuck.1 h with h | ⟨t, w₁, -, h⟩
    · exact fetchToken_not_stuck _ _ _ h
    rcases bind_eq_stuck.1 h with h | ⟨r, w₂, -, h⟩
    · exact tokenEffect_not_stuck _ _ _ _ h
    cases r with
    | none => exact ih w₂ h
    | some n => cases h

theorem decompressAll_not_stuck (ibuf : Memory) (maxLen : Word) (w : Work) (x : Fault) :
    decompressAll ibuf maxLen w ≠ .stuck x := by
  intro h
  rcases bind_eq_stuck.1 h with h | ⟨_, w₁, -, h⟩
  · exact readHeader_not_stuck _ _ _ _ h
  · exact decodeTokens_not_stuck _ _ _ _ _ h

/-- What a token does where it does not fail: EOS ends DECOMPRESS, a LIT or a MATCH goes on (R217). -/
theorem tokenEffect_done {total : Word} {t : Nat × Option Residual} {w w' : Work} {r : Option Word}
    (h : tokenEffect total t w = .done r w') :
    (r = some total ∧ w.ses.olen = total ∧ w' = w) ∨
    (r = none ∧ ((w.ses.olen ≠ total ∧ putByte (BitVec.ofNat 8 t.1) w = .done () w') ∨
      (w.ses.olen.toNat + (t.1 - 254) ≤ total.toNat ∧
        copyLoop ((t.2.getD 0).toNat + 1) (t.1 - 254) w = .done () w'))) := by
  unfold tokenEffect at h
  split at h
  · split at h
    · cases h
    · rename_i hend
      obtain ⟨_, w₁, hput, h⟩ := bind_eq_done.1 h
      cases h
      exact .inr ⟨rfl, .inl ⟨hend, hput⟩⟩
  split at h
  · split at h <;> cases h
    rename_i hend
    exact .inl ⟨congrArg some hend, hend, rfl⟩
  split at h
  · cases h
  split at h
  · cases h
  · rename_i hroom
    obtain ⟨_, w₁, hcopy, h⟩ := bind_eq_done.1 h
    cases h
    exact .inr ⟨rfl, .inr ⟨Nat.le_of_not_lt hroom, copyMatch_done hcopy⟩⟩

/-- What holds at every token boundary of a DECOMPRESS that has to give total bytes. -/
structure Reconstructing (total : Word) (w : Work) : Prop where
  inv : SessionInv w.ses w.obuf
  dec : w.ses.dir = .dec
  loop : w.ses.declared = some total

section
variable {total : Word} {w w' : Work} {t : Nat × Option Residual} (h : Reconstructing total w)
include h

theorem Reconstructing.fetched {ibuf : Memory} (hfetch : fetchToken ibuf w = .done t w') :
    Reconstructing total w' ∧ w'.ses.ilen = w.ses.ilen ∧ readPos w.ses < readPos w'.ses := by
  obtain ⟨n, ⟨hframe, hpos⟩, hn⟩ := fetchToken_read hfetch
  refine ⟨⟨sessionInv_fetchToken h.inv h.dec hfetch, ?_, ?_⟩, ?_, by omega⟩ <;> rw [hframe]
  · exact h.dec
  · exact h.loop

theorem Reconstructing.effect (heffect : tokenEffect total t w = .done none w') :
    Reconstructing total w' ∧ OnlyOutputMoved w.ses w'.ses := by
  have htotal : ∀ {total' : Word}, w.ses.declared = some total' → total' = total := fun e =>
    Option.some.inj (e.symm.trans h.loop)
  obtain ⟨hnone, -⟩ | ⟨-, ⟨hend, hput⟩ | ⟨hroom, hcopy⟩⟩ := tokenEffect_done heffect
  · cases hnone
  · have hmoved := (putByte_frame hput).1
    have hinv := sessionInv_litPut h.inv ⟨h.dec, fun total' e => htotal e ▸ hend, hput⟩
    exact ⟨⟨hinv, by rw [hmoved]; exact h.dec, by rw [hmoved]; exact h.loop⟩, hmoved⟩
  · have hmoved := (copyLoop_frame hcopy).1
    have hinv := sessionInv_matchCopied h.inv ⟨h.dec, fun total' e => htotal e ▸ hroom, hcopy⟩
    exact ⟨⟨hinv, by rw [hmoved]; exact h.dec, by rw [hmoved]; exact h.loop⟩, hmoved⟩

end

/-! ### The command -/

theorem tokenStep_eq_settleTurn {s : State} {ses : Session} {total : Word} (hdec : s.decSession ses)
    (hloop : ses.declared = some total) :
    tokenStep s = settleTurn ((fetchToken s.ibuf ⟨ses, s.obuf⟩).bind (tokenEffect total)) s := by
  unfold tokenStep
  rw [hdec.1]
  dsimp only
  cases hfetch : fetchToken s.ibuf ⟨ses, s.obuf⟩ with
  | raise k => rfl
  | stuck x => rfl
  | done t w =>
    obtain ⟨n, ⟨hframe, -⟩, -⟩ := fetchToken_read hfetch
    have hrun := runToken_eq_settleTurn (s := { s with session := some w.ses, obuf := w.obuf }) (ses := w.ses)
      (total := total) ⟨rfl, by rw [hframe]; exact hdec.2⟩ (by rw [hframe]; exact hloop) t
    dsimp only
    rw [hrun, bind_done]
    cases tokenEffect total t w with
    | raise k => rfl
    | stuck x => rfl
    | done r w' => cases r <;> rfl

/-- With more turns than there are unread bits the token loop is the run of its tokens to the end (R231). -/
theorem tokenLoop_eq_settleMacro {turns : Nat} {s : State} {ses : Session} {total : Word}
    (hs : s.session = some ses) (h : Reconstructing total ⟨ses, s.obuf⟩)
    (hturns : 8 * ses.ilen.toNat < readPos ses + turns) :
    tokenLoop turns s = settleMacro (decodeTokens s.ibuf total turns ⟨ses, s.obuf⟩) s := by
  induction turns generalizing s ses with
  | zero => exact absurd h.inv.cursor (Nat.not_le.2 hturns)
  | succ turns ih =>
    have hin : s.inTokenLoop = true := (inTokenLoop_iff s).2 ⟨ses, hs, Option.isSome_iff_exists.2 ⟨total, h.loop⟩⟩
    rw [tokenLoop, if_pos hin, tokenStep_eq_settleTurn ⟨hs, h.dec⟩ h.loop, decodeTokens]
    cases hfetch : fetchToken s.ibuf ⟨ses, s.obuf⟩ with
    | raise k => exact tokenLoop_ended (u := fail k s) rfl turns
    | stuck x => rfl
    | done t w =>
      obtain ⟨hw, hilen, hpos⟩ := h.fetched hfetch
      rw [bind_done, bind_done]
      cases heffect : tokenEffect total t w with
      | raise k => exact tokenLoop_ended (u := fail k s) rfl turns
      | stuck x => rfl
      | done r w' =>
        cases r with
        | some n => exact tokenLoop_ended rfl turns
        | none =>
          obtain ⟨hw', hmoved⟩ := hw.effect heffect
          have hilen' : w'.ses.ilen = ses.ilen := by rw [hmoved]; exact hilen
          have hpos' : readPos w'.ses = readPos w.ses := readPos_of_onlyOutputMoved hmoved
          have hrest := ih (s := { s with session := some w'.ses, obuf := w'.obuf }) (ses := w'.ses) rfl hw'
            (by dsimp only at hpos; rw [hilen', hpos']; omega)
          refine hrest.trans ?_
          dsimp only [bind_done, Option.elim_none]
          cases decodeTokens s.ibuf total turns w' <;> rfl

/-- DECOMPRESS decodes the header and the tokens, then it releases the session (R215). -/
theorem exec_decompress_eq (ilen ocap : Word) (s : State) : exec (.decompress ilen ocap) s =
    settleMacro (decompressAll s.ibuf s.maxInputLen (freshWork .dec ilen ocap)) s := by
  rw [exec, execDecompress, decompressAll]
  cases hheader : readHeader s.ibuf s.maxInputLen (freshWork .dec ilen ocap) with
  | raise k => rfl
  | stuck x => rfl
  | done _ w =>
    obtain ⟨hdec, hinv⟩ := readHeader_done rfl (sessionInv_initSession .dec ilen ocap) rfl hheader
    obtain ⟨hloop, hilen⟩ := readHeader_enters hheader
    obtain ⟨total, htotal⟩ := Option.isSome_iff_exists.1 hloop
    have hilen : w.ses.ilen = ilen := hilen
    dsimp only
    rw [bind_done, htotal, Option.getD_some, hilen,
      tokenLoop_eq_settleMacro (s := { s with session := some w.ses, obuf := w.obuf, resp := none }) rfl
        ⟨hinv, hdec, htotal⟩ (by rw [hilen]; omega)]
    dsimp only
    cases decodeTokens s.ibuf total (8 * ilen.toNat + 1) w <;> rfl

theorem decompressAll_eq (ibuf : Memory) (maxLen ilen ocap : Word) :
    decompressAll ibuf maxLen (freshWork .dec ilen ocap) =
      (headerVerdict ibuf maxLen.toNat ilen.toNat ocap.toNat).elim
        (decodeTokens ibuf (BitVec.ofNat 32 (declaredLength ibuf)) (8 * ilen.toNat + 1)
          ⟨tokensOpened ibuf ilen ocap, []⟩) .raise := by
  rw [decompressAll, readHeader_eq]
  cases headerVerdict ibuf maxLen.toNat ilen.toNat ocap.toNat <;> rfl

/-- Past a header that passes its checks the token loop starts with nothing reconstructed (R216). -/
theorem reconstructing_start {ibuf : Memory} {maxLen ilen ocap : Word}
    (h : headerVerdict ibuf maxLen.toNat ilen.toNat ocap.toNat = none) :
    Reconstructing (BitVec.ofNat 32 (declaredLength ibuf)) ⟨tokensOpened ibuf ilen ocap, []⟩ := by
  have hheader := readHeader_eq ibuf maxLen ilen ocap
  rw [h] at hheader
  exact ⟨(readHeader_done rfl (sessionInv_initSession .dec ilen ocap) rfl hheader).2, rfl, rfl⟩

/-- COMPRESS and DECOMPRESS, where not stuck, release the session, with OK or a failure (R210, R215, R250). -/
theorem settleMacro_ends {r : Res Word} (h : ∀ x, r ≠ .stuck x) : ∃ obuf' resp,
    (resp.rsp = .ok ∨ (∃ k, resp = ⟨.failed k, 0, 0⟩) ∧ obuf' = []) ∧
      ∀ s, settleMacro r s = .next { s with session := none, obuf := obuf', resp := some resp } := by
  cases r with
  | done n w => exact ⟨w.obuf, _, .inl rfl, fun _ => rfl⟩
  | raise k => exact ⟨[], _, .inr ⟨⟨k, rfl⟩, rfl⟩, fun _ => rfl⟩
  | stuck x => exact absurd rfl (h x)

/-! ### Steps -/

/-- A symbol above EOS decodes to the MATCH token of its length (30_encoding R102, R111). -/
theorem decodeToken_match {sym : Nat} (residual : Residual) (hlo : Config.symEos < sym) (hhi : sym < Config.nsym) :
    ∃ i, decodeToken (BitVec.ofNat 9 sym) (some residual) = .ok i ∧ matchOf i = some (sym - 254, residual) := by
  change 256 < sym at hlo
  change sym < 273 at hhi
  interval_cases sym <;> exact ⟨_, rfl, rfl⟩

/-- The instruction that a fetched token decodes to does what the token loop does with the token (R215, R217). -/
theorem runToken_eq_exec {t : Nat × Option Residual} (hs : t.1 < Config.nsym)
    (hresidual : t.2 = none ↔ t.1 ≤ Config.symEos) :
    ∃ i, decodeToken (BitVec.ofNat 9 t.1) t.2 = .ok i ∧ ∀ s, exec i s = runToken t s := by
  obtain ⟨sym, residual⟩ := t
  dsimp only at hs hresidual
  change sym < 273 at hs
  have hsym : (BitVec.ofNat 9 sym).toNat = sym := Nat.mod_eq_of_lt (by omega)
  by_cases hlit : sym ≤ 255
  · obtain rfl := hresidual.2 (by change sym ≤ 256; omega)
    refine ⟨.lit ((BitVec.ofNat 9 sym).extractLsb' 0 8), by rw [decodeToken, if_pos (by rw [hsym]; exact hlit)],
      fun s => ?_⟩
    have hbyte : (BitVec.ofNat 9 sym).extractLsb' 0 8 = BitVec.ofNat 8 sym := by
      apply BitVec.eq_of_toNat_eq
      rw [BitVec.extractLsb'_toNat, hsym, Nat.shiftRight_zero, BitVec.toNat_ofNat]
    rw [hbyte, runToken, if_pos hlit]
    rfl
  by_cases heos : sym = Config.symEos
  · obtain rfl := hresidual.2 heos.le
    subst heos
    exact ⟨.eos, rfl, fun s => rfl⟩
  have hlo : Config.symEos < sym := by change 256 < sym; change sym ≠ 256 at heos; omega
  cases residual with
  | none => exact absurd (hresidual.1 rfl) (Nat.not_le.2 hlo)
  | some r =>
    obtain ⟨i, hdecode, hmatch⟩ := decodeToken_match r hlo hs
    refine ⟨i, hdecode, fun s => ?_⟩
    rw [(exec_of_matchOf hmatch s).1, runToken, if_neg hlit, if_neg heos]
    rfl

/-- Inside the token loop a step is one turn of it. -/
theorem step_eq_tokenStep {s : State} (h : s.inTokenLoop = true) : step s = tokenStep s := by
  obtain ⟨ses, hs, hloop⟩ := (inTokenLoop_iff s).1 h
  unfold tokenStep
  rw [hs]
  dsimp only
  cases hfetch : fetchToken s.ibuf ⟨ses, s.obuf⟩ with
  | done t w =>
    obtain ⟨hsym, hresidual, -⟩ := fetchToken_done hfetch
    obtain ⟨i, hdecode, hexec⟩ := runToken_eq_exec hsym hresidual
    rw [step_token hs hloop hfetch hdecode, hexec]
  | raise k => exact step_token_raise hs hloop hfetch
  | stuck x => exact absurd hfetch (fetchToken_not_stuck _ _ x)

theorem tokenLoop_eq_runTokenSteps (turns : Nat) (s : State) : tokenLoop turns s = runTokenSteps turns s := by
  induction turns generalizing s with
  | zero => rfl
  | succ turns ih =>
    rw [tokenLoop, runTokenSteps]
    split
    · rename_i hin
      rw [step_eq_tokenStep hin]
      cases tokenStep s with
      | next t => exact ih t
      | fault f => rfl
      | refused r => rfl
    · rfl

end Sys2Proof.Machine
end

section
open Sys2Proof
open Sys2Proof.Machine

/-- Settles O40: the header is bits 0 to 39 of the stream, and the checks are made in the order of their reading. -/
theorem headerChecksInOrder : Obligations.HeaderChecksInOrder := by
  intro s ilen ocap k hverdict
  rw [exec_decompress_eq, decompressAll_eq, hverdict]
  rfl

/-- Settles O41: a fetched token decodes to the instruction that the loop runs for it, and the header leaves the cursor
at byte 5. -/
theorem decompressIsItsSteps : Obligations.DecompressIsItsSteps := by
  refine ⟨fun s => step_eq_tokenStep, fun s ilen ocap hverdict => ?_⟩
  rw [exec, execDecompress, readHeader_eq, hverdict]
  exact tokenLoop_eq_runTokenSteps _ _

/-- Settles O43: every turn of the token loop reads a bit, so the loop comes to an end, and no unit gets stuck in it. -/
theorem decompressAlwaysEnds : Obligations.DecompressAlwaysEnds := by
  intro s ilen ocap
  obtain ⟨obuf', r, hr, hend⟩ :=
    settleMacro_ends (decompressAll_not_stuck s.ibuf s.maxInputLen (freshWork .dec ilen ocap))
  exact ⟨obuf', r, (exec_decompress_eq ilen ocap s).trans (hend s), hr⟩

end

section
/-! SUPPORT. DECOMPRESS over a well-formed buffer (43_sequencer R215, R217): each token is read from its bits and does
to the output what its expansion says, and a token whose bits are cut off is UnexpectedEndOfStream. -/

namespace Sys2Proof.Machine

/-! ### Tokens and their bits -/

/-- A LIT or a MATCH token whose distance is inside the output. -/
theorem outputAfter_cases {i : Instr} {out out' : List Byte} (h : outputAfter i out = some out') :
    (∃ b, i = .lit b ∧ out' = out ++ [b]) ∨
    (∃ len residual, matchOf i = some (len, residual) ∧ residual.toNat + 1 ≤ min out.length Config.windowCap ∧
      out' = repeatBack (residual.toNat + 1) len out) := by
  unfold outputAfter at h
  split at h
  · cases h
    exact .inl ⟨_, rfl, rfl⟩
  · split at h
    · rename_i len residual hmatch
      split at h <;> cases h
      rename_i hdist
      exact .inr ⟨len, residual, hmatch, hdist, rfl⟩
    · cases h

/-- The symbol and the residual with which a token is encoded (30_encoding R101, R103). -/
structure TokenSymbol (i : Instr) (sym : SymbolIndex) (residual : Option Residual) : Prop where
  encoded : encode i = .token sym residual
  symbol : sym.toNat < Config.nsym
  residual : residual.isSome = true ↔ Config.symEos < sym.toNat

theorem toNat_setWidth_literal (b : Byte) : (b.setWidth 9).toNat = b.toNat := BitVec.toNat_setWidth_of_le (by decide)

theorem tokenSymbol_lit (b : Byte) : TokenSymbol (.lit b) (b.setWidth 9) none := by
  have hlt := b.isLt
  refine ⟨rfl, ?_, ?_⟩ <;> rw [toNat_setWidth_literal]
  · change _ < 273
    omega
  · change false = true ↔ 256 < _
    simp
    omega

theorem tokenSymbol_eos : TokenSymbol .eos 256#9 none := ⟨rfl, by decide, by decide⟩

theorem tokenSymbol_match {i : Instr} {len : Nat} {residual : Residual} (h : matchOf i = some (len, residual)) :
    TokenSymbol i (BitVec.ofNat 9 (254 + len)) (some residual) ∧ (BitVec.ofNat 9 (254 + len)).toNat = 254 + len := by
  obtain ⟨hencode, hmin, hmax⟩ := encode_of_matchOf h
  have hsym : (BitVec.ofNat 9 (254 + len)).toNat = 254 + len := by rw [BitVec.toNat_ofNat]; omega
  refine ⟨⟨hencode, ?_, ?_⟩, hsym⟩ <;> rw [hsym]
  · change _ < 273
    omega
  · change true = true ↔ 256 < _
    simp
    omega

theorem tokenSymbol_of_outputAfter {i : Instr} {out out' : List Byte} (h : outputAfter i out = some out') :
    ∃ sym residual, TokenSymbol i sym residual := by
  obtain ⟨b, rfl, -⟩ | ⟨len, residual, hmatch, -⟩ := outputAfter_cases h
  · exact ⟨_, _, tokenSymbol_lit b⟩
  · exact ⟨_, _, (tokenSymbol_match hmatch).1⟩

section
variable {i : Instr} {sym : SymbolIndex} {residual : Option Residual} (h : TokenSymbol i sym residual)
include h

theorem TokenSymbol.nodesAfter (nodes : NodeMemory) : nodesAfter nodes i = update sym.toNat nodes := by
  rw [Machine.nodesAfter, h.encoded]

theorem TokenSymbol.modelOk_nodesAfter {nodes : NodeMemory} (hok : modelOk nodes) :
    modelOk (Machine.nodesAfter nodes i) := by
  rw [h.nodesAfter]
  exact modelOk_update hok h.symbol

/-- The bits of a token are the code of its symbol and the residual (R101). -/
theorem TokenSymbol.bits {nodes : NodeMemory} (hok : modelOk nodes) : ∃ bits, code nodes sym.toNat = some bits ∧
    1 ≤ bits.length ∧ bits.length ≤ 272 ∧ tokenBits nodes i = bits ++ residualBits residual := by
  obtain ⟨bits, hcode, hmin, hmax, -⟩ := exists_code hok h.symbol
  refine ⟨bits, hcode, hmin, hmax, ?_⟩
  rw [tokenBits, h.encoded]
  dsimp only
  rw [hcode, Option.getD_some]

end

theorem residualBits_length_le (residual : Option Residual) : (residualBits residual).length ≤ 12 := by
  cases residual with
  | none => exact Nat.zero_le _
  | some r => exact (lowBits_length _ _).le

/-- A token takes 1 to 284 bits (41_huffman R161). -/
theorem tokenBits_length {i : Instr} {out out' : List Byte} (h : outputAfter i out = some out') {nodes : NodeMemory}
    (hok : modelOk nodes) : 1 ≤ (tokenBits nodes i).length ∧ (tokenBits nodes i).length ≤ 284 := by
  obtain ⟨sym, residual, hsymbol⟩ := tokenSymbol_of_outputAfter h
  obtain ⟨bits, -, hmin, hmax, hbits⟩ := hsymbol.bits hok
  have hresidual := residualBits_length_le residual
  rw [hbits, List.length_append]
  omega

theorem repeatBack_length (dist n : Nat) (out : List Byte) : (repeatBack dist n out).length = out.length + n := by
  induction n generalizing out with
  | zero => rfl
  | succ n ih => rw [repeatBack, ih, List.length_append, List.length_singleton, Nat.add_assoc, Nat.add_comm 1]

theorem outputAfter_length_le {i : Instr} {out out' : List Byte} (h : outputAfter i out = some out') :
    out.length ≤ out'.length := by
  obtain ⟨b, -, rfl⟩ | ⟨len, residual, -, -, rfl⟩ := outputAfter_cases h
  · rw [List.length_append]
    exact Nat.le_add_right _ _
  · rw [repeatBack_length]
    exact Nat.le_add_right _ _

theorem expansion_cons {i : Instr} {rest : List Instr} {out out' : List Byte}
    (h : expansion (i :: rest) out = some out') : ∃ out₁, outputAfter i out = some out₁ ∧
      expansion rest out₁ = some out' :=
  Option.bind_eq_some_iff.1 h

theorem expansion_length_le {tokens : List Instr} {out out' : List Byte} (h : expansion tokens out = some out') :
    out.length ≤ out'.length := by
  induction tokens generalizing out with
  | nil => cases h; exact Nat.le_refl _
  | cons i rest ih =>
    obtain ⟨out₁, hi, hrest⟩ := expansion_cons h
    exact (outputAfter_length_le hi).trans (ih hrest)

/-! ### Fetching -/

section
variable {ibuf : Memory} {w : Work} {i : Instr} {sym : SymbolIndex} {residual : Option Residual}
  (h : TokenSymbol i sym residual) (hok : modelOk w.ses.nodes)
include h hok

/-- A token is fetched where its bits stand at the read cursor (30_encoding R103). -/
theorem fetchToken_finds (hroom : readPos w.ses + (tokenBits w.ses.nodes i).length ≤ 8 * w.ses.ilen.toNat)
    (hbits : ibufBits ibuf (readPos w.ses) (tokenBits w.ses.nodes i).length = tokenBits w.ses.nodes i) :
    ∃ ses', fetchToken ibuf w = .done (sym.toNat, residual) { w with ses := ses' } ∧
      SymbolRead sym.toNat (tokenBits w.ses.nodes i).length w.ses ses' := by
  obtain ⟨bits, hcode, -, -, htoken⟩ := h.bits hok
  rw [htoken] at hroom hbits ⊢
  exact fetchToken_reads (isCodeTree_of_modelOk hok) h.symbol h.residual hcode hroom hbits

/-- Where the bits of a token are cut off by the end of the input, DECODE finds no code, or the token's own and then no
residual: no other code begins alike. -/
theorem fetchToken_short {n : Nat} (hend : readPos w.ses + n = 8 * w.ses.ilen.toNat)
    (hn : n < (tokenBits w.ses.nodes i).length)
    (hbits : ibufBits ibuf (readPos w.ses) n = (tokenBits w.ses.nodes i).take n) :
    fetchToken ibuf w = .raise .unexpectedEndOfStream := by
  obtain ⟨bits, hcode, -, -, htoken⟩ := h.bits hok
  have htree := isCodeTree_of_modelOk hok
  rw [htoken] at hn hbits
  rw [fetchToken]
  cases hdecode : decodeSymbol ibuf w with
  | raise k => rw [decodeSymbol_raise_of_isCodeTree htree hdecode, bind_raise]
  | stuck x => exact absurd hdecode (decodeSymbol_not_stuck _ _ x)
  | done r w₁ =>
    obtain ⟨hs, hfound, hroom⟩ := decodeSymbol_finds_code htree hdecode
    obtain ⟨hread, -⟩ := decodeSymbol_read hdecode
    have hread_prefix : ibufBits ibuf (readPos w.ses) r.2 <+: bits ++ residualBits residual := by
      have hsplit := ibufBits_add ibuf (readPos w.ses) r.2 (n - r.2)
      rw [Nat.add_sub_cancel' (by omega), hbits] at hsplit
      exact (List.prefix_append _ _).trans (hsplit ▸ List.take_prefix _ _)
    have hsym : r.1 = sym.toNat := by
      have hwalk := code_walk htree hs hfound
      have hwalk' := code_walk htree h.symbol hcode
      rcases List.prefix_or_prefix_of_prefix hread_prefix (List.prefix_append bits _) with hprefix | hprefix
      · exact eq_of_walk_prefix htree hs h.symbol hwalk hwalk' hprefix
      · exact (eq_of_walk_prefix htree h.symbol hs hwalk' hwalk hprefix).symm
    have hlen : r.2 = bits.length := by
      rw [hsym] at hfound
      rw [Option.some.inj (hcode.symm.trans hfound), ibufBits_length]
    rw [List.length_append] at hn
    rw [bind_done, hsym]
    cases residual with
    | none => simp only [residualBits, List.length_nil] at hn; omega
    | some value =>
      have hcount : (residualBits (some value)).length = Config.windowBits := lowBits_length _ _
      rw [hcount] at hn
      rw [if_neg (Nat.not_le.2 (h.residual.1 rfl)), readBits_short (by decide), bind_raise]
      rw [hread.pos, hread.ilen]
      omega

end

/-! ### Effects -/

/-- The output so far: exactly these bytes stand in OBUF from address 0 on. -/
structure OutputIs (w : Work) (out : List Byte) : Prop where
  length : w.ses.olen.toNat = out.length
  bytes : ∀ a, memLookup w.obuf a = out[a]?

theorem outputIs_put {b : Byte} {w w' : Work} {out : List Byte} (h : OutputIs w out)
    (hput : putByte b w = .done () w') : OutputIs w' (out ++ [b]) := by
  have hbyte := bytePut_of_putByte hput
  refine ⟨by rw [hbyte.olen_toNat, h.length, List.length_append, List.length_singleton], fun a => ?_⟩
  rw [hbyte.obuf, memLookup_memWrite, h.length, h.bytes]
  split
  · rename_i e
    rw [e, List.getElem?_concat_length]
  · rename_i hne
    by_cases hlt : a < out.length
    · rw [List.getElem?_append_left hlt]
    · rw [List.getElem?_eq_none (by omega), List.getElem?_eq_none (by rw [List.length_append]; simp; omega)]

section
variable {total : Word} {w : Work} (h : Reconstructing total w)
include h

theorem Reconstructing.room {n : Nat} (hn : w.ses.olen.toNat + n ≤ total.toNat) :
    w.ses.olen.toNat + n ≤ w.ses.ocap.toNat :=
  hn.trans (h.inv.loop total h.loop).2.1

theorem Reconstructing.put {b : Byte} {w' : Work} (hn : w.ses.olen.toNat + 1 ≤ total.toNat)
    (hput : putByte b w = .done () w') : Reconstructing total w' := by
  have hmoved := (putByte_frame hput).1
  refine ⟨sessionInv_bytesPut (putByte_put hput) h.inv h.dec fun total' e => ?_, by rw [hmoved]; exact h.dec,
    by rw [hmoved]; exact h.loop⟩
  obtain rfl := Option.some.inj (e.symm.trans h.loop)
  exact hn

/-- The byte that COPY reads is the one dist before the end of the output (10_state R42, 42_matcher R185). -/
theorem Reconstructing.windowByte {out : List Byte} (hout : OutputIs w out) {dist : Nat} (hlo : 1 ≤ dist)
    (hhi : dist ≤ min out.length Config.windowCap) :
    windowByte w.ses.win ((w.ses.wpos.toNat - dist) % Config.windowCap) = out.getD (out.length - dist) 0 := by
  obtain ⟨hpos, hwindow, -⟩ := h.inv.decoding h.dec
  obtain ⟨v, hwin, hv⟩ := hwindow dist hlo (by rw [fill, hpos, hout.length]; exact hhi)
  rw [hout.length, hout.bytes] at hv
  rw [Machine.windowByte, hwin, List.getD_eq_getElem?_getD, hv]
  rfl

/-- COPY appends what the expansion of its token appends (42_matcher R185). -/
theorem Reconstructing.copyLoop {out : List Byte} (hout : OutputIs w out) {dist n : Nat} (hlo : 1 ≤ dist)
    (hhi : dist ≤ min out.length Config.windowCap) (hn : w.ses.olen.toNat + n ≤ total.toNat) :
    ∃ w', copyLoop dist n w = .done () w' ∧ OutputIs w' (repeatBack dist n out) := by
  induction n generalizing w out with
  | zero => exact ⟨w, rfl, hout⟩
  | succ n ih =>
    have hroom : w.ses.olen < w.ses.ocap := by
      have := h.room hn
      rw [BitVec.lt_def]
      omega
    have hput := putByte_room (b := out.getD (out.length - dist) 0) hroom
    have hput' := outputIs_put hout hput
    rw [Machine.copyLoop, h.windowByte hout hlo hhi, hput, bind_done]
    refine ih (h.put (by omega) hput) hput' (hhi.trans ?_) ?_
    · rw [List.length_append]
      omega
    · rw [hput'.length, List.length_append, List.length_singleton, ← hout.length]
      omega

/-- A token that is legal after this output and stays within L appends what its expansion appends (R217). -/
theorem Reconstructing.tokenEffect {out out' : List Byte} (hout : OutputIs w out) {i : Instr}
    (hi : outputAfter i out = some out') (hlen : out'.length ≤ total.toNat) {sym : SymbolIndex}
    {residual : Option Residual} (hsymbol : TokenSymbol i sym residual) :
    ∃ w', tokenEffect total (sym.toNat, residual) w = .done none w' ∧ OutputIs w' out' := by
  unfold Machine.tokenEffect
  obtain ⟨b, rfl, rfl⟩ | ⟨len, value, hmatch, hdist, rfl⟩ := outputAfter_cases hi
  · obtain ⟨rfl, rfl⟩ := Encoded.token.inj (hsymbol.encoded.symm.trans (tokenSymbol_lit b).encoded)
    have hbyte := b.isLt
    rw [List.length_append, List.length_singleton, ← hout.length] at hlen
    have hroom : w.ses.olen < w.ses.ocap := h.room hlen
    rw [toNat_setWidth_literal, if_pos (by omega), if_neg (fun e => by rw [e] at hlen; omega), BitVec.ofNat_toNat,
      BitVec.setWidth_eq, putByte_room hroom]
    exact ⟨_, rfl, outputIs_put hout (putByte_room hroom)⟩
  · obtain ⟨hmatchSymbol, hsym⟩ := tokenSymbol_match hmatch
    obtain ⟨rfl, rfl⟩ := Encoded.token.inj (hsymbol.encoded.symm.trans hmatchSymbol.encoded)
    obtain ⟨-, hmin, hmax⟩ := encode_of_matchOf hmatch
    rw [repeatBack_length, ← hout.length] at hlen
    have hfill : value.toNat + 1 ≤ fill w.ses := by
      rw [fill, (h.inv.decoding h.dec).1, hout.length]
      exact hdist
    have hrange := copyInRange_iff.2 ⟨Nat.le_add_left 1 _, hfill, hmin, hmax⟩
    obtain ⟨w', hcopy, hout'⟩ := h.copyLoop hout (Nat.le_add_left 1 _) hdist hlen
    rw [hsym, if_neg (by omega), if_neg (by change ¬ _ = 256; omega), Option.getD_some, Nat.add_sub_cancel_left,
      if_neg (Nat.not_lt.2 hfill), if_neg (Nat.not_lt.2 hlen), copyMatch, if_pos hrange, hcopy]
    exact ⟨w', rfl, hout'⟩

/-! ### Turns -/

/-- A turn of the token loop over a legal token whose bits are there. -/
theorem Reconstructing.turn {ibuf : Memory} {out out' : List Byte} (hout : OutputIs w out) {i : Instr}
    (hi : outputAfter i out = some out') (hlen : out'.length ≤ total.toNat)
    (hroom : readPos w.ses + (tokenBits w.ses.nodes i).length ≤ 8 * w.ses.ilen.toNat)
    (hbits : ibufBits ibuf (readPos w.ses) (tokenBits w.ses.nodes i).length = tokenBits w.ses.nodes i) :
    ∃ w', (∀ turns, decodeTokens ibuf total (turns + 1) w = decodeTokens ibuf total turns w') ∧
      Reconstructing total w' ∧ OutputIs w' out' ∧ w'.ses.nodes = nodesAfter w.ses.nodes i ∧
      readPos w'.ses = readPos w.ses + (tokenBits w.ses.nodes i).length ∧ w'.ses.ilen = w.ses.ilen := by
  obtain ⟨sym, residual, hsymbol⟩ := tokenSymbol_of_outputAfter hi
  obtain ⟨ses₁, hfetch, hread⟩ := fetchToken_finds hsymbol h.inv.model hroom hbits
  have h₁ := (h.fetched hfetch).1
  have hout₁ : OutputIs { w with ses := ses₁ } out := ⟨by dsimp only; rw [hread.frame]; exact hout.length, hout.bytes⟩
  obtain ⟨w', heffect, hout'⟩ := h₁.tokenEffect hout₁ hi hlen hsymbol
  obtain ⟨h', hmoved⟩ := h₁.effect heffect
  refine ⟨w', fun turns => ?_, h', hout', ?_, ?_, ?_⟩
  · rw [decodeTokens, hfetch, bind_done, heffect, bind_done, Option.elim_none]
  · rw [hmoved, hsymbol.nodesAfter]
    dsimp only
    rw [hread.frame]
  · rw [readPos_of_onlyOutputMoved hmoved, hread.pos]
  · rw [hmoved]
    exact hread.ilen

end

/-- Over the bits of legal tokens and EOS the token loop ends with the expansion, all of L. -/
theorem decodeTokens_runs {ibuf : Memory} {tokens : List Instr} {total : Word} {turns : Nat} {w : Work}
    {out out' : List Byte} (h : Reconstructing total w) (hout : OutputIs w out)
    (hexpansion : expansion tokens out = some out') (htotal : total.toNat = out'.length)
    (hroom : readPos w.ses + (streamBits w.ses.nodes (tokens ++ [.eos])).length ≤ 8 * w.ses.ilen.toNat)
    (hbits : ibufBits ibuf (readPos w.ses) (streamBits w.ses.nodes (tokens ++ [.eos])).length =
      streamBits w.ses.nodes (tokens ++ [.eos]))
    (hturns : 8 * w.ses.ilen.toNat < readPos w.ses + turns) :
    ∃ w', decodeTokens ibuf total turns w = .done total w' ∧ Reconstructing total w' ∧ OutputIs w' out' := by
  obtain ⟨turns, rfl⟩ : ∃ k, turns = k + 1 := ⟨turns - 1, by omega⟩
  induction tokens generalizing turns w out with
  | nil =>
    cases hexpansion
    rw [List.nil_append, streamBits, streamBits, List.append_nil] at hroom hbits
    obtain ⟨ses₁, hfetch, hread⟩ := fetchToken_finds tokenSymbol_eos h.inv.model hroom hbits
    have holen : ses₁.olen = total := by
      rw [hread.frame]
      exact BitVec.eq_of_toNat_eq (hout.length.trans htotal.symm)
    refine ⟨{ w with ses := ses₁ }, ?_, (h.fetched hfetch).1, by dsimp only; rw [holen]; exact htotal, hout.bytes⟩
    have heffect : tokenEffect total (256, none) { w with ses := ses₁ } =
        .done (some ses₁.olen) { w with ses := ses₁ } := if_pos holen
    rw [decodeTokens, hfetch, bind_done]
    refine (congrArg (Res.bind · _) heffect).trans ?_
    rw [bind_done, Option.elim_some, holen]
  | cons i rest ih =>
    obtain ⟨out₁, hi, hrest⟩ := expansion_cons hexpansion
    have hlen := expansion_length_le hrest
    have hpos := (tokenBits_length hi h.inv.model).1
    rw [List.cons_append, streamBits, List.length_append] at hroom hbits
    rw [ibufBits_add] at hbits
    obtain ⟨hfirst, hlater⟩ := List.append_inj hbits (ibufBits_length _ _ _)
    obtain ⟨w₁, hturn, h₁, hout₁, hnodes, hcursor, hilen⟩ := h.turn hout hi (htotal ▸ hlen) (by omega) hfirst
    obtain ⟨turns, rfl⟩ : ∃ k, turns = k + 1 := ⟨turns - 1, by have := h₁.inv.cursor; omega⟩
    rw [hturn]
    exact ih h₁ hout₁ hrest (by rw [hnodes, hcursor, hilen]; omega) (by rw [hnodes, hcursor]; exact hlater) turns
      (by rw [hcursor, hilen]; omega)

/-- Where the bits of the tokens and EOS are cut off by the end of the input, the token loop comes to that end. -/
theorem decodeTokens_short {ibuf : Memory} {tokens : List Instr} {total : Word} {turns n : Nat} {w : Work}
    {out out' : List Byte} (h : Reconstructing total w) (hout : OutputIs w out)
    (hexpansion : expansion tokens out = some out') (htotal : total.toNat = out'.length)
    (hend : readPos w.ses + n = 8 * w.ses.ilen.toNat) (hn : n < (streamBits w.ses.nodes (tokens ++ [.eos])).length)
    (hbits : ibufBits ibuf (readPos w.ses) n = (streamBits w.ses.nodes (tokens ++ [.eos])).take n) :
    decodeTokens ibuf total turns w = .raise .unexpectedEndOfStream := by
  induction tokens generalizing turns n w out with
  | nil =>
    rw [List.nil_append, streamBits, streamBits, List.append_nil] at hn hbits
    cases turns with
    | zero => rfl
    | succ turns => rw [decodeTokens, fetchToken_short tokenSymbol_eos h.inv.model hend hn hbits, bind_raise]
  | cons i rest ih =>
    cases turns with
    | zero => rfl
    | succ turns =>
      obtain ⟨out₁, hi, hrest⟩ := expansion_cons hexpansion
      have hlen := expansion_length_le hrest
      rw [List.cons_append, streamBits, List.length_append] at hn
      rw [List.cons_append, streamBits] at hbits
      by_cases hcut : n < (tokenBits w.ses.nodes i).length
      · obtain ⟨sym, residual, hsymbol⟩ := tokenSymbol_of_outputAfter hi
        rw [List.take_append_of_le_length hcut.le] at hbits
        rw [decodeTokens, fetchToken_short hsymbol h.inv.model hend hcut hbits, bind_raise]
      · obtain ⟨m, rfl⟩ := Nat.exists_eq_add_of_le (Nat.le_of_not_lt hcut)
        rw [ibufBits_add, List.take_length_add_append] at hbits
        obtain ⟨hfirst, hlater⟩ := List.append_inj hbits (ibufBits_length _ _ _)
        obtain ⟨w₁, hturn, h₁, hout₁, hnodes, hcursor, hilen⟩ := h.turn hout hi (htotal ▸ hlen) (by omega) hfirst
        rw [hturn]
        exact ih (n := m) h₁ hout₁ hrest (by rw [hcursor, hilen]; omega) (by rw [hnodes]; omega)
          (by rw [hnodes, hcursor]; exact hlater)

/-! ### The command -/

theorem tag_of_bits {ibuf : Memory} (h : ibufBits ibuf 0 8 = lowBits 8 0x01) : (ibufByte ibuf 0).toNat = 1 := by
  rw [← bitsToNat_ibufBits_byte, Nat.mul_zero, h, bitsToNat_lowBits]
  rfl

theorem declaredLength_of_bits {ibuf : Memory} {total : Nat}
    (h : ibufBits ibuf 8 32 = lowBits 32 (BitVec.ofNat 32 total))
    (htotal : total < 2 ^ 32) : declaredLength ibuf = total := by
  rw [← bitsToNat_ibufBits_length, h, bitsToNat_lowBits, BitVec.toNat_ofNat]
  omega

/-- A header for a length within MAX_INPUT_LEN and OCAP passes its checks (R216). -/
theorem headerVerdict_none {ibuf : Memory} {maxLen ilen ocap total : Nat} (hilen : 5 ≤ ilen)
    (htag : (ibufByte ibuf 0).toNat = 1) (hlength : declaredLength ibuf = total) (hmax : total ≤ maxLen)
    (hcap : total ≤ ocap) : headerVerdict ibuf maxLen ilen ocap = none := by
  rw [headerVerdict, hlength, htag, if_neg (by omega), if_neg (by omega), if_neg (by omega), if_neg (by omega),
    if_neg (by omega)]

theorem outputIs_start (ibuf : Memory) (ilen ocap : Word) : OutputIs ⟨tokensOpened ibuf ilen ocap, []⟩ [] :=
  ⟨rfl, fun _ => rfl⟩

/-- The bits of a buffer: the tag, the length, the tokens with EOS. -/
theorem wireBits_eq (total : Nat) (tokens : List Instr) : wireBits total tokens =
    lowBits 8 0x01 ++ (lowBits 32 (BitVec.ofNat 32 total) ++ streamBits initModel (tokens ++ [.eos])) :=
  List.append_assoc _ _ _

theorem wireBits_length (total : Nat) (tokens : List Instr) :
    (wireBits total tokens).length = 40 + (streamBits initModel (tokens ++ [.eos])).length := by
  rw [wireBits_eq, List.length_append, List.length_append, lowBits_length, lowBits_length, ← Nat.add_assoc]

/-- DECOMPRESS over a header, legal tokens and EOS gives the expansion (R215, R217). -/
theorem decompressAll_runs {ibuf : Memory} {maxLen ilen ocap : Word} {tokens : List Instr} {out : List Byte}
    (hexpansion : expansion tokens [] = some out) (hmax : out.length ≤ maxLen.toNat) (hcap : out.length ≤ ocap.toNat)
    (hroom : (wireBits out.length tokens).length ≤ 8 * ilen.toNat)
    (hbits : ibufBits ibuf 0 (wireBits out.length tokens).length = wireBits out.length tokens) :
    ∃ w, decompressAll ibuf maxLen (freshWork .dec ilen ocap) = .done (BitVec.ofNat 32 out.length) w ∧
      w.obuf.wf ∧ OutputIs w out := by
  have hlt : out.length < 2 ^ 32 := hmax.trans_lt maxLen.isLt
  rw [wireBits_length] at hroom
  rw [wireBits_length, show ∀ n, 40 + n = 8 + (32 + n) by intro n; omega, wireBits_eq, ibufBits_add,
    ibufBits_add] at hbits
  obtain ⟨htag, hbits⟩ := List.append_inj hbits (by rw [ibufBits_length, lowBits_length])
  obtain ⟨hlength, hstream⟩ := List.append_inj hbits (by rw [ibufBits_length, lowBits_length])
  have hdeclared := declaredLength_of_bits hlength hlt
  have hverdict := headerVerdict_none (ilen := ilen.toNat) (by omega) (tag_of_bits htag) hdeclared hmax hcap
  have hstart := reconstructing_start hverdict
  rw [decompressAll_eq, hverdict, Option.elim_none]
  rw [hdeclared] at hstart ⊢
  obtain ⟨w, hdecode, h, hout⟩ := decodeTokens_runs (ibuf := ibuf) (tokens := tokens) (turns := 8 * ilen.toNat + 1)
    hstart (outputIs_start ibuf ilen ocap) hexpansion
    (by rw [BitVec.toNat_ofNat, Nat.mod_eq_of_lt hlt]) hroom hstream
    (by change 8 * ilen.toNat < _; omega)
  exact ⟨w, hdecode, wf_of_sessionInv h.inv, hout⟩

theorem memLookup_zip (out : List Byte) (lo a : Nat) :
    memLookup ((List.range' lo out.length).zip out) a = if lo ≤ a then out[a - lo]? else none := by
  induction out generalizing lo with
  | nil => simp
  | cons b out ih =>
    rw [List.length_cons, List.range'_succ, List.zip_cons_cons, memLookup, ih]
    by_cases heq : a = lo
    · simp [heq]
    · by_cases hlt : lo < a
      · rw [if_neg heq, if_pos (show lo + 1 ≤ a from hlt), if_pos hlt.le,
          show a - lo = a - (lo + 1) + 1 by omega, List.getElem?_cons_succ]
      · rw [if_neg heq, if_neg (show ¬ lo + 1 ≤ a from hlt), if_neg (by omega)]

/-- A memory that holds exactly these bytes from address 0 on. -/
theorem obuf_eq_zip {w : Work} {out : List Byte} (hwf : w.obuf.wf) (h : OutputIs w out) :
    w.obuf = (List.range out.length).zip out := by
  refine memory_ext hwf (wf_of_keys_range (n := out.length) ?_) fun a => ?_
  · exact List.map_fst_zip (by rw [List.length_range])
  · rw [h.bytes, List.range_eq_range', memLookup_zip, if_pos (Nat.zero_le a), Nat.sub_zero]

end Sys2Proof.Machine
end

section
open Sys2Proof
open Sys2Proof.Machine

/-- Settles O42: turn after turn the output is the expansion of the tokens so far, and at EOS it is all of the declared
length. -/
theorem decompressRunsTokens : Obligations.DecompressRunsTokens := by
  intro s ilen ocap tokens out hexpansion hmax hcap hroom hbits
  obtain ⟨w, hdecompress, hwf, hout⟩ := decompressAll_runs hexpansion hmax hcap hroom hbits
  rw [exec_decompress_eq, hdecompress, ← obuf_eq_zip hwf hout]
  rfl

end

section
/-! SUPPORT. What COMPRESS writes (43_sequencer R210, R211): each turn of its loop writes the bits of one token, whose
expansion is the bytes it advances over, and there is room for all of them where a token has its 284 bits. -/

namespace Sys2Proof.Machine

/-! ### Bits written one after the other -/

theorem bind_congr {α β : Type} {r : Res α} {f g : α → Work → Res β}
    (h : ∀ a w, r = .done a w → f a w = g a w) : r.bind f = r.bind g := by
  cases r with
  | done a w => exact h a w rfl
  | raise k => rfl
  | stuck x => rfl

theorem writeCode_append (xs ys : List Bool) (w : Work) :
    writeCode (xs ++ ys) w = (writeCode xs w).bind fun _ w => writeCode ys w := by
  induction xs generalizing w with
  | nil => rfl
  | cons b xs ih =>
    rw [List.cons_append, writeCode, writeCode, bind_assoc]
    exact congrArg _ (funext₂ fun _ w => ih w)

/-- Another node memory in the session. -/
def Work.withNodes (nodes : NodeMemory) (w : Work) : Work := { w with ses := { w.ses with nodes := nodes } }

section
variable (nodes : NodeMemory) (w : Work)

@[simp] theorem withNodes_dir : (w.withNodes nodes).ses.dir = w.ses.dir := rfl
@[simp] theorem withNodes_ocap : (w.withNodes nodes).ses.ocap = w.ses.ocap := rfl
@[simp] theorem withNodes_obuf : (w.withNodes nodes).obuf = w.obuf := rfl
@[simp] theorem writePos_withNodes : writePos (w.withNodes nodes).ses = writePos w.ses := rfl
@[simp] theorem writtenBits_withNodes (obuf : Memory) :
    writtenBits (w.withNodes nodes).ses obuf = writtenBits w.ses obuf := rfl

theorem writeBit_withNodes (b : Bool) :
    writeBit b (w.withNodes nodes) = (writeBit b w).bind fun _ w => .done () (w.withNodes nodes) := by
  by_cases hnb : w.ses.wnb.toNat + 1 = 8
  · by_cases hroom : w.ses.olen < w.ses.ocap
    · rw [writeBit_emits hnb hroom]
      exact writeBit_emits (w := w.withNodes nodes) hnb hroom
    · have hfull : ¬ bitRoom w.ses 1 := fun h => hroom ((bitRoom_one _).1 h hnb)
      rw [writeBit_full hfull]
      exact writeBit_full (w := w.withNodes nodes) hfull
  · rw [writeBit_places hnb]
    exact writeBit_places (w := w.withNodes nodes) hnb

end

/-- Writing bits does not read the node memory. -/
theorem writeCode_withNodes (bits : List Bool) (nodes : NodeMemory) (w : Work) :
    writeCode bits (w.withNodes nodes) = (writeCode bits w).bind fun _ w => .done () (w.withNodes nodes) := by
  induction bits generalizing w with
  | nil => rfl
  | cons b bits ih =>
    rw [writeCode, writeCode, writeBit_withNodes, bind_assoc, bind_assoc]
    exact congrArg _ (funext₂ fun _ w => ih w)

/-- A flushed stream is padded to whole bytes (R132). -/
theorem flushBits_pads {w w' : Work} (h : flushBits w = .done () w') (hclear : unplacedClear w.ses) :
    w'.ses.olen.toNat = (writePos w.ses + 7) / 8 ∧
      storedBits w'.obuf w'.ses.olen.toNat = writtenBits w.ses w.obuf ++ zeroPadding (writePos w.ses) := by
  have hnb := w.ses.wnb.isLt
  rw [zeroPadding_writePos, writePos]
  obtain ⟨hzero, e⟩ | ⟨hne, e⟩ := flushBits_cases w
  · cases e.symm.trans h
    rw [writtenBits_eq, hzero]
    exact ⟨by change _ = (_ + 0 + 7) / 8; omega, by simp [leadingBits]⟩
  · have hne : w.ses.wnb.toNat ≠ 0 := fun e => hne (BitVec.eq_of_toNat_eq e)
    obtain ⟨hroom, hemit⟩ | ⟨-, hemit⟩ := emitByte_cases w <;> cases hemit.symm.trans (e.symm.trans h)
    obtain ⟨hbits, -, -, -⟩ := bitsAppended_padding w.obuf hroom hclear
    refine ⟨by rw [toNat_succ_of_lt hroom]; omega, ?_⟩
    rw [Nat.mod_eq_of_lt (by omega), ← hbits]
    exact (List.append_nil _).symm

theorem flushBits_room {w : Work} (h : writePos w.ses ≤ 8 * w.ses.ocap.toNat) : ∃ w', flushBits w = .done () w' := by
  by_cases haligned : w.ses.wnb = 0
  · exact ⟨w, flushBits_aligned haligned⟩
  · have hne : w.ses.wnb.toNat ≠ 0 := fun e => haligned (BitVec.eq_of_toNat_eq e)
    exact ⟨_, flushBits_emits haligned (by rw [writePos] at h; rw [BitVec.lt_def]; omega)⟩

/-! ### The token of a turn -/

/-- The first bytes of the input. -/
def inputUpTo (ibuf : Memory) (n : Nat) : List Byte := (List.range n).map (ibufByte ibuf)

@[simp] theorem inputUpTo_length (ibuf : Memory) (n : Nat) : (inputUpTo ibuf n).length = n := by simp [inputUpTo]

theorem inputUpTo_succ (ibuf : Memory) (n : Nat) : inputUpTo ibuf (n + 1) = inputUpTo ibuf n ++ [ibufByte ibuf n] := by
  rw [inputUpTo, List.range_succ, List.map_append]
  rfl

/-- Bytes of the input that repeat the ones dist before them are what a match of that distance appends. -/
theorem repeatBack_inputUpTo {ibuf : Memory} {dist n p : Nat} (hlo : 1 ≤ dist) (hhi : dist ≤ p)
    (h : ∀ j, j < n → ibufByte ibuf (p + j - dist) = ibufByte ibuf (p + j)) :
    repeatBack dist n (inputUpTo ibuf p) = inputUpTo ibuf (p + n) := by
  induction n generalizing p with
  | zero => rfl
  | succ n ih =>
    have hbyte : (inputUpTo ibuf p).getD ((inputUpTo ibuf p).length - dist) 0 = ibufByte ibuf p := by
      have hlt : p - dist < p := by omega
      simp only [inputUpTo, List.getD_eq_getElem?_getD, List.length_map, List.length_range, List.getElem?_map,
        List.getElem?_range hlt, Option.map_some, Option.getD_some]
      exact h 0 (Nat.succ_pos n)
    rw [repeatBack, hbyte, ← inputUpTo_succ, ih (by omega) fun j hj => ?_, Nat.add_right_comm, Nat.add_assoc]
    have hrepeat := h (j + 1) (by omega)
    rwa [← Nat.add_assoc, Nat.add_right_comm] at hrepeat

/-- The MATCH token of a length (30_encoding R102). -/
def matchToken : Nat → Residual → Instr
  | 3, r => .matchL3 r
  | 4, r => .matchL4 r
  | 5, r => .matchL5 r
  | 6, r => .matchL6 r
  | 7, r => .matchL7 r
  | 8, r => .matchL8 r
  | 9, r => .matchL9 r
  | 10, r => .matchL10 r
  | 11, r => .matchL11 r
  | 12, r => .matchL12 r
  | 13, r => .matchL13 r
  | 14, r => .matchL14 r
  | 15, r => .matchL15 r
  | 16, r => .matchL16 r
  | 17, r => .matchL17 r
  | _, r => .matchL18 r

theorem matchOf_matchToken {len : Nat} (residual : Residual) (hmin : 3 ≤ len) (hmax : len ≤ 18) :
    matchOf (matchToken len residual) = some (len, residual) := by
  interval_cases len <;> rfl

theorem outputAfter_match {i : Instr} {len : Nat} {residual : Residual} {out : List Byte}
    (h : matchOf i = some (len, residual)) (hdist : residual.toNat + 1 ≤ min out.length Config.windowCap) :
    outputAfter i out = some (repeatBack (residual.toNat + 1) len out) := by
  unfold outputAfter
  split
  · cases h
  · rw [h]
    exact if_pos hdist

/-- Encoding a symbol writes its code, the bits of its token before the residual, and updates the model (R155). -/
theorem encodeSymbol_of_token {i : Instr} {sym : SymbolIndex} {residual : Option Residual}
    (h : TokenSymbol i sym residual) {w : Work} (hok : modelOk w.ses.nodes) :
    ∃ bits, tokenBits w.ses.nodes i = bits ++ residualBits residual ∧ encodeSymbol sym.toNat w =
      (writeCode bits w).bind fun _ w' => .done bits.length (w'.withNodes (nodesAfter w.ses.nodes i)) := by
  obtain ⟨bits, hcode, -, -, htoken⟩ := h.bits hok
  rw [h.nodesAfter]
  refine ⟨bits, htoken, (encodeSymbol_of_code h.symbol hcode).trans (bind_congr fun _ w₁ hwrite => ?_)⟩
  rw [Work.withNodes, (writeCode_frame hwrite).1]

/-- A turn of the loop of COMPRESS with the token i that stands for the next n bytes: its bits, the model after it, and
the advance (R210). -/
structure TurnIs (ibuf : Memory) (w : Work) (i : Instr) (n : Nat) : Prop where
  pos : 1 ≤ n
  inside : w.ses.ipos.toNat + n ≤ w.ses.ilen.toNat
  output : outputAfter i (inputUpTo ibuf w.ses.ipos.toNat) = some (inputUpTo ibuf (w.ses.ipos.toNat + n))
  turn : compressToken ibuf w = (writeCode (tokenBits w.ses.nodes i) w).bind fun _ w' =>
    .done () { w' with ses := advanceBy ibuf n (w'.withNodes (nodesAfter w.ses.nodes i)).ses }

theorem turnIs_lit {ibuf : Memory} {w : Work} (hok : modelOk w.ses.nodes) (hlt : w.ses.ipos < w.ses.ilen)
    (hfound : (findMatch ibuf w.ses).1 = 0) : TurnIs ibuf w (.lit (ibufByte ibuf w.ses.ipos.toNat)) 1 where
  pos := Nat.le_refl 1
  inside := hlt
  output := congrArg some (inputUpTo_succ _ _).symm
  turn := by
    obtain ⟨bits, htoken, hencode⟩ := encodeSymbol_of_token (tokenSymbol_lit (ibufByte ibuf w.ses.ipos.toNat)) hok
    rw [toNat_setWidth_literal] at hencode
    rw [compressToken, hfound, htoken, residualBits, List.append_nil, if_neg (by decide), hencode, bind_assoc]
    refine congrArg _ (funext₂ fun _ w₁ => ?_)
    rw [bind_done, withNodes_obuf]

theorem turnIs_match {ibuf : Memory} {w : Work} {len dist : Nat} (hok : modelOk w.ses.nodes)
    (hwindow : windowFollowsInput ibuf w.ses) (hfound : findMatch ibuf w.ses = (len, dist)) (hmin : 3 ≤ len)
    (hlo : 1 ≤ dist) (hhi : dist ≤ fill w.ses) (hlen : matchLen ibuf w.ses dist = len) :
    TurnIs ibuf w (matchToken len (BitVec.ofNat 12 (dist - 1))) len := by
  obtain ⟨hmax, hrest⟩ := matchLen_le ibuf w.ses dist
  rw [hlen] at hmax hrest
  obtain ⟨hwpos, hcap⟩ := Nat.le_min.1 hhi
  rw [hwindow.1] at hwpos
  have hcap : dist ≤ 4096 := hcap
  have hresidual : (BitVec.ofNat 12 (dist - 1)).toNat + 1 = dist := by rw [BitVec.toNat_ofNat]; omega
  have hmatch := matchOf_matchToken (BitVec.ofNat 12 (dist - 1)) hmin hmax
  obtain ⟨hsymbol, hsym⟩ := tokenSymbol_match hmatch
  refine ⟨by omega, by omega, ?_, ?_⟩
  · rw [outputAfter_match hmatch (by rw [hresidual, inputUpTo_length]; exact Nat.le_min.2 ⟨hwpos, hcap⟩), hresidual,
      repeatBack_inputUpTo hlo hwpos fun j hj => matchLen_repeats_input hwindow hhi (by rwa [hlen])]
  · obtain ⟨bits, htoken, hencode⟩ := encodeSymbol_of_token hsymbol hok
    have hbits : residualBits (some (BitVec.ofNat 12 (dist - 1))) = lowBits 12 (BitVec.ofNat 32 (dist - 1)) := by
      refine congrArg (lowBits 12) (BitVec.eq_of_toNat_eq ?_)
      rw [BitVec.toNat_setWidth, BitVec.toNat_ofNat, BitVec.toNat_ofNat]
      omega
    rw [hsym] at hencode
    rw [compressToken, hfound, htoken, hbits]
    dsimp only
    rw [if_pos (by omega), hencode, writeCode_append, bind_assoc, bind_assoc]
    refine congrArg _ (funext₂ fun _ w₁ => ?_)
    rw [bind_done, writeBits_eq_writeCode, show Config.windowBits = 12 from rfl, writeCode_withNodes, bind_assoc]
    rfl

/-- Every turn writes one token. -/
theorem exists_turnIs {ibuf : Memory} {w : Work} (hok : modelOk w.ses.nodes) (hwindow : windowFollowsInput ibuf w.ses)
    (hlt : w.ses.ipos < w.ses.ilen) : ∃ i n, TurnIs ibuf w i n := by
  obtain ⟨hnone, -⟩ | ⟨hmin, hbest⟩ := findMatch_cases ibuf w.ses
  · exact ⟨_, _, turnIs_lit hok hlt (congrArg Prod.fst hnone)⟩
  · obtain ⟨hlo, hhi, hlen⟩ := hbest.found (by omega)
    exact ⟨_, _, turnIs_match hok hwindow Prod.mk.eta.symm hmin hlo (by omega) hlen⟩

/-! ### The loop -/

/-- An ENC session inside COMPRESS: the window is the input before IPOS. -/
structure Compressing (ibuf : Memory) (w : Work) : Prop where
  inv : SessionInv w.ses w.obuf
  enc : w.ses.dir = .enc
  window : windowFollowsInput ibuf w.ses

/-- One turn has written the token i and has advanced over n bytes. -/
structure TokenWritten (i : Instr) (n : Nat) (w w' : Work) : Prop where
  ilen : w'.ses.ilen = w.ses.ilen
  ocap : w'.ses.ocap = w.ses.ocap
  ipos : w'.ses.ipos.toNat = w.ses.ipos.toNat + n
  nodes : w'.ses.nodes = nodesAfter w.ses.nodes i
  written : writtenBits w'.ses w'.obuf = writtenBits w.ses w.obuf ++ tokenBits w.ses.nodes i

theorem Compressing.written {ibuf : Memory} {w w₁ : Work} (h : Compressing ibuf w) {bits : List Bool}
    (hwrite : writeCode bits w = .done () w₁) : Compressing ibuf w₁ := by
  have hmoved := (writeCode_frame hwrite).1
  refine ⟨sessionInv_bits h.inv h.enc (writeCode_bits hwrite), ?_, ?_⟩ <;> rw [hmoved]
  · exact h.enc
  · exact h.window

theorem Compressing.withNodes {ibuf : Memory} {w : Work} (h : Compressing ibuf w) {nodes : NodeMemory}
    (hok : modelOk nodes) : Compressing ibuf (w.withNodes nodes) :=
  ⟨sessionInv_of_modelOk h.inv hok, h.enc, h.window⟩

theorem Compressing.advanced {ibuf : Memory} {w : Work} (h : Compressing ibuf w) {n : Nat}
    (hn : w.ses.ipos.toNat + n ≤ w.ses.ilen.toNat) : Compressing ibuf { w with ses := advanceBy ibuf n w.ses } :=
  advanceBy_keeps (P := fun ses => Compressing ibuf { w with ses := ses })
    (fun _ hses hlt => ⟨sessionInv_advanceOne hses.inv hses.enc hlt, hses.enc,
      windowFollowsInput_advanceOne hses.window hlt⟩) h hn

theorem writtenBits_advanceBy (ibuf : Memory) (n : Nat) (ses : Session) (obuf : Memory) :
    writtenBits (advanceBy ibuf n ses) obuf = writtenBits ses obuf := by
  have hmoved := advanceBy_frame ibuf n ses
  rw [hmoved]
  rfl

theorem Compressing.turn {ibuf : Memory} {w w' : Work} {i : Instr} {n : Nat} (h : Compressing ibuf w)
    (hturn : TurnIs ibuf w i n) (hdone : compressToken ibuf w = .done () w') :
    Compressing ibuf w' ∧ TokenWritten i n w w' := by
  obtain ⟨sym, residual, hsymbol⟩ := tokenSymbol_of_outputAfter hturn.output
  obtain ⟨_, w₁, hwrite, e⟩ := bind_eq_done.1 (hturn.turn.symm.trans hdone)
  cases e
  have hmoved := (writeCode_frame hwrite).1
  have hinside := hturn.inside
  have hilen := w.ses.ilen.isLt
  have hbits := (writeCode_appends hwrite h.inv.accumulator).1
  refine ⟨((h.written hwrite).withNodes (hsymbol.modelOk_nodesAfter h.inv.model)).advanced ?_, ?_, ?_, ?_, ?_, ?_⟩
  · change w₁.ses.ipos.toNat + n ≤ w₁.ses.ilen.toNat
    rw [hmoved]
    exact hinside
  · rw [advanceBy_frame, Work.withNodes, hmoved]
  · rw [advanceBy_frame, Work.withNodes, hmoved]
  · rw [(advanceBy_pos _ _ _).1, Work.withNodes, hmoved, BitVec.toNat_add, BitVec.toNat_ofNat]
    dsimp only
    omega
  · exact advanceBy_nodes _ _ _
  · exact (writtenBits_advanceBy _ _ _ _).trans hbits

/-- What the loop of COMPRESS leaves: tokens that expand to the rest of the input have been written, so that whatever
tokens follow, the stream is the same. -/
structure TokensWritten (ibuf : Memory) (tokens : List Instr) (w w' : Work) : Prop where
  compressing : Compressing ibuf w'
  ilen : w'.ses.ilen = w.ses.ilen
  ocap : w'.ses.ocap = w.ses.ocap
  expansion : expansion tokens (inputUpTo ibuf w.ses.ipos.toNat) = some (inputUpTo ibuf w.ses.ilen.toNat)
  written : ∀ rest, writtenBits w'.ses w'.obuf ++ streamBits w'.ses.nodes rest =
    writtenBits w.ses w.obuf ++ streamBits w.ses.nodes (tokens ++ rest)

theorem TokensWritten.cons {ibuf : Memory} {i : Instr} {tokens : List Instr} {n : Nat} {w w₁ w' : Work}
    (houtput : outputAfter i (inputUpTo ibuf w.ses.ipos.toNat) = some (inputUpTo ibuf (w.ses.ipos.toNat + n)))
    (hfirst : TokenWritten i n w w₁) (h : TokensWritten ibuf tokens w₁ w') : TokensWritten ibuf (i :: tokens) w w' where
  compressing := h.compressing
  ilen := h.ilen.trans hfirst.ilen
  ocap := h.ocap.trans hfirst.ocap
  expansion := by
    rw [Machine.expansion, houtput, ← hfirst.ipos, ← hfirst.ilen]
    exact h.expansion
  written rest := by rw [h.written, hfirst.written, hfirst.nodes, List.append_assoc, List.cons_append, streamBits]

theorem TokensWritten.nil {ibuf : Memory} {w : Work} (h : Compressing ibuf w) (hend : ¬ w.ses.ipos < w.ses.ilen) :
    TokensWritten ibuf [] w w where
  compressing := h
  ilen := rfl
  ocap := rfl
  expansion := by rw [Nat.le_antisymm h.inv.input (Nat.le_of_not_lt hend)]; rfl
  written _ := rfl

theorem compressLoop_writes {ibuf : Memory} {turns : Nat} {w w' : Work} (h : Compressing ibuf w)
    (hturns : w.ses.ilen.toNat ≤ w.ses.ipos.toNat + turns) (hloop : compressLoop ibuf turns w = .done () w') :
    ∃ tokens, TokensWritten ibuf tokens w w' := by
  induction turns generalizing w with
  | zero => cases hloop; exact ⟨[], .nil h (Nat.not_lt.2 hturns)⟩
  | succ turns ih =>
    by_cases hlt : w.ses.ipos < w.ses.ilen
    · rw [compressLoop, if_pos hlt] at hloop
      obtain ⟨_, w₁, htoken, hrest⟩ := bind_eq_done.1 hloop
      obtain ⟨i, n, hturn⟩ := exists_turnIs h.inv.model h.window hlt
      obtain ⟨h₁, hfirst⟩ := h.turn hturn htoken
      have hpos := hturn.pos
      obtain ⟨tokens, htokens⟩ := ih h₁ (by rw [hfirst.ilen, hfirst.ipos]; omega) hrest
      exact ⟨i :: tokens, .cons hturn.output hfirst htokens⟩
    · rw [compressLoop, if_neg hlt] at hloop
      cases hloop
      exact ⟨[], .nil h hlt⟩

/-- With room for 284 bits a byte the loop goes through, and a byte has taken no more. -/
theorem compressLoop_completes {ibuf : Memory} {turns : Nat} {w : Work} (h : Compressing ibuf w)
    (hroom : writePos w.ses + 284 * (w.ses.ilen.toNat - w.ses.ipos.toNat) ≤ 8 * w.ses.ocap.toNat) :
    ∃ w', compressLoop ibuf turns w = .done () w' ∧
      writePos w'.ses ≤ writePos w.ses + 284 * (w.ses.ilen.toNat - w.ses.ipos.toNat) := by
  induction turns generalizing w with
  | zero => exact ⟨w, rfl, Nat.le_add_right _ _⟩
  | succ turns ih =>
    by_cases hlt : w.ses.ipos < w.ses.ilen
    · obtain ⟨i, n, hturn⟩ := exists_turnIs h.inv.model h.window hlt
      have hmax := (tokenBits_length hturn.output h.inv.model).2
      have hpos := hturn.pos
      have hinside := hturn.inside
      have hwritten := writtenBits_length w.ses w.obuf
      obtain ⟨w₁, hwrite⟩ := writeCode_room (w := w) (bits := tokenBits w.ses.nodes i)
        (bitRoom_of_length (obuf := w.obuf) (by omega))
      have htoken := hturn.turn
      rw [hwrite, bind_done] at htoken
      obtain ⟨h₁, hfirst⟩ := h.turn hturn htoken
      have hlength := congrArg List.length hfirst.written
      rw [List.length_append, writtenBits_length, writtenBits_length] at hlength
      obtain ⟨w', hloop, hbound⟩ := ih h₁ (by rw [hfirst.ilen, hfirst.ipos, hfirst.ocap]; omega)
      rw [hfirst.ilen, hfirst.ipos] at hbound
      refine ⟨w', ?_, by omega⟩
      rw [compressLoop, if_pos hlt, htoken]
      exact hloop
    · refine ⟨w, ?_, Nat.le_add_right _ _⟩
      rw [compressLoop, if_neg hlt]

/-! ### The command -/

/-- The header of a buffer (30_encoding R93, R94). -/
def headerBits (ilen : Word) : List Bool := lowBits 8 (BitVec.ofNat 32 Config.formatTag) ++ lowBits 32 ilen

theorem headerBits_length (ilen : Word) : (headerBits ilen).length = 40 := by
  rw [headerBits, List.length_append, lowBits_length, lowBits_length]

theorem writeHeader_eq_writeCode (w : Work) : writeHeader w = writeCode (headerBits w.ses.ilen) w := by
  rw [writeHeader, headerBits, writeCode_append, writeBits_eq_writeCode]
  refine bind_congr fun _ w₁ hwrite => ?_
  rw [writeBits_eq_writeCode, (writeCode_frame hwrite).1]

theorem compressing_start (ibuf : Memory) (ilen ocap : Word) : Compressing ibuf (freshWork .enc ilen ocap) :=
  ⟨sessionInv_initSession .enc ilen ocap, rfl, rfl, Nat.zero_le _, fun d hlo hhi => by
    have hfill : d ≤ 0 := hhi
    omega⟩

/-- COMPRESS by what is written: the header, the loop, EOS and the padding. -/
theorem compressAll_eq (ibuf : Memory) (ilen ocap : Word) : compressAll ibuf (freshWork .enc ilen ocap) =
    (writeCode (headerBits ilen) (freshWork .enc ilen ocap)).bind fun _ w =>
      (compressLoop ibuf w.ses.ilen.toNat w).bind fun _ w => (encodeSymbol Config.symEos w).bind fun _ w =>
        (flushBits w).bind fun _ w => .done w.ses.olen w := by
  rw [compressAll, writeHeader_eq_writeCode]
  rfl

/-- EOS has no residual: encoding it writes its token. -/
theorem encodeSymbol_eos {w : Work} (hok : modelOk w.ses.nodes) : encodeSymbol Config.symEos w =
    (writeCode (tokenBits w.ses.nodes .eos) w).bind fun _ w' =>
      .done (tokenBits w.ses.nodes .eos).length (w'.withNodes (nodesAfter w.ses.nodes .eos)) := by
  obtain ⟨bits, htoken, hencode⟩ := encodeSymbol_of_token tokenSymbol_eos hok
  rw [htoken, residualBits, List.append_nil]
  exact hencode

/-- The work after the header. -/
structure HeaderWritten (ibuf : Memory) (ilen ocap : Word) (w : Work) : Prop where
  compressing : Compressing ibuf w
  written : writtenBits w.ses w.obuf = headerBits ilen
  ilen : w.ses.ilen = ilen
  ocap : w.ses.ocap = ocap
  ipos : w.ses.ipos = 0
  nodes : w.ses.nodes = initModel

theorem headerWritten {ilen ocap : Word} {w : Work} (ibuf : Memory)
    (h : writeCode (headerBits ilen) (freshWork .enc ilen ocap) = .done () w) : HeaderWritten ibuf ilen ocap w := by
  have hstart := compressing_start ibuf ilen ocap
  have hmoved := (writeCode_frame h).1
  refine ⟨hstart.written h, (writeCode_appends h hstart.inv.accumulator).1, ?_, ?_, ?_, ?_⟩ <;> rw [hmoved] <;> rfl

/-- What COMPRESS has written when it is done (R211). -/
structure Compressed (ibuf : Memory) (ilen ocap n : Word) (obuf : Memory) (tokens : List Instr) : Prop where
  expansion : expansion tokens [] = some (inputUpTo ibuf ilen.toNat)
  length : n.toNat = ((wireBits ilen.toNat tokens).length + 7) / 8
  bits : storedBits obuf n.toNat = wireBits ilen.toNat tokens ++ zeroPadding (wireBits ilen.toNat tokens).length
  room : n.toNat ≤ ocap.toNat
  bytes : obuf.map Prod.fst = List.range n.toNat

theorem wireBits_eq_headerBits (ilen : Word) (tokens : List Instr) :
    wireBits ilen.toNat tokens = headerBits ilen ++ streamBits initModel (tokens ++ [.eos]) := by
  rw [wireBits, BitVec.ofNat_toNat, BitVec.setWidth_eq]
  rfl

/-- The work after EOS, from which only the padding is missing. -/
structure EosWritten (w w' : Work) : Prop where
  inv : SessionInv w'.ses w'.obuf
  enc : w'.ses.dir = .enc
  ocap : w'.ses.ocap = w.ses.ocap
  written : writtenBits w'.ses w'.obuf = writtenBits w.ses w.obuf ++ tokenBits w.ses.nodes .eos

theorem Compressing.eosWritten {ibuf : Memory} {w w' : Work} {len : Nat} (h : Compressing ibuf w)
    (heos : encodeSymbol Config.symEos w = .done len w') : EosWritten w w' := by
  rw [encodeSymbol_eos h.inv.model] at heos
  obtain ⟨_, w₁, hwrite, e⟩ := bind_eq_done.1 heos
  cases e
  have h₁ := (h.written hwrite).withNodes (tokenSymbol_eos.modelOk_nodesAfter h.inv.model)
  refine ⟨h₁.inv, h₁.enc, ?_, ?_⟩
  · rw [withNodes_ocap, (writeCode_frame hwrite).1]
  · rw [writtenBits_withNodes, withNodes_obuf, (writeCode_appends hwrite h.inv.accumulator).1]

theorem Compressing.eos_room {ibuf : Memory} {w : Work} (h : Compressing ibuf w)
    (hroom : writePos w.ses + 272 ≤ 8 * w.ses.ocap.toNat) :
    ∃ len w', encodeSymbol Config.symEos w = .done len w' ∧ writePos w'.ses ≤ writePos w.ses + 272 := by
  obtain ⟨bits, -, -, hmax, htoken⟩ := tokenSymbol_eos.bits h.inv.model
  rw [residualBits, List.append_nil] at htoken
  obtain ⟨w₁, hwrite⟩ := writeCode_room (w := w) (bits := tokenBits w.ses.nodes .eos)
    (bitRoom_of_length (obuf := w.obuf) (by rw [writtenBits_length, htoken]; omega))
  refine ⟨(tokenBits w.ses.nodes .eos).length, w₁.withNodes (nodesAfter w.ses.nodes .eos), ?_, ?_⟩
  · rw [encodeSymbol_eos h.inv.model, hwrite, bind_done]
  · rw [writePos_withNodes, writeCode_pos hwrite, htoken]
    omega

theorem compressAll_done {ibuf : Memory} {ilen ocap n : Word} {w : Work}
    (h : compressAll ibuf (freshWork .enc ilen ocap) = .done n w) :
    ∃ tokens, Compressed ibuf ilen ocap n w.obuf tokens := by
  rw [compressAll_eq] at h
  obtain ⟨_, w₁, hheader, h⟩ := bind_eq_done.1 h
  obtain ⟨_, w₂, hloop, h⟩ := bind_eq_done.1 h
  obtain ⟨_, w₃, heos, h⟩ := bind_eq_done.1 h
  obtain ⟨_, w₄, hflush, h⟩ := bind_eq_done.1 h
  cases h
  have h₁ := headerWritten ibuf hheader
  obtain ⟨tokens, h₂⟩ := compressLoop_writes h₁.compressing (Nat.le_add_left _ _) hloop
  have h₃ := h₂.compressing.eosWritten heos
  have h₄ := sessionInv_flush h₃.inv h₃.enc hflush
  have hocap : w.ses.ocap = ocap := by
    rw [flushBits_frame hflush]
    exact h₃.ocap.trans (h₂.ocap.trans h₁.ocap)
  have hwritten : writtenBits w₃.ses w₃.obuf = wireBits ilen.toNat tokens := by
    rw [h₃.written, wireBits_eq_headerBits, ← h₁.written, ← h₁.nodes, ← h₂.written, streamBits, streamBits,
      List.append_nil]
  obtain ⟨holen, hstored⟩ := flushBits_pads hflush h₃.inv.accumulator
  rw [← writtenBits_length w₃.ses w₃.obuf, hwritten] at holen hstored
  have hexpansion := h₂.expansion
  rw [h₁.ipos, h₁.ilen] at hexpansion
  exact ⟨tokens, hexpansion, holen, hstored, hocap ▸ h₄.room, h₄.output⟩

theorem streamBits_eos_length_pos {tokens : List Instr} {out out' : List Byte}
    (h : expansion tokens out = some out') {nodes : NodeMemory} (hok : modelOk nodes) :
    1 ≤ (streamBits nodes (tokens ++ [.eos])).length := by
  cases tokens with
  | nil =>
    obtain ⟨bits, -, hpos, -, htoken⟩ := tokenSymbol_eos.bits hok
    rw [List.nil_append, streamBits, htoken, List.length_append, List.length_append]
    omega
  | cons i rest =>
    obtain ⟨out₁, hi, -⟩ := expansion_cons h
    have hpos := (tokenBits_length hi hok).1
    rw [List.cons_append, streamBits, List.length_append]
    omega

theorem compressAll_completes (ibuf : Memory) {ilen ocap : Word}
    (hroom : 40 + 284 * (ilen.toNat + 1) ≤ 8 * ocap.toNat) :
    ∃ n w, compressAll ibuf (freshWork .enc ilen ocap) = .done n w := by
  have hheader : bitRoom (freshWork .enc ilen ocap).ses (headerBits ilen).length := by
    rw [headerBits_length]
    exact bitRoom_of_length (obuf := []) (by change 0 + 40 ≤ 8 * ocap.toNat; omega)
  obtain ⟨w₁, hheader⟩ := writeCode_room hheader
  have h₁ := headerWritten ibuf hheader
  have hpos₁ := writtenBits_length w₁.ses w₁.obuf
  rw [h₁.written, headerBits_length] at hpos₁
  have hipos : w₁.ses.ipos.toNat = 0 := by rw [h₁.ipos]; rfl
  obtain ⟨w₂, hloop, hpos₂⟩ := compressLoop_completes (turns := w₁.ses.ilen.toNat) h₁.compressing
    (by rw [h₁.ilen, h₁.ocap, hipos]; omega)
  rw [h₁.ilen, hipos, Nat.sub_zero] at hpos₂
  obtain ⟨tokens, h₂⟩ := compressLoop_writes h₁.compressing (Nat.le_add_left _ _) hloop
  have hocap₂ := h₂.ocap.trans h₁.ocap
  have hroom₂ : writePos w₂.ses + 272 ≤ 8 * w₂.ses.ocap.toNat := by rw [hocap₂]; linarith
  obtain ⟨len, w₃, heos, hpos₃⟩ := h₂.compressing.eos_room hroom₂
  have hocap₃ := (h₂.compressing.eosWritten heos).ocap.trans hocap₂
  obtain ⟨w₄, hflush⟩ := flushBits_room (w := w₃) (by rw [hocap₃]; linarith)
  refine ⟨w₄.ses.olen, w₄, ?_⟩
  rw [compressAll_eq, hheader, bind_done, hloop, bind_done, heos, bind_done, hflush, bind_done]

theorem execCompress_within {s : State} {ilen : Word} (h : ilen ≤ s.maxInputLen) (ocap : Word) :
    exec (.compress ilen ocap) s = settleMacro (compressAll s.ibuf (freshWork .enc ilen ocap)) s :=
  if_neg (BitVec.not_lt.2 h)

theorem compressed_of_ok {s t : State} {ilen ocap r0 r1 : Word} (h : exec (.compress ilen ocap) s = .next t)
    (hresp : t.resp = some ⟨.ok, r0, r1⟩) : ∃ tokens, Compressed s.ibuf ilen ocap r0 t.obuf tokens := by
  change execCompress ilen ocap s = _ at h
  rw [execCompress] at h
  split at h
  · cases h
    cases hresp
  · obtain ⟨n, w, hdone, rfl⟩ | ⟨k, -, rfl⟩ := settleMacro_next h
    · cases hresp
      exact compressAll_done hdone
    · cases hresp

end Sys2Proof.Machine
end

section
open Sys2Proof
open Sys2Proof.Machine

/-- Settles O37: a token takes at most 284 bits, so the room bound covers the header, a token a byte, and EOS. -/
theorem compressCompletes : Obligations.CompressCompletes := by
  refine fun s ilen ocap => ⟨fun hmax hroom => ?_, fun hlarge => if_pos hlarge⟩
  obtain ⟨n, w, hdone⟩ := compressAll_completes s.ibuf hroom
  obtain ⟨tokens, h⟩ := compressAll_done hdone
  refine ⟨n.toNat, w.obuf, ?_, ?_, h.room, h.bytes⟩
  · rw [execCompress_within hmax, hdone, okResponse_toNat]
    rfl
  · have hlength := h.length
    have hpos := streamBits_eos_length_pos h.expansion modelOk_initModel
    rw [wireBits_length] at hlength
    omega

/-- Settles O38. -/
theorem compressEmitsTokens : Obligations.CompressEmitsTokens := by
  intro s t ilen ocap n hexec hresp
  obtain ⟨tokens, h⟩ := compressed_of_ok hexec hresp
  refine ⟨tokens, h.expansion, h.length, fun p hp => ?_⟩
  have hbit := congrArg (·.getD p false) h.bits
  simp only [storedBits, List.getD_eq_getElem?_getD, List.getElem?_map, List.getElem?_range hp, Option.map_some,
    Option.getD_some] at hbit
  rw [hbit, zeroPadding, List.getD_eq_getElem?_getD, List.getElem?_append]
  split
  · rfl
  · rename_i hge
    rw [List.getElem?_eq_none (Nat.le_of_not_lt hge), List.getElem?_replicate]
    split <;> rfl

end

section
/-! SUPPORT. DECOMPRESS over what COMPRESS gave (43_sequencer R221, R223, R224): the whole of it, a part cut short, and
the length in its header. -/

namespace Sys2Proof.Machine

/-! ### The bytes of OBUF as a stream -/

theorem exists_memLookup_of_mem_keys {m : Memory} {a : Nat} (h : a ∈ m.map Prod.fst) : ∃ v, memLookup m a = some v := by
  induction m with
  | nil => cases h
  | cons c m ih =>
    by_cases heq : a = c.1
    · exact ⟨c.2, if_pos heq⟩
    · obtain rfl | hrest := List.mem_cons.1 h
      · exact absurd rfl heq
      · obtain ⟨v, hv⟩ := ih hrest
        exact ⟨v, (if_neg heq).trans hv⟩

theorem storedBits_take {obuf : Memory} {m n : Nat} (h : m ≤ n) :
    storedBits obuf m = (storedBits obuf n).take (8 * m) := by
  rw [storedBits, storedBits, ← List.map_take, List.take_range, Nat.min_eq_left (Nat.mul_le_mul_left 8 h)]

theorem getD_lowBits {n i : Nat} (v : Word) (hi : i < n) : (lowBits n v).getD i false = v.getLsbD (n - 1 - i) := by
  rw [lowBits, List.getD_eq_getElem?_getD, List.getElem?_map, List.getElem?_range hi]
  rfl

theorem getD_headerBits_tag {ilen : Word} {i : Nat} (hi : i < 8) :
    (headerBits ilen).getD i false = (0x01#8).getLsbD (7 - i) := by
  rw [headerBits, List.getD_append _ _ _ _ (by rwa [lowBits_length]), getD_lowBits _ hi]
  interval_cases i <;> rfl

theorem getD_headerBits_length {ilen : Word} {i : Nat} (hlo : 8 ≤ i) (hhi : i < 40) :
    (headerBits ilen).getD i false = ilen.getLsbD (39 - i) := by
  rw [headerBits, List.getD_append_right _ _ _ _ (by rwa [lowBits_length]), lowBits_length, getD_lowBits _ (by omega)]
  congr 1
  omega

/-! ### Cut short -/

theorem headerVerdict_short {ibuf : Memory} {maxLen ilen ocap : Nat} (hilen : ilen < 5)
    (htag : 1 ≤ ilen → (ibufByte ibuf 0).toNat = 1) :
    headerVerdict ibuf maxLen ilen ocap = some .unexpectedEndOfStream := by
  rw [headerVerdict]
  split
  · rfl
  · rename_i hpos
    rw [if_neg (not_not.2 (htag (Nat.le_of_not_lt hpos)))]

theorem headerVerdict_full {ibuf : Memory} {maxLen ilen ocap total : Nat} (hilen : 5 ≤ ilen)
    (htag : (ibufByte ibuf 0).toNat = 1) (hlength : declaredLength ibuf = total) (hmax : total ≤ maxLen)
    (hcap : ocap < total) : headerVerdict ibuf maxLen ilen ocap = some .allocationFailure := by
  rw [headerVerdict, hlength, htag, if_neg (by omega), if_neg (by omega), if_neg (by omega), if_neg (by omega),
    if_pos hcap]

section
variable {ibuf : Memory} {maxLen ilen ocap : Word} {tokens : List Instr} {out : List Byte}
  (hexpansion : expansion tokens [] = some out) (hmax : out.length ≤ maxLen.toNat)
  (hcut : 8 * ilen.toNat < (wireBits out.length tokens).length)
  (hbits : ibufBits ibuf 0 (8 * ilen.toNat) = (wireBits out.length tokens).take (8 * ilen.toNat))
include hbits

theorem tag_of_cut (hilen : 1 ≤ ilen.toNat) : (ibufByte ibuf 0).toNat = 1 := by
  rw [show 8 * ilen.toNat = (lowBits 8 0x01).length + (8 * ilen.toNat - 8) by rw [lowBits_length]; omega, wireBits_eq,
    List.take_length_add_append, ibufBits_add] at hbits
  exact tag_of_bits (List.append_inj hbits (ibufBits_length _ _ _)).1

/-- Past a header the bits are those of the length and then of the tokens, cut. -/
theorem length_and_stream_of_cut (hilen : 5 ≤ ilen.toNat) :
    ibufBits ibuf 8 32 = lowBits 32 (BitVec.ofNat 32 out.length) ∧
    ibufBits ibuf 40 (8 * ilen.toNat - 40) =
      (streamBits initModel (tokens ++ [.eos])).take (8 * ilen.toNat - 40) := by
  rw [show 8 * ilen.toNat = (lowBits 8 0x01).length + ((lowBits 32 (BitVec.ofNat 32 out.length)).length +
    (8 * ilen.toNat - 40)) by rw [lowBits_length, lowBits_length]; omega, wireBits_eq, List.take_length_add_append,
    List.take_length_add_append, ibufBits_add, ibufBits_add] at hbits
  obtain ⟨-, hbits⟩ := List.append_inj hbits (ibufBits_length _ _ _)
  obtain ⟨hlength, hstream⟩ := List.append_inj hbits (ibufBits_length _ _ _)
  rw [lowBits_length, lowBits_length] at hstream
  rw [lowBits_length, lowBits_length] at hlength
  exact ⟨hlength, hstream⟩

include hmax

theorem declaredLength_of_cut (hilen : 5 ≤ ilen.toNat) : declaredLength ibuf = out.length :=
  declaredLength_of_bits (length_and_stream_of_cut hbits hilen).1 (hmax.trans_lt maxLen.isLt)

theorem decompressAll_cut_full (hilen : 5 ≤ ilen.toNat) (hcap : ocap.toNat < out.length) :
    decompressAll ibuf maxLen (freshWork .dec ilen ocap) = .raise .allocationFailure := by
  rw [decompressAll_eq, headerVerdict_full hilen (tag_of_cut hbits (by omega)) (declaredLength_of_cut hmax hbits hilen)
    hmax hcap, Option.elim_some]

include hexpansion hcut

theorem decompressAll_cut_short (hcap : out.length ≤ ocap.toNat) :
    decompressAll ibuf maxLen (freshWork .dec ilen ocap) = .raise .unexpectedEndOfStream := by
  by_cases hilen : 5 ≤ ilen.toNat
  · have hdeclared := declaredLength_of_cut hmax hbits hilen
    have hverdict := headerVerdict_none hilen (tag_of_cut hbits (by omega)) hdeclared hmax hcap
    have hstart := reconstructing_start hverdict
    have hlt : out.length < 2 ^ 32 := hmax.trans_lt maxLen.isLt
    rw [wireBits_length] at hcut
    rw [decompressAll_eq, hverdict, Option.elim_none]
    rw [hdeclared] at hstart ⊢
    exact decodeTokens_short hstart (outputIs_start ibuf ilen ocap) hexpansion
      (by rw [BitVec.toNat_ofNat, Nat.mod_eq_of_lt hlt]) (n := 8 * ilen.toNat - 40)
      (by change 40 + _ = 8 * ilen.toNat; omega) (by change _ < (streamBits initModel _).length; omega)
      (length_and_stream_of_cut hbits hilen).2
  · rw [decompressAll_eq, headerVerdict_short (Nat.lt_of_not_le hilen) (tag_of_cut hbits), Option.elim_some]

end

/-! ### What COMPRESS gave -/

section
variable {ibuf ibuf' obuf : Memory} {ilen ocap n : Word} {tokens : List Instr}
  (h : Compressed ibuf ilen ocap n obuf tokens)
include h

theorem Compressed.headerBit {p : Nat} (hp : p < 40) :
    ((memLookup obuf (p / 8)).getD 0).getLsbD (7 - p % 8) = (headerBits ilen).getD p false := by
  have hlength := h.length
  rw [wireBits_length] at hlength
  have hbit := congrArg (·.getD p false) h.bits
  simp only [storedBits, List.getD_eq_getElem?_getD, List.getElem?_map,
    List.getElem?_range (show p < 8 * n.toNat by omega), Option.map_some,
    Option.getD_some, wireBits_eq_headerBits, List.append_assoc] at hbit
  rw [hbit, List.getElem?_append_left (by rwa [headerBits_length]), List.getD_eq_getElem?_getD]

theorem Compressed.headerByte {a : Nat} (ha : a < 5) {v : Byte}
    (hv : ∀ j, j < 8 → (headerBits ilen).getD (8 * a + (7 - j)) false = v.getLsbD j) : memLookup obuf a = some v := by
  have hlength := h.length
  rw [wireBits_length] at hlength
  obtain ⟨u, hu⟩ := exists_memLookup_of_mem_keys (m := obuf) (a := a)
    (by rw [h.bytes]; exact List.mem_range.2 (by omega))
  rw [hu, Option.some.injEq]
  refine BitVec.eq_of_getLsbD_eq fun j hj => ?_
  have hbit := h.headerBit (p := 8 * a + (7 - j)) (by omega)
  rwa [hv j hj, show (8 * a + (7 - j)) / 8 = a by omega, show 7 - (8 * a + (7 - j)) % 8 = j by omega, hu,
    Option.getD_some] at hbit

/-- Bytes of it read as an IBUF are the first bits of the stream. -/
theorem Compressed.carriedBits {m : Nat} (hm : m ≤ n.toNat) (hcarried : carriedOver obuf ibuf' m) :
    ibufBits ibuf' 0 (8 * m) =
      (wireBits ilen.toNat tokens ++ zeroPadding (wireBits ilen.toNat tokens).length).take (8 * m) := by
  rw [ibufBits_of_carriedOver hcarried, storedBits_take hm, h.bits]

theorem Compressed.carried_cut {m : Word} (hm : m < n) (hcarried : carriedOver obuf ibuf' m.toNat) :
    8 * m.toNat < (wireBits ilen.toNat tokens).length ∧
    ibufBits ibuf' 0 (8 * m.toNat) = (wireBits ilen.toNat tokens).take (8 * m.toNat) := by
  have hlt : m.toNat < n.toNat := hm
  have hlength := h.length
  have hcut : 8 * m.toNat < (wireBits ilen.toNat tokens).length := by omega
  refine ⟨hcut, (h.carriedBits hlt.le hcarried).trans ?_⟩
  rw [List.take_append_of_le_length hcut.le]

end

theorem zip_inputUpTo (ibuf : Memory) (n : Nat) :
    (List.range n).zip (inputUpTo ibuf n) = (List.range n).map fun a => (a, ibufByte ibuf a) := by
  have hzip := List.zip_map' (l := List.range n) (f := id) (g := ibufByte ibuf)
  rwa [List.map_id] at hzip

/-! ### The decoded length -/

/-- The token loop ends well only with the declared length reached. -/
theorem decodeTokens_total {ibuf : Memory} {total r : Word} {turns : Nat} {w w' : Work} (h : Reconstructing total w)
    (hdone : decodeTokens ibuf total turns w = .done r w') :
    r = total ∧ w'.obuf.map Prod.fst = List.range total.toNat := by
  induction turns generalizing w with
  | zero => cases hdone
  | succ turns ih =>
    obtain ⟨t, w₁, hfetch, hdone⟩ := bind_eq_done.1 hdone
    obtain ⟨o, w₂, heffect, hdone⟩ := bind_eq_done.1 hdone
    have h₁ := (h.fetched hfetch).1
    cases o with
    | none => exact ih (h₁.effect heffect).1 hdone
    | some r' =>
      cases hdone
      obtain ⟨hr, hend, rfl⟩ | ⟨hnone, -⟩ := tokenEffect_done heffect
      · exact ⟨Option.some.inj hr, hend ▸ h₁.inv.output⟩
      · cases hnone

theorem decompressAll_total {ibuf : Memory} {maxLen ilen ocap r : Word} {w : Work}
    (hdone : decompressAll ibuf maxLen (freshWork .dec ilen ocap) = .done r w) :
    r.toNat = declaredLength ibuf ∧ w.obuf.map Prod.fst = List.range r.toNat := by
  rw [decompressAll_eq] at hdone
  cases hverdict : headerVerdict ibuf maxLen.toNat ilen.toNat ocap.toNat with
  | some k => rw [hverdict] at hdone; cases hdone
  | none =>
    rw [hverdict] at hdone
    obtain ⟨rfl, hbytes⟩ := decodeTokens_total (reconstructing_start hverdict) hdone
    exact ⟨by rw [BitVec.toNat_ofNat, Nat.mod_eq_of_lt (declaredLength_lt ibuf)], hbytes⟩

end Sys2Proof.Machine
end

section
open Sys2Proof
open Sys2Proof.Machine

/-- Settles O44: EOS ends DECOMPRESS well only at the declared length, and the first 40 bits of COMPRESS are the tag and
ILEN. -/
theorem headerGivesLength : Obligations.HeaderGivesLength := by
  refine ⟨fun s t ilen ocap r0 r1 hexec hresp => ?_, fun s t ilen ocap r0 r1 hexec hresp => ?_⟩
  · obtain ⟨n, w, hdone, rfl⟩ | ⟨k, -, rfl⟩ := settleMacro_next ((exec_decompress_eq ilen ocap s).symm.trans hexec) <;>
      cases hresp
    exact decompressAll_total hdone
  · obtain ⟨tokens, h⟩ := compressed_of_ok hexec hresp
    refine ⟨h.headerByte (by decide) fun j hj => ?_, fun i hi => h.headerByte (by omega) fun j hj => ?_⟩
    · rw [getD_headerBits_tag (by omega)]
      congr 1
      omega
    · rw [getD_headerBits_length (by omega) (by omega), BitVec.getLsbD_extractLsb', decide_eq_true hj, Bool.true_and]
      congr 1
      omega

/-- Settles O46: the stream of COMPRESS is the header, legal tokens that expand to the input, and EOS, and DECOMPRESS
gives the expansion. -/
theorem roundTrip : Obligations.RoundTrip := by
  intro s t n ocap m hexec hresp s' ocap' hmax hcap hcarried
  obtain ⟨tokens, h⟩ := compressed_of_ok hexec hresp
  have hread := (ibufBits_of_carriedOver hcarried).trans h.bits
  obtain ⟨hroom, hbits⟩ := ibufBits_prefix hread
  have hrun := decompressRunsTokens s' m ocap' tokens _ h.expansion
  rw [inputUpTo_length, zip_inputUpTo, okResponse_toNat] at hrun
  exact hrun hmax hcap hroom hbits

/-- Settles O47: the cut is inside the header, or inside the bits of a token or of EOS, for what is cut off is more than
padding. -/
theorem truncationDetected : Obligations.TruncationDetected := by
  intro s t n ocap m hexec hresp s' m' ocap' hm hmax hcarried
  obtain ⟨tokens, h⟩ := compressed_of_ok hexec hresp
  obtain ⟨hcut, hbits⟩ := h.carried_cut hm hcarried
  rw [← inputUpTo_length s.ibuf n.toNat] at hcut hbits
  have hmax : (inputUpTo s.ibuf n.toNat).length ≤ s'.maxInputLen.toNat := by rw [inputUpTo_length]; exact hmax
  refine ⟨fun hcap => ?_, fun hcap hilen => ?_⟩ <;> rw [exec_decompress_eq]
  · rw [decompressAll_cut_short h.expansion hmax hcut hbits (by rw [inputUpTo_length]; exact hcap)]
    rfl
  · rw [decompressAll_cut_full hmax hbits hilen (by rw [inputUpTo_length]; exact hcap)]
    rfl

end

section
/-! SUPPORT. COMPRESS driven by hand with unit commands (43_sequencer R210, R220): each command goes on from the work
the one before left, so the sequence does to the work what COMPRESS does. -/

namespace Sys2Proof.Machine

/-! ### Sequences of unit commands -/

/-- The state after a unit command that answered OK with these results. -/
def answered (s : State) (out : Word × Word) (w : Work) : State :=
  { s with session := some w.ses, obuf := w.obuf, resp := some ⟨.ok, out.1, out.2⟩ }

theorem encSession_answered (s : State) (out : Word × Word) {w : Work} (h : w.ses.dir = .enc) :
    (answered s out w).encSession w.ses := ⟨rfl, h⟩

/-- What a command settles does not depend on the session, OBUF and response before it. -/
theorem settle_answered (r : Res (Word × Word)) (s : State) (out : Word × Word) (w : Work) :
    settle r (answered s out w) = settle r s := by
  cases r <;> rfl

/-- A sequence goes on from the work of its first command, and a failure of it is the failure of the sequence. -/
theorem thenOk_settle {r : Res (Word × Word)} {s : State} {next : State → Out}
    {rest : Word × Word → Work → Res (Word × Word)}
    (h : ∀ out w, r = .done out w → next (answered s out w) = settle (rest out w) s) :
    thenOk (settle r s) next = settle (r.bind rest) s := by
  cases r with
  | done out w => exact h out w rfl
  | raise k => rfl
  | stuck x => rfl

theorem runWhileOk_single (i : Instr) (s : State) : runWhileOk [i] s = exec i s := by
  rw [runWhileOk]
  cases exec i s with
  | next t => exact ite_self _
  | fault f => rfl
  | refused r => rfl

theorem runWhileOk_settle {i : Instr} {is : List Instr} {s t : State} {r : Res (Word × Word)}
    {rest : Word × Word → Work → Res (Word × Word)} (hi : exec i t = settle r s)
    (h : ∀ out w, r = .done out w → runWhileOk is (answered s out w) = settle (rest out w) s) :
    runWhileOk (i :: is) t = settle (r.bind rest) s := by
  rw [runWhileOk, hi]
  exact thenOk_settle h

/-! ### The unit commands of COMPRESS -/

section
variable (s : State) (out : Word × Word) {w : Work} (h : w.ses.dir = .enc)
include h

theorem exec_encode_answered (sym : Word) : exec (.encode sym) (answered s out w) =
    settle ((encodeSymbol sym.toNat w).bind fun len w => .done (BitVec.ofNat 32 len, 0) w) s :=
  (exec_encode_eq sym (encSession_answered s out h)).trans (settle_answered _ s out w)

theorem exec_wrbits_answered (value : Word) {count : Word} (hcount : count.toNat ≤ 32) :
    exec (.wrbits value count) (answered s out w) =
      settle ((writeBits count.toNat value w).bind fun _ w => .done (0, 0) w) s := by
  rw [writeBits_eq_writeCode]
  exact (exec_wrbits_eq value (encSession_answered s out h) hcount).trans (settle_answered _ s out w)

theorem exec_flush_answered : exec .flush (answered s out w) =
    settle ((flushBits w).bind fun _ w => .done (w.ses.olen, 0) w) s :=
  (exec_flush_eq (encSession_answered s out h)).trans (settle_answered _ s out w)

theorem exec_advance_answered {n : Word} (hn : n.toNat ≤ w.ses.ilen.toNat - w.ses.ipos.toNat) :
    exec (.advance n) (answered s out w) =
      settle (.done (0, 0) { w with ses := advanceBy s.ibuf n.toNat w.ses }) s :=
  exec_advance_eq (encSession_answered s out h) hn

theorem exec_findmatch_answered : exec .findmatch (answered s out w) =
    .next (answered s (BitVec.ofNat 32 (findMatch s.ibuf w.ses).1, BitVec.ofNat 32 (findMatch s.ibuf w.ses).2) w) :=
  exec_findmatch_eq (encSession_answered s out h)

end

/-- Writing leaves the direction and the input of the session. -/
structure InputKept (w w' : Work) : Prop where
  dir : w'.ses.dir = w.ses.dir
  ilen : w'.ses.ilen = w.ses.ilen
  ipos : w'.ses.ipos = w.ses.ipos

theorem InputKept.trans {w w₁ w' : Work} (h : InputKept w w₁) (h' : InputKept w₁ w') : InputKept w w' :=
  ⟨h'.dir.trans h.dir, h'.ilen.trans h.ilen, h'.ipos.trans h.ipos⟩

theorem inputKept_of_onlyWriterMoved {w w' : Work} (h : OnlyWriterMoved w.ses w'.ses) : InputKept w w' := by
  constructor <;> rw [h]

theorem inputKept_encodeSymbol {sym len : Nat} {w w' : Work} (h : encodeSymbol sym w = .done len w') :
    InputKept w w' := by
  obtain ⟨bits, w₁, -, -, -, hwrite, -, rfl⟩ := encodeSymbol_done h
  obtain ⟨hdir, hilen, hipos⟩ := inputKept_of_onlyWriterMoved (writeCode_frame hwrite).1
  exact ⟨hdir, hilen, hipos⟩

/-! ### A turn of the loop -/

theorem tokenCommands_none (r1 : Word) (literal : Byte) : tokenCommands ⟨.ok, BitVec.ofNat 32 0, r1⟩ literal =
    [.encode (literal.setWidth 32), .advance 1] := rfl

theorem tokenCommands_found {len : Nat} (r1 : Word) (literal : Byte) (hmin : 3 ≤ len) (hmax : len ≤ 18) :
    tokenCommands ⟨.ok, BitVec.ofNat 32 len, r1⟩ literal =
      [.encode (254 + BitVec.ofNat 32 len), .wrbits (r1 - 1) 12, .advance (BitVec.ofNat 32 len)] := by
  have hne : BitVec.ofNat 32 len ≠ 0 := fun e => by
    have hzero := congrArg BitVec.toNat e
    rw [BitVec.toNat_ofNat] at hzero
    change len % 2 ^ 32 = 0 at hzero
    omega
  exact if_pos hne

section
variable (s : State) (out : Word × Word) {w : Work} (h : w.ses.dir = .enc)
include h

/-- ENCODE and ADVANCE for a literal. -/
theorem runWhileOk_literal (hlt : w.ses.ipos < w.ses.ilen) (literal : Byte) :
    runWhileOk [.encode (literal.setWidth 32), .advance 1] (answered s out w) =
      settle ((encodeSymbol literal.toNat w).bind fun _ w =>
        .done (0, 0) { w with ses := advanceBy s.ibuf 1 w.ses }) s := by
  have hsym : (literal.setWidth 32).toNat = literal.toNat := BitVec.toNat_setWidth_of_le (by decide)
  have hlt : w.ses.ipos.toNat < w.ses.ilen.toNat := hlt
  rw [runWhileOk_settle (exec_encode_answered s out h _) (rest := fun _ w =>
    .done (0, 0) { w with ses := advanceBy s.ibuf 1 w.ses }) fun out' w' hdone => ?_, hsym, bind_assoc]
  · rfl
  · obtain ⟨len, w₁, hencode, e⟩ := bind_eq_done.1 hdone
    cases e
    obtain ⟨hdir, hilen, hipos⟩ := inputKept_encodeSymbol hencode
    rw [runWhileOk_single]
    exact exec_advance_answered s _ (hdir.trans h) (by rw [hilen, hipos]; exact Nat.sub_pos_of_lt hlt)

/-- ENCODE, WRBITS and ADVANCE for a match. -/
theorem runWhileOk_match {len dist : Nat} (hmax : len ≤ 18) (hrest : len ≤ w.ses.ilen.toNat - w.ses.ipos.toNat)
    (hlo : 1 ≤ dist) :
    runWhileOk [.encode (254 + BitVec.ofNat 32 len), .wrbits (BitVec.ofNat 32 dist - 1) 12,
        .advance (BitVec.ofNat 32 len)] (answered s out w) =
      settle ((encodeSymbol (254 + len) w).bind fun _ w =>
        (writeBits Config.windowBits (BitVec.ofNat 32 (dist - 1)) w).bind fun _ w =>
          .done (0, 0) { w with ses := advanceBy s.ibuf len w.ses }) s := by
  have hlen : (BitVec.ofNat 32 len).toNat = len := by rw [BitVec.toNat_ofNat]; omega
  have hsym : (254 + BitVec.ofNat 32 len).toNat = 254 + len := by
    rw [BitVec.toNat_add, hlen]
    change (254 + len) % 2 ^ 32 = _
    omega
  have hvalue : BitVec.ofNat 32 dist - 1 = BitVec.ofNat 32 (dist - 1) :=
    BitVec.ofNat_sub_ofNat_of_le _ _ (by decide) hlo
  rw [runWhileOk_settle (exec_encode_answered s out h _) (rest := fun _ w =>
    (writeBits Config.windowBits (BitVec.ofNat 32 (dist - 1)) w).bind fun _ w =>
      .done (0, 0) { w with ses := advanceBy s.ibuf len w.ses }) fun out' w' hdone => ?_, hsym, bind_assoc]
  · rfl
  obtain ⟨len', w₁, hencode, e⟩ := bind_eq_done.1 hdone
  cases e
  have hkept := inputKept_encodeSymbol hencode
  rw [hvalue, runWhileOk_settle (exec_wrbits_answered s _ (hkept.dir.trans h) _ (by decide)) (rest := fun _ w =>
    .done (0, 0) { w with ses := advanceBy s.ibuf len w.ses }) fun out'' w'' hdone' => ?_, bind_assoc]
  · rfl
  obtain ⟨_, w₂, hwrite, e⟩ := bind_eq_done.1 hdone'
  cases e
  obtain ⟨hdir, hilen, hipos⟩ := hkept.trans (inputKept_of_onlyWriterMoved (writeBits_frame hwrite).1)
  rw [runWhileOk_single, exec_advance_answered s _ (hdir.trans h) (by rw [hlen, hilen, hipos]; exact hrest), hlen]

/-- The commands of one token do what a turn of the loop of COMPRESS does (R210). -/
theorem runWhileOk_tokenCommands (hlt : w.ses.ipos < w.ses.ilen) :
    runWhileOk (tokenCommands ⟨.ok, BitVec.ofNat 32 (findMatch s.ibuf w.ses).1,
        BitVec.ofNat 32 (findMatch s.ibuf w.ses).2⟩ (ibufByte s.ibuf w.ses.ipos.toNat)) (answered s out w) =
      settle ((compressToken s.ibuf w).bind fun _ w => .done (0, 0) w) s := by
  rw [compressToken]
  obtain ⟨hnone, -⟩ | ⟨hmin, hbest⟩ := findMatch_cases s.ibuf w.ses
  · rw [hnone, tokenCommands_none, runWhileOk_literal s out h hlt, if_neg (by decide), bind_assoc]
    rfl
  · obtain ⟨hlo, -, hlen⟩ := hbest.found (by omega)
    have hmatch := matchLen_le s.ibuf w.ses (findMatch s.ibuf w.ses).2
    rw [hlen] at hmatch
    obtain ⟨hmax, hrest⟩ := hmatch
    rw [tokenCommands_found _ _ hmin hmax, runWhileOk_match s out h hmax hrest hlo, if_pos (by omega), bind_assoc]
    refine congrArg (settle · s) (congrArg _ (funext₂ fun _ w₁ => ?_))
    rw [bind_assoc]
    rfl

end

/-! ### The loop and the command -/

theorem handLoop_eq {s : State} {turns : Nat} {w : Work} (h : Compressing s.ibuf w) :
    handLoop turns (answered s (0, 0) w) =
      settle ((compressLoop s.ibuf turns w).bind fun _ w => .done (0, 0) w) s := by
  induction turns generalizing w with
  | zero => rfl
  | succ turns ih =>
    rw [handLoop, compressLoop]
    dsimp only [answered]
    by_cases hlt : w.ses.ipos < w.ses.ilen
    · rw [if_pos hlt, if_pos hlt, bind_assoc]
      have hfind := exec_findmatch_answered s (0, 0) h.enc
      have hturn := runWhileOk_tokenCommands s
        (BitVec.ofNat 32 (findMatch s.ibuf w.ses).1, BitVec.ofNat 32 (findMatch s.ibuf w.ses).2) h.enc hlt
      rw [answered] at hfind
      rw [hfind]
      change thenOk (runWhileOk _ _) _ = _
      rw [hturn, thenOk_settle (rest := fun _ w => (compressLoop s.ibuf turns w).bind fun _ w => .done (0, 0) w)
        fun out' w' hdone => ?_, bind_assoc]
      · rfl
      · obtain ⟨_, w₁, htoken, e⟩ := bind_eq_done.1 hdone
        cases e
        obtain ⟨i, n, hi⟩ := exists_turnIs h.inv.model h.window hlt
        exact ih (h.turn hi htoken).1
    · rw [if_neg hlt, if_neg hlt]
      rfl

/-- The two WRBITS write the header. -/
theorem runWhileOk_header (s : State) (out : Word × Word) {w : Work} (h : w.ses.dir = .enc) :
    runWhileOk [.wrbits 0x01 8, .wrbits w.ses.ilen 32] (answered s out w) =
      settle ((writeHeader w).bind fun _ w => .done (0, 0) w) s := by
  rw [runWhileOk_settle (exec_wrbits_answered s out h 0x01 (by decide)) (rest := fun _ w₁ =>
    (writeBits 32 w.ses.ilen w₁).bind fun _ w => .done (0, 0) w) fun out' w' hdone => ?_, writeHeader, bind_assoc,
    bind_assoc]
  · refine congrArg (settle · s) (bind_congr fun _ w₁ hwrite => ?_)
    rw [bind_done, (inputKept_of_onlyWriterMoved (writeBits_frame hwrite).1).ilen]
  · obtain ⟨_, w₁, hwrite, e⟩ := bind_eq_done.1 hdone
    cases e
    have hkept := inputKept_of_onlyWriterMoved (writeBits_frame hwrite).1
    rw [runWhileOk_single]
    exact exec_wrbits_answered s _ (hkept.dir.trans h) w.ses.ilen (by decide)

/-- INITE starts from the initial session, and the header follows. -/
theorem runWhileOk_opening (ilen ocap : Word) (s : State) :
    runWhileOk [.inite ilen ocap, .wrbits 0x01 8, .wrbits ilen 32] s =
      settle ((writeHeader (freshWork .enc ilen ocap)).bind fun _ w => .done (0, 0) w) s := by
  have hinite : exec (.inite ilen ocap) s = settle (.done (0, 0) (freshWork .enc ilen ocap)) s := rfl
  refine (runWhileOk_settle hinite (rest := fun _ w => (writeHeader w).bind fun _ w => .done (0, 0) w)
    fun out w hdone => ?_).trans (congrArg (settle · s) (bind_done _ _ _))
  cases hdone
  exact runWhileOk_header s (0, 0) (w := freshWork .enc ilen ocap) rfl

/-- ENCODE of EOS and FLUSH end the buffer. -/
theorem runWhileOk_end (s : State) (out : Word × Word) {w : Work} (h : w.ses.dir = .enc) :
    runWhileOk [.encode 256, .flush] (answered s out w) =
      settle ((encodeSymbol Config.symEos w).bind fun _ w =>
        (flushBits w).bind fun _ w => .done (w.ses.olen, 0) w) s := by
  rw [runWhileOk_settle (exec_encode_answered s out h 256) (rest := fun _ w =>
    (flushBits w).bind fun _ w => .done (w.ses.olen, 0) w) fun out' w' hdone => ?_, bind_assoc]
  · rfl
  · obtain ⟨len, w₁, hencode, e⟩ := bind_eq_done.1 hdone
    cases e
    rw [runWhileOk_single]
    exact exec_flush_answered s _ ((inputKept_encodeSymbol hencode).dir.trans h)

theorem handCompress_eq (ilen ocap : Word) (s : State) : handCompress ilen ocap s =
    settle ((compressAll s.ibuf (freshWork .enc ilen ocap)).bind fun n w => .done (n, 0) w) s := by
  rw [handCompress, runWhileOk_opening, thenOk_settle (rest := fun _ w =>
    (compressLoop s.ibuf w.ses.ilen.toNat w).bind fun _ w => (encodeSymbol Config.symEos w).bind fun _ w =>
      (flushBits w).bind fun _ w => .done (w.ses.olen, 0) w) fun out w hdone => ?_]
  · simp only [compressAll, bind_assoc, bind_done]
  · obtain ⟨_, w₁, hheader, e⟩ := bind_eq_done.1 hdone
    cases e
    rw [writeHeader_eq_writeCode] at hheader
    have h : HeaderWritten s.ibuf ilen ocap w := headerWritten s.ibuf hheader
    rw [handLoop_eq h.compressing, h.ilen, thenOk_settle (rest := fun _ w =>
      (encodeSymbol Config.symEos w).bind fun _ w => (flushBits w).bind fun _ w => .done (w.ses.olen, 0) w)
      fun out' w' hdone' => ?_, bind_assoc]
    · simp only [bind_done]
    · obtain ⟨_, w₂, hloop, e⟩ := bind_eq_done.1 hdone'
      cases e
      obtain ⟨tokens, htokens⟩ := compressLoop_writes h.compressing (by rw [h.ilen]; exact Nat.le_add_left _ _) hloop
      exact runWhileOk_end s _ htokens.compressing.enc

end Sys2Proof.Machine
end

section
open Sys2Proof
open Sys2Proof.Machine

/-- Settles O39: each unit command goes on from the work the one before left, as the parts of COMPRESS do. -/
theorem compressIsItsExpansion : Obligations.CompressIsItsExpansion := by
  intro s ilen ocap hmax
  rw [handCompress_eq, execCompress_within hmax]
  cases hall : compressAll s.ibuf (freshWork .enc ilen ocap) with
  | done n w => exact ⟨_, rfl, rfl⟩
  | raise k => exact ⟨_, rfl, rfl⟩
  | stuck x =>
    exact absurd hall ((compressAll_goesOn s.ibuf (w := freshWork .enc ilen ocap) parentsRise_initModel).not_stuck x)

end

section
/-! SUPPORT. COMPRESS and DECOMPRESS read the input below ILEN and nothing else of it (43_sequencer R222). -/

namespace Sys2Proof.Machine

/-- Two inputs with the same first bytes. -/
def AgreeBelow (ibuf ibuf' : Memory) (ilen : Word) : Prop := ∀ a, a < ilen.toNat → ibufByte ibuf a = ibufByte ibuf' a

/-! ### Compressing -/

section
variable {ibuf ibuf' : Memory} {ses : Session} (h : AgreeBelow ibuf ibuf' ses.ilen)
include h

theorem sourceByte_agrees {d l : Nat} (hl : ses.ipos.toNat + l < ses.ilen.toNat) :
    sourceByte ibuf ses d l = sourceByte ibuf' ses d l := by
  unfold sourceByte
  split
  · rfl
  · exact h _ (by omega)

theorem matchFrom_agrees {d left l : Nat} (hl : ses.ipos.toNat + l + left ≤ ses.ilen.toNat) :
    matchFrom ibuf ses d left l = matchFrom ibuf' ses d left l := by
  induction left generalizing l with
  | zero => rfl
  | succ left ih =>
    rw [matchFrom, matchFrom, sourceByte_agrees h (by omega), h _ (show ses.ipos.toNat + l < _ by omega),
      ih (by omega)]

theorem matchLen_agrees (d : Nat) : matchLen ibuf ses d = matchLen ibuf' ses d := by
  rw [matchLen, matchLen]
  by_cases hend : ses.ipos.toNat ≤ ses.ilen.toNat
  · exact matchFrom_agrees h (by omega)
  · rw [show ses.ilen.toNat - ses.ipos.toNat = 0 by omega, Nat.min_zero]
    rfl

theorem bestMatch_agrees (left d : Nat) (best : Nat × Nat) :
    bestMatch ibuf ses left d best = bestMatch ibuf' ses left d best := by
  induction left generalizing d best with
  | zero => rfl
  | succ left ih => rw [bestMatch, bestMatch, matchLen_agrees h, ih]

theorem findMatch_agrees : findMatch ibuf ses = findMatch ibuf' ses := by
  rw [findMatch, findMatch, bestMatch_agrees h]

end

theorem advanceBy_agrees {ibuf ibuf' : Memory} {n : Nat} {ses : Session} (h : AgreeBelow ibuf ibuf' ses.ilen)
    (hn : ses.ipos.toNat + n ≤ ses.ilen.toNat) : advanceBy ibuf n ses = advanceBy ibuf' n ses := by
  induction n generalizing ses with
  | zero => rfl
  | succ n ih =>
    have hlt : ses.ipos < ses.ilen := by change ses.ipos.toNat < _; omega
    have hone : advanceOne ibuf ses = advanceOne ibuf' ses := by rw [advanceOne, advanceOne, h _ hlt]
    rw [advanceBy_succ, advanceBy_succ, ← hone]
    refine ih (ses := advanceOne ibuf ses) h ?_
    change (ses.ipos + 1).toNat + n ≤ ses.ilen.toNat
    rw [toNat_succ_of_lt hlt]
    omega

theorem findMatch_inside (ibuf : Memory) (ses : Session) :
    (findMatch ibuf ses).1 ≤ ses.ilen.toNat - ses.ipos.toNat := by
  obtain ⟨hnone, -⟩ | ⟨hmin, hbest⟩ := findMatch_cases ibuf ses
  · rw [hnone]
    exact Nat.zero_le _
  · obtain ⟨-, -, hlen⟩ := hbest.found (by omega)
    exact hlen ▸ (matchLen_le ibuf ses _).2

theorem compressToken_agrees {ibuf ibuf' : Memory} {w : Work} (h : AgreeBelow ibuf ibuf' w.ses.ilen)
    (hlt : w.ses.ipos < w.ses.ilen) : compressToken ibuf w = compressToken ibuf' w := by
  have hlt : w.ses.ipos.toNat < w.ses.ilen.toNat := hlt
  have hinside := findMatch_inside ibuf w.ses
  have advanced : ∀ {w' : Work} {n : Nat}, InputKept w w' → w.ses.ipos.toNat + n ≤ w.ses.ilen.toNat →
      advanceBy ibuf n w'.ses = advanceBy ibuf' n w'.ses := fun hkept hn =>
    advanceBy_agrees (by rwa [hkept.ilen]) (by rwa [hkept.ilen, hkept.ipos])
  rw [compressToken, compressToken, ← findMatch_agrees h, h _ hlt]
  split
  · refine bind_congr fun len w₁ hencode => bind_congr fun _ w₂ hwrite => ?_
    have hkept := (inputKept_encodeSymbol hencode).trans (inputKept_of_onlyWriterMoved (writeBits_frame hwrite).1)
    rw [advanced hkept (by omega)]
  · refine bind_congr fun len w₁ hencode => ?_
    rw [advanced (inputKept_encodeSymbol hencode) hlt]

theorem compressLoop_agrees {ibuf ibuf' : Memory} {turns : Nat} {w : Work} (h : AgreeBelow ibuf ibuf' w.ses.ilen)
    (hw : Compressing ibuf w) : compressLoop ibuf turns w = compressLoop ibuf' turns w := by
  induction turns generalizing w with
  | zero => rfl
  | succ turns ih =>
    rw [compressLoop, compressLoop]
    split
    · rename_i hlt
      rw [← compressToken_agrees h hlt]
      refine bind_congr fun _ w₁ hdone => ?_
      obtain ⟨i, n, hturn⟩ := exists_turnIs hw.inv.model hw.window hlt
      obtain ⟨hw₁, hfirst⟩ := hw.turn hturn hdone
      exact ih (by rwa [hfirst.ilen]) hw₁
    · rfl

theorem compressAll_agrees {ibuf ibuf' : Memory} {ilen : Word} (h : AgreeBelow ibuf ibuf' ilen) (ocap : Word) :
    compressAll ibuf (freshWork .enc ilen ocap) = compressAll ibuf' (freshWork .enc ilen ocap) := by
  rw [compressAll_eq, compressAll_eq]
  refine bind_congr fun _ w hheader => ?_
  have hw := headerWritten ibuf hheader
  rw [compressLoop_agrees (by rwa [hw.ilen]) hw.compressing]

/-! ### Decompressing -/

theorem unreadBits_eq (ses : Session) : unreadBits ses = 8 * ses.ilen.toNat - readPos ses := by
  rw [unreadBits, readPos]
  omega

theorem readLoop_agrees {ibuf ibuf' : Memory} {n : Nat} {v : Word} {ses : Session}
    (h : AgreeBelow ibuf ibuf' ses.ilen) (hn : n ≤ unreadBits ses) :
    readLoop ibuf n v ses = readLoop ibuf' n v ses := by
  induction n generalizing v ses with
  | zero => rfl
  | succ n ih =>
    rw [unreadBits_eq] at hn
    have hbyte : ses.rbyte.toNat < ses.ilen.toNat := by rw [readPos] at hn; omega
    have hilen := ses.ilen.isLt
    have hbit : readBit ibuf ses = readBit ibuf' ses := by rw [readBit, readBit, h _ hbyte]
    have hpos := readBit_pos (ibuf := ibuf) (ses := ses) (by omega)
    have hkept : (readBit ibuf ses).2.ilen = ses.ilen := by rw [readBit_frame]
    rw [readLoop, readLoop, ← hbit]
    exact ih (by rwa [hkept]) (by rw [unreadBits_eq, hkept, hpos]; omega)

section
variable {ibuf ibuf' : Memory} {ilen : Word} (h : AgreeBelow ibuf ibuf' ilen)
include h

theorem readBits_agrees {n : Nat} {w : Work} (hw : w.ses.ilen = ilen) : readBits ibuf n w = readBits ibuf' n w := by
  rw [readBits, readBits]
  split
  · rfl
  · rename_i hunread
    rw [readLoop_agrees (by rwa [hw]) (Nat.le_of_not_lt hunread)]

theorem decodeWalk_agrees {left n : Nat} {w : Work} (hw : w.ses.ilen = ilen) :
    decodeWalk ibuf left n w = decodeWalk ibuf' left n w := by
  induction left generalizing n w with
  | zero => rfl
  | succ left ih =>
    rw [decodeWalk, decodeWalk]
    split
    · rfl
    · split
      · rfl
      · rw [← readBits_agrees h hw]
        exact bind_congr fun b w₁ hread => ih (by rw [(readBits_done hread).1]; exact hw)

theorem decodeSymbol_agrees {w : Work} (hw : w.ses.ilen = ilen) : decodeSymbol ibuf w = decodeSymbol ibuf' w := by
  rw [decodeSymbol, decodeSymbol, decodeWalk_agrees h hw]

theorem fetchToken_agrees {w : Work} (hw : w.ses.ilen = ilen) : fetchToken ibuf w = fetchToken ibuf' w := by
  rw [fetchToken, fetchToken, ← decodeSymbol_agrees h hw]
  refine bind_congr fun r w₁ hdecode => ?_
  obtain ⟨⟨hframe, -⟩, -⟩ := decodeSymbol_read hdecode
  rw [readBits_agrees h (w := w₁) (by rw [hframe]; exact hw)]

theorem decodeTokens_agrees {total : Word} {turns : Nat} {w : Work} (hrec : Reconstructing total w)
    (hw : w.ses.ilen = ilen) : decodeTokens ibuf total turns w = decodeTokens ibuf' total turns w := by
  induction turns generalizing w with
  | zero => rfl
  | succ turns ih =>
    rw [decodeTokens, decodeTokens, ← fetchToken_agrees h hw]
    refine bind_congr fun t w₁ hfetch => bind_congr fun r w₂ heffect => ?_
    obtain ⟨hrec₁, hilen, -⟩ := hrec.fetched hfetch
    cases r with
    | some n => rw [Option.elim_some, Option.elim_some]
    | none =>
      obtain ⟨hrec₂, hmoved⟩ := hrec₁.effect heffect
      exact ih hrec₂ (by rw [hmoved]; exact hilen.trans hw)

theorem declaredLength_agrees (hilen : 5 ≤ ilen.toNat) : declaredLength ibuf = declaredLength ibuf' := by
  rw [declaredLength, declaredLength, h 1 (by omega), h 2 (by omega), h 3 (by omega), h 4 (by omega)]

theorem headerVerdict_agrees (maxLen ocap : Nat) :
    headerVerdict ibuf maxLen ilen.toNat ocap = headerVerdict ibuf' maxLen ilen.toNat ocap := by
  rw [headerVerdict, headerVerdict]
  by_cases htag : ilen.toNat < 1
  · rw [if_pos htag, if_pos htag]
  · rw [h 0 (by omega)]
    by_cases hlength : ilen.toNat < 5
    · rw [if_pos hlength, if_pos hlength]
    · rw [declaredLength_agrees h (by omega)]

theorem decompressAll_agrees (maxLen ocap : Word) :
    decompressAll ibuf maxLen (freshWork .dec ilen ocap) = decompressAll ibuf' maxLen (freshWork .dec ilen ocap) := by
  rw [decompressAll_eq, decompressAll_eq, ← headerVerdict_agrees h]
  cases hverdict : headerVerdict ibuf maxLen.toNat ilen.toNat ocap.toNat with
  | some k => rw [Option.elim_some, Option.elim_some]
  | none =>
    have hilen : 5 ≤ ilen.toNat := by
      by_contra hshort
      rw [headerVerdict] at hverdict
      split at hverdict
      · cases hverdict
      split at hverdict
      · cases hverdict
      rw [if_pos (by omega)] at hverdict
      cases hverdict
    rw [Option.elim_none, Option.elim_none, decodeTokens_agrees h (reconstructing_start hverdict) rfl, tokensOpened,
      tokensOpened, declaredLength_agrees h hilen]

end

end Sys2Proof.Machine
end

section
/-! SUPPORT. OCAP decides whether COMPRESS or DECOMPRESS is AllocationFailure and nothing else (43_sequencer R222): with
another OCAP every operation gives the same, or one of the two has no room. -/

namespace Sys2Proof.Machine

/-! ### The relation -/

/-- The work with another capacity of OBUF. -/
def Work.withRoom (ocap : Word) (w : Work) : Work := { w with ses := { w.ses with ocap := ocap } }

/-- Two results are the same but for the capacity, or one of them is AllocationFailure. -/
def SameUpToRoom {α : Type} (ocap : Word) (r r' : Res α) : Prop :=
  r = .raise .allocationFailure ∨ r' = .raise .allocationFailure ∨ r' = r.bind fun a w => .done a (w.withRoom ocap)

/-- With another capacity an operation gives the same, or one of the two has no room. -/
def RoomFree {α : Type} (f : Work → Res α) : Prop := ∀ ocap w, SameUpToRoom ocap (f w) (f (w.withRoom ocap))

theorem sameUpToRoom_done {α : Type} (ocap : Word) (a : α) (w : Work) :
    SameUpToRoom ocap (.done a w) (.done a (w.withRoom ocap)) := .inr (.inr rfl)

theorem sameUpToRoom_raise {α : Type} (ocap : Word) (k : Failure) :
    SameUpToRoom ocap (.raise k : Res α) (.raise k) := .inr (.inr rfl)

theorem sameUpToRoom_stuck {α : Type} (ocap : Word) (x : Fault) :
    SameUpToRoom ocap (.stuck x : Res α) (.stuck x) := .inr (.inr rfl)

theorem SameUpToRoom.bind {α β : Type} {ocap : Word} {r r' : Res α} {f f' : α → Work → Res β}
    (h : SameUpToRoom ocap r r') (hf : ∀ a w, SameUpToRoom ocap (f a w) (f' a (w.withRoom ocap))) :
    SameUpToRoom ocap (r.bind f) (r'.bind f') := by
  obtain rfl | rfl | rfl := h
  · exact .inl rfl
  · exact .inr (.inl rfl)
  · cases r with
    | done a w => exact hf a w
    | raise k => exact sameUpToRoom_raise ocap k
    | stuck x => exact sameUpToRoom_stuck ocap x

/-! ### Writing bits -/

theorem emitByte_roomFree : RoomFree emitByte := by
  intro ocap w
  obtain ⟨-, hdone⟩ | ⟨-, hfull⟩ := emitByte_cases w
  · obtain ⟨-, hdone'⟩ | ⟨-, hfull'⟩ := emitByte_cases (w.withRoom ocap)
    · rw [hdone, hdone']
      exact sameUpToRoom_done ocap _ _
    · exact .inr (.inl hfull')
  · exact .inl hfull

theorem writeBit_roomFree (b : Bool) : RoomFree (writeBit b) := by
  intro ocap w
  rw [writeBit, writeBit]
  dsimp only
  split
  · rename_i hlast
    rw [if_pos (show (w.withRoom ocap).ses.wnb.toNat + 1 = 8 from hlast)]
    exact emitByte_roomFree ocap { w with ses := { w.ses with wacc := _ } }
  · rename_i hplace
    rw [if_neg (show ¬ (w.withRoom ocap).ses.wnb.toNat + 1 = 8 from hplace)]
    exact sameUpToRoom_done ocap _ _

theorem writeCode_roomFree (bits : List Bool) : RoomFree (writeCode bits) := by
  induction bits with
  | nil => exact fun ocap w => sameUpToRoom_done ocap _ w
  | cons b bits ih => exact fun ocap w => (writeBit_roomFree b ocap w).bind fun _ w => ih ocap w

theorem writeBits_roomFree (n : Nat) (v : Word) : RoomFree (writeBits n v) := by
  intro ocap w
  rw [writeBits_eq_writeCode, writeBits_eq_writeCode]
  exact writeCode_roomFree _ ocap w

theorem flushBits_roomFree : RoomFree flushBits := by
  intro ocap w
  rw [flushBits, flushBits]
  split
  · rename_i hpartial
    rw [if_pos (show 0 < (w.withRoom ocap).ses.wnb.toNat from hpartial)]
    exact emitByte_roomFree ocap w
  · rename_i haligned
    rw [if_neg (show ¬ 0 < (w.withRoom ocap).ses.wnb.toNat from haligned)]
    exact sameUpToRoom_done ocap _ w

theorem encodeSymbol_roomFree (sym : Nat) : RoomFree (encodeSymbol sym) := by
  intro ocap w
  rw [encodeSymbol, encodeSymbol]
  split
  · exact sameUpToRoom_raise ocap _
  · change SameUpToRoom ocap _ (match code w.ses.nodes sym with | none => _ | some bits => _)
    cases code w.ses.nodes sym with
    | none => exact sameUpToRoom_stuck ocap _
    | some bits => exact (writeCode_roomFree bits ocap w).bind fun _ w => sameUpToRoom_done ocap _ _

/-! ### COMPRESS -/

section
variable (ibuf : Memory) (ses : Session) (ocap : Word)

theorem matchFrom_withRoom (d left l : Nat) :
    matchFrom ibuf { ses with ocap := ocap } d left l = matchFrom ibuf ses d left l := by
  induction left generalizing l with
  | zero => rfl
  | succ left ih =>
    rw [matchFrom, matchFrom, ih]
    rfl

theorem bestMatch_withRoom (left d : Nat) (best : Nat × Nat) :
    bestMatch ibuf { ses with ocap := ocap } left d best = bestMatch ibuf ses left d best := by
  induction left generalizing d best with
  | zero => rfl
  | succ left ih =>
    have hlen : matchLen ibuf { ses with ocap := ocap } d = matchLen ibuf ses d :=
      matchFrom_withRoom ibuf ses ocap d _ 0
    rw [bestMatch, bestMatch, hlen, ih]

theorem findMatch_withRoom : findMatch ibuf { ses with ocap := ocap } = findMatch ibuf ses := by
  have hfill : fill { ses with ocap := ocap } = fill ses := rfl
  rw [findMatch, findMatch, hfill, bestMatch_withRoom]

theorem advanceBy_withRoom (n : Nat) :
    advanceBy ibuf n { ses with ocap := ocap } = { advanceBy ibuf n ses with ocap := ocap } := by
  induction n generalizing ses with
  | zero => rfl
  | succ n ih => exact ih (advanceOne ibuf ses)

end

theorem advanced_sameUpToRoom (ibuf : Memory) (n : Nat) (ocap : Word) (w : Work) :
    SameUpToRoom ocap (.done () { w with ses := advanceBy ibuf n w.ses })
      (.done () { w.withRoom ocap with ses := advanceBy ibuf n (w.withRoom ocap).ses }) :=
  .inr (.inr (by rw [Work.withRoom, advanceBy_withRoom]; rfl))

theorem compressToken_roomFree (ibuf : Memory) : RoomFree (compressToken ibuf) := by
  intro ocap w
  have hfound : findMatch ibuf (w.withRoom ocap).ses = findMatch ibuf w.ses := findMatch_withRoom ibuf w.ses ocap
  rw [compressToken, compressToken, hfound]
  split
  · exact (encodeSymbol_roomFree _ ocap w).bind fun _ w => (writeBits_roomFree _ _ ocap w).bind fun _ w =>
      advanced_sameUpToRoom ibuf _ ocap w
  · exact (encodeSymbol_roomFree _ ocap w).bind fun _ w => advanced_sameUpToRoom ibuf _ ocap w

theorem compressLoop_roomFree (ibuf : Memory) (turns : Nat) : RoomFree (compressLoop ibuf turns) := by
  induction turns with
  | zero => exact fun ocap w => sameUpToRoom_done ocap _ w
  | succ turns ih =>
    intro ocap w
    rw [compressLoop, compressLoop]
    split
    · rename_i hlt
      rw [if_pos (show (w.withRoom ocap).ses.ipos < (w.withRoom ocap).ses.ilen from hlt)]
      exact (compressToken_roomFree ibuf ocap w).bind fun _ w => ih ocap w
    · rename_i hend
      rw [if_neg (show ¬ (w.withRoom ocap).ses.ipos < (w.withRoom ocap).ses.ilen from hend)]
      exact sameUpToRoom_done ocap _ w

theorem writeHeader_roomFree : RoomFree writeHeader := by
  intro ocap w
  rw [writeHeader, writeHeader]
  exact (writeBits_roomFree 8 _ ocap w).bind fun _ w => writeBits_roomFree 32 w.ses.ilen ocap w

theorem compressAll_roomFree (ibuf : Memory) : RoomFree (compressAll ibuf) := by
  intro ocap w
  rw [compressAll, compressAll]
  exact (writeHeader_roomFree ocap w).bind fun _ w =>
    (compressLoop_roomFree ibuf w.ses.ilen.toNat ocap w).bind fun _ w =>
      (encodeSymbol_roomFree _ ocap w).bind fun _ w => (flushBits_roomFree ocap w).bind fun _ w =>
        sameUpToRoom_done ocap w.ses.olen w

/-! ### DECOMPRESS -/

theorem readLoop_withRoom (ibuf : Memory) (ocap : Word) (n : Nat) (v : Word) (ses : Session) :
    readLoop ibuf n v { ses with ocap := ocap } =
      ((readLoop ibuf n v ses).1, { (readLoop ibuf n v ses).2 with ocap := ocap }) := by
  induction n generalizing v ses with
  | zero => rfl
  | succ n ih =>
    have hbit : readBit ibuf { ses with ocap := ocap } =
        ((readBit ibuf ses).1, { (readBit ibuf ses).2 with ocap := ocap }) := by
      rw [readBit, readBit]
      dsimp only
      split <;> rfl
    rw [readLoop, readLoop, hbit]
    exact ih _ _

theorem readBits_roomFree (ibuf : Memory) (n : Nat) : RoomFree (readBits ibuf n) := by
  intro ocap w
  rw [readBits, readBits]
  split
  · rename_i hshort
    rw [if_pos (show unreadBits (w.withRoom ocap).ses < n from hshort)]
    exact sameUpToRoom_raise ocap _
  · rename_i hroom
    rw [if_neg (show ¬ unreadBits (w.withRoom ocap).ses < n from hroom)]
    exact .inr (.inr (congrArg (fun r : Word × Session => Res.done r.1 ⟨r.2, w.obuf⟩)
      (readLoop_withRoom ibuf ocap n 0 w.ses)))

theorem decodeWalk_roomFree (ibuf : Memory) (left n : Nat) : RoomFree (decodeWalk ibuf left n) := by
  induction left generalizing n with
  | zero =>
    intro ocap w
    rw [decodeWalk, decodeWalk]
    split
    · exact sameUpToRoom_done ocap _ w
    · exact sameUpToRoom_raise ocap _
  | succ left ih =>
    intro ocap w
    rw [decodeWalk, decodeWalk]
    split
    · exact sameUpToRoom_done ocap _ w
    · change SameUpToRoom ocap _ (match w.ses.nodes[n]? with | none => _ | some node => _)
      cases w.ses.nodes[n]? with
      | none => exact sameUpToRoom_raise ocap _
      | some node => exact (readBits_roomFree ibuf 1 ocap w).bind fun b w => ih _ ocap w

theorem decodeSymbol_roomFree (ibuf : Memory) : RoomFree (decodeSymbol ibuf) := fun ocap w =>
  (decodeWalk_roomFree ibuf _ _ ocap w).bind fun _ _ => sameUpToRoom_done ocap _ _

theorem fetchToken_roomFree (ibuf : Memory) : RoomFree (fetchToken ibuf) := by
  refine fun ocap w => (decodeSymbol_roomFree ibuf ocap w).bind fun r w => ?_
  split
  · exact sameUpToRoom_done ocap _ w
  · exact (readBits_roomFree ibuf _ ocap w).bind fun _ w => sameUpToRoom_done ocap _ w

theorem putByte_roomFree (b : Byte) : RoomFree (putByte b) := by
  intro ocap w
  obtain ⟨-, hdone⟩ | ⟨-, hfull⟩ := putByte_cases b w
  · obtain ⟨-, hdone'⟩ | ⟨-, hfull'⟩ := putByte_cases b (w.withRoom ocap)
    · rw [hdone, hdone']
      exact sameUpToRoom_done ocap _ _
    · exact .inr (.inl hfull')
  · exact .inl hfull

theorem copyLoop_roomFree (dist n : Nat) : RoomFree (copyLoop dist n) := by
  induction n with
  | zero => exact fun ocap w => sameUpToRoom_done ocap _ w
  | succ n ih => exact fun ocap w => (putByte_roomFree _ ocap w).bind fun _ w => ih ocap w

theorem copyMatch_roomFree (dist len : Nat) : RoomFree (copyMatch dist len) := by
  intro ocap w
  rw [copyMatch, copyMatch]
  split
  · rename_i hrange
    rw [if_pos (show copyInRange (w.withRoom ocap).ses dist len = true from hrange)]
    exact copyLoop_roomFree dist len ocap w
  · rename_i hrange
    rw [if_neg (show ¬ copyInRange (w.withRoom ocap).ses dist len = true from hrange)]
    exact sameUpToRoom_raise ocap _

theorem ite_sameUpToRoom {α : Type} {ocap : Word} {c : Prop} [Decidable c] {r r' q q' : Res α}
    (hpos : SameUpToRoom ocap r r') (hneg : SameUpToRoom ocap q q') :
    SameUpToRoom ocap (if c then r else q) (if c then r' else q') := by
  split
  · exact hpos
  · exact hneg

theorem tokenEffect_roomFree (total : Word) (t : Nat × Option Residual) : RoomFree (tokenEffect total t) :=
  fun ocap w => ite_sameUpToRoom
    (ite_sameUpToRoom (sameUpToRoom_raise ocap _)
      ((putByte_roomFree _ ocap w).bind fun _ w => sameUpToRoom_done ocap _ w))
    (ite_sameUpToRoom (ite_sameUpToRoom (sameUpToRoom_done ocap _ w) (sameUpToRoom_raise ocap _))
      (ite_sameUpToRoom (sameUpToRoom_raise ocap _) (ite_sameUpToRoom (sameUpToRoom_raise ocap _)
        ((copyMatch_roomFree _ _ ocap w).bind fun _ w => sameUpToRoom_done ocap _ w))))

theorem decodeTokens_roomFree (ibuf : Memory) (total : Word) (turns : Nat) :
    RoomFree (decodeTokens ibuf total turns) := by
  induction turns with
  | zero => exact fun ocap w => sameUpToRoom_raise ocap _
  | succ turns ih =>
    refine fun ocap w => (fetchToken_roomFree ibuf ocap w).bind fun t w =>
      (tokenEffect_roomFree total t ocap w).bind fun r w => ?_
    cases r with
    | none => exact ih ocap w
    | some n => exact sameUpToRoom_done ocap n w

theorem readHeader_roomFree (ibuf : Memory) (maxLen : Word) : RoomFree (readHeader ibuf maxLen) := by
  refine fun ocap w => (readBits_roomFree ibuf 8 ocap w).bind fun tag w =>
    ite_sameUpToRoom (sameUpToRoom_raise ocap _) ((readBits_roomFree ibuf 32 ocap w).bind fun total w =>
      ite_sameUpToRoom (sameUpToRoom_raise ocap _) ?_)
  split
  · exact .inl rfl
  · split
    · exact .inr (.inl rfl)
    · exact sameUpToRoom_done ocap _ _

theorem decompressAll_roomFree (ibuf : Memory) (maxLen : Word) : RoomFree (decompressAll ibuf maxLen) := fun ocap w =>
  (readHeader_roomFree ibuf maxLen ocap w).bind fun _ w => decodeTokens_roomFree ibuf _ _ ocap w

/-! ### The answers -/

/-- Two answers that are not AllocationFailure are the same. -/
theorem settleMacro_same {ocap : Word} {r r' : Res Word} {s s' t t' : State} {x x' : Response}
    (h : SameUpToRoom ocap r r') (ht : settleMacro r s = .next t) (ht' : settleMacro r' s' = .next t')
    (hx : t.resp = some x) (hx' : t'.resp = some x') (hroom : x.rsp ≠ .failed .allocationFailure)
    (hroom' : x'.rsp ≠ .failed .allocationFailure) : x = x' ∧ t.obuf = t'.obuf := by
  obtain rfl | rfl | rfl := h
  · cases ht; cases hx
    exact absurd rfl hroom
  · cases ht'; cases hx'
    exact absurd rfl hroom'
  · cases r with
    | done n w => cases ht; cases ht'; cases hx; cases hx'; exact ⟨rfl, rfl⟩
    | raise k => cases ht; cases ht'; cases hx; cases hx'; exact ⟨rfl, rfl⟩
    | stuck f => cases ht

theorem settleMacro_not_allocationFailure {r : Res Word} {s t : State} {x : Response}
    (h : r ≠ .raise .allocationFailure) (ht : settleMacro r s = .next t) (hx : t.resp = some x) :
    x.rsp ≠ .failed .allocationFailure := by
  obtain ⟨n, w, -, rfl⟩ | ⟨k, rfl, rfl⟩ := settleMacro_next ht <;> cases hx
  · exact nofun
  · exact fun e => by cases e; exact h rfl

/-- Inside the token loop there is room for the declared length (R215). -/
theorem Reconstructing.tokenEffect_room {total : Word} {t : Nat × Option Residual} {w : Work}
    (h : Reconstructing total w) : Machine.tokenEffect total t w ≠ .raise .allocationFailure := by
  obtain ⟨-, hcap, hle⟩ := h.inv.loop total h.loop
  intro hraise
  rw [Machine.tokenEffect] at hraise
  split at hraise
  · split at hraise
    · cases hraise
    · rename_i hend
      have hne : w.ses.olen.toNat ≠ total.toNat := fun e => hend (BitVec.eq_of_toNat_eq e)
      rw [putByte_room (by rw [BitVec.lt_def]; omega)] at hraise
      cases hraise
  split at hraise
  · split at hraise <;> cases hraise
  split at hraise
  · cases hraise
  split at hraise
  · cases hraise
  · rename_i hlen
    obtain ⟨-, e⟩ | ⟨-, e⟩ := copyMatch_cases ((t.2.getD 0).toNat + 1) (t.1 - 254) w <;> rw [e] at hraise
    · obtain ⟨w', hcopy⟩ := copyLoop_room (dist := (t.2.getD 0).toNat + 1) (n := t.1 - 254) (w := w) (by omega)
      rw [hcopy] at hraise
      cases hraise
    · cases hraise

theorem decodeTokens_room {ibuf : Memory} {total : Word} {turns : Nat} {w : Work} (h : Reconstructing total w) :
    decodeTokens ibuf total turns w ≠ .raise .allocationFailure := by
  induction turns generalizing w with
  | zero => exact nofun
  | succ turns ih =>
    intro hraise
    obtain hfetch | ⟨t, w₁, hfetch, hraise⟩ := bind_eq_raise.1 hraise
    · obtain e | e := fetchToken_raise hfetch <;> cases e
    have h₁ := (h.fetched hfetch).1
    obtain heffect | ⟨r, w₂, heffect, hraise⟩ := bind_eq_raise.1 hraise
    · exact h₁.tokenEffect_room heffect
    cases r with
    | none => exact ih (h₁.effect heffect).1 hraise
    | some n => cases hraise

theorem headerVerdict_room {ibuf : Memory} {maxLen ilen ocap : Nat} (hcap : declaredLength ibuf ≤ ocap) :
    headerVerdict ibuf maxLen ilen ocap ≠ some .allocationFailure := by
  rw [headerVerdict, if_neg (Nat.not_lt.2 hcap)]
  repeat' split
  all_goals exact nofun

theorem decompressAll_room {ibuf : Memory} {maxLen ilen ocap : Word} (hcap : declaredLength ibuf ≤ ocap.toNat) :
    decompressAll ibuf maxLen (freshWork .dec ilen ocap) ≠ .raise .allocationFailure := by
  rw [decompressAll_eq]
  cases hverdict : headerVerdict ibuf maxLen.toNat ilen.toNat ocap.toNat with
  | some k =>
    intro e
    cases e
    exact headerVerdict_room hcap hverdict
  | none => exact decodeTokens_room (reconstructing_start hverdict)

end Sys2Proof.Machine
end

section
open Sys2Proof
open Sys2Proof.Machine

/-- Settles O45: no operation reads the input at or beyond ILEN, and OCAP is only compared with OLEN and the declared
length. -/
theorem macrosIgnoreHistory : Obligations.MacrosIgnoreHistory := by
  intro s s' ilen hinput hmax
  refine ⟨fun ocap => ?_, fun ocap => ?_, fun ocap ocap' t t' r r' hlen ht ht' hr hr' => ?_,
    fun ocap ocap' t t' r r' ht ht' hr hr' => ?_⟩
  · by_cases hlarge : s.maxInputLen < ilen
    · exact ⟨[], _, if_pos hlarge, if_pos (hmax ▸ hlarge)⟩
    · have hwithin := BitVec.not_lt.1 hlarge
      obtain ⟨obuf', r, -, hend⟩ := settleMacro_ends (r := compressAll s.ibuf (freshWork .enc ilen ocap))
        (compressAll_goesOn s.ibuf (w := freshWork .enc ilen ocap) parentsRise_initModel).not_stuck
      refine ⟨obuf', some r, (execCompress_within hwithin ocap).trans (hend s), ?_⟩
      rw [execCompress_within (hmax ▸ hwithin), ← compressAll_agrees hinput]
      exact hend s'
  · obtain ⟨obuf', r, -, hend⟩ :=
      settleMacro_ends (decompressAll_not_stuck s.ibuf s.maxInputLen (freshWork .dec ilen ocap))
    refine ⟨obuf', some r, (exec_decompress_eq ilen ocap s).trans (hend s), ?_⟩
    have hsame := decompressAll_agrees hinput s.maxInputLen ocap
    rw [hmax] at hsame hend
    rw [exec_decompress_eq, ← hsame]
    exact hend s'
  · have hresponse := (execCompress_responds ilen ocap s).of_next ht hr
    refine ⟨?_, fun hok hok' => ?_⟩
    · obtain hok | hfull | ⟨-, hlarge⟩ := hresponse
      · exact .inl hok
      · exact .inr hfull
      · exact absurd hlarge (BitVec.not_lt.2 hlen)
    · rw [execCompress_within hlen] at ht
      rw [execCompress_within (hmax ▸ hlen), ← compressAll_agrees hinput] at ht'
      exact settleMacro_same (compressAll_roomFree s.ibuf ocap' (freshWork .enc ilen ocap)) ht ht' hr hr'
        (by rw [hok]; exact nofun) (by rw [hok']; exact nofun)
  · rw [exec_decompress_eq] at ht ht'
    exact ⟨fun hcap => settleMacro_not_allocationFailure (decompressAll_room hcap) ht hr,
      settleMacro_same (decompressAll_roomFree s.ibuf s.maxInputLen ocap' (freshWork .dec ilen ocap)) ht ht' hr hr'⟩

end

section
/-! SUPPORT. How a command fails, said once of each way a command can end: only by Fail, whose next state R250 fixes. -/

namespace Sys2Proof.Machine

/-- Where the outcome answers a failure in place of s, it is Fail from s (60_exceptions R250). -/
def FailsCleanly (s : State) (o : Out) : Prop :=
  ∀ t k r0 r1, o = .next t → t.resp = some ⟨.failed k, r0, r1⟩ → t = fail k s

section
variable {s : State}

theorem failsCleanly_answer (r0 r1 : Word) (u : State) : FailsCleanly s (.next (answer r0 r1 u)) := by
  intro t k _ _ ht hr
  cases ht; cases hr

theorem failsCleanly_reject : FailsCleanly s (.next (reject s)) := by
  intro t k _ _ ht hr
  cases ht; cases hr

theorem failsCleanly_fail (k : Failure) : FailsCleanly s (.next (fail k s)) := by
  intro t k' _ _ ht hr
  cases ht; cases hr; rfl

theorem failsCleanly_settle (r : Res (Word × Word)) : FailsCleanly s (settle r s) := by
  intro t k r0 r1 ht hr
  rcases settle_next ht with ⟨out, w, -, rfl⟩ | ⟨k', -, rfl⟩
  · cases hr
  · cases hr; rfl

theorem failsCleanly_settleMacro (r : Res Word) : FailsCleanly s (settleMacro r s) := by
  intro t k r0 r1 ht hr
  rcases settleMacro_next ht with ⟨n, w, -, rfl⟩ | ⟨k', -, rfl⟩
  · cases hr
  · cases hr; rfl

theorem failsCleanly_inSession {d : Dir} {run : Work → Out} (h : ∀ w, FailsCleanly s (run w)) :
    FailsCleanly s (inSession d s run) := by
  rcases inSession_cases d s run with ⟨ses, -, -, e⟩ | ⟨-, e⟩ <;> rw [e]
  · exact h _
  · exact failsCleanly_reject

/-- A unit command of a direction that tests its operand, then settles. -/
theorem failsCleanly_inSession_test {d : Dir} {test : Work → Bool} {r : Work → Res (Word × Word)} :
    FailsCleanly s (inSession d s fun w => if test w then settle (r w) s else .next (reject s)) := by
  refine failsCleanly_inSession fun w => ?_
  split
  · exact failsCleanly_settle _
  · exact failsCleanly_reject

end

theorem exec_failsCleanly {i : Instr} (hi : isCommand i = true) (s : State) : FailsCleanly s (exec i s) := by
  cases i with
  | nop | inite _ _ | initd _ _ | release => exact failsCleanly_answer _ _ _
  | rdreg regno =>
    rw [exec, execRdreg]
    split
    · exact failsCleanly_answer _ _ _
    · exact failsCleanly_reject
  | flush | encode _ | decode | putlit _ | copy _ _ =>
    simp only [exec, execFlush, execEncode, execDecode, execPutlit, execCopy]
    exact failsCleanly_inSession fun _ => failsCleanly_settle _
  | findmatch =>
    rw [exec, execFindmatch]
    exact failsCleanly_inSession fun _ => failsCleanly_answer _ _ _
  | wrbits _ _ | rdbits _ | advance _ =>
    simp only [exec, execWrbits, execRdbits, execAdvance]
    exact failsCleanly_inSession_test
  | compress ilen ocap =>
    rw [exec, execCompress]
    split
    · exact failsCleanly_fail _
    · exact failsCleanly_settleMacro _
  | decompress ilen ocap =>
    rw [exec_decompress_eq]
    exact failsCleanly_settleMacro _
  | _ => cases hi

end Sys2Proof.Machine
end

section
open Sys2Proof
open Sys2Proof.Machine

/-- Settles O52: a failure is answered only where an operation raises it, and there the command ends in Fail. -/
theorem failureReleasesSession : Obligations.FailureReleasesSession :=
  fun _ s t k r0 r1 hi hexec hr => exec_failsCleanly hi s t k r0 r1 hexec hr

/-- Settles O53: only what is not accepted is Rejected (R206, R245), and that is answered before anything is done. -/
theorem rejectedChangesNothing : Obligations.RejectedChangesNothing := by
  intro i s t r0 r1 hi hexec hr
  have hrefused : accepted i s = false := (rejectedExactly i s hi).1 ⟨t, r0, r1, hexec, hr⟩
  exact Host.Outcome.next.inj (hexec.symm.trans (exec_rejects hrefused))

end

section
/-! SUPPORT. What is accepted without a session (70_reset_and_hazards R282), and that it answers. -/

namespace Sys2Proof.Machine

/-- Without a session the legality table R206 comes down to the list of R282: no command of a direction is accepted, and
of the registers only STATE can be read. -/
theorem accepted_of_no_session {i : Instr} {s : State} (hi : isCommand i = true) (hs : s.session = none) :
    accepted i s = acceptedWithoutSession i := by
  have hin : ∀ d, s.isIn d = false := fun d => by rw [State.isIn, hs]
  cases i with
  | nop | inite _ _ | initd _ _ | release | compress _ _ | decompress _ _ => rfl
  | rdreg regno =>
    by_cases hzero : regno = 0
    · subst hzero; rfl
    · have hne : regno.toNat ≠ 0 := fun e => hzero (BitVec.eq_of_toNat_eq e)
      rw [accepted_rdreg, State.sessionHas, hs, decide_eq_false hne, Bool.or_self, Bool.and_false]
      exact (decide_eq_false hzero).symm
  | wrbits _ _ | rdbits _ | advance _ => exact Bool.and_eq_false_iff.2 (.inl (hin _))
  | flush | encode _ | decode | findmatch | putlit _ | copy _ _ => exact hin _
  | _ => cases hi

/-- The commands of R282 give a response in every state, the macros because each comes to its end. -/
theorem exec_responds_of_acceptedWithoutSession {i : Instr} (h : acceptedWithoutSession i = true) (s : State) :
    Responds (exec i s) (· ≠ .rejected) := by
  cases i with
  | nop | inite _ _ | initd _ _ | release => exact responds_answer nofun
  | rdreg regno =>
    obtain rfl : regno = 0 := of_decide_eq_true h
    exact responds_answer nofun
  | compress ilen ocap => exact (execCompress_responds ilen ocap s).imp fun _ hr e => by simp [e] at hr
  | decompress ilen ocap => exact (execDecompress_responds ilen ocap s).imp fun _ hr e => by subst e; cases hr
  | _ => cases h

theorem exec_release_of_no_session {s : State} (hs : s.session = none) :
    exec .release s = .next { s with resp := okResponse 0 0 } := by
  rw [releaseEndsSession s, ← hs]

theorem exec_rdreg_state_of_no_session {s : State} (hs : s.session = none) :
    exec (.rdreg 0) s = .next { s with resp := okResponse 0 0 } := by
  rw [(rdregReadsRegisters s).1, State.valid, State.dirBit, hs]
  rfl

end Sys2Proof.Machine
end

section
open Sys2Proof
open Sys2Proof.Machine

/-- Settles O11: the list of R282 is what R206 accepts without a session, and all of it answers. -/
theorem firstCommandsAfterReset : Obligations.FirstCommandsAfterReset := by
  refine fun s hs => ⟨fun i _ h => exec_responds_of_acceptedWithoutSession h s, fun i hi h => ?_,
    exec_release_of_no_session hs, exec_rdreg_state_of_no_session hs⟩
  exact exec_rejects ((accepted_of_no_session hi hs).trans h)

end
